-- ==== Sys2Proof/Word.lean ====
section
/-!
DEFINITION. The word types of the QingKe V2 model (spec 00_scope.md R10, R11): bit 0 is the least significant bit,
arithmetic wraps. Numbers that only name something (registers, interrupts) are `Fin`.
-/

namespace Sys2Proof

/-- A 32-bit register, address or memory word (00_scope.md R11). -/
abbrev Word := BitVec 32

/-- A memory byte (20_memory.md R80). -/
abbrev Byte := BitVec 8

/-- A 16-bit instruction parcel (30_encoding.md R120). -/
abbrev Parcel := BitVec 16

/-- A general register number x0..x15 (10_state.md R20). -/
abbrev Reg := Fin 16

/-- An interrupt number 0..255 (61_pfic.md R420). -/
abbrev Irq := Fin 256

end Sys2Proof
end

