-- ==== Sys2Proof/Config.lean ====
section
/-!
DEFINITION. What an implementation fixes and the spec leaves open (00_scope.md R9), as plain data carried by the state
and changed by no step (notes/assumptions/1.md), and the free values: opaque constants that no proof can look into,
applied to a counter of the state (notes/assumptions/9.md).
-/

namespace Sys2Proof

/-- The two models of the series (00_scope.md R2). -/
inductive Variant where
  | v2a
  | v2c
  deriving DecidableEq, Repr

/-- The eight XW mnemonics (46_xw.md R330). -/
inductive XwOp where
  | lbu | lhu | sb | sh | lbusp | lhusp | sbsp | shsp
  deriving DecidableEq, Repr

/-- A decoded XW instruction `(op, reg, base, uimm)` (46_xw.md R330); `base` is 2 for the four `sp` forms. -/
structure XwForm where
  op : XwOp
  reg : Reg
  base : Reg
  uimm : Word
  deriving DecidableEq, Repr

/-- The parameter `xw_decode` as a finite map from 16-bit words (46_xw.md R330). -/
abbrev XwTable := List (Parcel × XwForm)

/-- What decoding depends on (00_scope.md R9). `xwDecode = none` is "not supplied" (30_encoding.md R144). -/
structure Isa where
  hasZmmul : Bool
  hasXw : Bool
  xwDecode : Option XwTable
  deriving DecidableEq, Repr

/-- The kinds of byte address of `mem_map` (20_memory.md R94). -/
inductive RegionKind where
  | ram | rom | device | unmapped
  deriving DecidableEq, Repr

/-- One entry of `mem_map`: the addresses `base ≤ a < base + size`. -/
structure Region where
  base : Nat
  size : Nat
  kind : RegionKind
  deriving DecidableEq, Repr

/-- What a store to read-only memory does, a part of `mem_map` (20_memory.md R94, U-36). -/
inductive RomStore where
  | ignored
  | accessError
  deriving DecidableEq, Repr

/-- The parameters of 00_scope.md R9. The first region of `memMap` that holds an address decides its kind; an address
in none is unmapped. The fields beginning `v2c` are read on V2C only: V2A's values are stated by the spec. -/
structure Config where
  variant : Variant
  /-- `has_xw` on V2C (46_xw.md R332). -/
  v2cHasXw : Bool
  xwDecode : Option XwTable
  resetPc : Word
  memMap : List Region
  romStore : RomStore
  /-- `irq_implemented`, bit n for external interrupt n; bits 0..15 are not read (61_pfic.md R438). -/
  irqImplemented : BitVec 256
  v2cMarchid : Word
  v2cMisa : Word
  v2cMimpid : Word
  pendingClearOnEntry : Bool
  stkReloadAfterMatch : Bool
  /-- Where the program buffer appears to the pc while it is executed (U-22). -/
  progbufBase : Word
  deriving DecidableEq, Repr

namespace Config

/-- `has_zmmul`: true on V2C, false on V2A (44_zmmul.md R270). -/
def hasZmmul (c : Config) : Bool := decide (c.variant = .v2c)

/-- `has_xw`: true on V2A, a parameter on V2C (46_xw.md R332). -/
def hasXw (c : Config) : Bool := decide (c.variant = .v2a) || c.v2cHasXw

/-- What decoding reads of the configuration. -/
def isa (c : Config) : Isa :=
  { hasZmmul := c.hasZmmul, hasXw := c.hasXw, xwDecode := c.xwDecode }

/-- `marchid` (10_state.md R40). -/
def marchid (c : Config) : Word :=
  match c.variant with
  | .v2a => 0xDC68D841#32
  | .v2c => c.v2cMarchid

/-- `misa` (10_state.md R37). -/
def misa (c : Config) : Word :=
  match c.variant with
  | .v2a => 0x40800014#32
  | .v2c => c.v2cMisa

/-- `mimpid` (10_state.md R41). -/
def mimpid (c : Config) : Word :=
  match c.variant with
  | .v2a => 0xDC688001#32
  | .v2c => c.v2cMimpid

/-- The requirements the spec puts on the parameters: `reset_pc` is even (70_reset_and_hazards.md R562); the
program buffer begins at an even address, as every instruction does (30_encoding.md R120). -/
def wf (c : Config) : Bool :=
  !c.resetPc.getLsbD 0 && !c.progbufBase.getLsbD 0

/-- The configuration of `State.reset`, a V2C with RAM below 0xE0000000 (notes/assumptions/1.md, 42.md).
Statements about every state hold for every configuration. -/
def atReset : Config :=
  { variant := .v2c
    v2cHasXw := false
    xwDecode := none
    resetPc := 0x00000000#32
    memMap := [{ base := 0, size := 0xE0000000, kind := .ram }]
    romStore := .ignored
    irqImplemented := BitVec.allOnes 256
    v2cMarchid := 0xDC68D843#32
    v2cMisa := 0x40000014#32
    v2cMimpid := 0xDC688001#32
    pendingClearOnEntry := false
    stkReloadAfterMatch := true
    progbufBase := 0x00000000#32 }

/-- A word the spec leaves open, drawn with the state's counter (notes/assumptions/9.md). -/
opaque freeWord : Nat → BitVec 32

/-- A truth value the spec leaves open, drawn with the state's counter (notes/assumptions/9.md). -/
opaque freeBool : Nat → Bool

/-- What the byte at an address holds before anything writes it, after the given number of resets: the spec gives
RAM after reset any value (10_state.md R60, U-29; notes/assumptions/3.md). -/
opaque unwrittenByte : Nat → Nat → BitVec 8

end Config

end Sys2Proof
end

