-- ==== Sys2Proof/Syntax.lean ====
section
/-!
DEFINITION. The instructions, one constructor for each row of spec/opcode_table.json. Immediates stand as the spec's
rules assemble them (30_encoding.md R122 to R132): a byte offset with its low zero bits, not the scrambled field.
-/

namespace Sys2Proof

/-- The instructions of the opcode table, in the order of the spec's files 40 to 46. -/
inductive Instr where
  -- 40_integer_computational.md R161, R162: `imm` is w[31:12]
  | lui (rd : Reg) (imm : BitVec 20)
  | auipc (rd : Reg) (imm : BitVec 20)
  -- R163 to R168: `imm` is the I-immediate (30_encoding.md R122)
  | addi (rd rs1 : Reg) (imm : BitVec 12)
  | slti (rd rs1 : Reg) (imm : BitVec 12)
  | sltiu (rd rs1 : Reg) (imm : BitVec 12)
  | xori (rd rs1 : Reg) (imm : BitVec 12)
  | ori (rd rs1 : Reg) (imm : BitVec 12)
  | andi (rd rs1 : Reg) (imm : BitVec 12)
  -- R169 to R171
  | slli (rd rs1 : Reg) (shamt : BitVec 5)
  | srli (rd rs1 : Reg) (shamt : BitVec 5)
  | srai (rd rs1 : Reg) (shamt : BitVec 5)
  -- R172 to R181
  | add (rd rs1 rs2 : Reg)
  | sub (rd rs1 rs2 : Reg)
  | sll (rd rs1 rs2 : Reg)
  | slt (rd rs1 rs2 : Reg)
  | sltu (rd rs1 rs2 : Reg)
  | xor (rd rs1 rs2 : Reg)
  | srl (rd rs1 rs2 : Reg)
  | sra (rd rs1 rs2 : Reg)
  | or (rd rs1 rs2 : Reg)
  | and (rd rs1 rs2 : Reg)
  -- 41_control_transfer.md R201 to R209: `imm` is the byte offset (30_encoding.md R126, R127)
  | jal (rd : Reg) (imm : BitVec 21)
  | jalr (rd rs1 : Reg) (imm : BitVec 12)
  | beq (rs1 rs2 : Reg) (imm : BitVec 13)
  | bne (rs1 rs2 : Reg) (imm : BitVec 13)
  | blt (rs1 rs2 : Reg) (imm : BitVec 13)
  | bge (rs1 rs2 : Reg) (imm : BitVec 13)
  | bltu (rs1 rs2 : Reg) (imm : BitVec 13)
  | bgeu (rs1 rs2 : Reg) (imm : BitVec 13)
  -- 42_load_store.md R221 to R229
  | lb (rd rs1 : Reg) (imm : BitVec 12)
  | lh (rd rs1 : Reg) (imm : BitVec 12)
  | lw (rd rs1 : Reg) (imm : BitVec 12)
  | lbu (rd rs1 : Reg) (imm : BitVec 12)
  | lhu (rd rs1 : Reg) (imm : BitVec 12)
  | sb (rs2 rs1 : Reg) (imm : BitVec 12)
  | sh (rs2 rs1 : Reg) (imm : BitVec 12)
  | sw (rs2 rs1 : Reg) (imm : BitVec 12)
  -- 43_system.md R240 to R253: the fields the model ignores are kept (30_encoding.md R129)
  | fence (fm pred succ : BitVec 4) (rs1 rd : BitVec 5)
  | fenceI (imm : BitVec 12) (rs1 rd : BitVec 5)
  | ecall
  | ebreak
  | csrrw (rd : Reg) (csr : BitVec 12) (rs1 : Reg)
  | csrrs (rd : Reg) (csr : BitVec 12) (rs1 : Reg)
  | csrrc (rd : Reg) (csr : BitVec 12) (rs1 : Reg)
  | csrrwi (rd : Reg) (csr : BitVec 12) (uimm : BitVec 5)
  | csrrsi (rd : Reg) (csr : BitVec 12) (uimm : BitVec 5)
  | csrrci (rd : Reg) (csr : BitVec 12) (uimm : BitVec 5)
  | mret
  | wfi
  -- 44_zmmul.md R272 to R275
  | mul (rd rs1 rs2 : Reg)
  | mulh (rd rs1 rs2 : Reg)
  | mulhsu (rd rs1 rs2 : Reg)
  | mulhu (rd rs1 rs2 : Reg)
  -- 45_compressed.md R281 to R307; registers written rd', rs1', rs2' there are x8..x15
  | cAddi4spn (rd : Reg) (nzuimm : BitVec 10)
  | cLw (rd rs1 : Reg) (uimm : BitVec 7)
  | cSw (rs2 rs1 : Reg) (uimm : BitVec 7)
  | cNop (imm : BitVec 6)
  | cAddi (rd : Reg) (imm : BitVec 6)
  | cJal (imm : BitVec 12)
  | cLi (rd : Reg) (imm : BitVec 6)
  | cAddi16sp (nzimm : BitVec 10)
  | cLui (rd : Reg) (nzimm : BitVec 6)
  | cSrli (rd : Reg) (shamt : BitVec 5)
  | cSrai (rd : Reg) (shamt : BitVec 5)
  | cAndi (rd : Reg) (imm : BitVec 6)
  | cSub (rd rs2 : Reg)
  | cXor (rd rs2 : Reg)
  | cOr (rd rs2 : Reg)
  | cAnd (rd rs2 : Reg)
  | cJ (imm : BitVec 12)
  | cBeqz (rs1 : Reg) (imm : BitVec 9)
  | cBnez (rs1 : Reg) (imm : BitVec 9)
  | cSlli (rd : Reg) (shamt : BitVec 5)
  | cLwsp (rd : Reg) (uimm : BitVec 8)
  | cJr (rs1 : Reg)
  | cMv (rd rs2 : Reg)
  | cEbreak
  | cJalr (rs1 : Reg)
  | cAdd (rd rs2 : Reg)
  | cSwsp (rs2 : Reg) (uimm : BitVec 8)
  -- 46_xw.md R333 to R340
  | cLbu (rd rs1 : Reg) (uimm : Word)
  | cLhu (rd rs1 : Reg) (uimm : Word)
  | cSb (rs2 rs1 : Reg) (uimm : Word)
  | cSh (rs2 rs1 : Reg) (uimm : Word)
  | cLbusp (rd : Reg) (uimm : Word)
  | cLhusp (rd : Reg) (uimm : Word)
  | cSbsp (rs2 : Reg) (uimm : Word)
  | cShsp (rs2 : Reg) (uimm : Word)
  deriving DecidableEq, Repr

end Sys2Proof
end

