-- ==== Sys2Proof/Decode.lean ====
section
/-!
DEFINITION. Decoding (30_encoding.md R120 to R146), total on any parcels and rejecting by name, and after it the
encoder, written from the same tables.
-/

namespace Sys2Proof

/-- Why a word is no instruction. Every reason but `xwNotSupplied` and `truncated` makes the machine take exception 2
(30_encoding.md R140; notes/assumptions/5.md). -/
inductive DecodeError where
  /-- The 16-bit word 0x0000 or a first parcel 0xFFFF (R141). -/
  | definedIllegal
  /-- A length code of 48 bits or more (R120). -/
  | longEncoding
  /-- A major opcode that is not in use (R133, R140). -/
  | unknownOpcode
  /-- A funct3 or funct7 value that is not in use (R140, R182, R226, R230, R251). -/
  | unknownFunction
  /-- A multiply on a core without Zmmul (R146). -/
  | noZmmul
  /-- A 5-bit register field of 16..31 (R135). -/
  | reservedRegister
  /-- A free or reserved 16-bit code point that no XW instruction claims (R143, R145). -/
  | reservedCompressed
  /-- A free 16-bit code point of a core with XW whose `xw_decode` is not supplied (R144). -/
  | xwNotSupplied
  /-- The parcels end before the instruction does. -/
  | truncated
  deriving DecidableEq, Repr

/-- What a decoding step answers. -/
abbrev Decoded := Except DecodeError Instr

/-- The bits `[lo + len - 1 : lo]` of a word (00_scope.md R10). -/
abbrev field {n : Nat} (w : BitVec n) (lo len : Nat) : BitVec len := w.extractLsb' lo len

/-- A 5-bit register field: 0..15 name a register, 16..31 are reserved (R135). -/
def reg5 (f : BitVec 5) : Except DecodeError Reg :=
  if h : f.toNat < 16 then .ok ⟨f.toNat, h⟩ else .error .reservedRegister

/-- A 3-bit register field names x8..x15 (R131). -/
def reg3 (f : BitVec 3) : Reg := ⟨8 + f.toNat, by have := f.isLt; omega⟩

/-! ### 32-bit instructions -/

/-- The I-immediate, CSR address or FENCE fields (R122, R128, R129). -/
def immI (w : BitVec 32) : BitVec 12 := field w 20 12

/-- The S-immediate (R123). -/
def immS (w : BitVec 32) : BitVec 12 := field w 25 7 ++ field w 7 5

/-- The B-immediate (R126). -/
def immB (w : BitVec 32) : BitVec 13 :=
  field w 31 1 ++ field w 7 1 ++ field w 25 6 ++ field w 8 4 ++ 0#1

/-- The J-immediate (R127). -/
def immJ (w : BitVec 32) : BitVec 21 :=
  field w 31 1 ++ field w 12 8 ++ field w 20 1 ++ field w 21 10 ++ 0#1

/-- A row with the fields rd and rs1 (I format). -/
def rowRdRs1 (w : BitVec 32) (mk : Reg → Reg → Instr) : Decoded :=
  match reg5 (field w 7 5), reg5 (field w 15 5) with
  | .ok rd, .ok rs1 => .ok (mk rd rs1)
  | _, _ => .error .reservedRegister

/-- A row with the fields rs1 and rs2 (S and B formats). -/
def rowRs1Rs2 (w : BitVec 32) (mk : Reg → Reg → Instr) : Decoded :=
  match reg5 (field w 15 5), reg5 (field w 20 5) with
  | .ok rs1, .ok rs2 => .ok (mk rs1 rs2)
  | _, _ => .error .reservedRegister

/-- A row with the fields rd, rs1 and rs2 (R format). -/
def rowRdRs1Rs2 (w : BitVec 32) (mk : Reg → Reg → Reg → Instr) : Decoded :=
  match reg5 (field w 7 5), reg5 (field w 15 5), reg5 (field w 20 5) with
  | .ok rd, .ok rs1, .ok rs2 => .ok (mk rd rs1 rs2)
  | _, _, _ => .error .reservedRegister

/-- A row whose one register field is rd (U and J formats, the immediate CSR forms). -/
def rowRd (w : BitVec 32) (mk : Reg → Instr) : Decoded :=
  match reg5 (field w 7 5) with
  | .ok rd => .ok (mk rd)
  | .error e => .error e

/-- Major opcode 1100011 (R133, R203). -/
def decodeBranch (w : BitVec 32) : Decoded :=
  match field w 12 3 with
  | 0b000#3 => rowRs1Rs2 w fun a b => .beq a b (immB w)
  | 0b001#3 => rowRs1Rs2 w fun a b => .bne a b (immB w)
  | 0b100#3 => rowRs1Rs2 w fun a b => .blt a b (immB w)
  | 0b101#3 => rowRs1Rs2 w fun a b => .bge a b (immB w)
  | 0b110#3 => rowRs1Rs2 w fun a b => .bltu a b (immB w)
  | 0b111#3 => rowRs1Rs2 w fun a b => .bgeu a b (immB w)
  | _ => .error .unknownFunction

/-- Major opcode 0000011 (R133, R226). -/
def decodeLoad (w : BitVec 32) : Decoded :=
  match field w 12 3 with
  | 0b000#3 => rowRdRs1 w fun d a => .lb d a (immI w)
  | 0b001#3 => rowRdRs1 w fun d a => .lh d a (immI w)
  | 0b010#3 => rowRdRs1 w fun d a => .lw d a (immI w)
  | 0b100#3 => rowRdRs1 w fun d a => .lbu d a (immI w)
  | 0b101#3 => rowRdRs1 w fun d a => .lhu d a (immI w)
  | _ => .error .unknownFunction

/-- Major opcode 0100011 (R133, R230). -/
def decodeStore (w : BitVec 32) : Decoded :=
  match field w 12 3 with
  | 0b000#3 => rowRs1Rs2 w fun a b => .sb b a (immS w)
  | 0b001#3 => rowRs1Rs2 w fun a b => .sh b a (immS w)
  | 0b010#3 => rowRs1Rs2 w fun a b => .sw b a (immS w)
  | _ => .error .unknownFunction

/-- Major opcode 0010011 (R133, R124). -/
def decodeOpImm (w : BitVec 32) : Decoded :=
  match field w 12 3 with
  | 0b000#3 => rowRdRs1 w fun d a => .addi d a (immI w)
  | 0b010#3 => rowRdRs1 w fun d a => .slti d a (immI w)
  | 0b011#3 => rowRdRs1 w fun d a => .sltiu d a (immI w)
  | 0b100#3 => rowRdRs1 w fun d a => .xori d a (immI w)
  | 0b110#3 => rowRdRs1 w fun d a => .ori d a (immI w)
  | 0b111#3 => rowRdRs1 w fun d a => .andi d a (immI w)
  | 0b001#3 =>
    match field w 25 7 with
    | 0b0000000#7 => rowRdRs1 w fun d a => .slli d a (field w 20 5)
    | _ => .error .unknownFunction
  | _ =>
    match field w 25 7 with
    | 0b0000000#7 => rowRdRs1 w fun d a => .srli d a (field w 20 5)
    | 0b0100000#7 => rowRdRs1 w fun d a => .srai d a (field w 20 5)
    | _ => .error .unknownFunction

/-- Major opcode 0110011 (R133, R182); the multiplies exist with Zmmul only (R146). -/
def decodeOp (isa : Isa) (w : BitVec 32) : Decoded :=
  match field w 25 7, field w 12 3 with
  | 0b0000000#7, 0b000#3 => rowRdRs1Rs2 w .add
  | 0b0000000#7, 0b001#3 => rowRdRs1Rs2 w .sll
  | 0b0000000#7, 0b010#3 => rowRdRs1Rs2 w .slt
  | 0b0000000#7, 0b011#3 => rowRdRs1Rs2 w .sltu
  | 0b0000000#7, 0b100#3 => rowRdRs1Rs2 w .xor
  | 0b0000000#7, 0b101#3 => rowRdRs1Rs2 w .srl
  | 0b0000000#7, 0b110#3 => rowRdRs1Rs2 w .or
  | 0b0000000#7, 0b111#3 => rowRdRs1Rs2 w .and
  | 0b0100000#7, 0b000#3 => rowRdRs1Rs2 w .sub
  | 0b0100000#7, 0b101#3 => rowRdRs1Rs2 w .sra
  | 0b0000001#7, 0b000#3 => if isa.hasZmmul then rowRdRs1Rs2 w .mul else .error .noZmmul
  | 0b0000001#7, 0b001#3 => if isa.hasZmmul then rowRdRs1Rs2 w .mulh else .error .noZmmul
  | 0b0000001#7, 0b010#3 => if isa.hasZmmul then rowRdRs1Rs2 w .mulhsu else .error .noZmmul
  | 0b0000001#7, 0b011#3 => if isa.hasZmmul then rowRdRs1Rs2 w .mulhu else .error .noZmmul
  | _, _ => .error .unknownFunction

/-- Major opcode 0001111 (R133, R129: the other fields are ignored). -/
def decodeMiscMem (w : BitVec 32) : Decoded :=
  match field w 12 3 with
  | 0b000#3 => .ok (.fence (field w 28 4) (field w 24 4) (field w 20 4) (field w 15 5) (field w 7 5))
  | 0b001#3 => .ok (.fenceI (immI w) (field w 15 5) (field w 7 5))
  | _ => .error .unknownFunction

/-- Major opcode 1110011 (R133, R251, R254). DRET (0x7B200073) is no instruction: outside Debug mode R254 says so, and
that it is none in the program buffer either, where R254 leaves its use open, is the model's choice
(notes/assumptions/34.md). -/
def decodeSystem (w : BitVec 32) : Decoded :=
  match field w 12 3 with
  | 0b000#3 =>
    match w with
    | 0x00000073#32 => .ok .ecall
    | 0x00100073#32 => .ok .ebreak
    | 0x30200073#32 => .ok .mret
    | 0x10500073#32 => .ok .wfi
    | _ => .error .unknownFunction
  | 0b001#3 => rowRdRs1 w fun d a => .csrrw d (immI w) a
  | 0b010#3 => rowRdRs1 w fun d a => .csrrs d (immI w) a
  | 0b011#3 => rowRdRs1 w fun d a => .csrrc d (immI w) a
  | 0b101#3 => rowRd w fun d => .csrrwi d (immI w) (field w 15 5)
  | 0b110#3 => rowRd w fun d => .csrrsi d (immI w) (field w 15 5)
  | 0b111#3 => rowRd w fun d => .csrrci d (immI w) (field w 15 5)
  | _ => .error .unknownFunction

/-- A 32-bit word by its major opcode (R133). -/
def decode32 (isa : Isa) (w : BitVec 32) : Decoded :=
  match field w 0 7 with
  | 0b0110111#7 => rowRd w fun d => .lui d (field w 12 20)
  | 0b0010111#7 => rowRd w fun d => .auipc d (field w 12 20)
  | 0b1101111#7 => rowRd w fun d => .jal d (immJ w)
  | 0b1100111#7 =>
    match field w 12 3 with
    | 0b000#3 => rowRdRs1 w fun d a => .jalr d a (immI w)
    | _ => .error .unknownFunction
  | 0b1100011#7 => decodeBranch w
  | 0b0000011#7 => decodeLoad w
  | 0b0100011#7 => decodeStore w
  | 0b0010011#7 => decodeOpImm w
  | 0b0110011#7 => decodeOp isa w
  | 0b0001111#7 => decodeMiscMem w
  | 0b1110011#7 => decodeSystem w
  | _ => .error .unknownOpcode

/-! ### 16-bit instructions -/

/-- `h[12] ++ h[6:2]`, the 6-bit immediate of the CI and CB formats (R132). -/
def cImm6 (h : Parcel) : BitVec 6 := field h 12 1 ++ field h 2 5

/-- The C.ADDI4SPN immediate (R132). -/
def cImm4spn (h : Parcel) : BitVec 10 :=
  field h 7 4 ++ field h 11 2 ++ field h 5 1 ++ field h 6 1 ++ 0#2

/-- The C.LW and C.SW immediate (R132). -/
def cImmLw (h : Parcel) : BitVec 7 := field h 5 1 ++ field h 10 3 ++ field h 6 1 ++ 0#2

/-- The C.ADDI16SP immediate (R132). -/
def cImm16sp (h : Parcel) : BitVec 10 :=
  field h 12 1 ++ field h 3 2 ++ field h 5 1 ++ field h 2 1 ++ field h 6 1 ++ 0#4

/-- The C.J and C.JAL offset (R132). -/
def cImmJ (h : Parcel) : BitVec 12 :=
  field h 12 1 ++ field h 8 1 ++ field h 9 2 ++ field h 6 1 ++ field h 7 1 ++ field h 2 1 ++ field h 11 1 ++
    field h 3 3 ++ 0#1

/-- The C.BEQZ and C.BNEZ offset (R132). -/
def cImmB (h : Parcel) : BitVec 9 :=
  field h 12 1 ++ field h 5 2 ++ field h 2 1 ++ field h 10 2 ++ field h 3 2 ++ 0#1

/-- The C.LWSP offset (R132). -/
def cImmLwsp (h : Parcel) : BitVec 8 := field h 2 2 ++ field h 12 1 ++ field h 4 3 ++ 0#2

/-- The C.SWSP offset (R132). -/
def cImmSwsp (h : Parcel) : BitVec 8 := field h 7 2 ++ field h 9 4 ++ 0#2

/-- A row with the 5-bit field h[11:7]. -/
def rowC1 (h : Parcel) (mk : Reg → Instr) : Decoded :=
  match reg5 (field h 7 5) with
  | .ok r => .ok (mk r)
  | .error e => .error e

/-- A row with the 5-bit fields h[11:7] and h[6:2]. -/
def rowC2 (h : Parcel) (mk : Reg → Reg → Instr) : Decoded :=
  match reg5 (field h 7 5), reg5 (field h 2 5) with
  | .ok a, .ok b => .ok (mk a b)
  | _, _ => .error .reservedRegister

/-- The code points that RV32EC leaves free, where XW may sit (R144 with the reserved points of R143). -/
def xwCandidate (h : Parcel) : Bool :=
  match field h 0 2, field h 13 3 with
  | 0b00#2, 0b000#3 => field h 5 8 == 0 && h != 0
  | 0b00#2, 0b001#3 => true
  | 0b00#2, 0b011#3 => true
  | 0b00#2, 0b100#3 => true
  | 0b00#2, 0b101#3 => true
  | 0b00#2, 0b111#3 => true
  | 0b01#2, 0b011#3 => cImm6 h == 0
  | 0b01#2, 0b100#3 => field h 12 1 == 1 && field h 10 2 != 2
  | 0b10#2, 0b000#3 => field h 12 1 == 1
  | 0b10#2, 0b001#3 => true
  | 0b10#2, 0b010#3 => field h 7 5 == 0
  | 0b10#2, 0b011#3 => true
  | 0b10#2, 0b100#3 => h == 0x8002#16
  | 0b10#2, 0b101#3 => true
  | 0b10#2, 0b111#3 => true
  | _, _ => false

/-- The instruction a decoded XW form stands for; the `sp` forms have base x2 (46_xw.md R330). -/
def XwForm.toInstr (f : XwForm) : Instr :=
  match f.op with
  | .lbu => .cLbu f.reg f.base f.uimm
  | .lhu => .cLhu f.reg f.base f.uimm
  | .sb => .cSb f.reg f.base f.uimm
  | .sh => .cSh f.reg f.base f.uimm
  | .lbusp => .cLbusp f.reg f.uimm
  | .lhusp => .cLhusp f.reg f.uimm
  | .sbsp => .cSbsp f.reg f.uimm
  | .shsp => .cShsp f.reg f.uimm

/-- What `xw_decode` says of a word: its first entry for it (46_xw.md R330). -/
def xwLookup (tbl : XwTable) (h : Parcel) : Option Instr :=
  (tbl.find? fun e => e.1 == h).map fun e => e.2.toInstr

/-- A word of the candidate space (30_encoding.md R144, R145). -/
def decodeXw (isa : Isa) (h : Parcel) : Decoded :=
  if isa.hasXw then
    match isa.xwDecode with
    | none => .error .xwNotSupplied
    | some tbl =>
      match xwLookup tbl h with
      | some i => .ok i
      | none => .error .reservedCompressed
  else .error .reservedCompressed

/-- Quadrant 00 (R134), outside the candidate space. -/
def decodeQ0 (h : Parcel) : Decoded :=
  match field h 13 3 with
  | 0b000#3 => .ok (.cAddi4spn (reg3 (field h 2 3)) (cImm4spn h))
  | 0b010#3 => .ok (.cLw (reg3 (field h 2 3)) (reg3 (field h 7 3)) (cImmLw h))
  | 0b110#3 => .ok (.cSw (reg3 (field h 2 3)) (reg3 (field h 7 3)) (cImmLw h))
  | _ => .error .reservedCompressed

/-- Quadrant 01, funct3 100 (R134), outside the candidate space. -/
def decodeQ1Alu (h : Parcel) : Decoded :=
  match field h 10 2 with
  | 0b00#2 => .ok (.cSrli (reg3 (field h 7 3)) (field h 2 5))
  | 0b01#2 => .ok (.cSrai (reg3 (field h 7 3)) (field h 2 5))
  | 0b10#2 => .ok (.cAndi (reg3 (field h 7 3)) (cImm6 h))
  | _ =>
    match field h 5 2 with
    | 0b00#2 => .ok (.cSub (reg3 (field h 7 3)) (reg3 (field h 2 3)))
    | 0b01#2 => .ok (.cXor (reg3 (field h 7 3)) (reg3 (field h 2 3)))
    | 0b10#2 => .ok (.cOr (reg3 (field h 7 3)) (reg3 (field h 2 3)))
    | _ => .ok (.cAnd (reg3 (field h 7 3)) (reg3 (field h 2 3)))

/-- Quadrant 01 (R134), outside the candidate space. -/
def decodeQ1 (h : Parcel) : Decoded :=
  match field h 13 3 with
  | 0b000#3 => if field h 7 5 = 0 then .ok (.cNop (cImm6 h)) else rowC1 h fun d => .cAddi d (cImm6 h)
  | 0b001#3 => .ok (.cJal (cImmJ h))
  | 0b010#3 => rowC1 h fun d => .cLi d (cImm6 h)
  | 0b011#3 => if field h 7 5 = 2 then .ok (.cAddi16sp (cImm16sp h)) else rowC1 h fun d => .cLui d (cImm6 h)
  | 0b100#3 => decodeQ1Alu h
  | 0b101#3 => .ok (.cJ (cImmJ h))
  | 0b110#3 => .ok (.cBeqz (reg3 (field h 7 3)) (cImmB h))
  | _ => .ok (.cBnez (reg3 (field h 7 3)) (cImmB h))

/-- Quadrant 10 (R134), outside the candidate space. -/
def decodeQ2 (h : Parcel) : Decoded :=
  match field h 13 3 with
  | 0b000#3 => rowC1 h fun d => .cSlli d (field h 2 5)
  | 0b010#3 => rowC1 h fun d => .cLwsp d (cImmLwsp h)
  | 0b100#3 =>
    if field h 12 1 = 0 then
      if field h 2 5 = 0 then rowC1 h .cJr else rowC2 h .cMv
    else if field h 2 10 = 0 then .ok .cEbreak
    else if field h 2 5 = 0 then rowC1 h .cJalr
    else rowC2 h .cAdd
  | 0b110#3 =>
    match reg5 (field h 2 5) with
    | .ok rs2 => .ok (.cSwsp rs2 (cImmSwsp h))
    | .error e => .error e
  | _ => .error .reservedCompressed

/-- A 16-bit word, whose low two bits are not 11 (R134, R141, R143, R144). -/
def decode16 (isa : Isa) (h : Parcel) : Decoded :=
  if h = 0 then .error .definedIllegal
  else if xwCandidate h then decodeXw isa h
  else
    match field h 0 2 with
    | 0b00#2 => decodeQ0 h
    | 0b01#2 => decodeQ1 h
    | _ => decodeQ2 h

/-! ### Instructions in a stream of parcels -/

/-- The first parcel announces a 32-bit instruction (R120). -/
def isWide (p : Parcel) : Bool := field p 0 2 == 3 && field p 2 3 != 7

/-- The first parcel announces more than 32 bits (R120). -/
def isLong (p : Parcel) : Bool := field p 0 2 == 3 && field p 2 3 == 7

/-- Decode the instruction at the head of a list of parcels, the lowest-addressed first, and answer it with the
parcels that follow it (R120). -/
def decode (isa : Isa) : List Parcel → Except DecodeError (Instr × List Parcel)
  | [] => .error .truncated
  | p :: rest =>
    if isLong p then .error (if p = 0xFFFF#16 then .definedIllegal else .longEncoding)
    else if isWide p then
      match rest with
      | [] => .error .truncated
      | q :: rest' => (decode32 isa (q ++ p)).map fun i => (i, rest')
    else (decode16 isa p).map fun i => (i, rest)

/-- The 16-bit parcels of a list of bytes, lowest address first, little-endian (20_memory.md R85). -/
def parcels : List Byte → List Parcel
  | lo :: hi :: rest => (hi ++ lo) :: parcels rest
  | _ => []

/-- The instruction set the table's words are read with: Zmmul, and no XW table. -/
def tableIsa : Isa := { hasZmmul := true, hasXw := false, xwDecode := none }

/-- The four bytes of a word, the least significant first (00_scope.md R12). -/
def wordBytes (w : BitVec 32) : List Byte := [field w 0 8, field w 8 8, field w 16 8, field w 24 8]

/-- The instruction the decoder reads from the bits `w` of an opcode-table row of `nbits` bits, laid out in bytes as
the hardware stores them. -/
def decodeTableWord (nbits w : Nat) : Option Instr :=
  match decode tableIsa (parcels (wordBytes (BitVec.ofNat 32 (w % 2 ^ nbits)))) with
  | .ok (i, _) => some i
  | .error _ => none

/-! ### The encoder -/

/-- The 5-bit field that names a register (R121). -/
def regBits (r : Reg) : BitVec 5 := BitVec.ofNat 5 r.val

/-- The 3-bit field that names one of x8..x15 (R131). -/
def regBits3 (r : Reg) : BitVec 3 := BitVec.ofNat 3 (r.val - 8)

/-- R format (R121). -/
def encR (f7 : BitVec 7) (f3 : BitVec 3) (rd rs1 rs2 : Reg) : BitVec 32 :=
  f7 ++ regBits rs2 ++ regBits rs1 ++ f3 ++ regBits rd ++ 0b0110011#7

/-- I format (R121). -/
def encI (op : BitVec 7) (f3 : BitVec 3) (rd rs1 : BitVec 5) (imm : BitVec 12) : BitVec 32 :=
  imm ++ rs1 ++ f3 ++ rd ++ op

/-- S format (R121, R123). -/
def encS (f3 : BitVec 3) (rs2 rs1 : Reg) (imm : BitVec 12) : BitVec 32 :=
  field imm 5 7 ++ regBits rs2 ++ regBits rs1 ++ f3 ++ field imm 0 5 ++ 0b0100011#7

/-- B format (R121, R126). -/
def encB (f3 : BitVec 3) (rs1 rs2 : Reg) (imm : BitVec 13) : BitVec 32 :=
  field imm 12 1 ++ field imm 5 6 ++ regBits rs2 ++ regBits rs1 ++ f3 ++ field imm 1 4 ++ field imm 11 1 ++
    0b1100011#7

/-- U format (R121, R125). -/
def encU (op : BitVec 7) (rd : Reg) (imm : BitVec 20) : BitVec 32 := imm ++ regBits rd ++ op

/-- J format (R121, R127). -/
def encJ (rd : Reg) (imm : BitVec 21) : BitVec 32 :=
  field imm 20 1 ++ field imm 1 10 ++ field imm 11 1 ++ field imm 12 8 ++ regBits rd ++ 0b1101111#7

/-- CR format (R130). -/
def encCR (f4 : BitVec 4) (r : Reg) (rs2 : BitVec 5) : Parcel := f4 ++ regBits r ++ rs2 ++ 0b10#2

/-- CI format with a 6-bit immediate (R130, R132). -/
def encCI (f3 : BitVec 3) (r : BitVec 5) (imm : BitVec 6) (op : BitVec 2) : Parcel :=
  f3 ++ field imm 5 1 ++ r ++ field imm 0 5 ++ op

/-- CL and CS formats of C.LW and C.SW (R130, R132). -/
def encCLS (f3 : BitVec 3) (r rs1 : Reg) (imm : BitVec 7) : Parcel :=
  f3 ++ field imm 3 3 ++ regBits3 rs1 ++ field imm 2 1 ++ field imm 6 1 ++ regBits3 r ++ 0b00#2

/-- CA format (R130). -/
def encCA (f2 : BitVec 2) (rd rs2 : Reg) : Parcel :=
  0b100011#6 ++ regBits3 rd ++ f2 ++ regBits3 rs2 ++ 0b01#2

/-- CB format of the shifts and C.ANDI (R130, R132). -/
def encCBAlu (f2 : BitVec 2) (rd : Reg) (imm : BitVec 6) : Parcel :=
  0b100#3 ++ field imm 5 1 ++ f2 ++ regBits3 rd ++ field imm 0 5 ++ 0b01#2

/-- CB format of the branches (R130, R132). -/
def encCB (f3 : BitVec 3) (rs1 : Reg) (imm : BitVec 9) : Parcel :=
  f3 ++ field imm 8 1 ++ field imm 3 2 ++ regBits3 rs1 ++ field imm 6 2 ++ field imm 1 2 ++ field imm 5 1 ++
    0b01#2

/-- CJ format (R130, R132). -/
def encCJ (f3 : BitVec 3) (imm : BitVec 12) : Parcel :=
  f3 ++ field imm 11 1 ++ field imm 4 1 ++ field imm 8 2 ++ field imm 10 1 ++ field imm 6 1 ++ field imm 7 1 ++
    field imm 1 3 ++ field imm 5 1 ++ 0b01#2

/-- The word that `xw_decode` gives an XW instruction: the first candidate word it decodes to it (46_xw.md R330). -/
def xwWord (isa : Isa) (i : Instr) : Option Parcel :=
  if isa.hasXw then
    match isa.xwDecode with
    | none => none
    | some tbl => (tbl.find? fun e => xwCandidate e.1 && xwLookup tbl e.1 == some i).map (·.1)
  else none

/-- A 32-bit word as its two parcels (R120). -/
def wide (w : BitVec 32) : List Parcel := [field w 0 16, field w 16 16]

/-- The parcels of an instruction, the lowest-addressed first; none for an XW instruction without an encoding. -/
def encode (isa : Isa) : Instr → List Parcel
  | .lui rd imm => wide (encU 0b0110111#7 rd imm)
  | .auipc rd imm => wide (encU 0b0010111#7 rd imm)
  | .addi rd rs1 imm => wide (encI 0b0010011#7 0b000#3 (regBits rd) (regBits rs1) imm)
  | .slti rd rs1 imm => wide (encI 0b0010011#7 0b010#3 (regBits rd) (regBits rs1) imm)
  | .sltiu rd rs1 imm => wide (encI 0b0010011#7 0b011#3 (regBits rd) (regBits rs1) imm)
  | .xori rd rs1 imm => wide (encI 0b0010011#7 0b100#3 (regBits rd) (regBits rs1) imm)
  | .ori rd rs1 imm => wide (encI 0b0010011#7 0b110#3 (regBits rd) (regBits rs1) imm)
  | .andi rd rs1 imm => wide (encI 0b0010011#7 0b111#3 (regBits rd) (regBits rs1) imm)
  | .slli rd rs1 sh => wide (encI 0b0010011#7 0b001#3 (regBits rd) (regBits rs1) (0b0000000#7 ++ sh))
  | .srli rd rs1 sh => wide (encI 0b0010011#7 0b101#3 (regBits rd) (regBits rs1) (0b0000000#7 ++ sh))
  | .srai rd rs1 sh => wide (encI 0b0010011#7 0b101#3 (regBits rd) (regBits rs1) (0b0100000#7 ++ sh))
  | .add rd rs1 rs2 => wide (encR 0b0000000#7 0b000#3 rd rs1 rs2)
  | .sub rd rs1 rs2 => wide (encR 0b0100000#7 0b000#3 rd rs1 rs2)
  | .sll rd rs1 rs2 => wide (encR 0b0000000#7 0b001#3 rd rs1 rs2)
  | .slt rd rs1 rs2 => wide (encR 0b0000000#7 0b010#3 rd rs1 rs2)
  | .sltu rd rs1 rs2 => wide (encR 0b0000000#7 0b011#3 rd rs1 rs2)
  | .xor rd rs1 rs2 => wide (encR 0b0000000#7 0b100#3 rd rs1 rs2)
  | .srl rd rs1 rs2 => wide (encR 0b0000000#7 0b101#3 rd rs1 rs2)
  | .sra rd rs1 rs2 => wide (encR 0b0100000#7 0b101#3 rd rs1 rs2)
  | .or rd rs1 rs2 => wide (encR 0b0000000#7 0b110#3 rd rs1 rs2)
  | .and rd rs1 rs2 => wide (encR 0b0000000#7 0b111#3 rd rs1 rs2)
  | .jal rd imm => wide (encJ rd imm)
  | .jalr rd rs1 imm => wide (encI 0b1100111#7 0b000#3 (regBits rd) (regBits rs1) imm)
  | .beq rs1 rs2 imm => wide (encB 0b000#3 rs1 rs2 imm)
  | .bne rs1 rs2 imm => wide (encB 0b001#3 rs1 rs2 imm)
  | .blt rs1 rs2 imm => wide (encB 0b100#3 rs1 rs2 imm)
  | .bge rs1 rs2 imm => wide (encB 0b101#3 rs1 rs2 imm)
  | .bltu rs1 rs2 imm => wide (encB 0b110#3 rs1 rs2 imm)
  | .bgeu rs1 rs2 imm => wide (encB 0b111#3 rs1 rs2 imm)
  | .lb rd rs1 imm => wide (encI 0b0000011#7 0b000#3 (regBits rd) (regBits rs1) imm)
  | .lh rd rs1 imm => wide (encI 0b0000011#7 0b001#3 (regBits rd) (regBits rs1) imm)
  | .lw rd rs1 imm => wide (encI 0b0000011#7 0b010#3 (regBits rd) (regBits rs1) imm)
  | .lbu rd rs1 imm => wide (encI 0b0000011#7 0b100#3 (regBits rd) (regBits rs1) imm)
  | .lhu rd rs1 imm => wide (encI 0b0000011#7 0b101#3 (regBits rd) (regBits rs1) imm)
  | .sb rs2 rs1 imm => wide (encS 0b000#3 rs2 rs1 imm)
  | .sh rs2 rs1 imm => wide (encS 0b001#3 rs2 rs1 imm)
  | .sw rs2 rs1 imm => wide (encS 0b010#3 rs2 rs1 imm)
  | .fence fm pred succ rs1 rd => wide (encI 0b0001111#7 0b000#3 rd rs1 (fm ++ pred ++ succ))
  | .fenceI imm rs1 rd => wide (encI 0b0001111#7 0b001#3 rd rs1 imm)
  | .ecall => wide 0x00000073#32
  | .ebreak => wide 0x00100073#32
  | .csrrw rd csr rs1 => wide (encI 0b1110011#7 0b001#3 (regBits rd) (regBits rs1) csr)
  | .csrrs rd csr rs1 => wide (encI 0b1110011#7 0b010#3 (regBits rd) (regBits rs1) csr)
  | .csrrc rd csr rs1 => wide (encI 0b1110011#7 0b011#3 (regBits rd) (regBits rs1) csr)
  | .csrrwi rd csr uimm => wide (encI 0b1110011#7 0b101#3 (regBits rd) uimm csr)
  | .csrrsi rd csr uimm => wide (encI 0b1110011#7 0b110#3 (regBits rd) uimm csr)
  | .csrrci rd csr uimm => wide (encI 0b1110011#7 0b111#3 (regBits rd) uimm csr)
  | .mret => wide 0x30200073#32
  | .wfi => wide 0x10500073#32
  | .mul rd rs1 rs2 => wide (encR 0b0000001#7 0b000#3 rd rs1 rs2)
  | .mulh rd rs1 rs2 => wide (encR 0b0000001#7 0b001#3 rd rs1 rs2)
  | .mulhsu rd rs1 rs2 => wide (encR 0b0000001#7 0b010#3 rd rs1 rs2)
  | .mulhu rd rs1 rs2 => wide (encR 0b0000001#7 0b011#3 rd rs1 rs2)
  | .cAddi4spn rd imm =>
      [0b000#3 ++ field imm 4 2 ++ field imm 6 4 ++ field imm 2 1 ++ field imm 3 1 ++ regBits3 rd ++ 0b00#2]
  | .cLw rd rs1 imm => [encCLS 0b010#3 rd rs1 imm]
  | .cSw rs2 rs1 imm => [encCLS 0b110#3 rs2 rs1 imm]
  | .cNop imm => [encCI 0b000#3 0#5 imm 0b01#2]
  | .cAddi rd imm => [encCI 0b000#3 (regBits rd) imm 0b01#2]
  | .cJal imm => [encCJ 0b001#3 imm]
  | .cLi rd imm => [encCI 0b010#3 (regBits rd) imm 0b01#2]
  | .cAddi16sp imm =>
      [0b011#3 ++ field imm 9 1 ++ 2#5 ++ field imm 4 1 ++ field imm 6 1 ++ field imm 7 2 ++ field imm 5 1 ++ 0b01#2]
  | .cLui rd imm => [encCI 0b011#3 (regBits rd) imm 0b01#2]
  | .cSrli rd sh => [encCBAlu 0b00#2 rd (0#1 ++ sh)]
  | .cSrai rd sh => [encCBAlu 0b01#2 rd (0#1 ++ sh)]
  | .cAndi rd imm => [encCBAlu 0b10#2 rd imm]
  | .cSub rd rs2 => [encCA 0b00#2 rd rs2]
  | .cXor rd rs2 => [encCA 0b01#2 rd rs2]
  | .cOr rd rs2 => [encCA 0b10#2 rd rs2]
  | .cAnd rd rs2 => [encCA 0b11#2 rd rs2]
  | .cJ imm => [encCJ 0b101#3 imm]
  | .cBeqz rs1 imm => [encCB 0b110#3 rs1 imm]
  | .cBnez rs1 imm => [encCB 0b111#3 rs1 imm]
  | .cSlli rd sh => [encCI 0b000#3 (regBits rd) (0#1 ++ sh) 0b10#2]
  | .cLwsp rd imm =>
      [0b010#3 ++ field imm 5 1 ++ regBits rd ++ field imm 2 3 ++ field imm 6 2 ++ 0b10#2]
  | .cJr rs1 => [encCR 0b1000#4 rs1 0#5]
  | .cMv rd rs2 => [encCR 0b1000#4 rd (regBits rs2)]
  | .cEbreak => [0x9002#16]
  | .cJalr rs1 => [encCR 0b1001#4 rs1 0#5]
  | .cAdd rd rs2 => [encCR 0b1001#4 rd (regBits rs2)]
  | .cSwsp rs2 imm => [0b110#3 ++ field imm 2 4 ++ field imm 6 2 ++ regBits rs2 ++ 0b10#2]
  | .cLbu rd rs1 uimm => (xwWord isa (.cLbu rd rs1 uimm)).toList
  | .cLhu rd rs1 uimm => (xwWord isa (.cLhu rd rs1 uimm)).toList
  | .cSb rs2 rs1 uimm => (xwWord isa (.cSb rs2 rs1 uimm)).toList
  | .cSh rs2 rs1 uimm => (xwWord isa (.cSh rs2 rs1 uimm)).toList
  | .cLbusp rd uimm => (xwWord isa (.cLbusp rd uimm)).toList
  | .cLhusp rd uimm => (xwWord isa (.cLhusp rd uimm)).toList
  | .cSbsp rs2 uimm => (xwWord isa (.cSbsp rs2 uimm)).toList
  | .cShsp rs2 uimm => (xwWord isa (.cShsp rs2 uimm)).toList

end Sys2Proof
end

