-- ==== Sys2Proof/Machine/State.lean ====
section
/-!
DEFINITION. The machine's state as plain data, holding every piece of state the spec gives it (INVENTORY.md,
'## State'), the reasons a step can stop, and the state right after reset (10_state.md R60).
-/

namespace Sys2Proof.Machine

/-- Why the machine stops where the spec defines no step of the hart (`refuse` of spec/93_implementation_defined.md).
Every one is safe: the hardware may go on, the model does not. -/
inductive Fault where
  /-- Raised by the fetch, by `mret`, by a resume and by a vector-table word with bit 0 set: the pc would be odd
  (10_state.md R27; U-15, U-44; notes/assumptions/22.md). Safe. -/
  | oddPc
  /-- Raised by a trap entry at nesting level 2 (60_exceptions.md R372; U-30; notes/assumptions/20.md). Safe. -/
  | thirdNestingLevel
  /-- Raised by a trap entry or an `mret` whose HPE frame is misaligned or cannot be accessed (20_memory.md R87; U-34;
  notes/assumptions/21.md). Safe. -/
  | hpeAccess
  /-- Raised by a trap entry whose vector-table read fails (20_memory.md R87; U-34; notes/assumptions/21.md). Safe. -/
  | vectorAccess
  /-- Raised by a trap entry through `mtvec` with `mtvec[9:2]` not zero (60_exceptions.md R367; U-7;
  notes/assumptions/21.md). Safe. -/
  | vectorTableUnaligned
  /-- Raised by a trap entry when both VTF channels match, or for an exception when an enabled channel holds number 3
  (60_exceptions.md R368; U-31; notes/assumptions/21.md). Safe. -/
  | vtfClash
  /-- Raised by the step that would run an instruction while `intsyscr.EABIEN` is 1 (10_state.md R44; U-8;
  notes/assumptions/23.md). Safe. -/
  | eabiEnabled
  /-- Raised by the fetch of a 32-bit instruction at 0xFFFFFFFE (10_state.md R28; U-41; notes/assumptions/22.md).
  Safe. -/
  | fetchStraddlesTop
  deriving DecidableEq, Repr

/-- Why a step has no meaning in the model. Every one is safe: nothing can be proved about what follows. -/
inductive Refusal where
  /-- Answered by an arm of `exec` whose instruction has no meaning yet. Safe. -/
  | notModelled (mnemonic : String)
  /-- A load, a store, an HPE or a vector access reaches a platform peripheral, which is outside the spec
  (20_memory.md R94; notes/assumptions/26.md). Safe. -/
  | platformDevice
  /-- The fetched word is in the candidate space of XW and `xw_decode` is not supplied (30_encoding.md R144; U-20;
  notes/assumptions/6.md). Safe. -/
  | xwDecodeNotSupplied
  /-- A byte or half-word access to a 32-bit device register (20_memory.md R92; U-32; notes/assumptions/24.md).
  Safe. -/
  | subWordDeviceAccess
  /-- A store to PFIC_IPSR0 with bit 3 set (61_pfic.md R427; U-16; notes/assumptions/25.md). Safe. -/
  | excPendingSet
  /-- An abstract command names a register number that is no register of the core (64_debug.md R532; U-21;
  notes/assumptions/35.md). Safe. -/
  | debugRegno
  /-- Program-buffer code has left the program buffer (64_debug.md R535; U-22; notes/assumptions/34.md). Safe. -/
  | progbufLeft
  /-- A 32-bit instruction begins in the last parcel of the program buffer (64_debug.md R536;
  notes/assumptions/34.md). Safe. -/
  | progbufOverrun
  /-- A resume with `dcsr.prv` naming a mode that does not exist (64_debug.md R541; U-9; notes/assumptions/37.md).
  Safe. -/
  | debugPrv
  deriving DecidableEq, Repr

/-- What every operation of the machine answers. -/
abbrev Res (α : Type) := Host.Outcome α Fault Refusal

/-- An entry of `active_stack`: an exception, or an interrupt number (10_state.md R54, 60_exceptions.md R365). -/
inductive TrapId where
  | exc
  | irq (n : Irq)
  deriving DecidableEq, Repr

/-- `run_state` (10_state.md R57). -/
inductive RunState where
  | running | sleepingWfi | sleepingWfe | haltedDebug
  deriving DecidableEq, Repr

/-- A failed access whose trap has not been taken (10_state.md R56, 60_exceptions.md R358). -/
inductive AccessError where
  | load | store
  deriving DecidableEq, Repr

/-- What the world outside the hart does between two instructions (notes/assumptions/7.md). -/
inductive Event where
  /-- One `tick` of SysTick (62_systick.md R486). -/
  | tick
  /-- The platform drives the request line of NMI or of an external interrupt (61_pfic.md R441); no other number has
  one, and the level given for it is not looked at. -/
  | setRequest (n : Irq) (level : Bool)
  /-- `ext_event` (63_low_power.md R505). -/
  | extEvent
  /-- The trap of the oldest access error in flight is to be taken at this boundary (60_exceptions.md R358). -/
  | takeError
  /-- A cleared enable bit reaches the core (10_state.md R55). -/
  | syncEnable (n : Irq)
  /-- A cleared `mstatus.MIE` reaches the core (10_state.md R55). -/
  | syncMie
  /-- The debug host writes a debug-module register (64_debug.md R521). -/
  | hostWrite (addr : BitVec 7) (v : Word)
  /-- The debug host reads a debug-module register (64_debug.md R521). -/
  | hostRead (addr : BitVec 7)
  /-- A parity error on the debug interface (64_debug.md R527, `cmder` 110). -/
  | sdiParityError
  /-- Power-on or pin reset (70_reset_and_hazards.md R561 kind 4). -/
  | powerReset
  /-- The debug host asks, or no longer asks, for Debug mode directly after reset (64_debug.md R540, cause 101). -/
  | haltOnReset (b : Bool)
  deriving DecidableEq, Repr

/-- Memory: bytes by address, addresses strictly rising; an address that is not listed holds what no store has written
(10_state.md R59, notes/assumptions/3.md). -/
abbrev Memory := List Host.Cell

/-- The bytes one store replaced, by address; `none` for a byte that nothing had written (20_memory.md R104). -/
abbrev Replaced := List (Nat × Option Byte)

/-- The PFIC's registers (10_state.md R50, R55). Bit n of a 256-bit field stands for number n (61_pfic.md R422). -/
structure Pfic where
  enable : BitVec 256
  enableEff : BitVec 256
  pendLatch : BitVec 256
  request : BitVec 256
  prio : Vector Byte 256
  ithresdr : Word
  vtfidr : Word
  vtfaddr0 : Word
  vtfaddr1 : Word
  sctlr : Word
  deriving DecidableEq, Repr

/-- The SysTick registers (10_state.md R51). -/
structure SysTick where
  ctlr : Word
  cntif : Bool
  cntr : Word
  cmpr : Word
  deriving DecidableEq, Repr

/-- The debug module's registers (10_state.md R52, 64_debug.md R522 to R530). `sdiRead` is the model's own: the word the
debug host last read (notes/assumptions/36.md). -/
structure DebugModule where
  data0 : Word
  data1 : Word
  command : Word
  progbuf : Vector Word 8
  cmder : BitVec 3
  busy : Bool
  haltreq : Bool
  ndmreset : Bool
  dmactive : Bool
  havereset : Bool
  resumeack : Bool
  sdiRead : Word
  deriving DecidableEq, Repr

/-- The machine. -/
structure State where
  /-- The parameters of 00_scope.md R9; no step changes them (notes/assumptions/1.md). -/
  cfg : Config
  /-- x0..x15 (10_state.md R20); position 0 is not read (R21). -/
  regs : Vector Word 16
  pc : Word
  mstatus : Word
  mtvec : Word
  mscratch : Word
  mepc : Word
  mcause : Word
  intsyscr : Word
  dcsr : Word
  dpc : Word
  dscratch0 : Word
  dscratch1 : Word
  /-- `mstatus.MIE` as the core sees it (10_state.md R55). -/
  mieEff : Bool
  pfic : Pfic
  stk : SysTick
  /-- `active_stack`, innermost first; its length is `nest` (10_state.md R53, R54). -/
  activeStack : List TrapId
  /-- The last step was an `mret` that popped an HPE frame (60_exceptions.md R378). -/
  tailPop : Bool
  run : RunState
  /-- The hart sleeps with SLEEPDEEP sampled as 1 (63_low_power.md R507). -/
  deepSleep : Bool
  event : Bool
  /-- Failed accesses whose trap has not been taken, oldest first (10_state.md R56). -/
  inflight : List AccessError
  /-- How many of them must be taken at the coming boundaries (60_exceptions.md R358). -/
  dueErrors : Nat
  /-- A SYSRESET store has been executed (61_pfic.md R437). -/
  resetReq : Bool
  mem : Memory
  /-- What the stores since the last FENCE.I replaced, newest first (20_memory.md R104). -/
  stale : List Replaced
  dm : DebugModule
  /-- The debug host has asked for Debug mode directly after reset (64_debug.md R540). -/
  haltOnReset : Bool
  /-- The inputs still to come, one list for each step (notes/assumptions/7.md). The model's own. -/
  schedule : List (List Event)
  /-- How many free values have been drawn (notes/assumptions/9.md). The model's own. -/
  freeCtr : Nat
  /-- How many resets there have been (notes/assumptions/3.md). The model's own. -/
  boots : Nat
  deriving DecidableEq, Repr

/-- The PFIC after reset (10_state.md R60): NMI and EXC enabled. -/
def Pfic.reset : Pfic :=
  { enable := 0xC#256
    enableEff := 0xC#256
    pendLatch := 0#256
    request := 0#256
    prio := Vector.replicate 256 0#8
    ithresdr := 0#32
    vtfidr := 0#32
    vtfaddr0 := 0#32
    vtfaddr1 := 0#32
    sctlr := 0#32 }

/-- SysTick after reset (10_state.md R60). -/
def SysTick.reset : SysTick := { ctlr := 0#32, cntif := false, cntr := 0#32, cmpr := 0#32 }

/-- The debug module after reset (10_state.md R60). -/
def DebugModule.reset : DebugModule :=
  { data0 := 0#32
    data1 := 0#32
    command := 0#32
    progbuf := Vector.replicate 8 0#32
    cmder := 0#3
    busy := false
    haltreq := false
    ndmreset := false
    dmactive := false
    havereset := false
    resumeack := false
    sdiRead := 0#32 }

namespace State

/-- The state after reset of a machine with the parameters `c` (10_state.md R60; notes/assumptions/2.md for x1..x15). -/
def atReset (c : Config) : State :=
  { cfg := c
    regs := Vector.replicate 16 0#32
    pc := c.resetPc
    mstatus := 0x00001800#32
    mtvec := 0#32
    mscratch := 0#32
    mepc := 0#32
    mcause := 0#32
    intsyscr := 0#32
    dcsr := 0x40000003#32
    dpc := 0#32
    dscratch0 := 0#32
    dscratch1 := 0#32
    mieEff := false
    pfic := Pfic.reset
    stk := SysTick.reset
    activeStack := []
    tailPop := false
    run := .running
    deepSleep := false
    event := false
    inflight := []
    dueErrors := 0
    resetReq := false
    mem := []
    stale := []
    dm := DebugModule.reset
    haltOnReset := false
    schedule := []
    freeCtr := 0
    boots := 0 }

/-- The machine right after reset. -/
def reset : State := atReset Config.atReset

/-- `nest`, the trap nesting level (10_state.md R53). -/
def nest (s : State) : Nat := s.activeStack.length

/-- The hart is in Debug mode (10_state.md R57, 64_debug.md R540). -/
def inDebug (s : State) : Bool := decide (s.run = .haltedDebug)

end State

end Sys2Proof.Machine
end

