-- ==== Sys2Proof/Machine/Flags.lean ====
section
/-!
DEFINITION. The core has no condition codes and no instruction writes a flag (10_state.md R29): what stands for flags
is the fields of its status and control registers, read and built here, and the conditions that the branches and the
set instructions compute.
-/

namespace Sys2Proof.Machine

/-! ### Comparisons (40_integer_computational.md R164, R165, R175, R176; 41_control_transfer.md R204 to R209) -/

/-- A truth value as the 32-bit 0 or 1. -/
def boolWord (b : Bool) : Word := if b then 1#32 else 0#32

/-- `signed(a) < signed(b)`. -/
def ltSigned (a b : Word) : Bool := decide (a.toInt < b.toInt)

/-- `unsigned(a) < unsigned(b)`. -/
def ltUnsigned (a b : Word) : Bool := decide (a.toNat < b.toNat)

/-! ### mstatus (10_state.md R35, R36) -/

/-- `mstatus` with the given fields; MPP is 0b11 and the reserved bits are 0. -/
def mstatusOf (mie mpie mpop mppop : Bool) : Word :=
  0x00001800#32 ||| (if mie then 0x00000008#32 else 0#32) ||| (if mpie then 0x00000080#32 else 0#32) |||
    (if mpop then 0x00800000#32 else 0#32) ||| (if mppop then 0x01000000#32 else 0#32)

namespace State

/-- `mstatus.MIE`. -/
def mie (s : State) : Bool := s.mstatus.getLsbD 3

/-- `mstatus.MPIE`. -/
def mpie (s : State) : Bool := s.mstatus.getLsbD 7

/-- `mstatus.MPOP`. -/
def mpop (s : State) : Bool := s.mstatus.getLsbD 23

/-- `mstatus.MPPOP`. -/
def mppop (s : State) : Bool := s.mstatus.getLsbD 24

/-! ### intsyscr (10_state.md R44) -/

/-- `intsyscr.HWSTKEN`. -/
def hwstken (s : State) : Bool := s.intsyscr.getLsbD 0

/-- `intsyscr.INESTEN`. -/
def inesten (s : State) : Bool := s.intsyscr.getLsbD 1

/-- `intsyscr.EABIEN`. -/
def eabien (s : State) : Bool := s.intsyscr.getLsbD 2

/-! ### mtvec (10_state.md R38) -/

/-- `mtvec.MODE0`: the entry address depends on the number. -/
def mtvecMode0 (s : State) : Bool := s.mtvec.getLsbD 0

/-- `mtvec.MODE1`: the table holds absolute addresses. -/
def mtvecMode1 (s : State) : Bool := s.mtvec.getLsbD 1

/-- `mtvec[31:2] ++ 0b00`. -/
def mtvecBase (s : State) : Word := s.mtvec &&& 0xFFFFFFFC#32

/-! ### dcsr (10_state.md R45) -/

/-- `dcsr.ebreakm`. -/
def ebreakm (s : State) : Bool := s.dcsr.getLsbD 15

/-- `dcsr.stepie`. -/
def stepie (s : State) : Bool := s.dcsr.getLsbD 11

/-- `dcsr.stoptime`. -/
def stoptime (s : State) : Bool := s.dcsr.getLsbD 9

/-- `dcsr.step`. -/
def stepBit (s : State) : Bool := s.dcsr.getLsbD 2

/-- `dcsr.prv`. -/
def prv (s : State) : BitVec 2 := s.dcsr.extractLsb' 0 2

/-! ### PFIC_SCTLR (61_pfic.md R436) -/

/-- `SCTLR.SLEEPONEXIT`. -/
def sleepOnExit (s : State) : Bool := s.pfic.sctlr.getLsbD 1

/-- `SCTLR.SLEEPDEEP`. -/
def sleepDeep (s : State) : Bool := s.pfic.sctlr.getLsbD 2

/-- `SCTLR.WFITOWFE`. -/
def wfiToWfe (s : State) : Bool := s.pfic.sctlr.getLsbD 3

/-- `SCTLR.SEVONPEND`. -/
def sevOnPend (s : State) : Bool := s.pfic.sctlr.getLsbD 4

/-! ### STK_CTLR (62_systick.md R482) -/

/-- `STK_CTLR.STE`. -/
def ste (s : State) : Bool := s.stk.ctlr.getLsbD 0

/-- `STK_CTLR.STIE`. -/
def stie (s : State) : Bool := s.stk.ctlr.getLsbD 1

/-- `STK_CTLR.STRE`. -/
def stre (s : State) : Bool := s.stk.ctlr.getLsbD 3

/-- `STK_CTLR.SWIE`. -/
def swie (s : State) : Bool := s.stk.ctlr.getLsbD 31

end State

/-- `dcsr` as entering Debug mode leaves it: the cause recorded, `prv` 11 (64_debug.md R540). -/
def dcsrEntered (d : Word) (cause : BitVec 3) : Word :=
  (d &&& 0xFFFFFE3C#32) ||| (cause.setWidth 32 <<< 6) ||| 3#32

end Sys2Proof.Machine
end

