-- ==== Sys2Proof/Machine/Memory.lean ====
section
/-!
DEFINITION. Memory in its one canonical form, little-endian accesses to it, and what a fetch may still see of bytes that
stores have replaced (20_memory.md R84, R85, R104).
-/

namespace Sys2Proof.Machine

/-- An access width: 1, 2 or 4 bytes (20_memory.md R89). -/
inductive Width where
  | byte | half | word
  deriving DecidableEq, Repr

/-- How many bytes an access of the width moves. -/
def Width.bytes : Width → Nat
  | .byte => 1
  | .half => 2
  | .word => 4

/-- The low bytes of a value that an access of the width moves, zero-extended (00_scope.md R11, 20_memory.md R89). -/
def lowBytes (w : Width) (v : Word) : Word :=
  match w with
  | .byte => (v.extractLsb' 0 8).setWidth 32
  | .half => (v.extractLsb' 0 16).setWidth 32
  | .word => v

/-- An address is a multiple of the width (20_memory.md R86). -/
def isAligned (w : Width) (a : Word) : Bool := decide (a.toNat % w.bytes = 0)

/-- The addresses rise strictly from `lo` on and stay below 2^32. -/
def Memory.wfFrom (lo : Nat) : Memory → Bool
  | [] => true
  | (a, _) :: rest => decide (lo ≤ a) && decide (a < 2 ^ 32) && Memory.wfFrom (a + 1) rest

/-- The canonical form: addresses strictly rising, each a 32-bit address (20_memory.md R81). -/
def Memory.wf (m : Memory) : Bool := Memory.wfFrom 0 m

/-- The byte listed at an address. -/
def Memory.read : Memory → Nat → Option Byte
  | [], _ => none
  | (k, v) :: rest, a => if k = a then some v else Memory.read rest a

/-- The memory with the byte at an address written. -/
def Memory.write : Memory → Nat → Byte → Memory
  | [], a, b => [(a, b)]
  | (k, v) :: rest, a, b =>
    if a < k then (a, b) :: (k, v) :: rest
    else if k = a then (a, b) :: rest
    else (k, v) :: Memory.write rest a b

/-- The kind `mem_map` gives a byte address (20_memory.md R94). -/
def regionKind (c : Config) (a : Nat) : RegionKind :=
  match c.memMap.find? fun r => decide (r.base ≤ a) && decide (a < r.base + r.size) with
  | some r => r.kind
  | none => .unmapped

/-- The bytes of a value that an access of a width moves, at their addresses from `a` on (20_memory.md R84). -/
def storedBytes (w : Width) (a : Nat) (v : Word) : List (Nat × Byte) :=
  match w with
  | .byte => [(a, v.extractLsb' 0 8)]
  | .half => [(a, v.extractLsb' 0 8), (a + 1, v.extractLsb' 8 8)]
  | .word => [(a, v.extractLsb' 0 8), (a + 1, v.extractLsb' 8 8), (a + 2, v.extractLsb' 16 8),
      (a + 3, v.extractLsb' 24 8)]

/-- Write several bytes, the first first. -/
def Memory.writeAll (m : Memory) (bs : List (Nat × Byte)) : Memory := bs.foldl (fun m b => m.write b.1 b.2) m

namespace State

/-- What an address reads as that nothing has written: a free value, a fresh one after each reset but for read-only
memory (notes/assumptions/3.md, 29.md). -/
def unwritten (s : State) (a : Nat) : Byte :=
  Config.unwrittenByte (if regionKind s.cfg a = .rom then 0 else s.boots) a

/-- The byte of memory at an address. -/
def byteAt (s : State) (a : Nat) : Byte := (s.mem.read a).getD (s.unwritten a)

/-- `MemRead(a, n)` of plain memory, zero-extended (20_memory.md R84). -/
def memLoad (s : State) (w : Width) (a : Nat) : Word :=
  match w with
  | .byte => (s.byteAt a).setWidth 32
  | .half => (s.byteAt (a + 1) ++ s.byteAt a).setWidth 32
  | .word => s.byteAt (a + 3) ++ s.byteAt (a + 2) ++ s.byteAt (a + 1) ++ s.byteAt a

/-- `MemWrite(a, n, v)` to plain memory (20_memory.md R84); what it replaces stays visible to fetches until the next
FENCE.I (20_memory.md R104). -/
def memStore (s : State) (w : Width) (a : Nat) (v : Word) : State :=
  { s with
    mem := s.mem.writeAll (storedBytes w a v)
    stale := ((storedBytes w a v).map fun b => (b.1, s.mem.read b.1)) :: s.stale }

/-- A free word (notes/assumptions/9.md). -/
def freshWord (s : State) : Word := Config.freeWord s.freeCtr

/-- A free truth value (notes/assumptions/9.md). -/
def freshBool (s : State) : Bool := Config.freeBool s.freeCtr

/-- The state after a free value has been drawn, so that the next one is another. -/
def drawn (s : State) : State := { s with freeCtr := s.freeCtr + 1 }

/-- The byte at an address as it was before the `k` newest stores (notes/assumptions/28.md). -/
def byteBefore (s : State) (k a : Nat) : Byte :=
  match ((s.stale.take k).reverse.flatten).find? fun e => e.1 == a with
  | some (_, some b) => b
  | some (_, none) => s.unwritten a
  | none => s.byteAt a

/-- The parcel at an address as it was before the `k` newest stores (20_memory.md R85). -/
def parcelBefore (s : State) (k a : Nat) : Parcel := s.byteBefore k (a + 1) ++ s.byteBefore k a

/-- No store since the last FENCE.I touches the parcel at an address. -/
def parcelFresh (s : State) (a : Nat) : Bool :=
  s.stale.all fun r => r.all fun e => e.1 != a && e.1 != a + 1

/-- `Fetch` of a parcel of plain memory: a parcel stored to since the last FENCE.I is a draw between its new and its old
contents (20_memory.md R104, U-33; notes/assumptions/28.md). -/
def fetchParcel (s : State) (a : Nat) : Parcel × State :=
  if s.parcelFresh a then (s.byteAt (a + 1) ++ s.byteAt a, s)
  else (s.parcelBefore (s.freshWord.toNat % (s.stale.length + 1)) a, s.drawn)

end State

end Sys2Proof.Machine
end

