-- ==== Sys2Proof/Machine/Csr.lean ====
section
/-!
DEFINITION. The thirteen control and status registers (10_state.md R31 to R48): which accesses are allowed, what a read
gives and what a write keeps.
-/

namespace Sys2Proof.Machine

/-- The implemented CSRs (10_state.md R31). -/
inductive Csr where
  | marchid | mimpid | mstatus | misa | mtvec | mscratch | mepc | mcause | dcsr | dpc | dscratch0 | dscratch1
  | intsyscr
  deriving DecidableEq, Repr

/-- The register at a CSR address; none where no register is implemented (10_state.md R31, R32). -/
def csrAt (a : BitVec 12) : Option Csr :=
  match a with
  | 0xF12#12 => some .marchid
  | 0xF13#12 => some .mimpid
  | 0x300#12 => some .mstatus
  | 0x301#12 => some .misa
  | 0x305#12 => some .mtvec
  | 0x340#12 => some .mscratch
  | 0x341#12 => some .mepc
  | 0x342#12 => some .mcause
  | 0x7B0#12 => some .dcsr
  | 0x7B1#12 => some .dpc
  | 0x7B2#12 => some .dscratch0
  | 0x7B3#12 => some .dscratch1
  | 0x804#12 => some .intsyscr
  | _ => none

/-- The register may be accessed in Debug mode only (10_state.md R34). -/
def Csr.debugOnly : Csr → Bool
  | .dcsr | .dpc | .dscratch0 | .dscratch1 => true
  | .marchid | .mimpid | .mstatus | .misa | .mtvec | .mscratch | .mepc | .mcause | .intsyscr => false

/-- The address bits [11:10] say read only (10_state.md R30, R33). -/
def csrReadOnly (a : BitVec 12) : Bool := decide (a.extractLsb' 10 2 = 3#2)

/-- A value that hardware may leave in `mcause`: a code of Table 2-1 or a number of Table 3-1 (60_exceptions.md R351,
R352; U-12). -/
def mcauseListed (v : Word) : Bool :=
  if v.getLsbD 31 then
    let n := v.toNat - 0x80000000
    decide (n = 2) || decide (n = 12) || decide (n = 14) || (decide (16 ≤ n) && decide (n ≤ 255))
  else decide (v.toNat ≤ 8) || decide (v.toNat = 11)

namespace State

/-- The access check of 43_system.md R244 step 1: the register accessed, or none where exception 2 is raised. -/
def csrCheck (s : State) (a : BitVec 12) (writes : Bool) : Option Csr :=
  match csrAt a with
  | none => none
  | some c =>
    if c.debugOnly && !s.inDebug then none
    else if writes && csrReadOnly a then none
    else some c

/-- The value a CSR reads as (10_state.md R35 to R47); `mcause` outside the tables reads as a free value
(notes/assumptions/14.md). -/
def csrRead (s : State) (c : Csr) : Word × State :=
  match c with
  | .marchid => (s.cfg.marchid, s)
  | .mimpid => (s.cfg.mimpid, s)
  | .mstatus => (s.mstatus, s)
  | .misa => (s.cfg.misa, s)
  | .mtvec => (s.mtvec, s)
  | .mscratch => (s.mscratch, s)
  | .mepc => (s.mepc, s)
  | .mcause => if mcauseListed s.mcause then (s.mcause, s) else (s.freshWord, s.drawn)
  | .dcsr => (s.dcsr, s)
  | .dpc => (s.dpc, s)
  | .dscratch0 => (s.dscratch0, s)
  | .dscratch1 => (s.dscratch1, s)
  | .intsyscr => (s.intsyscr, s)

/-- A write of `mstatus` (10_state.md R35, R36, R48). Setting MIE reaches the core at once, clearing it later
(10_state.md R55, 70_reset_and_hazards.md R575). -/
def writeMstatus (s : State) (v : Word) : State :=
  { s with
    mstatus := mstatusOf (v.getLsbD 3) (v.getLsbD 7) (v.getLsbD 23) (v.getLsbD 24)
    mieEff := s.mieEff || v.getLsbD 3 }

/-- A write of a CSR: only the writable fields take the new bits (43_system.md R244 step 4, 10_state.md R48). -/
def csrWrite (s : State) (c : Csr) (v : Word) : State :=
  match c with
  | .mstatus => s.writeMstatus v
  | .mtvec => { s with mtvec := v }
  | .mscratch => { s with mscratch := v }
  | .mepc => { s with mepc := v }
  | .mcause => { s with mcause := v }
  | .dcsr => { s with dcsr := (s.dcsr &&& ~~~0x00009A07#32) ||| (v &&& 0x00009A07#32) }
  | .dpc => { s with dpc := v }
  | .dscratch0 => { s with dscratch0 := v }
  | .dscratch1 => { s with dscratch1 := v }
  | .intsyscr => { s with intsyscr := v &&& 7#32 }
  | .marchid | .mimpid | .misa => s

end State

end Sys2Proof.Machine
end

