-- ==== Sys2Proof/Machine/Devices.lean ====
section
/-!
DEFINITION. The core's own device registers: the PFIC (61_pfic.md), SysTick (62_systick.md) and the window on the debug
module's data registers (64_debug.md R537): where each stands, what a load of it reads and what a store does.
-/

namespace Sys2Proof.Machine

/-- What an access to the address space comes to. -/
inductive BusAnswer (α : Type) where
  /-- It is performed. -/
  | done (a : α)
  /-- It fails: an access error (20_memory.md R95). -/
  | accessError
  /-- The model does not say. -/
  | refused (r : Refusal)

/-- A 32-bit device register, or a reserved word (20_memory.md R93, 61_pfic.md R421, 62_systick.md R481). -/
inductive DevReg where
  | isr (x : Fin 8) | ipr (x : Fin 8) | ithresdr | cfgr | gisr | vtfidr | vtfaddr0 | vtfaddr1
  | ienr (x : Fin 8) | irer (x : Fin 8) | ipsr (x : Fin 8) | iprr (x : Fin 8) | iactr (x : Fin 8)
  | sctlr | stkCtlr | stkSr | stkCntr | stkCmpr | data0 | data1 | reserved
  deriving DecidableEq, Repr

/-- The address lies in one of the core's own windows (20_memory.md R93; notes/assumptions/24.md). -/
def inCoreWindow (a : Nat) : Bool :=
  (decide (0xE00000F4 ≤ a) && decide (a < 0xE00000FC)) || (decide (0xE000E000 ≤ a) && decide (a < 0xE0010000))

/-- The address is that of a PFIC_IPRIOR byte (61_pfic.md R431). -/
def isIprior (a : Nat) : Bool := decide (0xE000E400 ≤ a) && decide (a < 0xE000E500)

/-- Which of the eight registers of a group an address names. -/
def groupIndex (a : Nat) : Fin 8 := ⟨a / 4 % 8, Nat.mod_lt _ (by omega)⟩

/-- The register that the word holding an address is. -/
def devReg (a : Nat) : DevReg :=
  match a / 4 * 4 with
  | 0xE00000F4 => .data0
  | 0xE00000F8 => .data1
  | 0xE000E040 => .ithresdr
  | 0xE000E048 => .cfgr
  | 0xE000E04C => .gisr
  | 0xE000E050 => .vtfidr
  | 0xE000E060 => .vtfaddr0
  | 0xE000E064 => .vtfaddr1
  | 0xE000ED10 => .sctlr
  | 0xE000F000 => .stkCtlr
  | 0xE000F004 => .stkSr
  | 0xE000F008 => .stkCntr
  | 0xE000F010 => .stkCmpr
  | w =>
    match w / 32 * 32 with
    | 0xE000E000 => .isr (groupIndex w)
    | 0xE000E020 => .ipr (groupIndex w)
    | 0xE000E100 => .ienr (groupIndex w)
    | 0xE000E180 => .irer (groupIndex w)
    | 0xE000E200 => .ipsr (groupIndex w)
    | 0xE000E280 => .iprr (groupIndex w)
    | 0xE000E300 => .iactr (groupIndex w)
    | _ => .reserved

/-! ### The PFIC's views -/

/-- The numbers that have enable, pending and priority bits: 2, 3, 12, 14 and the implemented external ones
(61_pfic.md R438). -/
def irqValid (c : Config) : BitVec 256 :=
  0x500C#256 ||| ((c.irqImplemented >>> 16) <<< 16)

/-- Bit `b` of register `x` of a group stands for number `32x + b` (61_pfic.md R422). -/
def groupWord (v : BitVec 256) (x : Fin 8) : Word := v.extractLsb' (32 * x.val) 32

/-- The numbers that a word written to register `x` of a group names (61_pfic.md R422, R430). -/
def groupBits (x : Fin 8) (v : Word) : BitVec 256 := v.setWidth 256 <<< (32 * x.val)

/-- NMI and EXC, whose enable bits cannot be operated (61_pfic.md R425, R426). -/
def fixedIrqs : BitVec 256 := 0xC#256

/-! ### SysTick -/

/-- The registers after one `tick` (62_systick.md R486). -/
def SysTick.ticked (t : SysTick) (reloadAfterMatch : Bool) : SysTick :=
  let strE := t.ctlr.getLsbD 3
  let c := if strE && decide (t.cntr = t.cmpr) && reloadAfterMatch then 0#32 else t.cntr + 1#32
  { t with
    cntif := t.cntif || decide (c = t.cmpr)
    cntr := if decide (c = t.cmpr) && strE && !reloadAfterMatch then 0#32 else c }

namespace State

/-- The numbers with a request line of the platform: NMI and the implemented external ones. EXC has no source, SysTick
and SWI have lines of the core (00_scope.md R9, 61_pfic.md R438, R441). -/
def platformLines (c : Config) : BitVec 256 := irqValid c &&& ~~~0x5008#256

/-- `request[n]`: the platform's lines, SysTick's at 12 and SWIE at 14 (61_pfic.md R441, 62_systick.md R487, R489). -/
def requestLines (s : State) : BitVec 256 :=
  (s.pfic.request &&& platformLines s.cfg) ||| (if s.stk.cntif && s.stie then 0x1000#256 else 0#256) |||
    (if s.swie then 0x4000#256 else 0#256)

/-- `pending[n]`: the latch or the request line (60_exceptions.md R366, 61_pfic.md R438). -/
def pending (s : State) : BitVec 256 := (s.pfic.pendLatch ||| s.requestLines) &&& irqValid s.cfg

/-- `enable[n]` as PFIC_ISR shows it (61_pfic.md R423, R438). -/
def enabled (s : State) : BitVec 256 := s.pfic.enable &&& irqValid s.cfg

/-- `active[n]`: the interrupts in service (10_state.md R50, R54). -/
def active (s : State) : BitVec 256 :=
  s.activeStack.foldl
    (fun v t => match t with
      | .exc => v
      | .irq n => v ||| (1#256 <<< n.val))
    0#256

/-- An exception handler is in service: PFIC_IACTR0 bit 3 is then open (60_exceptions.md R365). -/
def excActive (s : State) : Bool := s.activeStack.any fun t => decide (t = .exc)

/-- PFIC_GISR (61_pfic.md R440). -/
def gisr (s : State) : Word :=
  (if s.pending = 0#256 then 0#32 else 0x200#32) |||
    (match s.nest with
     | 0 => 0#32
     | 1 => 0x101#32
     | _ => 0x103#32)

/-- `event` after a change: under SEVONPEND a pending bit that rises while its enable bit is 0 sets it (63_low_power.md
R506; notes/assumptions/40.md). -/
def noteNewPending (old s : State) : State :=
  if s.sevOnPend && decide (s.pending &&& ~~~old.pending &&& ~~~s.pfic.enable ≠ 0#256) then
    { s with event := true }
  else s

/-! ### Loads -/

/-- A load of a 32-bit device register (61_pfic.md R423 to R440, 62_systick.md R482 to R485, 64_debug.md R537). A
write-only register and a reserved word read as a free value (notes/assumptions/24.md). -/
def devLoad (s : State) (r : DevReg) : Word × State :=
  match r with
  | .isr x => (groupWord s.enabled x, s)
  | .ipr x => (groupWord s.pending x, s)
  | .ithresdr => (s.pfic.ithresdr, s)
  | .cfgr => (0#32, s)
  | .gisr => (s.gisr, s)
  | .vtfidr => (s.pfic.vtfidr, s)
  | .vtfaddr0 => (s.pfic.vtfaddr0, s)
  | .vtfaddr1 => (s.pfic.vtfaddr1, s)
  | .iactr x =>
    if s.excActive && decide (x = 0) then
      (groupWord s.active x ||| (if s.freshBool then 8#32 else 0#32), s.drawn)
    else (groupWord s.active x, s)
  | .sctlr => (s.pfic.sctlr, s)
  | .stkCtlr => (s.stk.ctlr, s)
  | .stkSr => (if s.stk.cntif then 1#32 else 0#32, s)
  | .stkCntr => (s.stk.cntr, s)
  | .stkCmpr => (s.stk.cmpr, s)
  | .data0 => (s.dm.data0, s)
  | .data1 => (s.dm.data1, s)
  | .ienr _ | .irer _ | .ipsr _ | .iprr _ | .reserved => (s.freshWord, s.drawn)

/-- The PFIC_IPRIOR byte of a number (61_pfic.md R431, R438). -/
def ipriorByte (s : State) (n : Irq) : Byte :=
  if (irqValid s.cfg).getLsbD n.val then s.pfic.prio[n.val] else 0#8

/-- The number whose PFIC_IPRIOR byte stands at an address. -/
def ipriorIrq (a : Nat) : Irq := ⟨a % 256, Nat.mod_lt _ (by omega)⟩

/-- A load of PFIC_IPRIOR bytes, little-endian (61_pfic.md R431, 20_memory.md R92). -/
def ipriorLoad (s : State) (w : Width) (a : Nat) : Word :=
  match w with
  | .byte => (s.ipriorByte (ipriorIrq a)).setWidth 32
  | .half => (s.ipriorByte (ipriorIrq (a + 1)) ++ s.ipriorByte (ipriorIrq a)).setWidth 32
  | .word => s.ipriorByte (ipriorIrq (a + 3)) ++ s.ipriorByte (ipriorIrq (a + 2)) ++
      s.ipriorByte (ipriorIrq (a + 1)) ++ s.ipriorByte (ipriorIrq a)

/-! ### Stores -/

/-- A system reset has been requested (61_pfic.md R437). -/
def requestReset (s : State) : State := { s with resetReq := true }

/-- A store to PFIC_IENRx (61_pfic.md R425); enabling takes effect at once (R443). -/
def storeIenr (s : State) (x : Fin 8) (v : Word) : State :=
  { s with
    pfic :=
      { s.pfic with
        enable := s.pfic.enable ||| (groupBits x v &&& irqValid s.cfg)
        enableEff := s.pfic.enableEff ||| (groupBits x v &&& irqValid s.cfg) } }

/-- A store to PFIC_IRERx (61_pfic.md R426); the core's own copy follows later (R443). -/
def storeIrer (s : State) (x : Fin 8) (v : Word) : State :=
  { s with pfic := { s.pfic with enable := s.pfic.enable &&& ~~~(groupBits x v &&& ~~~fixedIrqs) } }

/-- A store to PFIC_IPSRx, but for bit 3 of IPSR0 (61_pfic.md R427). -/
def storeIpsr (s : State) (x : Fin 8) (v : Word) : State :=
  noteNewPending s
    { s with
      pfic := { s.pfic with pendLatch := s.pfic.pendLatch ||| (groupBits x v &&& irqValid s.cfg) } }

/-- A store to PFIC_IPRRx (61_pfic.md R428). -/
def storeIprr (s : State) (x : Fin 8) (v : Word) : State :=
  { s with pfic := { s.pfic with pendLatch := s.pfic.pendLatch &&& ~~~(groupBits x v) } }

/-- A store to PFIC_CFGR (61_pfic.md R433). -/
def storeCfgr (s : State) (v : Word) : State :=
  if v.extractLsb' 16 16 = 0xBEEF#16 ∧ v.getLsbD 7 = true then s.requestReset else s

/-- A store to PFIC_SCTLR (61_pfic.md R436). -/
def storeSctlr (s : State) (v : Word) : State :=
  { s with
    pfic := { s.pfic with sctlr := v &&& 0x1E#32 }
    event := s.event || v.getLsbD 5
    resetReq := s.resetReq || v.getLsbD 31 }

/-- A store to STK_CTLR (62_systick.md R482); SWIE and STIE are request lines (R487, R489). -/
def storeStkCtlr (s : State) (v : Word) : State :=
  noteNewPending s { s with stk := { s.stk with ctlr := v &&& 0x8000000F#32 } }

/-- A store to STK_SR (62_systick.md R483). -/
def storeStkSr (s : State) (v : Word) : State :=
  { s with stk := { s.stk with cntif := s.stk.cntif && v.getLsbD 0 } }

/-- A store to a 32-bit device register. Read-only and reserved words ignore it (notes/assumptions/24.md); setting the
pending bit of EXC is refused (61_pfic.md R427). -/
def devStore (s : State) (r : DevReg) (v : Word) : BusAnswer State :=
  match r with
  | .ithresdr => .done { s with pfic := { s.pfic with ithresdr := v &&& 0xC0#32 } }
  | .cfgr => .done (s.storeCfgr v)
  | .vtfidr => .done { s with pfic := { s.pfic with vtfidr := v &&& 0xFFFF#32 } }
  | .vtfaddr0 => .done { s with pfic := { s.pfic with vtfaddr0 := v } }
  | .vtfaddr1 => .done { s with pfic := { s.pfic with vtfaddr1 := v } }
  | .ienr x => .done (s.storeIenr x v)
  | .irer x => .done (s.storeIrer x v)
  | .ipsr x => if x = 0 ∧ v.getLsbD 3 = true then .refused .excPendingSet else .done (s.storeIpsr x v)
  | .iprr x => .done (s.storeIprr x v)
  | .sctlr => .done (s.storeSctlr v)
  | .stkCtlr => .done (s.storeStkCtlr v)
  | .stkSr => .done (s.storeStkSr v)
  | .stkCntr => .done { s with stk := { s.stk with cntr := v } }
  | .stkCmpr => .done { s with stk := { s.stk with cmpr := v } }
  | .data0 => .done { s with dm := { s.dm with data0 := v } }
  | .data1 => .done { s with dm := { s.dm with data1 := v } }
  | .isr _ | .ipr _ | .gisr | .iactr _ | .reserved => .done s

/-- A byte stored to PFIC_IPRIORn (61_pfic.md R431): bits [5:0] are fixed to 0; a number without state ignores it
(R438); what the bytes of NMI and EXC then read is a free value (notes/assumptions/15.md). -/
def ipriorStoreByte (s : State) (n : Irq) (v : Byte) : State :=
  if n = 2 ∨ n = 3 then
    { s with
      pfic := { s.pfic with prio := s.pfic.prio.set n.val (s.freshWord.setWidth 8 &&& 0xC0#8) }
      freeCtr := s.freeCtr + 1 }
  else if (irqValid s.cfg).getLsbD n.val then
    { s with pfic := { s.pfic with prio := s.pfic.prio.set n.val (v &&& 0xC0#8) } }
  else s

/-- A store to PFIC_IPRIOR bytes, little-endian (61_pfic.md R431, 20_memory.md R92). -/
def ipriorStore (s : State) (w : Width) (a : Nat) (v : Word) : State :=
  (storedBytes w a v).foldl (fun s b => s.ipriorStoreByte (ipriorIrq b.1) b.2) s

/-- One `tick` (62_systick.md R486); none while the hart is halted with `dcsr.stoptime` set (64_debug.md R543). -/
def tick (s : State) : State :=
  if s.ste && !(s.inDebug && s.stoptime) then
    noteNewPending s { s with stk := SysTick.ticked s.stk s.cfg.stkReloadAfterMatch }
  else s

end State

end Sys2Proof.Machine
end

