-- ==== Sys2Proof/Machine/Ops.lean ====
section
/-!
DEFINITION. The named operations the meanings are written over: registers, the pc, accesses to the address space,
entering Debug mode, taking a trap and returning from one (20_memory.md, 60_exceptions.md, 64_debug.md R540).
-/

namespace Sys2Proof.Machine

/-- Go on with the answer of an operation, or stop as it stopped. -/
def andThen {α β : Type} (o : Res α) (f : α → Res β) : Res β :=
  match o with
  | .next a => f a
  | .fault r => .fault r
  | .refused r => .refused r

/-! ### Registers -/

namespace State

/-- `x[r]`; x0 reads 0 (10_state.md R21). -/
def reg (s : State) (r : Reg) : Word := if r = 0 then 0#32 else s.regs[r.val]

/-- `x[r] <- v`; a write to x0 is discarded (10_state.md R21). -/
def setReg (s : State) (r : Reg) (v : Word) : State :=
  if r = 0 then s else { s with regs := s.regs.set r.val v }

/-- `pc <- pc + ilen`, modulo 2^32 (10_state.md R26, R28). -/
def advance (s : State) (ilen : Word) : State := { s with pc := s.pc + ilen }

/-- `pc <- t`. -/
def jumpTo (s : State) (t : Word) : State := { s with pc := t }

/-- Write a register and go on to the next instruction: the end of most instructions. -/
def finishReg (s : State) (r : Reg) (v : Word) (ilen : Word) : State := (s.setReg r v).advance ilen

end State

/-! ### The address space -/

/-- Does an access of a width touch only bytes of a kind that `p` accepts? -/
def allBytes (w : Width) (a : Nat) (p : Nat → Bool) : Bool :=
  match w with
  | .byte => p a
  | .half => p a && p (a + 1)
  | .word => p a && p (a + 1) && p (a + 2) && p (a + 3)

/-- The byte can be read and fetched (20_memory.md R94). -/
def isMemory (c : Config) (a : Nat) : Bool :=
  !inCoreWindow a && (decide (regionKind c a = .ram) || decide (regionKind c a = .rom))

/-- The byte can be written (20_memory.md R94). -/
def isRam (c : Config) (a : Nat) : Bool := !inCoreWindow a && decide (regionKind c a = .ram)

/-- The byte is read-only memory (20_memory.md R94). -/
def isRom (c : Config) (a : Nat) : Bool := !inCoreWindow a && decide (regionKind c a = .rom)

/-- The byte belongs to a platform peripheral (20_memory.md R94). -/
def isPlatform (c : Config) (a : Nat) : Bool := !inCoreWindow a && decide (regionKind c a = .device)

namespace State

/-- A load from one of the core's windows, zero-extended (20_memory.md R89, R92, R93); a reserved address gives a free
value of the width (notes/assumptions/24.md). -/
def windowLoad (s : State) (w : Width) (a : Nat) : BusAnswer (Word × State) :=
  if isIprior a then .done (s.ipriorLoad w a, s)
  else
    match devReg a, w with
    | r, .word => .done (s.devLoad r)
    | .reserved, _ => .done (lowBytes w s.freshWord, s.drawn)
    | _, _ => .refused .subWordDeviceAccess

/-- A store to one of the core's windows (20_memory.md R92, R93). -/
def windowStore (s : State) (w : Width) (a : Nat) (v : Word) : BusAnswer State :=
  if isIprior a then .done (s.ipriorStore w a v)
  else
    match devReg a, w with
    | r, .word => s.devStore r v
    | .reserved, _ => .done s
    | _, _ => .refused .subWordDeviceAccess

/-- `MemRead(a, n)` at an aligned address (20_memory.md R84, R93 to R95): the value, zero-extended. -/
def busRead (s : State) (w : Width) (a : Word) : BusAnswer (Word × State) :=
  if inCoreWindow a.toNat then s.windowLoad w a.toNat
  else if allBytes w a.toNat (isMemory s.cfg) then .done (s.memLoad w a.toNat, s)
  else if allBytes w a.toNat (isPlatform s.cfg) then .refused .platformDevice
  else .accessError

/-- `MemWrite(a, n, v)` at an aligned address (20_memory.md R84, R93 to R95). -/
def busWrite (s : State) (w : Width) (a : Word) (v : Word) : BusAnswer State :=
  if inCoreWindow a.toNat then s.windowStore w a.toNat v
  else if allBytes w a.toNat (isRam s.cfg) then .done (s.memStore w a.toNat v)
  else if allBytes w a.toNat (isRom s.cfg) then
    match s.cfg.romStore with
    | .ignored => .done s
    | .accessError => .accessError
  else if allBytes w a.toNat (isPlatform s.cfg) then .refused .platformDevice
  else .accessError

/-- `Fetch(a)`: the parcel at an even address, or an access error (20_memory.md R88). -/
def fetch (s : State) (a : Word) : Option (Parcel × State) :=
  if allBytes .half a.toNat (isMemory s.cfg) then some (s.fetchParcel a.toNat) else none

/-! ### Debug mode -/

/-- Entering Debug mode (64_debug.md R540): no machine CSR changes. -/
def enterDebug (s : State) (cause : BitVec 3) (dpc : Word) : State :=
  { s with dcsr := dcsrEntered s.dcsr cause, dpc := dpc, run := .haltedDebug, deepSleep := false }

/-- The program buffer's execution ends and the hart waits, halted (64_debug.md R536). -/
def endProgbuf (s : State) : State := { s with dm := { s.dm with busy := false } }

/-- `cmder` takes an error if it holds none (64_debug.md R527; notes/assumptions/35.md). -/
def setCmder (s : State) (e : BitVec 3) : State :=
  if s.dm.cmder = 0#3 then { s with dm := { s.dm with cmder := e } } else s

/-! ### Hardware prologue and epilogue -/

/-- The HPE frame: how far below N each saved register stands (60_exceptions.md R375). -/
def hpeFrame : List (Word × Reg) :=
  [(4, 1), (8, 5), (12, 6), (16, 7), (20, 10), (24, 11), (28, 12), (32, 13), (36, 14), (40, 15)]

/-- Store the registers of a frame whose top is `n`. -/
def pushRegs (n : Word) : List (Word × Reg) → State → Res State
  | [], s => .next s
  | (off, r) :: rest, s =>
    match s.busWrite .word (n - off) (s.reg r) with
    | .done s' => pushRegs n rest s'
    | .accessError => .fault .hpeAccess
    | .refused e => .refused e

/-- A word of RAM takes a free value; nothing happens elsewhere (60_exceptions.md R375; notes/assumptions/17.md). -/
def freeRamWord (s : State) (a : Word) : State :=
  if allBytes .word a.toNat (isRam s.cfg) then (s.memStore .word a.toNat s.freshWord).drawn else s

/-- The HPE push (60_exceptions.md R375, 20_memory.md R87). -/
def hpePush (s : State) : Res State :=
  let n := s.reg 2
  if isAligned .word n then
    andThen (pushRegs n hpeFrame s) fun s1 =>
      .next (((s1.freeRamWord (n - 44)).freeRamWord (n - 48)).setReg 2 (n - 48))
  else .fault .hpeAccess

/-- Load the registers of a frame whose top is `n`. -/
def popRegs (n : Word) : List (Word × Reg) → State → Res State
  | [], s => .next s
  | (off, r) :: rest, s =>
    match s.busRead .word (n - off) with
    | .done (v, s') => popRegs n rest (s'.setReg r v)
    | .accessError => .fault .hpeAccess
    | .refused e => .refused e

/-- The HPE pop (60_exceptions.md R383, 20_memory.md R87). -/
def hpePop (s : State) : Res State :=
  let n := s.reg 2 + 48
  if isAligned .word n then andThen (popRegs n hpeFrame s) fun s1 => .next (s1.setReg 2 n)
  else .fault .hpeAccess

/-! ### Taking a trap -/

/-- The number that selects the vector: the interrupt's, or 3 for every exception (60_exceptions.md R367). -/
def trapNumber : TrapId → BitVec 8
  | .exc => 3#8
  | .irq n => BitVec.ofNat 8 n.val

/-- VTF channel 0 is enabled for a number (60_exceptions.md R367, R368). -/
def vtf0Holds (s : State) (n : BitVec 8) : Bool := s.pfic.vtfaddr0.getLsbD 0 && decide (s.pfic.vtfidr.extractLsb' 0 8 = n)

/-- VTF channel 1 is enabled for a number (60_exceptions.md R367, R368). -/
def vtf1Holds (s : State) (n : BitVec 8) : Bool := s.pfic.vtfaddr1.getLsbD 0 && decide (s.pfic.vtfidr.extractLsb' 8 8 = n)

/-- Enter at the address `mtvec` gives (60_exceptions.md R367 items 2 and 3). -/
def enterAtVector (s : State) (n : BitVec 8) : Res State :=
  if s.mtvec.extractLsb' 2 8 ≠ 0#8 then .fault .vectorTableUnaligned
  else
    let entry := if s.mtvecMode0 then s.mtvecBase + 4 * n.setWidth 32 else s.mtvecBase
    if s.mtvecMode1 then
      match s.busRead .word entry with
      | .done (t, s') => if t.getLsbD 0 then .fault .oddPc else .next (s'.jumpTo t)
      | .accessError => .fault .vectorAccess
      | .refused e => .refused e
    else .next (s.jumpTo entry)

/-- Enter at the target of a trap (60_exceptions.md R367, R368). -/
def enterTarget (s : State) (t : TrapId) : Res State :=
  let n := trapNumber t
  match t with
  | .exc => if s.vtf0Holds n || s.vtf1Holds n then .fault .vtfClash else s.enterAtVector n
  | .irq _ =>
    if s.vtf0Holds n && s.vtf1Holds n then .fault .vtfClash
    else if s.vtf0Holds n then .next (s.jumpTo (s.pfic.vtfaddr0 &&& 0xFFFFFFFE#32))
    else if s.vtf1Holds n then .next (s.jumpTo (s.pfic.vtfaddr1 &&& 0xFFFFFFFE#32))
    else s.enterAtVector n

/-- `mstatus` and the core's copy of MIE on entry (60_exceptions.md R364): MIE becomes 0 at level 2, stays at level 1
with nesting on, and at level 1 with nesting off is 0 or unchanged (notes/assumptions/12.md). -/
def trapMstatus (s : State) (pushed : Bool) : State :=
  match s.activeStack with
  | _ :: _ => { s with mstatus := mstatusOf false s.mie pushed s.mpop, mieEff := false }
  | [] =>
    if s.inesten then { s with mstatus := mstatusOf s.mie s.mie pushed s.mpop }
    else
      { s with
        mstatus := mstatusOf (s.mie && s.freshBool) s.mie pushed s.mpop
        mieEff := s.mieEff && s.freshBool
        freeCtr := s.freeCtr + 1 }

/-- TAKING A TRAP, an exception or an interrupt alike (60_exceptions.md R361 to R367): `mcause` becomes `cause`, `mepc`
becomes `epc`. -/
def enterTrap (s : State) (t : TrapId) (cause epc : Word) : Res State :=
  if 2 ≤ s.nest then .fault .thirdNestingLevel
  else
    andThen (if s.hwstken then s.hpePush else .next s) fun s1 =>
      enterTarget
        { s1.trapMstatus s.hwstken with
          mepc := epc
          mcause := cause
          activeStack := t :: s1.activeStack
          run := .running
          deepSleep := false }
        t

/-- An exception inside the program buffer ends its execution with `cmder` 011 and enters no handler (64_debug.md
R535). -/
def progbufException (s : State) : State := (s.setCmder 3#3).endProgbuf

/-- `raise E`: a synchronous exception at the instruction at `pc` (60_exceptions.md R360); in Debug mode it ends the
program buffer (64_debug.md R535). -/
def takeException (s : State) (code : BitVec 4) : Res State :=
  if s.inDebug then .next s.progbufException else s.enterTrap .exc (code.setWidth 32) s.pc

/-- The cause code of an access error (60_exceptions.md R351). -/
def accessErrorCode : AccessError → Word
  | .load => 5#32
  | .store => 7#32

/-- Take the trap of the oldest access error in flight, with `mepc` the next unexecuted instruction (60_exceptions.md
R358, R363). In Debug mode the errors that are due end the program buffer together (64_debug.md R535;
notes/assumptions/34.md). -/
def takeAccessError (s : State) : Res State :=
  match s.inflight with
  | [] => .next s
  | e :: rest =>
    if s.inDebug then
      .next ({ s with inflight := s.inflight.drop s.dueErrors, dueErrors := 0 } : State).progbufException
    else ({ s with inflight := rest, dueErrors := s.dueErrors - 1 }).enterTrap .exc (accessErrorCode e) s.pc

/-- The end of FENCE, FENCE.I and WFI, and a part of `mret`'s: no access error stays in flight beyond them
(60_exceptions.md R358; notes/assumptions/10.md). The first is taken now, any others at the coming boundaries; in Debug
mode all of them are taken now. -/
def settleErrors (s : State) : Res State :=
  if s.inflight.isEmpty then .next s
  else ({ s with dueErrors := s.inflight.length }).takeAccessError

/-! ### Returning from a trap -/

/-- `mstatus` after `mret` (60_exceptions.md R380 step 3, R384): MPIE and MPPOP are free afterwards
(notes/assumptions/13.md). -/
def mretMstatus (s : State) : State :=
  { s with
    mstatus := mstatusOf s.mpie s.freshBool s.mppop (Config.freeBool (s.freeCtr + 1))
    mieEff := s.mpie
    freeCtr := s.freeCtr + 2 }

/-- The nesting state after `mret` (60_exceptions.md R381, R382, R385). After a level-2 handler `mepc` and `mcause` are
free (R390; notes/assumptions/13.md); after the last one SLEEPONEXIT sends the hart to sleep. -/
def mretNesting (s : State) : State :=
  match s.activeStack with
  | [] => s
  | [_] =>
    if s.sleepOnExit && !s.inDebug then
      { s with activeStack := [], run := .sleepingWfi, deepSleep := s.sleepDeep }
    else { s with activeStack := [] }
  | _ :: rest =>
    { s with
      activeStack := rest
      mepc := s.freshWord
      mcause := Config.freeWord (s.freeCtr + 1)
      freeCtr := s.freeCtr + 2 }

/-- RETURNING FROM A TRAP (60_exceptions.md R380 to R385). An `mret` of the program buffer is no boundary at which a
handler can start (notes/assumptions/18.md). -/
def trapReturn (s : State) : Res State :=
  if s.mepc.getLsbD 0 then .fault .oddPc
  else
    andThen (if s.mpop then s.hpePop else .next s) fun s1 =>
      .next { (s1.mretMstatus.mretNesting).jumpTo s.mepc with tailPop := s.mpop && !s.inDebug }

/-- The registers of the HPE frame take free values (60_exceptions.md R378; notes/assumptions/18.md). -/
def freeHpeRegs (s : State) : State := hpeFrame.foldl (fun s e => (s.setReg e.2 s.freshWord).drawn) s

/-- The end of `mret`: an access error still in flight is taken at this boundary (`settleErrors`), and after a pop the
registers of the frame are free at its handler's entry (60_exceptions.md R358, R378; notes/assumptions/18.md). -/
def settleMret (s : State) : Res State :=
  if s.inflight.isEmpty then .next s
  else
    andThen s.settleErrors fun t =>
      .next { (if s.tailPop && s.hwstken then t.freeHpeRegs else t) with tailPop := false }

/-! ### Breakpoints, waiting, synchronisation -/

/-- EBREAK and C.EBREAK (43_system.md R243, 45_compressed.md R304): in Debug mode they end the program buffer
(64_debug.md R536), with `dcsr.ebreakm` they enter Debug mode (64_debug.md R540), else they raise exception 3. -/
def breakpoint (s : State) : Res State :=
  if s.inDebug then .next s.endProgbuf
  else if s.ebreakm then .next (s.enterDebug 1#3 s.pc)
  else s.takeException 3#4

/-- Going to sleep at a WFI, the pc already at the resume address (63_low_power.md R500, R507, R508). -/
def waitForInterrupt (s : State) : State :=
  if s.inDebug then s
  else if s.wfiToWfe then
    if s.event then { s with event := false } else { s with run := .sleepingWfe, deepSleep := s.sleepDeep }
  else { s with run := .sleepingWfi, deepSleep := s.sleepDeep }

/-- What FENCE.I synchronises: fetches with stores, and the core's mask copies with what software wrote (20_memory.md
R101, R102). -/
def syncMasks (s : State) : State :=
  { s with mieEff := s.mie, pfic := { s.pfic with enableEff := s.pfic.enable }, stale := [] }

end State

end Sys2Proof.Machine
end

