-- ==== Sys2Proof/Machine/Operands.lean ====
section
/-!
DEFINITION. The operand forms: immediates extended to 32 bits, effective addresses and targets, and the shared shapes of
loads, stores, branches and CSR accesses that the meanings instantiate.
-/

namespace Sys2Proof.Machine

/-- The length of a 32-bit instruction (10_state.md R26). -/
def ilen4 : Word := 4#32

/-- The length of a 16-bit instruction (10_state.md R26). -/
def ilen2 : Word := 2#32

/-- `sext_32` of an immediate (00_scope.md R11). -/
def sext {k : Nat} (imm : BitVec k) : Word := imm.signExtend 32

/-- `zext_32` of an immediate (00_scope.md R11). -/
def zext {k : Nat} (imm : BitVec k) : Word := imm.setWidth 32

/-- `imm ++ 0x000`, the U-immediate (30_encoding.md R125). -/
def upperImm (imm : BitVec 20) : Word := imm ++ 0#12

/-- The low five bits of a register, a shift amount (40_integer_computational.md R160). -/
def shiftAmount (v : Word) : Nat := (v.extractLsb' 0 5).toNat

/-- How a loaded value is extended to 32 bits (42_load_store.md R221 to R225). -/
inductive LoadKind where
  | signed | unsigned
  deriving DecidableEq, Repr

/-- Extend the value a load of a width brings, which comes zero-extended. -/
def extendLoad (k : LoadKind) (w : Width) (v : Word) : Word :=
  match k, w with
  | .unsigned, _ => v
  | .signed, .byte => (v.extractLsb' 0 8).signExtend 32
  | .signed, .half => (v.extractLsb' 0 16).signExtend 32
  | .signed, .word => v

namespace State

/-- `x[rs1] + sext_32(imm)`, an effective address or target (42_load_store.md R220). -/
def baseOffset (s : State) (rs1 : Reg) (imm : BitVec 12) : Word := s.reg rs1 + sext imm

/-- A load whose access fails: it retires with rd unspecified and its trap comes later (20_memory.md R95), in the
program buffer as elsewhere (64_debug.md R534). -/
def loadFailed (s : State) (rd : Reg) (ilen : Word) : Res State :=
  .next (({ s.drawn with inflight := s.inflight ++ [AccessError.load] } : State).finishReg rd s.freshWord ilen)

/-- A store whose access fails: it retires, changes nothing, and its trap comes later (20_memory.md R95), in the program
buffer as elsewhere (64_debug.md R534). -/
def storeFailed (s : State) (ilen : Word) : Res State :=
  .next (({ s with inflight := s.inflight ++ [AccessError.store] } : State).advance ilen)

/-- A load of a width from `ea` into `rd` (42_load_store.md R220, 20_memory.md R86). -/
def load (s : State) (w : Width) (k : LoadKind) (rd : Reg) (ea ilen : Word) : Res State :=
  if isAligned w ea then
    match s.busRead w ea with
    | .done (v, s') => .next (s'.finishReg rd (extendLoad k w v) ilen)
    | .accessError => s.loadFailed rd ilen
    | .refused r => .refused r
  else s.takeException 4#4

/-- A store of a width of `v` to `ea` (42_load_store.md R220, 20_memory.md R86). -/
def store (s : State) (w : Width) (v ea ilen : Word) : Res State :=
  if isAligned w ea then
    match s.busWrite w ea v with
    | .done s' => .next (s'.advance ilen)
    | .accessError => s.storeFailed ilen
    | .refused r => .refused r
  else s.takeException 6#4

/-- A conditional branch (41_control_transfer.md R203). -/
def branch (s : State) (taken : Bool) (offset ilen : Word) : State :=
  if taken then s.jumpTo (s.pc + offset) else s.advance ilen

/-- Jump to `t`, linking `pc + ilen` in `rd` (41_control_transfer.md R201, R202). -/
def jumpLink (s : State) (rd : Reg) (t ilen : Word) : State := (s.setReg rd (s.pc + ilen)).jumpTo t

/-- The common course of the CSR instructions (43_system.md R244): check, read, write `update old` if the form writes,
`rd <- old`. -/
def csrAccess (s : State) (rd : Reg) (csr : BitVec 12) (writes : Bool) (update : Word → Word) : Res State :=
  match s.csrCheck csr writes with
  | none => s.takeException 2#4
  | some c =>
    let (old, s1) := s.csrRead c
    let s2 := if writes then s1.csrWrite c (update old) else s1
    .next (s2.finishReg rd old ilen4)

end State

end Sys2Proof.Machine
end

