-- ==== Sys2Proof/Machine/Debug.lean ====
section
/-!
DEFINITION. Resets (70_reset_and_hazards.md R561) and the debug module as the debug host drives it: its registers, abstract
commands, resume (64_debug.md R521 to R546).
-/

namespace Sys2Proof.Machine

/-- The debug-module registers by their 7-bit address (64_debug.md R521). -/
inductive DmReg where
  | data0 | data1 | dmcontrol | dmstatus | hartinfo | abstractcs | command | progbuf (i : Fin 8) | haltsum0 | absent
  deriving DecidableEq, Repr

/-- The register at an address of the debug interface (64_debug.md R521). -/
def dmReg (a : BitVec 7) : DmReg :=
  match a with
  | 0x04#7 => .data0
  | 0x05#7 => .data1
  | 0x10#7 => .dmcontrol
  | 0x11#7 => .dmstatus
  | 0x12#7 => .hartinfo
  | 0x16#7 => .abstractcs
  | 0x17#7 => .command
  | 0x20#7 => .progbuf 0
  | 0x21#7 => .progbuf 1
  | 0x22#7 => .progbuf 2
  | 0x23#7 => .progbuf 3
  | 0x24#7 => .progbuf 4
  | 0x25#7 => .progbuf 5
  | 0x26#7 => .progbuf 6
  | 0x27#7 => .progbuf 7
  | 0x40#7 => .haltsum0
  | _ => .absent

/-- The bytes of read-only memory, which a reset leaves (10_state.md R60; notes/assumptions/29.md). -/
def Memory.romOnly (c : Config) (m : Memory) : Memory := m.filter fun e => isRom c e.1

namespace State

/-- The hart, the PFIC, SysTick and RAM after a reset; the debug module and the debug CSRs stay (70_reset_and_hazards.md
R561; notes/assumptions/29.md). -/
def systemReset (s : State) : State :=
  { atReset s.cfg with
    dcsr := s.dcsr
    dpc := s.dpc
    dscratch0 := s.dscratch0
    dscratch1 := s.dscratch1
    dm := { s.dm with havereset := true, busy := false }
    haltOnReset := s.haltOnReset
    mem := s.mem.romOnly s.cfg
    schedule := s.schedule
    freeCtr := s.freeCtr
    boots := s.boots + 1 }

/-- Debug mode directly after reset, if the debug host asked for it (64_debug.md R540, cause 101;
notes/assumptions/31.md). -/
def resetEntry (s : State) : State := if s.haltOnReset then s.enterDebug 5#3 s.pc else s

/-- Power-on or pin reset, which resets the debug module and the debug CSRs too (70_reset_and_hazards.md R561 kind 4;
notes/assumptions/30.md). -/
def powerReset (s : State) : State :=
  { atReset s.cfg with
    haltOnReset := s.haltOnReset
    mem := s.mem.romOnly s.cfg
    schedule := s.schedule
    freeCtr := s.freeCtr
    boots := s.boots + 1 }

/-! ### What the debug host reads -/

/-- dmcontrol as it reads (64_debug.md R523): the write-only fields read 0 but for haltreq, which is free
(notes/assumptions/36.md). -/
def dmcontrolView (s : State) : Word :=
  (if s.freshBool then 0x80000000#32 else 0#32) ||| (if s.dm.ndmreset then 2#32 else 0#32) |||
    (if s.dm.dmactive then 1#32 else 0#32)

/-- dmstatus (64_debug.md R524; notes/assumptions/36.md). Bits 11 to 8 follow the running state as R524 says, so that right
after reset bits 11 and 10 are 1: the table of 10_state.md R60 has them 0 there, and that R524 is followed is the model's
choice. -/
def dmstatusView (s : State) : Word :=
  0x82#32 ||| (if s.dm.havereset then 0x000C0000#32 else 0#32) ||| (if s.dm.resumeack then 0x00030000#32 else 0#32) |||
    (if s.inDebug then 0x300#32 else 0xC00#32)

/-- abstractcs (64_debug.md R527). -/
def abstractcsView (s : State) : Word :=
  0x08000002#32 ||| (if s.dm.busy then 0x1000#32 else 0#32) ||| (s.dm.cmder.setWidth 32 <<< 8)

/-- The debug host has read a word. -/
def hostGets (s : State) (v : Word) : State := { s with dm := { s.dm with sdiRead := v } }

/-- `cmder` 001: a register touched while a command runs (64_debug.md R527). -/
def busyError (s : State) : State := s.setCmder 1#3

/-- The debug host reads a register (64_debug.md R522 to R530). What an address without a register reads as is not in
R521: a free value is the model's choice (notes/assumptions/36.md). So is that a read of data0, data1 or progbuf while a
command runs, for which R527 gives only the error code, answers the value the register holds (notes/assumptions/35.md). -/
def hostRead (s : State) (a : BitVec 7) : State :=
  match dmReg a with
  | .data0 => (if s.dm.busy then s.busyError else s).hostGets s.dm.data0
  | .data1 => (if s.dm.busy then s.busyError else s).hostGets s.dm.data1
  | .dmcontrol => s.drawn.hostGets s.dmcontrolView
  | .dmstatus => s.hostGets s.dmstatusView
  | .hartinfo => s.hostGets 0x002120F4#32
  | .abstractcs => s.hostGets s.abstractcsView
  | .progbuf i => (if s.dm.busy then s.busyError else s).hostGets s.dm.progbuf[i.val]
  | .haltsum0 => s.hostGets (boolWord s.inDebug)
  | .command | .absent => s.drawn.hostGets s.freshWord

/-! ### Abstract commands -/

/-- The mask of the bits an abstract access of a size moves (64_debug.md R528). -/
def aarMask (size : BitVec 3) : Word :=
  match size with
  | 0#3 => 0xFF#32
  | 1#3 => 0xFFFF#32
  | _ => 0xFFFFFFFF#32

/-- A value of which an access of a size brings only the low bits: the others are free (notes/assumptions/35.md). -/
def narrowed (s : State) (size : BitVec 3) (v : Word) : Word × State :=
  if aarMask size = 0xFFFFFFFF#32 then (v, s) else ((v &&& aarMask size) ||| (s.freshWord &&& ~~~aarMask size), s.drawn)

/-- The transfer of an abstract command: a CSR or a general register to or from data0, or none where the access ends
with an exception (64_debug.md R531 to R533). -/
def abstractTransfer (s : State) (cmd : Word) : Res (Option State) :=
  let regno := cmd.extractLsb' 0 16
  let size := cmd.extractLsb' 20 3
  let write := cmd.getLsbD 16
  if regno.toNat < 0x1000 then
    match s.csrCheck (regno.setWidth 12) write with
    | none => .next none
    | some c =>
      if write then
        let (v, s1) := s.narrowed size s.dm.data0
        .next (some (s1.csrWrite c v))
      else
        let (old, s1) := s.csrRead c
        let (v, s2) := s1.narrowed size old
        .next (some { s2 with dm := { s2.dm with data0 := v } })
  else if h : 0x1000 ≤ regno.toNat ∧ regno.toNat < 0x1010 then
    let r : Reg := ⟨regno.toNat - 0x1000, by omega⟩
    if write then
      let (v, s1) := s.narrowed size s.dm.data0
      .next (some (s1.setReg r v))
    else
      let (v, s1) := s.narrowed size (s.reg r)
      .next (some { s1 with dm := { s1.dm with data0 := v } })
  else .refused .debugRegno

/-- The command after its access, with `regno` increased under aarpostincrement (64_debug.md R528, R531;
notes/assumptions/35.md). -/
def postincrement (s : State) (cmd : Word) : State :=
  if cmd.getLsbD 19 then
    { s with dm := { s.dm with command := (cmd &&& 0xFFFF0000#32) ||| ((cmd + 1#32) &&& 0x0000FFFF#32) } }
  else s

/-- Begin to execute the program buffer from progbuf0 (64_debug.md R535). -/
def startProgbuf (s : State) : State :=
  ({ s with dm := { s.dm with busy := true } } : State).jumpTo s.cfg.progbufBase

/-- A write to `command` with the hart ready to take it (64_debug.md R528, R531). -/
def runCommand (s : State) (cmd : Word) : Res State :=
  let s0 : State := { s with dm := { s.dm with command := cmd } }
  if cmd.extractLsb' 24 8 ≠ 0#8 ∨ 3 ≤ (cmd.extractLsb' 20 3).toNat then .next (s0.setCmder 2#3)
  else
    andThen (if cmd.getLsbD 17 then s0.abstractTransfer cmd else .next (some s0)) fun o =>
      match o with
      | none => .next (s0.setCmder 3#3)
      | some s1 =>
        let s2 := s1.postincrement cmd
        .next (if cmd.getLsbD 18 then s2.startProgbuf else s2)

/-- A write to `command` (64_debug.md R527, R531). R531 gives 010 for an unsupported command and 100 for a hart that is not
halted, without an order: that 100 is reported where both hold is the model's choice (notes/assumptions/35.md). -/
def writeCommand (s : State) (cmd : Word) : Res State :=
  if s.dm.busy then .next s.busyError
  else if s.inDebug then s.runCommand cmd
  else .next (s.setCmder 4#3)

/-! ### What the debug host writes -/

/-- A resume request (64_debug.md R541; notes/assumptions/37.md). -/
def resume (s : State) : Res State :=
  if s.inDebug && !s.dm.busy then
    if s.prv ≠ 3#2 then .refused .debugPrv
    else if s.dpc.getLsbD 0 then .fault .oddPc
    else .next (({ s with run := .running, dm := { s.dm with resumeack := true } } : State).jumpTo s.dpc)
  else .next s

/-- The end of `ndmreset`: the hart leaves reset (64_debug.md R545). -/
def releaseReset (s : State) : State := ({ s with dm := { s.dm with ndmreset := false } } : State).resetEntry

/-- `ndmreset` and `ackhavereset` of a write to dmcontrol (64_debug.md R523, R545). -/
def writeNdmreset (s : State) (v : Word) : State :=
  let s1 : State := if v.getLsbD 28 then { s with dm := { s.dm with havereset := false } } else s
  if v.getLsbD 1 then { s1.systemReset with dm := { s1.systemReset.dm with ndmreset := true } }
  else if s1.dm.ndmreset then s1.releaseReset
  else s1

/-- A write to dmcontrol (64_debug.md R523, R541, R545). With dmactive 0 the debug module is reset (R561 kind 3). -/
def writeDmcontrol (s : State) (v : Word) : Res State :=
  if v.getLsbD 0 then
    let s1 : State := { s with dm := { s.dm with dmactive := true, haltreq := v.getLsbD 31 } }
    let s2 := s1.writeNdmreset v
    if v.getLsbD 30 && !v.getLsbD 1 then s2.resume else .next s2
  else .next { (if s.dm.ndmreset then s.releaseReset else s) with dm := DebugModule.reset }

/-- The debug host writes a register (64_debug.md R522 to R530); with dmactive 0 only dmcontrol takes a write
(notes/assumptions/34.md). That a write to an address without a register is ignored is the model's choice, R521 says
nothing of it (notes/assumptions/36.md). So is that a write to data0, data1, progbuf, abstractcs or command while a command
runs, for which R527 gives only the error code, is dropped (notes/assumptions/35.md). -/
def hostWrite (s : State) (a : BitVec 7) (v : Word) : Res State :=
  match dmReg a with
  | .dmcontrol => s.writeDmcontrol v
  | r =>
    if s.dm.dmactive then
      match r with
      | .data0 =>
        .next (if s.dm.busy then s.busyError else { s with dm := { s.dm with data0 := v } })
      | .data1 =>
        .next (if s.dm.busy then s.busyError else { s with dm := { s.dm with data1 := v } })
      | .abstractcs =>
        .next
          (if s.dm.busy then s.busyError
           else { s with dm := { s.dm with cmder := s.dm.cmder &&& ~~~(v.extractLsb' 8 3) } })
      | .command => s.writeCommand v
      | .progbuf i =>
        .next
          (if s.dm.busy then s.busyError
           else { s with dm := { s.dm with progbuf := s.dm.progbuf.set i.val v } })
      | .dmcontrol | .dmstatus | .hartinfo | .haltsum0 | .absent => .next s
    else .next s

end State

end Sys2Proof.Machine
end

