-- ==== Sys2Proof/Machine/Compressed.lean ====
section
/-!
DEFINITION. The 16-bit instructions of the C extension (45_compressed.md R280 to R307).
-/

namespace Sys2Proof.Machine

/-! ### Quadrant 0 -/

/-- C.ADDI4SPN (45_compressed.md R281). -/
def execCAddi4spn (rd : Reg) (nzuimm : BitVec 10) (s : State) : Res State :=
  .next (s.finishReg rd (s.reg 2 + zext nzuimm) ilen2)

/-- C.LW (R282). -/
def execCLw (rd rs1 : Reg) (uimm : BitVec 7) (s : State) : Res State :=
  s.load .word .unsigned rd (s.reg rs1 + zext uimm) ilen2

/-- C.SW (R283). -/
def execCSw (rs2 rs1 : Reg) (uimm : BitVec 7) (s : State) : Res State :=
  s.store .word (s.reg rs2) (s.reg rs1 + zext uimm) ilen2

/-! ### Quadrant 1 -/

/-- C.NOP (R284: a HINT immediate does nothing either). -/
def execCNop (_imm : BitVec 6) (s : State) : Res State :=
  .next (s.advance ilen2)

/-- C.ADDI (R285). -/
def execCAddi (rd : Reg) (imm : BitVec 6) (s : State) : Res State :=
  .next (s.finishReg rd (s.reg rd + sext imm) ilen2)

/-- C.JAL (R286). -/
def execCJal (imm : BitVec 12) (s : State) : Res State :=
  .next (s.jumpLink 1 (s.pc + sext imm) ilen2)

/-- C.LI (R287). -/
def execCLi (rd : Reg) (imm : BitVec 6) (s : State) : Res State :=
  .next (s.finishReg rd (sext imm) ilen2)

/-- C.ADDI16SP (R288). -/
def execCAddi16sp (nzimm : BitVec 10) (s : State) : Res State :=
  .next (s.finishReg 2 (s.reg 2 + sext nzimm) ilen2)

/-- C.LUI (R289). -/
def execCLui (rd : Reg) (nzimm : BitVec 6) (s : State) : Res State :=
  .next (s.finishReg rd (sext (nzimm ++ 0#12)) ilen2)

/-- C.SRLI (R290). -/
def execCSrli (rd : Reg) (shamt : BitVec 5) (s : State) : Res State :=
  .next (s.finishReg rd (s.reg rd >>> shamt.toNat) ilen2)

/-- C.SRAI (R291). -/
def execCSrai (rd : Reg) (shamt : BitVec 5) (s : State) : Res State :=
  .next (s.finishReg rd ((s.reg rd).sshiftRight shamt.toNat) ilen2)

/-- C.ANDI (R292). -/
def execCAndi (rd : Reg) (imm : BitVec 6) (s : State) : Res State :=
  .next (s.finishReg rd (s.reg rd &&& sext imm) ilen2)

/-- C.SUB (R293). -/
def execCSub (rd rs2 : Reg) (s : State) : Res State :=
  .next (s.finishReg rd (s.reg rd - s.reg rs2) ilen2)

/-- C.XOR (R294). -/
def execCXor (rd rs2 : Reg) (s : State) : Res State :=
  .next (s.finishReg rd (s.reg rd ^^^ s.reg rs2) ilen2)

/-- C.OR (R295). -/
def execCOr (rd rs2 : Reg) (s : State) : Res State :=
  .next (s.finishReg rd (s.reg rd ||| s.reg rs2) ilen2)

/-- C.AND (R296). -/
def execCAnd (rd rs2 : Reg) (s : State) : Res State :=
  .next (s.finishReg rd (s.reg rd &&& s.reg rs2) ilen2)

/-- C.J (R297). -/
def execCJ (imm : BitVec 12) (s : State) : Res State :=
  .next (s.jumpTo (s.pc + sext imm))

/-- C.BEQZ (R298). -/
def execCBeqz (rs1 : Reg) (imm : BitVec 9) (s : State) : Res State :=
  .next (s.branch (decide (s.reg rs1 = 0#32)) (sext imm) ilen2)

/-- C.BNEZ (R299). -/
def execCBnez (rs1 : Reg) (imm : BitVec 9) (s : State) : Res State :=
  .next (s.branch (decide (s.reg rs1 ≠ 0#32)) (sext imm) ilen2)

/-! ### Quadrant 2 -/

/-- C.SLLI (R300). -/
def execCSlli (rd : Reg) (shamt : BitVec 5) (s : State) : Res State :=
  .next (s.finishReg rd (s.reg rd <<< shamt.toNat) ilen2)

/-- C.LWSP (R301). -/
def execCLwsp (rd : Reg) (uimm : BitVec 8) (s : State) : Res State :=
  s.load .word .unsigned rd (s.reg 2 + zext uimm) ilen2

/-- C.JR (R302). -/
def execCJr (rs1 : Reg) (s : State) : Res State :=
  .next (s.jumpTo (s.reg rs1 &&& 0xFFFFFFFE#32))

/-- C.MV (R303). -/
def execCMv (rd rs2 : Reg) (s : State) : Res State :=
  .next (s.finishReg rd (s.reg rs2) ilen2)

/-- C.EBREAK (R304). -/
def execCEbreak (s : State) : Res State :=
  s.breakpoint

/-- C.JALR (R305: the target uses the old rs1). -/
def execCJalr (rs1 : Reg) (s : State) : Res State :=
  .next (s.jumpLink 1 (s.reg rs1 &&& 0xFFFFFFFE#32) ilen2)

/-- C.ADD (R306). -/
def execCAdd (rd rs2 : Reg) (s : State) : Res State :=
  .next (s.finishReg rd (s.reg rd + s.reg rs2) ilen2)

/-- C.SWSP (R307). -/
def execCSwsp (rs2 : Reg) (uimm : BitVec 8) (s : State) : Res State :=
  s.store .word (s.reg rs2) (s.reg 2 + zext uimm) ilen2

end Sys2Proof.Machine
end

