-- ==== Sys2Proof/Machine/Control.lean ====
section
/-!
DEFINITION. The 32-bit control transfers (41_control_transfer.md R200 to R209).
-/

namespace Sys2Proof.Machine

/-- JAL (41_control_transfer.md R201). -/
def execJal (rd : Reg) (imm : BitVec 21) (s : State) : Res State :=
  .next (s.jumpLink rd (s.pc + sext imm) ilen4)

/-- JALR (R202): bit 0 of the sum is cleared, and the target uses the old value of rs1. -/
def execJalr (rd rs1 : Reg) (imm : BitVec 12) (s : State) : Res State :=
  .next (s.jumpLink rd (s.baseOffset rs1 imm &&& 0xFFFFFFFE#32) ilen4)

/-- BEQ (R203, R204). -/
def execBeq (rs1 rs2 : Reg) (imm : BitVec 13) (s : State) : Res State :=
  .next (s.branch (decide (s.reg rs1 = s.reg rs2)) (sext imm) ilen4)

/-- BNE (R203, R205). -/
def execBne (rs1 rs2 : Reg) (imm : BitVec 13) (s : State) : Res State :=
  .next (s.branch (decide (s.reg rs1 ≠ s.reg rs2)) (sext imm) ilen4)

/-- BLT (R203, R206). -/
def execBlt (rs1 rs2 : Reg) (imm : BitVec 13) (s : State) : Res State :=
  .next (s.branch (ltSigned (s.reg rs1) (s.reg rs2)) (sext imm) ilen4)

/-- BGE (R203, R207). -/
def execBge (rs1 rs2 : Reg) (imm : BitVec 13) (s : State) : Res State :=
  .next (s.branch (!ltSigned (s.reg rs1) (s.reg rs2)) (sext imm) ilen4)

/-- BLTU (R203, R208). -/
def execBltu (rs1 rs2 : Reg) (imm : BitVec 13) (s : State) : Res State :=
  .next (s.branch (ltUnsigned (s.reg rs1) (s.reg rs2)) (sext imm) ilen4)

/-- BGEU (R203, R209). -/
def execBgeu (rs1 rs2 : Reg) (imm : BitVec 13) (s : State) : Res State :=
  .next (s.branch (!ltUnsigned (s.reg rs1) (s.reg rs2)) (sext imm) ilen4)

end Sys2Proof.Machine
end

