-- ==== Sys2Proof/Machine/Integer.lean ====
section
/-!
DEFINITION. The integer computational instructions (40_integer_computational.md R160 to R181).
-/

namespace Sys2Proof.Machine

/-! ### Upper-immediate instructions -/

/-- LUI (40_integer_computational.md R161). -/
def execLui (rd : Reg) (imm : BitVec 20) (s : State) : Res State :=
  .next (s.finishReg rd (upperImm imm) ilen4)

/-- AUIPC (R162): the pc is that of the AUIPC itself. -/
def execAuipc (rd : Reg) (imm : BitVec 20) (s : State) : Res State :=
  .next (s.finishReg rd (s.pc + upperImm imm) ilen4)

/-! ### Register-immediate instructions -/

/-- ADDI (R163). -/
def execAddi (rd rs1 : Reg) (imm : BitVec 12) (s : State) : Res State :=
  .next (s.finishReg rd (s.reg rs1 + sext imm) ilen4)

/-- SLTI (R164). -/
def execSlti (rd rs1 : Reg) (imm : BitVec 12) (s : State) : Res State :=
  .next (s.finishReg rd (boolWord (ltSigned (s.reg rs1) (sext imm))) ilen4)

/-- SLTIU (R165). -/
def execSltiu (rd rs1 : Reg) (imm : BitVec 12) (s : State) : Res State :=
  .next (s.finishReg rd (boolWord (ltUnsigned (s.reg rs1) (sext imm))) ilen4)

/-- XORI (R166). -/
def execXori (rd rs1 : Reg) (imm : BitVec 12) (s : State) : Res State :=
  .next (s.finishReg rd (s.reg rs1 ^^^ sext imm) ilen4)

/-- ORI (R167). -/
def execOri (rd rs1 : Reg) (imm : BitVec 12) (s : State) : Res State :=
  .next (s.finishReg rd (s.reg rs1 ||| sext imm) ilen4)

/-- ANDI (R168). -/
def execAndi (rd rs1 : Reg) (imm : BitVec 12) (s : State) : Res State :=
  .next (s.finishReg rd (s.reg rs1 &&& sext imm) ilen4)

/-- SLLI (R169). -/
def execSlli (rd rs1 : Reg) (shamt : BitVec 5) (s : State) : Res State :=
  .next (s.finishReg rd (s.reg rs1 <<< shamt.toNat) ilen4)

/-- SRLI (R170). -/
def execSrli (rd rs1 : Reg) (shamt : BitVec 5) (s : State) : Res State :=
  .next (s.finishReg rd (s.reg rs1 >>> shamt.toNat) ilen4)

/-- SRAI (R171). -/
def execSrai (rd rs1 : Reg) (shamt : BitVec 5) (s : State) : Res State :=
  .next (s.finishReg rd ((s.reg rs1).sshiftRight shamt.toNat) ilen4)

/-! ### Register-register instructions -/

/-- ADD (R172). -/
def execAdd (rd rs1 rs2 : Reg) (s : State) : Res State :=
  .next (s.finishReg rd (s.reg rs1 + s.reg rs2) ilen4)

/-- SUB (R173). -/
def execSub (rd rs1 rs2 : Reg) (s : State) : Res State :=
  .next (s.finishReg rd (s.reg rs1 - s.reg rs2) ilen4)

/-- SLL (R174). -/
def execSll (rd rs1 rs2 : Reg) (s : State) : Res State :=
  .next (s.finishReg rd (s.reg rs1 <<< shiftAmount (s.reg rs2)) ilen4)

/-- SLT (R175). -/
def execSlt (rd rs1 rs2 : Reg) (s : State) : Res State :=
  .next (s.finishReg rd (boolWord (ltSigned (s.reg rs1) (s.reg rs2))) ilen4)

/-- SLTU (R176). -/
def execSltu (rd rs1 rs2 : Reg) (s : State) : Res State :=
  .next (s.finishReg rd (boolWord (ltUnsigned (s.reg rs1) (s.reg rs2))) ilen4)

/-- XOR (R177). -/
def execXor (rd rs1 rs2 : Reg) (s : State) : Res State :=
  .next (s.finishReg rd (s.reg rs1 ^^^ s.reg rs2) ilen4)

/-- SRL (R178). -/
def execSrl (rd rs1 rs2 : Reg) (s : State) : Res State :=
  .next (s.finishReg rd (s.reg rs1 >>> shiftAmount (s.reg rs2)) ilen4)

/-- SRA (R179). -/
def execSra (rd rs1 rs2 : Reg) (s : State) : Res State :=
  .next (s.finishReg rd ((s.reg rs1).sshiftRight (shiftAmount (s.reg rs2))) ilen4)

/-- OR (R180). -/
def execOr (rd rs1 rs2 : Reg) (s : State) : Res State :=
  .next (s.finishReg rd (s.reg rs1 ||| s.reg rs2) ilen4)

/-- AND (R181). -/
def execAnd (rd rs1 rs2 : Reg) (s : State) : Res State :=
  .next (s.finishReg rd (s.reg rs1 &&& s.reg rs2) ilen4)

end Sys2Proof.Machine
end

