-- ==== Sys2Proof/Machine/LoadStore.lean ====
section
/-!
DEFINITION. The 32-bit loads and stores (42_load_store.md R220 to R229).
-/

namespace Sys2Proof.Machine

/-- LB (42_load_store.md R221). -/
def execLb (rd rs1 : Reg) (imm : BitVec 12) (s : State) : Res State :=
  s.load .byte .signed rd (s.baseOffset rs1 imm) ilen4

/-- LH (42_load_store.md R222). -/
def execLh (rd rs1 : Reg) (imm : BitVec 12) (s : State) : Res State :=
  s.load .half .signed rd (s.baseOffset rs1 imm) ilen4

/-- LW (42_load_store.md R223). -/
def execLw (rd rs1 : Reg) (imm : BitVec 12) (s : State) : Res State :=
  s.load .word .unsigned rd (s.baseOffset rs1 imm) ilen4

/-- LBU (42_load_store.md R224). -/
def execLbu (rd rs1 : Reg) (imm : BitVec 12) (s : State) : Res State :=
  s.load .byte .unsigned rd (s.baseOffset rs1 imm) ilen4

/-- LHU (42_load_store.md R225). -/
def execLhu (rd rs1 : Reg) (imm : BitVec 12) (s : State) : Res State :=
  s.load .half .unsigned rd (s.baseOffset rs1 imm) ilen4

/-- SB (42_load_store.md R227). -/
def execSb (rs2 rs1 : Reg) (imm : BitVec 12) (s : State) : Res State :=
  s.store .byte (s.reg rs2) (s.baseOffset rs1 imm) ilen4

/-- SH (42_load_store.md R228). -/
def execSh (rs2 rs1 : Reg) (imm : BitVec 12) (s : State) : Res State :=
  s.store .half (s.reg rs2) (s.baseOffset rs1 imm) ilen4

/-- SW (42_load_store.md R229). -/
def execSw (rs2 rs1 : Reg) (imm : BitVec 12) (s : State) : Res State :=
  s.store .word (s.reg rs2) (s.baseOffset rs1 imm) ilen4

end Sys2Proof.Machine
end

