-- ==== Sys2Proof/Machine/Multiply.lean ====
section
/-!
DEFINITION. The multiplies of Zmmul (44_zmmul.md R271 to R275); decoding refuses them on V2A (R270).
-/

namespace Sys2Proof.Machine

/-- The bits [63:32] of an exact product (44_zmmul.md R271). -/
def highWord (p : Int) : Word := (BitVec.ofInt 64 p).extractLsb' 32 32

/-- MUL (R272). -/
def execMul (rd rs1 rs2 : Reg) (s : State) : Res State :=
  .next (s.finishReg rd (s.reg rs1 * s.reg rs2) ilen4)

/-- MULH (R273). -/
def execMulh (rd rs1 rs2 : Reg) (s : State) : Res State :=
  .next (s.finishReg rd (highWord ((s.reg rs1).toInt * (s.reg rs2).toInt)) ilen4)

/-- MULHSU (R274). -/
def execMulhsu (rd rs1 rs2 : Reg) (s : State) : Res State :=
  .next (s.finishReg rd (highWord ((s.reg rs1).toInt * ((s.reg rs2).toNat : Int))) ilen4)

/-- MULHU (R275). -/
def execMulhu (rd rs1 rs2 : Reg) (s : State) : Res State :=
  .next (s.finishReg rd (highWord (((s.reg rs1).toNat : Int) * ((s.reg rs2).toNat : Int))) ilen4)

end Sys2Proof.Machine
end

