-- ==== Sys2Proof/Machine/System.lean ====
section
/-!
DEFINITION. Fences, calls, CSR instructions, trap return and wait (43_system.md R240 to R253).
-/

namespace Sys2Proof.Machine

/-- FENCE (43_system.md R240): completes the accesses in flight; its other fields are ignored. -/
def execFence (_fm _pred _succ : BitVec 4) (_rs1 _rd : BitVec 5) (s : State) : Res State :=
  (s.advance ilen4).settleErrors

/-- FENCE.I (R241): fetches see every earlier store, the core's mask copies follow what software wrote, and no access
error stays in flight (60_exceptions.md R358). -/
def execFenceI (_imm : BitVec 12) (_rs1 _rd : BitVec 5) (s : State) : Res State :=
  (s.syncMasks.advance ilen4).settleErrors

/-- ECALL (R242): exception 11, with `mepc` the ECALL's own address. -/
def execEcall (s : State) : Res State :=
  s.takeException 11#4

/-- EBREAK (R243). -/
def execEbreak (s : State) : Res State :=
  s.breakpoint

/-- CSRRW (R244, R245). -/
def execCsrrw (rd : Reg) (csr : BitVec 12) (rs1 : Reg) (s : State) : Res State :=
  s.csrAccess rd csr true (fun _ => s.reg rs1)

/-- CSRRS (R244, R246): no write when the rs1 field is x0. -/
def execCsrrs (rd : Reg) (csr : BitVec 12) (rs1 : Reg) (s : State) : Res State :=
  s.csrAccess rd csr (decide (rs1 ≠ 0)) (fun old => old ||| s.reg rs1)

/-- CSRRC (R244, R247): no write when the rs1 field is x0. -/
def execCsrrc (rd : Reg) (csr : BitVec 12) (rs1 : Reg) (s : State) : Res State :=
  s.csrAccess rd csr (decide (rs1 ≠ 0)) (fun old => old &&& ~~~s.reg rs1)

/-- CSRRWI (R244, R248). -/
def execCsrrwi (rd : Reg) (csr : BitVec 12) (uimm : BitVec 5) (s : State) : Res State :=
  s.csrAccess rd csr true (fun _ => zext uimm)

/-- CSRRSI (R244, R249): no write when the immediate is 0. -/
def execCsrrsi (rd : Reg) (csr : BitVec 12) (uimm : BitVec 5) (s : State) : Res State :=
  s.csrAccess rd csr (decide (uimm ≠ 0)) (fun old => old ||| zext uimm)

/-- CSRRCI (R244, R250): no write when the immediate is 0. -/
def execCsrrci (rd : Reg) (csr : BitVec 12) (uimm : BitVec 5) (s : State) : Res State :=
  s.csrAccess rd csr (decide (uimm ≠ 0)) (fun old => old &&& ~~~zext uimm)

/-- MRET (R252, 60_exceptions.md R380), after which no access error stays in flight (60_exceptions.md R358). -/
def execMret (s : State) : Res State :=
  andThen s.trapReturn State.settleMret

/-- WFI (R253, 63_low_power.md R500), at which no access error stays in flight (60_exceptions.md R358). -/
def execWfi (s : State) : Res State :=
  (s.advance ilen4).waitForInterrupt.settleErrors

end Sys2Proof.Machine
end

