-- ==== Sys2Proof/Machine/Xw.lean ====
section
/-!
DEFINITION. The XW loads and stores, with the operands `xw_decode` supplies (46_xw.md R331 to R340;
notes/assumptions/6.md).
-/

namespace Sys2Proof.Machine

/-- c.lbu (46_xw.md R331, R333). -/
def execCLbu (rd rs1 : Reg) (uimm : Word) (s : State) : Res State :=
  s.load .byte .unsigned rd (s.reg rs1 + uimm) ilen2

/-- c.lhu (R331, R334). -/
def execCLhu (rd rs1 : Reg) (uimm : Word) (s : State) : Res State :=
  s.load .half .unsigned rd (s.reg rs1 + uimm) ilen2

/-- c.sb (R331, R335). -/
def execCSb (rs2 rs1 : Reg) (uimm : Word) (s : State) : Res State :=
  s.store .byte (s.reg rs2) (s.reg rs1 + uimm) ilen2

/-- c.sh (R331, R336). -/
def execCSh (rs2 rs1 : Reg) (uimm : Word) (s : State) : Res State :=
  s.store .half (s.reg rs2) (s.reg rs1 + uimm) ilen2

/-- c.lbusp (R331, R337). -/
def execCLbusp (rd : Reg) (uimm : Word) (s : State) : Res State :=
  s.load .byte .unsigned rd (s.reg 2 + uimm) ilen2

/-- c.lhusp (R331, R338). -/
def execCLhusp (rd : Reg) (uimm : Word) (s : State) : Res State :=
  s.load .half .unsigned rd (s.reg 2 + uimm) ilen2

/-- c.sbsp (R331, R339). -/
def execCSbsp (rs2 : Reg) (uimm : Word) (s : State) : Res State :=
  s.store .byte (s.reg rs2) (s.reg 2 + uimm) ilen2

/-- c.shsp (R331, R340). -/
def execCShsp (rs2 : Reg) (uimm : Word) (s : State) : Res State :=
  s.store .half (s.reg rs2) (s.reg 2 + uimm) ilen2

end Sys2Proof.Machine
end

