-- ==== Sys2Proof/Machine/Interrupts.lean ====
section
/-!
DEFINITION. Which interrupt is taken at an instruction boundary, and taking it (60_exceptions.md R366, R370 to R374,
R378).
-/

namespace Sys2Proof.Machine.State

/-- `prio[n]`, of which bits [7:6] are implemented (61_pfic.md R431). -/
def prioOf (s : State) (n : Irq) : Byte := s.pfic.prio[n.val] &&& 0xC0#8

/-- The threshold lets interrupt `n` through (60_exceptions.md R371 item 4). -/
def overThreshold (s : State) (n : Irq) : Bool :=
  decide (s.pfic.ithresdr.extractLsb' 0 8 = 0#8) ||
    decide ((s.prioOf n).toNat < (s.pfic.ithresdr.extractLsb' 0 8).toNat)

/-- The nesting rule lets interrupt `n` through (60_exceptions.md R371 item 5): no programmable interrupt pre-empts an
exception or NMI. -/
def nestingAllows (s : State) (n : Irq) : Bool :=
  match s.activeStack with
  | [] => true
  | [.irq m] => s.inesten && decide (m ≠ 2) && !(s.prioOf n).getLsbD 7 && (s.prioOf m).getLsbD 7
  | _ => false

/-- The programmable numbers that are pending and enabled as the core sees it (60_exceptions.md R371 items 1, 2). -/
def candidates (s : State) : BitVec 256 := s.pending &&& s.pfic.enableEff &&& ~~~fixedIrqs

/-- Deliverability of a programmable interrupt (60_exceptions.md R371). -/
def deliverable (s : State) (n : Irq) : Bool :=
  s.candidates.getLsbD n.val && s.mieEff && s.overThreshold n && s.nestingAllows n

/-- NMI is deliverable (60_exceptions.md R374). -/
def nmiDeliverable (s : State) : Bool :=
  s.pending.getLsbD 2 &&
    (match s.activeStack with
     | [] => true
     | [t] => decide (t ≠ .irq 2)
     | _ => false)

/-- The better of the best interrupt so far and another one with a higher number (60_exceptions.md R373). -/
def betterIrq (s : State) (best : Option Irq) (n : Irq) : Option Irq :=
  if s.deliverable n then
    match best with
    | none => some n
    | some b => if (s.prioOf n).toNat < (s.prioOf b).toNat then some n else some b
  else best

/-- The programmable interrupt to take: the smallest priority value, then the lowest number (60_exceptions.md R373; the
pre-emption bit is the top bit of the value, so it is compared first). -/
def bestIrq (s : State) : Option Irq :=
  if s.mieEff && decide (s.candidates ≠ 0#256) then (List.finRange 256).foldl s.betterIrq none else none

/-- `mcause` of interrupt `n` (60_exceptions.md R362). -/
def irqCause (n : Irq) : Word := 0x80000000#32 ||| BitVec.ofNat 32 n.val

/-- The latch after interrupt `n` is entered (60_exceptions.md R366). -/
def clearLatchOnEntry (s : State) (n : Irq) : State :=
  if s.cfg.pendingClearOnEntry then
    { s with pfic := { s.pfic with pendLatch := s.pfic.pendLatch &&& ~~~(1#256 <<< n.val) } }
  else s

/-- Take an interrupt at this boundary (60_exceptions.md R361, R370). `tail` says that the last step was an `mret` that
popped a frame. That the latch is cleared before the HPE push, which could store to PFIC_IPSR, is the model's choice: the
spec fixes no order within an entry (N60-1; notes/assumptions/21.md). -/
def takeInterrupt (s : State) (tail : Bool) (n : Irq) : Res State :=
  andThen ((s.clearLatchOnEntry n).enterTrap (.irq n) (irqCause n) s.pc) fun s1 =>
    .next (if tail && s.hwstken then s1.freeHpeRegs else s1)

end Sys2Proof.Machine.State
end

