-- ==== Sys2Proof/Machine/Cycle.lean ====
section
/-!
DEFINITION. One step: the inputs that fall at this instruction boundary, then the one thing the hart does there
(notes/assumptions/7.md, 32.md).
-/

namespace Sys2Proof.Machine

/-- The 16-bit parcel at a byte offset of the program buffer (64_debug.md R529). -/
def progbufParcel (buf : Vector Word 8) (off : Nat) : Parcel :=
  (buf[off / 4 % 8]'(Nat.mod_lt _ (by omega))).extractLsb' (16 * (off / 2 % 2)) 16

namespace State

/-! ### Inputs -/

/-- What one input does (notes/assumptions/7.md). -/
def applyEvent (s : State) (e : Event) : Res State :=
  match e with
  | .tick => .next s.tick
  | .setRequest n level =>
    .next
      (noteNewPending s
        { s with
          pfic :=
            { s.pfic with
              request :=
                if level then s.pfic.request ||| (1#256 <<< n.val) else s.pfic.request &&& ~~~(1#256 <<< n.val) } })
  | .extEvent => .next { s with event := true }
  | .takeError => .next { s with dueErrors := min s.inflight.length (s.dueErrors + 1) }
  | .syncEnable n =>
    .next
      { s with
        pfic := { s.pfic with enableEff := s.pfic.enableEff &&& ~~~((1#256 <<< n.val) &&& ~~~s.pfic.enable) } }
  | .syncMie => .next { s with mieEff := s.mieEff && s.mie }
  | .hostWrite a v => s.hostWrite a v
  | .hostRead a => .next (s.hostRead a)
  | .sdiParityError => .next (s.setCmder 6#3)
  | .powerReset => .next s.powerReset.resetEntry
  | .haltOnReset b => .next { s with haltOnReset := b }

/-- The inputs of one boundary, in order. -/
def applyEvents : List Event → State → Res State
  | [], s => .next s
  | e :: es, s => andThen (s.applyEvent e) (applyEvents es)

/-- Take this step's inputs off the schedule and apply them. -/
def applyInputs (s : State) : Res State :=
  match s.schedule with
  | [] => .next s
  | es :: rest => applyEvents es { s with schedule := rest }

/-! ### Executing an instruction -/

/-- The end of an instruction's step: under single step the hart re-enters Debug mode (64_debug.md R542;
notes/assumptions/33.md). That `tailPop` outlives the Debug mode after a single-stepped `mret` is the model's choice
(notes/assumptions/18.md). -/
def stepDone (s t : State) : State :=
  if s.stepBit && !t.inDebug then t.enterDebug (if t.dm.haltreq then 3#3 else 4#3) t.pc else t

/-- Decode the parcels fetched at the pc and execute (30_encoding.md R120, R140; notes/assumptions/5.md, 6.md). -/
def executeParcels (s : State) (ps : List Parcel) : Res State :=
  match decode s.cfg.isa ps with
  | .ok (i, _) => exec i s
  | .error .xwNotSupplied => .refused .xwDecodeNotSupplied
  | .error _ => s.takeException 2#4

/-- Fetch, decode and execute the instruction at the pc (20_memory.md R88, 60_exceptions.md R359; notes/assumptions/22.md). -/
def runInstruction (s : State) : Res State :=
  if s.pc.getLsbD 0 then .fault .oddPc
  else
    match s.fetch s.pc with
    | none => s.takeException 1#4
    | some (p, s1) =>
      if isWide p then
        if s.pc = 0xFFFFFFFE#32 then .fault .fetchStraddlesTop
        else
          match s1.fetch (s.pc + 2#32) with
          | none => s1.takeException 1#4
          | some (q, s2) => s2.executeParcels [p, q]
      else s1.executeParcels [p]

/-- One instruction of the program buffer (64_debug.md R535, R536). A buffer of fewer than 32 bytes without a final ebreak
is not defined in R536: that its remaining words are then executed as instructions is the model's choice, as are the two
refusals (notes/assumptions/34.md). -/
def runProgbuf (s : State) : Res State :=
  let off := (s.pc - s.cfg.progbufBase).toNat
  if s.pc.getLsbD 0 then .fault .oddPc
  else if off = 32 then .next s.endProgbuf
  else if 32 < off then .refused .progbufLeft
  else if isWide (progbufParcel s.dm.progbuf off) then
    if off = 30 then .refused .progbufOverrun
    else s.executeParcels [progbufParcel s.dm.progbuf off, progbufParcel s.dm.progbuf (off + 2)]
  else s.executeParcels [progbufParcel s.dm.progbuf off]

/-! ### The instruction boundary -/

/-- The boundary of a hart that executes the program buffer: an access error that is due, or the next instruction
(64_debug.md R535; notes/assumptions/34.md). -/
def progbufBoundary (s : State) : Res State :=
  if s.eabien then .fault .eabiEnabled
  else if decide (0 < s.dueErrors) && !s.inflight.isEmpty then s.takeAccessError
  else s.runProgbuf

/-- Interrupts are held back under single step without `dcsr.stepie` (64_debug.md R542). -/
def interruptsHeld (s : State) : Bool := s.stepBit && !s.stepie

/-- The trap that is taken at this boundary, if any: NMI, then a due access error, then the best programmable interrupt
(60_exceptions.md R352, R358, R370, R373, R374; notes/assumptions/32.md). -/
def boundaryTrap (s : State) (tail : Bool) : Option (Res State) :=
  if s.nmiDeliverable && !s.interruptsHeld then some (s.takeInterrupt tail 2)
  else if decide (0 < s.dueErrors) && !s.inflight.isEmpty then some s.takeAccessError
  else if s.interruptsHeld then none
  else s.bestIrq.map fun n => s.takeInterrupt tail n

/-- The hart wakes and goes on at the resume address (63_low_power.md R503, R510). -/
def wake (s : State) : State := { s with run := .running, deepSleep := false }

/-- Some interrupt is pending and enabled (63_low_power.md R509). -/
def maskedPending (s : State) : Bool := decide (s.pending &&& s.enabled &&& ~~~8#256 ≠ 0#256)

/-- Asleep with no trap to take: an interrupt that is pending and enabled but held back wakes the hart or does not
(63_low_power.md R509, U-19; notes/assumptions/41.md). -/
def stayAsleep (s : State) : State :=
  if s.maskedPending then (if s.freshBool then s.drawn.wake else s.drawn) else s

/-- What a hart that neither halts nor takes a trap does (63_low_power.md R500 to R509). -/
def runOrSleep (s : State) : Res State :=
  match s.run with
  | .running => andThen s.runInstruction fun t => .next (s.stepDone t)
  | .sleepingWfi => .next s.stayAsleep
  | .sleepingWfe => if s.event then .next ({ s with event := false } : State).wake else .next s.stayAsleep
  | .haltedDebug => .next s

/-- The boundary of a hart that runs or sleeps: a halt request, then the traps, then the next instruction or the event
that ends a WFE sleep (notes/assumptions/32.md). 63_low_power.md R503 does not say which of its wake-ups comes first: that
a latched event is consumed only where no halt request and no trap comes before it is the model's choice. -/
def hartBoundary (s : State) (tail : Bool) : Res State :=
  if s.dm.haltreq && !s.deepSleep then .next (s.enterDebug 3#3 s.pc)
  else if s.eabien then .fault .eabiEnabled
  else
    match s.boundaryTrap tail with
    | some r => r
    | none => s.runOrSleep

/-- One instruction boundary: a requested reset, the hart held in reset, Debug mode, or the hart itself
(61_pfic.md R437, 64_debug.md R535, R545). -/
def boundary (s : State) : Res State :=
  if s.resetReq then .next s.systemReset.resetEntry
  else if s.dm.ndmreset then .next s
  else if s.inDebug then
    if s.dm.busy then s.progbufBoundary else .next s
  else ({ s with tailPop := false } : State).hartBoundary s.tailPop

/-- One step of the machine. -/
def cycle (s : State) : Res State := andThen s.applyInputs boundary

/-- The state with an instruction's bits stored at the pc, and the hart running with no input before the next step
(notes/assumptions/8.md). -/
def placeAtPc (s : State) (bytes : List Byte) : State :=
  { s with
    mem := (bytes.zipIdx.foldl (fun m b => m.write (s.pc + BitVec.ofNat 32 b.2).toNat b.1) s.mem)
    stale := []
    run := .running
    deepSleep := false
    schedule := [] }

end State

end Sys2Proof.Machine
end

