-- ==== Sys2Proof/Machine/Step.lean ====
section
/-!
DEFINITION. The step of the machine, and an instruction placed where it is fetched.
-/

namespace Sys2Proof.Machine

/-- One step: the inputs at this boundary, then what the hart does (Sys2Proof/Machine/Cycle.lean). -/
def step (s : State) : Host.Outcome State Fault Refusal := s.cycle

/-- The state with the instruction whose bits are `w` stored at the pc, so that the next step runs it
(notes/assumptions/8.md). -/
def State.withFetchWord (s : State) (nbits w : Nat) : State :=
  s.placeAtPc (wordBytes (BitVec.ofNat 32 (w % 2 ^ nbits)))

end Sys2Proof.Machine
end

