-- ==== Sys2Proof/WellFormed.lean ====
section
/-!
DEFINITION. When a term of `Instr` is an instruction of the core: the constraints of spec/opcode_table.json that the
types of the operands do not already say.
-/

namespace Sys2Proof

/-- A register that a 3-bit field can name, x8..x15 (30_encoding.md R131). -/
def Reg.isCompressed (r : Reg) : Bool := decide (8 ≤ r.val)

/-- The low `n` bits of an assembled immediate are zero (30_encoding.md R126, R127, R132). -/
def lowBitsZero {k : Nat} (n : Nat) (v : BitVec k) : Bool := decide (v.toNat % 2 ^ n = 0)

namespace Instr

/-- Well-formedness for a core with the given instruction set. The XW rows ask only for XW itself: which of their
operands have an encoding is the parameter `xw_decode` (46_xw.md R330). -/
def wf (isa : Isa) : Instr → Bool
  | .jal _ imm => lowBitsZero 1 imm
  | .beq _ _ imm | .bne _ _ imm | .blt _ _ imm | .bge _ _ imm | .bltu _ _ imm | .bgeu _ _ imm =>
      lowBitsZero 1 imm
  | .mul _ _ _ | .mulh _ _ _ | .mulhsu _ _ _ | .mulhu _ _ _ => isa.hasZmmul
  | .cAddi4spn rd imm => rd.isCompressed && imm != 0 && lowBitsZero 2 imm
  | .cLw rd rs1 imm => rd.isCompressed && rs1.isCompressed && lowBitsZero 2 imm
  | .cSw rs2 rs1 imm => rs2.isCompressed && rs1.isCompressed && lowBitsZero 2 imm
  | .cAddi rd _ => rd != 0
  | .cJal imm | .cJ imm => lowBitsZero 1 imm
  | .cAddi16sp imm => imm != 0 && lowBitsZero 4 imm
  | .cLui rd imm => rd != 2 && imm != 0
  | .cSrli rd _ | .cSrai rd _ => rd.isCompressed
  | .cAndi rd _ => rd.isCompressed
  | .cSub rd rs2 | .cXor rd rs2 | .cOr rd rs2 | .cAnd rd rs2 => rd.isCompressed && rs2.isCompressed
  | .cBeqz rs1 imm | .cBnez rs1 imm => rs1.isCompressed && lowBitsZero 1 imm
  | .cLwsp rd imm => rd != 0 && lowBitsZero 2 imm
  | .cSwsp _ imm => lowBitsZero 2 imm
  | .cJr rs1 | .cJalr rs1 => rs1 != 0
  | .cMv _ rs2 | .cAdd _ rs2 => rs2 != 0
  | .cLbu _ _ _ | .cLhu _ _ _ | .cSb _ _ _ | .cSh _ _ _ => isa.hasXw
  | .cLbusp _ _ | .cLhusp _ _ | .cSbsp _ _ | .cShsp _ _ => isa.hasXw
  | .lui _ _ | .auipc _ _ => true
  | .addi _ _ _ | .slti _ _ _ | .sltiu _ _ _ | .xori _ _ _ | .ori _ _ _ | .andi _ _ _ => true
  | .slli _ _ _ | .srli _ _ _ | .srai _ _ _ => true
  | .add _ _ _ | .sub _ _ _ | .sll _ _ _ | .slt _ _ _ | .sltu _ _ _ => true
  | .xor _ _ _ | .srl _ _ _ | .sra _ _ _ | .or _ _ _ | .and _ _ _ => true
  | .jalr _ _ _ => true
  | .lb _ _ _ | .lh _ _ _ | .lw _ _ _ | .lbu _ _ _ | .lhu _ _ _ => true
  | .sb _ _ _ | .sh _ _ _ | .sw _ _ _ => true
  | .fence _ _ _ _ _ | .fenceI _ _ _ => true
  | .ecall | .ebreak | .mret | .wfi => true
  | .csrrw _ _ _ | .csrrs _ _ _ | .csrrc _ _ _ | .csrrwi _ _ _ | .csrrsi _ _ _ | .csrrci _ _ _ => true
  | .cNop _ | .cLi _ _ | .cSlli _ _ | .cEbreak => true

/-- Is the instruction one of the eight of XW? -/
def isXw : Instr → Bool
  | .cLbu _ _ _ | .cLhu _ _ _ | .cSb _ _ _ | .cSh _ _ _ => true
  | .cLbusp _ _ | .cLhusp _ _ | .cSbsp _ _ | .cShsp _ _ => true
  | _ => false

end Instr

end Sys2Proof
end

