-- ==== Sys2Proof/Safety.lean ====
section
/-!
DEFINITION. The terms the claims use: the shapes that the spec's registers keep and the relations between the parts of the
state, when a step is plain execution, and what an instruction or a trap entry has changed and left alone.
-/

namespace Sys2Proof.Machine

/-- Every PFIC_IPRIOR byte has bits [5:0] fixed to 0 (61_pfic.md R431). -/
def priosShaped (p : Vector Byte 256) : Prop := ∀ n : Irq, p[n.val] &&& 0x3F#8 = 0#8

namespace State

/-- The parameters meet the requirements of the spec: even `reset_pc`, even program buffer (70_reset_and_hazards.md
R562). -/
def CfgOk (s : State) : Prop := s.cfg.wf = true

/-- Memory has its canonical form. -/
def MemOk (s : State) : Prop := s.mem.wf = true

/-- The pc is even (10_state.md R27). -/
def PcEven (s : State) : Prop := s.pc.getLsbD 0 = false

/-- `mstatus` has MPP 0b11 and reserved bits 0, `intsyscr` has reserved bits 0, `dcsr` has `xdebugver` 4 and reserved
bits 0 (10_state.md R35, R36, R44, R45, R48). -/
structure CsrsShaped (s : State) : Prop where
  mstatus : s.mstatus &&& 0xFE7FFF77#32 = 0x00001800#32
  intsyscr : s.intsyscr &&& 0xFFFFFFF8#32 = 0#32
  dcsr : s.dcsr &&& 0xFFFF6438#32 = 0x40000000#32

/-- At most two traps are in service (10_state.md R53). -/
def NestOk (s : State) : Prop := s.nest ≤ 2

/-- A number that is enabled is enabled as the core sees it, and so is MIE: the core's copies lag only where software
has cleared a bit (10_state.md R55, 61_pfic.md R443). -/
structure MasksLag (s : State) : Prop where
  enable : s.pfic.enable &&& ~~~s.pfic.enableEff = 0#256
  mie : s.mie = true → s.mieEff = true

/-- The enable bits of NMI and EXC are 1 (61_pfic.md R423). -/
def FixedEnabled (s : State) : Prop := s.pfic.enable &&& fixedIrqs = fixedIrqs

/-- The reserved bits of the PFIC and SysTick registers are 0 (61_pfic.md R431 to R436, 62_systick.md R482). -/
structure DevicesShaped (s : State) : Prop where
  ithresdr : s.pfic.ithresdr &&& 0xFFFFFF3F#32 = 0#32
  vtfidr : s.pfic.vtfidr &&& 0xFFFF0000#32 = 0#32
  sctlr : s.pfic.sctlr &&& 0xFFFFFFE1#32 = 0#32
  prio : priosShaped s.pfic.prio
  stkCtlr : s.stk.ctlr &&& 0x7FFFFFF0#32 = 0#32

/-- The program buffer runs only in Debug mode (64_debug.md R535), and only access errors in flight can be due
(60_exceptions.md R358). -/
structure QueuesOk (s : State) : Prop where
  busy : s.dm.busy = true → s.run = .haltedDebug
  due : s.dueErrors ≤ s.inflight.length

/-- The hart executes a program: it runs, no reset waits or holds it, no debug request, no trap and no input stands at
this boundary, and EABI is off. -/
structure Executing (s : State) : Prop where
  run : s.run = .running
  noInput : s.schedule = []
  noReset : s.resetReq = false
  notHeld : s.dm.ndmreset = false
  noHalt : s.dm.haltreq = false
  noEabi : s.eabien = false
  noTrap : ({ s with tailPop := false } : State).boundaryTrap s.tailPop = none

end State

/-! ### What an instruction has changed -/

/-- `t` is `s` gone on to `pc`, with nothing else changed. -/
structure Moved (s t : State) (pc : Word) : Prop where
  state : t = { s with pc := pc }
  bytes : ∀ a, t.byteAt a = s.byteAt a

/-- `t` is `s` gone on to `pc` with `v` written to `rd`, which discards it if it is x0 (10_state.md R21), and nothing
else changed. -/
structure Wrote (s t : State) (rd : Reg) (v pc : Word) : Prop where
  value : rd ≠ 0 → t.reg rd = v
  discarded : rd = 0 → t.regs = s.regs
  others : ∀ q, q ≠ rd → t.reg q = s.reg q
  pc : t.pc = pc
  rest : t = { s with regs := t.regs, pc := t.pc }
  bytes : ∀ a, t.byteAt a = s.byteAt a

/-- `t` is `s` gone on to `pc` with the low `w.bytes` bytes of `v` stored from address `a` on, the least significant
first (20_memory.md R84), and nothing else changed. -/
structure Stored (s t : State) (w : Width) (a : Nat) (v pc : Word) : Prop where
  stored : ∀ k, k < w.bytes → t.byteAt (a + k) = v.extractLsb' (8 * k) 8
  others : ∀ b, b < a ∨ a + w.bytes ≤ b → t.byteAt b = s.byteAt b
  rest : t = { s with pc := pc, mem := t.mem, stale := t.stale }

namespace State

/-- The address is a multiple of the width (20_memory.md R86). -/
def Aligned (w : Width) (a : Word) : Prop := a.toNat % w.bytes = 0

/-- An aligned access that reads plain memory only (20_memory.md R94). -/
def LoadsMemory (s : State) (w : Width) (a : Word) : Prop :=
  Aligned w a ∧ ∀ k, k < w.bytes → isMemory s.cfg (a.toNat + k) = true

/-- An aligned access that writes RAM only (20_memory.md R94). -/
def StoresRam (s : State) (w : Width) (a : Word) : Prop :=
  Aligned w a ∧ ∀ k, k < w.bytes → isRam s.cfg (a.toNat + k) = true

/-- The bytes of plain memory from `a` on as one little-endian number (20_memory.md R84). -/
def memNat (s : State) : Width → Nat → Nat
  | .byte, a => (s.byteAt a).toNat
  | .half, a => (s.byteAt a).toNat + 256 * (s.byteAt (a + 1)).toNat
  | .word, a => (s.byteAt a).toNat + 256 * (s.byteAt (a + 1)).toNat + 65536 * (s.byteAt (a + 2)).toNat +
      16777216 * (s.byteAt (a + 3)).toNat

/-- Every byte of an aligned access is unmapped, so the access fails (20_memory.md R94, R95). -/
def AccessFails (s : State) (w : Width) (a : Word) : Prop :=
  Aligned w a ∧ ∀ k, k < w.bytes → inCoreWindow (a.toNat + k) = false ∧ regionKind s.cfg (a.toNat + k) = .unmapped

end State

/-- What a load whose access fails has done: it has retired, `rd` is free and the error stands behind those in flight
(20_memory.md R95, 60_exceptions.md R358). -/
structure FailedLoad (s t : State) (rd : Reg) (pc : Word) : Prop where
  inflight : t.inflight = s.inflight ++ [AccessError.load]
  others : ∀ q, q ≠ rd → t.reg q = s.reg q
  pc : t.pc = pc
  rest : t = { s with regs := t.regs, pc := t.pc, inflight := t.inflight, freeCtr := t.freeCtr }
  bytes : ∀ a, t.byteAt a = s.byteAt a

/-- What a store whose access fails has done: it has retired and the error stands behind those in flight (20_memory.md
R95, 60_exceptions.md R358). -/
structure FailedStore (s t : State) (pc : Word) : Prop where
  rest : t = { s with pc := pc, inflight := s.inflight ++ [AccessError.store] }
  bytes : ∀ a, t.byteAt a = s.byteAt a

/-! ### CSRs -/

/-- The bits of a CSR that a write can change (10_state.md R35 to R48). -/
def csrMask : Csr → Word
  | .mstatus => 0x01800088#32
  | .mtvec | .mscratch | .mepc | .mcause | .dpc | .dscratch0 | .dscratch1 => 0xFFFFFFFF#32
  | .dcsr => 0x00009A07#32
  | .intsyscr => 0x00000007#32
  | .marchid | .mimpid | .misa => 0#32

/-- The value a CSR holds. -/
def State.csrHeld (s : State) : Csr → Word
  | .marchid => s.cfg.marchid
  | .mimpid => s.cfg.mimpid
  | .mstatus => s.mstatus
  | .misa => s.cfg.misa
  | .mtvec => s.mtvec
  | .mscratch => s.mscratch
  | .mepc => s.mepc
  | .mcause => s.mcause
  | .dcsr => s.dcsr
  | .dpc => s.dpc
  | .dscratch0 => s.dscratch0
  | .dscratch1 => s.dscratch1
  | .intsyscr => s.intsyscr

/-- A CSR instruction may access `c` at the address `csr` (43_system.md R244 step 1). -/
structure CsrAllowed (s : State) (csr : BitVec 12) (c : Csr) (writes : Bool) : Prop where
  implemented : csrAt csr = some c
  debug : c.debugOnly = true → s.inDebug = true
  writable : writes = true → csrReadOnly csr = false

/-- What a CSR instruction on `c` has done: `rd` holds what `c` read as, which is the value it held but for `mcause` outside
the tables (notes/assumptions/14.md), `c` keeps its fixed bits and takes the others
from `new` if the instruction writes, and every other register, CSR, device and byte of memory is as before
(43_system.md R244). -/
structure CsrAccessed (s t : State) (rd : Reg) (c : Csr) (writes : Bool) (new : Word) : Prop where
  value : rd ≠ 0 → t.reg rd = (s.csrRead c).1
  reads : rd ≠ 0 → (c = .mcause → mcauseListed s.mcause = true) → t.reg rd = s.csrHeld c
  others : ∀ q, q ≠ rd → t.reg q = s.reg q
  pc : t.pc = s.pc + 4#32
  written : t.csrHeld c =
    if writes then (s.csrHeld c &&& ~~~csrMask c) ||| (new &&& csrMask c) else s.csrHeld c
  csrs : ∀ d, d ≠ c → t.csrHeld d = s.csrHeld d
  devices : t.pfic = s.pfic ∧ t.stk = s.stk ∧ t.dm = s.dm
  bytes : ∀ a, t.byteAt a = s.byteAt a
  run : t.run = s.run ∧ t.activeStack = s.activeStack ∧ t.event = s.event ∧ t.inflight = s.inflight

/-! ### Traps -/

/-- What every trap entry has done (60_exceptions.md R361 to R365). -/
structure Entered (s t : State) (cause epc : Word) : Prop where
  mepc : t.mepc = epc
  mcause : t.mcause = cause
  mpie : t.mpie = s.mie
  mppop : t.mppop = s.mpop
  mpop : t.mpop = s.hwstken
  mpp : t.mstatus.extractLsb' 11 2 = 3#2
  mieLast : s.nest = 1 → t.mie = false
  mieNested : s.nest = 0 → s.inesten = true → t.mie = s.mie
  nest : t.nest = s.nest + 1
  run : t.run = .running
  regs : ∀ q, q ≠ 2 → t.reg q = s.reg q
  sp : t.reg 2 = if s.hwstken then s.reg 2 - 48#32 else s.reg 2
  csrs : t.mtvec = s.mtvec ∧ t.mscratch = s.mscratch ∧ t.intsyscr = s.intsyscr ∧ t.dcsr = s.dcsr ∧ t.dpc = s.dpc ∧
    t.dscratch0 = s.dscratch0 ∧ t.dscratch1 = s.dscratch1
  bytes : s.hwstken = false → ∀ a, t.byteAt a = s.byteAt a

/-- The entry address of number `n` under `mtvec` with MODE1 0 (60_exceptions.md R367 item 2). -/
def State.entryOf (s : State) (n : Nat) : Word :=
  if s.mtvec.getLsbD 0 then (s.mtvec &&& 0xFFFFFFFC#32) + BitVec.ofNat 32 (4 * n) else s.mtvec &&& 0xFFFFFFFC#32

/-- A trap can be entered, no frame is pushed and the vector table holds instructions, 1 KB aligned (60_exceptions.md
R367, R372). -/
structure State.EntersPlainly (s : State) : Prop where
  notDebug : s.inDebug = false
  nest : s.nest < 2
  noHpe : s.hwstken = false
  jumps : s.mtvec.getLsbD 1 = false
  table : s.mtvec.extractLsb' 2 8 = 0#8

/-- No enabled VTF channel holds the number `n` (60_exceptions.md R367 item 1). -/
def State.NoVtf (s : State) (n : Nat) : Prop :=
  (s.pfic.vtfaddr0.getLsbD 0 = true → (s.pfic.vtfidr.extractLsb' 0 8).toNat ≠ n) ∧
    (s.pfic.vtfaddr1.getLsbD 0 = true → (s.pfic.vtfidr.extractLsb' 8 8).toNat ≠ n)

/-- What `mret` has done (60_exceptions.md R380 to R385), but for the registers that a popped frame restores. -/
structure Returned (s t : State) : Prop where
  pc : t.pc = s.mepc
  mie : t.mie = s.mpie
  mpop : t.mpop = s.mppop
  mpp : t.mstatus.extractLsb' 11 2 = 3#2
  stack : t.activeStack = s.activeStack.tail
  nest : t.nest = s.nest - 1
  sleeps : t.run = if s.nest = 1 ∧ s.sleepOnExit = true ∧ s.inDebug = false then .sleepingWfi else s.run
  saved : s.nest ≤ 1 → t.mepc = s.mepc ∧ t.mcause = s.mcause
  csrs : t.mtvec = s.mtvec ∧ t.mscratch = s.mscratch ∧ t.intsyscr = s.intsyscr ∧ t.dcsr = s.dcsr ∧ t.dpc = s.dpc ∧
    t.dscratch0 = s.dscratch0 ∧ t.dscratch1 = s.dscratch1
  bytes : ∀ a, t.byteAt a = s.byteAt a

/-- The exception of the oldest access error has been entered from `s`, and the errors behind it are due at the coming
boundaries (60_exceptions.md R358). -/
structure ErrorTaken (s t : State) (e : AccessError) (rest : List AccessError) (epc : Word) : Prop where
  entered : Entered s t (match e with | .load => 5#32 | .store => 7#32) epc
  inflight : t.inflight = rest
  due : t.dueErrors = rest.length
  pc : t.pc = s.entryOf 3

/-- In Debug mode every access error in flight has ended the program buffer with `cmder` 011, which only an earlier error
keeps out (64_debug.md R527, R535). -/
structure BufferStopped (s t : State) : Prop where
  inflight : t.inflight = []
  idle : t.dm.busy = false
  cmder : t.dm.cmder = if s.dm.cmder = 0#3 then 3#3 else s.dm.cmder
  halted : t.run = .haltedDebug
  regs : t.regs = s.regs
  bytes : ∀ a, t.byteAt a = s.byteAt a

/-- The address of the HPE frame's word for its k-th register, under a top `n` (60_exceptions.md R375). -/
def hpeSlot (n : Word) (k : Nat) : Word := n - BitVec.ofNat 32 (4 * (k + 1))

/-- The registers of the HPE frame, the highest address first (60_exceptions.md R375). -/
def hpeRegs : List Reg := [1, 5, 6, 7, 10, 11, 12, 13, 14, 15]

/-! ### Boundaries -/

/-- The hart is at a boundary at which no input arrives, no reset waits or holds it, no debug request stands, it is not
in Debug mode, and EABI is off. -/
structure State.AtBoundary (s : State) : Prop where
  noInput : s.schedule = []
  noReset : s.resetReq = false
  notHeld : s.dm.ndmreset = false
  notDebug : s.inDebug = false
  noHalt : s.dm.haltreq = false
  noEabi : s.eabien = false

/-- The parcel at an address can be fetched and no store since the last FENCE.I touches it (20_memory.md R88, R104). -/
structure State.Fetchable (s : State) (a : Word) : Prop where
  lo : isMemory s.cfg a.toNat = true
  hi : isMemory s.cfg (a.toNat + 1) = true
  fresh : s.parcelFresh a.toNat = true

/-- The parcel of memory at an address (20_memory.md R85). -/
def State.parcelAt (s : State) (a : Word) : Parcel := s.byteAt (a.toNat + 1) ++ s.byteAt a.toNat

end Sys2Proof.Machine
end

