-- ==== Sys2Proof/Certificates/Slice0/Obligations.lean ====
section
/-!
DEFINITION. The statements to prove, from the numbered rules of spec/. A free value (notes/assumptions/9.md) is never given a
value: a statement about one holds for every value of it.
-/

open Sys2Proof Sys2Proof.Machine

/-! ### Encoding -/

/-- Every well-formed instruction of the 32-bit tables decodes from its encoding, whatever parcels follow
(30_encoding.md R120 to R129, R133). -/
def Obligations.BaseEncodingRoundTrip : Prop :=
  ∀ (isa : Isa) (i : Instr) (rest : List Parcel), i.wf isa = true → (encode isa i).length = 2 →
    decode isa (encode isa i ++ rest) = .ok (i, rest)

/-- Every well-formed 16-bit instruction decodes from its encoding, whatever parcels follow: those of the C extension,
and those of XW that `xw_decode` gives a candidate word (30_encoding.md R130 to R132, R134, R144; 46_xw.md R330). The
candidate space is decision D14 (notes/assumptions/6.md). -/
def Obligations.CompressedEncodingRoundTrip : Prop :=
  ∀ (isa : Isa) (i : Instr) (rest : List Parcel), i.wf isa = true → (encode isa i).length ≠ 2 →
    (i.isXw = true → (xwWord isa i).isSome = true) →
    (encode isa i).length = 1 ∧ decode isa (encode isa i ++ rest) = .ok (i, rest)

/-- Whatever decodes is a well-formed instruction: registers that exist, immediates with their scale, constraints of the
rows (30_encoding.md R126, R127, R132, R135, R146). -/
def Obligations.DecodedInstructionsWellFormed : Prop :=
  ∀ (isa : Isa) (ps rest : List Parcel) (i : Instr), decode isa ps = .ok (i, rest) → i.wf isa = true

/-- The words that stand as examples in the rules of the instructions decode to those instructions. -/
def Obligations.ExampleWordsDecode : Prop :=
  ∀ isa : Isa,
    decode isa [0x52B7#16, 0x1234#16] = .ok (.lui 5 0x12345#20, []) ∧
    decode isa [0x8513#16, 0xFFF5#16] = .ok (.addi 10 11 0xFFF#12, []) ∧
    decode isa [0x0863#16, 0x00B5#16] = .ok (.beq 10 11 16#13, []) ∧
    decode isa [0xF06F#16, 0xFF9F#16] = .ok (.jal 0 0x1FFFF8#21, []) ∧
    decode isa [0x80E7#16, 0x0055#16] = .ok (.jalr 1 11 5#12, []) ∧
    decode isa [0x9573#16, 0x3405#16] = .ok (.csrrw 10 0x340#12 11, []) ∧
    decode isa [0x0073#16, 0x0000#16] = .ok (.ecall, []) ∧
    decode isa [0x0073#16, 0x3020#16] = .ok (.mret, []) ∧
    decode isa [0x4588#16] = .ok (.cLw 10 11 8#7, []) ∧
    decode isa [0x7179#16] = .ok (.cAddi16sp 0x3D0#10, []) ∧
    decode isa [0x2005#16] = .ok (.cJal 0x020#12, []) ∧
    decode isa [0x757D#16] = .ok (.cLui 10 0x3F#6, [])

/-- A word with a register field of 16..31 is no instruction: the fields rd, rs1 and rs2 of the 32-bit formats as far as
the major opcode has them (a CSR instruction has rs1 only where `funct3` bit 2 is 0), and those of CI, CR and CSS, outside
the code points that are left to `xw_decode` (30_encoding.md R121, R130, R133 to R135, R144). That such a word is no
instruction, and raises exception 2, is decision D4 (notes/assumptions/5.md). -/
def Obligations.AbsentRegistersRefused : Prop :=
  ∀ (isa : Isa) (w : BitVec 32) (h : Parcel),
    let opcode := field w 0 7
    let rd := w.getLsbD 11 = true
    let rs1 := w.getLsbD 19 = true
    let rs2 := w.getLsbD 24 = true
    let refused := ∃ e, decode32 isa w = .error e
    let refused16 := ∃ e, decode16 isa h = .error e
    (opcode = 0b0110011#7 → rd ∨ rs1 ∨ rs2 → refused) ∧
    (opcode ∈ [0b0010011#7, 0b0000011#7, 0b1100111#7] → rd ∨ rs1 → refused) ∧
    (opcode ∈ [0b0100011#7, 0b1100011#7] → rs1 ∨ rs2 → refused) ∧
    (opcode ∈ [0b0110111#7, 0b0010111#7, 0b1101111#7] → rd → refused) ∧
    (opcode = 0b1110011#7 → field w 12 3 ≠ 0#3 → rd ∨ w.getLsbD 14 = false ∧ rs1 → refused) ∧
    (xwCandidate h = false →
      ((field h 0 2, field h 13 3) ∈
          [(0b01#2, 0b000#3), (0b01#2, 0b010#3), (0b01#2, 0b011#3), (0b10#2, 0b000#3), (0b10#2, 0b010#3),
            (0b10#2, 0b100#3)] →
        h.getLsbD 11 = true → refused16) ∧
      ((field h 0 2, field h 13 3) ∈ [(0b10#2, 0b100#3), (0b10#2, 0b110#3)] → h.getLsbD 6 = true → refused16))

/-! ### A step runs the decoded instruction -/

/-- A step of a hart that executes runs the instruction its pc points at, the 16-bit parcel or the two parcels of a
32-bit one, and then only does what single-stepping asks for (20_memory.md R88, 30_encoding.md R120, 64_debug.md
R542). The order of what stands at a boundary is the model's choice (notes/assumptions/32.md, 33.md). -/
def Obligations.StepRunsDecodedInstruction : Prop :=
  ∀ (s : State) (i : Instr), s.Executing → s.PcEven → s.Fetchable s.pc →
    (decode s.cfg.isa [s.parcelAt s.pc] = .ok (i, []) ∨
      s.pc ≠ 0xFFFFFFFE#32 ∧ s.Fetchable (s.pc + 2#32) ∧
        decode s.cfg.isa [s.parcelAt s.pc, s.parcelAt (s.pc + 2#32)] = .ok (i, [])) →
    (∀ t, exec i { s with tailPop := false } = .next t →
      step s = .next (if s.stepBit = true ∧ t.inDebug = false then t.enterDebug (if t.dm.haltreq then 3#3 else 4#3) t.pc
        else t)) ∧
    (∀ r, exec i { s with tailPop := false } = .fault r → step s = .fault r) ∧
    (∀ r, exec i { s with tailPop := false } = .refused r → step s = .refused r)

/-- Parcels that are no instruction raise exception 2; a first or second half that cannot be fetched raises exception
1 (30_encoding.md R140, 20_memory.md R88, 60_exceptions.md R359). Exception 2 for every such word is the model's
choice among those of R140 (decision D12, notes/assumptions/5.md), the order is decision D16. That a fetch from one of the
core's windows fails is the model's choice (notes/assumptions/24.md), that one from a platform peripheral fails is
presumed (notes/assumptions/26.md). -/
def Obligations.UndecodableWordsTrap : Prop :=
  ∀ (s : State) (e : DecodeError), s.Executing → s.PcEven → s.stepBit = false → e ≠ .xwNotSupplied →
    let u : State := { s with tailPop := false }
    (isMemory s.cfg s.pc.toNat = false → step s = u.takeException 1#4) ∧
    (s.Fetchable s.pc →
      (isWide (s.parcelAt s.pc) = false → decode s.cfg.isa [s.parcelAt s.pc] = .error e →
        step s = u.takeException 2#4) ∧
      (isWide (s.parcelAt s.pc) = true → s.pc ≠ 0xFFFFFFFE#32 →
        (isMemory s.cfg (s.pc + 2#32).toNat = false → step s = u.takeException 1#4) ∧
        (s.Fetchable (s.pc + 2#32) → decode s.cfg.isa [s.parcelAt s.pc, s.parcelAt (s.pc + 2#32)] = .error e →
          step s = u.takeException 2#4)))

/-! ### Integer computational instructions -/

/-- The instructions with a 20-bit or a 12-bit immediate: LUI, AUIPC, ADDI, SLTI, SLTIU, XORI, ORI, ANDI
(40_integer_computational.md R161 to R168). -/
def Obligations.ImmediateResults : Prop :=
  ∀ (s : State) (rd rs1 : Reg) (upper : BitVec 20) (imm : BitVec 12),
    (∃ t, exec (.lui rd upper) s = .next t ∧
      Wrote s t rd (BitVec.ofNat 32 (upper.toNat * 4096)) (s.pc + 4#32)) ∧
    (∃ t, exec (.auipc rd upper) s = .next t ∧
      Wrote s t rd (BitVec.ofNat 32 (s.pc.toNat + upper.toNat * 4096)) (s.pc + 4#32)) ∧
    (∃ t, exec (.addi rd rs1 imm) s = .next t ∧
      Wrote s t rd (BitVec.ofInt 32 ((s.reg rs1).toInt + imm.toInt)) (s.pc + 4#32)) ∧
    (∃ t, exec (.slti rd rs1 imm) s = .next t ∧
      Wrote s t rd (if (s.reg rs1).toInt < imm.toInt then 1#32 else 0#32) (s.pc + 4#32)) ∧
    (∃ t, exec (.sltiu rd rs1 imm) s = .next t ∧
      Wrote s t rd (if (s.reg rs1).toNat < (BitVec.ofInt 32 imm.toInt).toNat then 1#32 else 0#32) (s.pc + 4#32)) ∧
    (∃ t, exec (.xori rd rs1 imm) s = .next t ∧
      Wrote s t rd (s.reg rs1 ^^^ BitVec.ofInt 32 imm.toInt) (s.pc + 4#32)) ∧
    (∃ t, exec (.ori rd rs1 imm) s = .next t ∧
      Wrote s t rd (s.reg rs1 ||| BitVec.ofInt 32 imm.toInt) (s.pc + 4#32)) ∧
    (∃ t, exec (.andi rd rs1 imm) s = .next t ∧
      Wrote s t rd (s.reg rs1 &&& BitVec.ofInt 32 imm.toInt) (s.pc + 4#32))

/-- ADD, SUB, SLT, SLTU, XOR, OR, AND (40_integer_computational.md R172, R173, R175 to R177, R180, R181). -/
def Obligations.RegisterRegisterResults : Prop :=
  ∀ (s : State) (rd rs1 rs2 : Reg),
    (∃ t, exec (.add rd rs1 rs2) s = .next t ∧
      Wrote s t rd (BitVec.ofInt 32 ((s.reg rs1).toInt + (s.reg rs2).toInt)) (s.pc + 4#32)) ∧
    (∃ t, exec (.sub rd rs1 rs2) s = .next t ∧
      Wrote s t rd (BitVec.ofInt 32 ((s.reg rs1).toInt - (s.reg rs2).toInt)) (s.pc + 4#32)) ∧
    (∃ t, exec (.slt rd rs1 rs2) s = .next t ∧
      Wrote s t rd (if (s.reg rs1).toInt < (s.reg rs2).toInt then 1#32 else 0#32) (s.pc + 4#32)) ∧
    (∃ t, exec (.sltu rd rs1 rs2) s = .next t ∧
      Wrote s t rd (if (s.reg rs1).toNat < (s.reg rs2).toNat then 1#32 else 0#32) (s.pc + 4#32)) ∧
    (∃ t, exec (.xor rd rs1 rs2) s = .next t ∧ Wrote s t rd (s.reg rs1 ^^^ s.reg rs2) (s.pc + 4#32)) ∧
    (∃ t, exec (.or rd rs1 rs2) s = .next t ∧ Wrote s t rd (s.reg rs1 ||| s.reg rs2) (s.pc + 4#32)) ∧
    (∃ t, exec (.and rd rs1 rs2) s = .next t ∧ Wrote s t rd (s.reg rs1 &&& s.reg rs2) (s.pc + 4#32))

/-- The six shifts as products and quotients by powers of two; a register gives the amount modulo 32
(40_integer_computational.md R169 to R171, R174, R178, R179). -/
def Obligations.ShiftResults : Prop :=
  ∀ (s : State) (rd rs1 rs2 : Reg) (sh : BitVec 5),
    (∃ t, exec (.slli rd rs1 sh) s = .next t ∧
      Wrote s t rd (BitVec.ofNat 32 ((s.reg rs1).toNat * 2 ^ sh.toNat)) (s.pc + 4#32)) ∧
    (∃ t, exec (.srli rd rs1 sh) s = .next t ∧
      Wrote s t rd (BitVec.ofNat 32 ((s.reg rs1).toNat / 2 ^ sh.toNat)) (s.pc + 4#32)) ∧
    (∃ t, exec (.srai rd rs1 sh) s = .next t ∧
      Wrote s t rd (BitVec.ofInt 32 ((s.reg rs1).toInt / 2 ^ sh.toNat)) (s.pc + 4#32)) ∧
    (∃ t, exec (.sll rd rs1 rs2) s = .next t ∧
      Wrote s t rd (BitVec.ofNat 32 ((s.reg rs1).toNat * 2 ^ ((s.reg rs2).toNat % 32))) (s.pc + 4#32)) ∧
    (∃ t, exec (.srl rd rs1 rs2) s = .next t ∧
      Wrote s t rd (BitVec.ofNat 32 ((s.reg rs1).toNat / 2 ^ ((s.reg rs2).toNat % 32))) (s.pc + 4#32)) ∧
    (∃ t, exec (.sra rd rs1 rs2) s = .next t ∧
      Wrote s t rd (BitVec.ofInt 32 ((s.reg rs1).toInt / 2 ^ ((s.reg rs2).toNat % 32))) (s.pc + 4#32))

/-- MUL and the high halves of the three 64-bit products (44_zmmul.md R271 to R275). -/
def Obligations.MultiplyResults : Prop :=
  ∀ (s : State) (rd rs1 rs2 : Reg),
    (∃ t, exec (.mul rd rs1 rs2) s = .next t ∧
      Wrote s t rd (BitVec.ofNat 32 ((s.reg rs1).toNat * (s.reg rs2).toNat)) (s.pc + 4#32)) ∧
    (∃ t, exec (.mulh rd rs1 rs2) s = .next t ∧
      Wrote s t rd (BitVec.ofInt 32 ((s.reg rs1).toInt * (s.reg rs2).toInt / 4294967296)) (s.pc + 4#32)) ∧
    (∃ t, exec (.mulhsu rd rs1 rs2) s = .next t ∧
      Wrote s t rd (BitVec.ofInt 32 ((s.reg rs1).toInt * ((s.reg rs2).toNat : Int) / 4294967296)) (s.pc + 4#32)) ∧
    (∃ t, exec (.mulhu rd rs1 rs2) s = .next t ∧
      Wrote s t rd (BitVec.ofNat 32 ((s.reg rs1).toNat * (s.reg rs2).toNat / 4294967296)) (s.pc + 4#32))

/-! ### Control transfer -/

/-- JAL and JALR: the link is the address after the instruction, JALR clears bit 0 of its target and takes the old value
of its base register. The six branches: taken to the pc plus the offset exactly when the condition holds, else on to the
next instruction (41_control_transfer.md R201 to R209). -/
def Obligations.TransferResults : Prop :=
  ∀ (s : State) (rd rs1 rs2 : Reg) (off : BitVec 21) (imm : BitVec 12) (boff : BitVec 13),
    let branchTarget := BitVec.ofInt 32 (s.pc.toInt + boff.toInt)
    (∃ t, exec (.jal rd off) s = .next t ∧ Wrote s t rd (s.pc + 4#32) (BitVec.ofInt 32 (s.pc.toInt + off.toInt))) ∧
    (∃ t, exec (.jalr rd rs1 imm) s = .next t ∧
      Wrote s t rd (s.pc + 4#32)
        (BitVec.ofNat 32 ((BitVec.ofInt 32 ((s.reg rs1).toInt + imm.toInt)).toNat / 2 * 2))) ∧
    (∃ t, exec (.beq rs1 rs2 boff) s = .next t ∧
      Moved s t (if s.reg rs1 = s.reg rs2 then branchTarget else s.pc + 4#32)) ∧
    (∃ t, exec (.bne rs1 rs2 boff) s = .next t ∧
      Moved s t (if s.reg rs1 = s.reg rs2 then s.pc + 4#32 else branchTarget)) ∧
    (∃ t, exec (.blt rs1 rs2 boff) s = .next t ∧
      Moved s t (if (s.reg rs1).toInt < (s.reg rs2).toInt then branchTarget else s.pc + 4#32)) ∧
    (∃ t, exec (.bge rs1 rs2 boff) s = .next t ∧
      Moved s t (if (s.reg rs2).toInt ≤ (s.reg rs1).toInt then branchTarget else s.pc + 4#32)) ∧
    (∃ t, exec (.bltu rs1 rs2 boff) s = .next t ∧
      Moved s t (if (s.reg rs1).toNat < (s.reg rs2).toNat then branchTarget else s.pc + 4#32)) ∧
    (∃ t, exec (.bgeu rs1 rs2 boff) s = .next t ∧
      Moved s t (if (s.reg rs2).toNat ≤ (s.reg rs1).toNat then branchTarget else s.pc + 4#32))

/-- The 16-bit jumps and branches (45_compressed.md R286, R297 to R299, R302, R305). -/
def Obligations.CompressedTransferResults : Prop :=
  ∀ (s : State) (rs1 : Reg) (off : BitVec 12) (boff : BitVec 9),
    let target := BitVec.ofInt 32 (s.pc.toInt + off.toInt)
    let branchTarget := BitVec.ofInt 32 (s.pc.toInt + boff.toInt)
    let even := BitVec.ofNat 32 ((s.reg rs1).toNat / 2 * 2)
    (∃ t, exec (.cJ off) s = .next t ∧ Moved s t target) ∧
    (∃ t, exec (.cJal off) s = .next t ∧ Wrote s t 1 (s.pc + 2#32) target) ∧
    (∃ t, exec (.cJr rs1) s = .next t ∧ Moved s t even) ∧
    (∃ t, exec (.cJalr rs1) s = .next t ∧ Wrote s t 1 (s.pc + 2#32) even) ∧
    (∃ t, exec (.cBeqz rs1 boff) s = .next t ∧
      Moved s t (if s.reg rs1 = 0#32 then branchTarget else s.pc + 2#32)) ∧
    (∃ t, exec (.cBnez rs1 boff) s = .next t ∧
      Moved s t (if s.reg rs1 = 0#32 then s.pc + 2#32 else branchTarget))

/-! ### Compressed arithmetic -/

/-- The 16-bit arithmetic instructions (45_compressed.md R281, R284, R285, R287 to R296, R300, R303, R306). -/
def Obligations.CompressedArithmeticResults : Prop :=
  ∀ (s : State) (rd rs2 : Reg) (imm : BitVec 6) (big : BitVec 10) (sh : BitVec 5),
    (∃ t, exec (.cAddi4spn rd big) s = .next t ∧
      Wrote s t rd (BitVec.ofNat 32 ((s.reg 2).toNat + big.toNat)) (s.pc + 2#32)) ∧
    (∃ t, exec (.cNop imm) s = .next t ∧ Moved s t (s.pc + 2#32)) ∧
    (∃ t, exec (.cAddi rd imm) s = .next t ∧
      Wrote s t rd (BitVec.ofInt 32 ((s.reg rd).toInt + imm.toInt)) (s.pc + 2#32)) ∧
    (∃ t, exec (.cLi rd imm) s = .next t ∧ Wrote s t rd (BitVec.ofInt 32 imm.toInt) (s.pc + 2#32)) ∧
    (∃ t, exec (.cAddi16sp big) s = .next t ∧
      Wrote s t 2 (BitVec.ofInt 32 ((s.reg 2).toInt + big.toInt)) (s.pc + 2#32)) ∧
    (∃ t, exec (.cLui rd imm) s = .next t ∧ Wrote s t rd (BitVec.ofInt 32 (imm.toInt * 4096)) (s.pc + 2#32)) ∧
    (∃ t, exec (.cSrli rd sh) s = .next t ∧
      Wrote s t rd (BitVec.ofNat 32 ((s.reg rd).toNat / 2 ^ sh.toNat)) (s.pc + 2#32)) ∧
    (∃ t, exec (.cSrai rd sh) s = .next t ∧
      Wrote s t rd (BitVec.ofInt 32 ((s.reg rd).toInt / 2 ^ sh.toNat)) (s.pc + 2#32)) ∧
    (∃ t, exec (.cSlli rd sh) s = .next t ∧
      Wrote s t rd (BitVec.ofNat 32 ((s.reg rd).toNat * 2 ^ sh.toNat)) (s.pc + 2#32)) ∧
    (∃ t, exec (.cAndi rd imm) s = .next t ∧
      Wrote s t rd (s.reg rd &&& BitVec.ofInt 32 imm.toInt) (s.pc + 2#32)) ∧
    (∃ t, exec (.cMv rd rs2) s = .next t ∧ Wrote s t rd (s.reg rs2) (s.pc + 2#32)) ∧
    (∃ t, exec (.cAdd rd rs2) s = .next t ∧
      Wrote s t rd (BitVec.ofInt 32 ((s.reg rd).toInt + (s.reg rs2).toInt)) (s.pc + 2#32)) ∧
    (∃ t, exec (.cSub rd rs2) s = .next t ∧
      Wrote s t rd (BitVec.ofInt 32 ((s.reg rd).toInt - (s.reg rs2).toInt)) (s.pc + 2#32)) ∧
    (∃ t, exec (.cXor rd rs2) s = .next t ∧ Wrote s t rd (s.reg rd ^^^ s.reg rs2) (s.pc + 2#32)) ∧
    (∃ t, exec (.cOr rd rs2) s = .next t ∧ Wrote s t rd (s.reg rd ||| s.reg rs2) (s.pc + 2#32)) ∧
    (∃ t, exec (.cAnd rd rs2) s = .next t ∧ Wrote s t rd (s.reg rd &&& s.reg rs2) (s.pc + 2#32))

/-! ### Loads and stores -/

/-- The five 32-bit loads from plain memory (42_load_store.md R220 to R225, 20_memory.md R84). -/
def Obligations.LoadResults : Prop :=
  ∀ (s : State) (rd rs1 : Reg) (imm : BitVec 12),
    let ea := BitVec.ofInt 32 ((s.reg rs1).toInt + imm.toInt)
    (s.LoadsMemory .byte ea → ∃ t, exec (.lb rd rs1 imm) s = .next t ∧
      Wrote s t rd (BitVec.ofInt 32 (BitVec.ofNat 8 (s.memNat .byte ea.toNat)).toInt) (s.pc + 4#32)) ∧
    (s.LoadsMemory .half ea → ∃ t, exec (.lh rd rs1 imm) s = .next t ∧
      Wrote s t rd (BitVec.ofInt 32 (BitVec.ofNat 16 (s.memNat .half ea.toNat)).toInt) (s.pc + 4#32)) ∧
    (s.LoadsMemory .word ea → ∃ t, exec (.lw rd rs1 imm) s = .next t ∧
      Wrote s t rd (BitVec.ofNat 32 (s.memNat .word ea.toNat)) (s.pc + 4#32)) ∧
    (s.LoadsMemory .byte ea → ∃ t, exec (.lbu rd rs1 imm) s = .next t ∧
      Wrote s t rd (BitVec.ofNat 32 (s.memNat .byte ea.toNat)) (s.pc + 4#32)) ∧
    (s.LoadsMemory .half ea → ∃ t, exec (.lhu rd rs1 imm) s = .next t ∧
      Wrote s t rd (BitVec.ofNat 32 (s.memNat .half ea.toNat)) (s.pc + 4#32))

/-- The 16-bit loads, of the C extension and of XW, from plain memory (45_compressed.md R282, R301; 46_xw.md R331,
R333, R334, R337, R338). -/
def Obligations.CompressedLoadResults : Prop :=
  ∀ (s : State) (rd rs1 : Reg) (imm : BitVec 7) (simm : BitVec 8) (off : Word),
    let lw := s.reg rs1 + BitVec.ofNat 32 imm.toNat
    let lwsp := s.reg 2 + BitVec.ofNat 32 simm.toNat
    let ea := s.reg rs1 + off
    let sp := s.reg 2 + off
    (s.LoadsMemory .word lw → ∃ t, exec (.cLw rd rs1 imm) s = .next t ∧
      Wrote s t rd (BitVec.ofNat 32 (s.memNat .word lw.toNat)) (s.pc + 2#32)) ∧
    (s.LoadsMemory .word lwsp → ∃ t, exec (.cLwsp rd simm) s = .next t ∧
      Wrote s t rd (BitVec.ofNat 32 (s.memNat .word lwsp.toNat)) (s.pc + 2#32)) ∧
    (s.LoadsMemory .byte ea → ∃ t, exec (.cLbu rd rs1 off) s = .next t ∧
      Wrote s t rd (BitVec.ofNat 32 (s.memNat .byte ea.toNat)) (s.pc + 2#32)) ∧
    (s.LoadsMemory .half ea → ∃ t, exec (.cLhu rd rs1 off) s = .next t ∧
      Wrote s t rd (BitVec.ofNat 32 (s.memNat .half ea.toNat)) (s.pc + 2#32)) ∧
    (s.LoadsMemory .byte sp → ∃ t, exec (.cLbusp rd off) s = .next t ∧
      Wrote s t rd (BitVec.ofNat 32 (s.memNat .byte sp.toNat)) (s.pc + 2#32)) ∧
    (s.LoadsMemory .half sp → ∃ t, exec (.cLhusp rd off) s = .next t ∧
      Wrote s t rd (BitVec.ofNat 32 (s.memNat .half sp.toNat)) (s.pc + 2#32))

/-- The three 32-bit stores to RAM: their bytes, and no other byte (42_load_store.md R220, R227 to R229, 20_memory.md
R84). -/
def Obligations.StoreResults : Prop :=
  ∀ (s : State) (rs2 rs1 : Reg) (imm : BitVec 12),
    let ea := BitVec.ofInt 32 ((s.reg rs1).toInt + imm.toInt)
    (s.StoresRam .byte ea → ∃ t, exec (.sb rs2 rs1 imm) s = .next t ∧
      Stored s t .byte ea.toNat (s.reg rs2) (s.pc + 4#32)) ∧
    (s.StoresRam .half ea → ∃ t, exec (.sh rs2 rs1 imm) s = .next t ∧
      Stored s t .half ea.toNat (s.reg rs2) (s.pc + 4#32)) ∧
    (s.StoresRam .word ea → ∃ t, exec (.sw rs2 rs1 imm) s = .next t ∧
      Stored s t .word ea.toNat (s.reg rs2) (s.pc + 4#32))

/-- The 16-bit stores, of the C extension and of XW, to RAM (45_compressed.md R283, R307; 46_xw.md R331, R335, R336,
R339, R340). -/
def Obligations.CompressedStoreResults : Prop :=
  ∀ (s : State) (rs2 rs1 : Reg) (imm : BitVec 7) (simm : BitVec 8) (off : Word),
    let sw := s.reg rs1 + BitVec.ofNat 32 imm.toNat
    let swsp := s.reg 2 + BitVec.ofNat 32 simm.toNat
    let ea := s.reg rs1 + off
    let sp := s.reg 2 + off
    (s.StoresRam .word sw → ∃ t, exec (.cSw rs2 rs1 imm) s = .next t ∧
      Stored s t .word sw.toNat (s.reg rs2) (s.pc + 2#32)) ∧
    (s.StoresRam .word swsp → ∃ t, exec (.cSwsp rs2 simm) s = .next t ∧
      Stored s t .word swsp.toNat (s.reg rs2) (s.pc + 2#32)) ∧
    (s.StoresRam .byte ea → ∃ t, exec (.cSb rs2 rs1 off) s = .next t ∧
      Stored s t .byte ea.toNat (s.reg rs2) (s.pc + 2#32)) ∧
    (s.StoresRam .half ea → ∃ t, exec (.cSh rs2 rs1 off) s = .next t ∧
      Stored s t .half ea.toNat (s.reg rs2) (s.pc + 2#32)) ∧
    (s.StoresRam .byte sp → ∃ t, exec (.cSbsp rs2 off) s = .next t ∧
      Stored s t .byte sp.toNat (s.reg rs2) (s.pc + 2#32)) ∧
    (s.StoresRam .half sp → ∃ t, exec (.cShsp rs2 off) s = .next t ∧
      Stored s t .half sp.toNat (s.reg rs2) (s.pc + 2#32))

/-- A misaligned load raises exception 4 and a misaligned store exception 6, before any access (20_memory.md R86,
60_exceptions.md R360; decision D2). -/
def Obligations.MisalignedAccessesTrap : Prop :=
  ∀ (s : State) (r rs1 : Reg) (imm : BitVec 12) (short : BitVec 7) (stack : BitVec 8) (off : Word),
    let ea := s.reg rs1 + imm.signExtend 32
    (¬ State.Aligned .half ea → exec (.lh r rs1 imm) s = s.takeException 4#4 ∧
      exec (.lhu r rs1 imm) s = s.takeException 4#4 ∧ exec (.sh r rs1 imm) s = s.takeException 6#4) ∧
    (¬ State.Aligned .word ea → exec (.lw r rs1 imm) s = s.takeException 4#4 ∧
      exec (.sw r rs1 imm) s = s.takeException 6#4) ∧
    (¬ State.Aligned .word (s.reg rs1 + short.setWidth 32) → exec (.cLw r rs1 short) s = s.takeException 4#4 ∧
      exec (.cSw r rs1 short) s = s.takeException 6#4) ∧
    (¬ State.Aligned .word (s.reg 2 + stack.setWidth 32) → exec (.cLwsp r stack) s = s.takeException 4#4 ∧
      exec (.cSwsp r stack) s = s.takeException 6#4) ∧
    (¬ State.Aligned .half (s.reg rs1 + off) → exec (.cLhu r rs1 off) s = s.takeException 4#4 ∧
      exec (.cSh r rs1 off) s = s.takeException 6#4) ∧
    (¬ State.Aligned .half (s.reg 2 + off) → exec (.cLhusp r off) s = s.takeException 4#4 ∧
      exec (.cShsp r off) s = s.takeException 6#4)

/-- A load or a store whose access fails retires: its trap stands in flight, behind those already there, memory and
the other registers are as before, in the program buffer as elsewhere (20_memory.md R95, 60_exceptions.md R358,
64_debug.md R534). What the load leaves in rd is free. This form of the imprecise trap is decision D17
(notes/assumptions/10.md). -/
def Obligations.FailedAccessesRetire : Prop :=
  ∀ (s : State) (r rs1 : Reg) (imm : BitVec 12) (short : BitVec 7) (stack : BitVec 8) (off : Word),
    let ea := s.reg rs1 + imm.signExtend 32
    let loads := fun i n => ∃ t, exec i s = .next t ∧ FailedLoad s t r (s.pc + n)
    let stores := fun i n => ∃ t, exec i s = .next t ∧ FailedStore s t (s.pc + n)
    (s.AccessFails .byte ea →
      loads (.lb r rs1 imm) 4#32 ∧ loads (.lbu r rs1 imm) 4#32 ∧ stores (.sb r rs1 imm) 4#32) ∧
    (s.AccessFails .half ea →
      loads (.lh r rs1 imm) 4#32 ∧ loads (.lhu r rs1 imm) 4#32 ∧ stores (.sh r rs1 imm) 4#32) ∧
    (s.AccessFails .word ea → loads (.lw r rs1 imm) 4#32 ∧ stores (.sw r rs1 imm) 4#32) ∧
    (s.AccessFails .word (s.reg rs1 + short.setWidth 32) →
      loads (.cLw r rs1 short) 2#32 ∧ stores (.cSw r rs1 short) 2#32) ∧
    (s.AccessFails .word (s.reg 2 + stack.setWidth 32) →
      loads (.cLwsp r stack) 2#32 ∧ stores (.cSwsp r stack) 2#32) ∧
    (s.AccessFails .byte (s.reg rs1 + off) → loads (.cLbu r rs1 off) 2#32 ∧ stores (.cSb r rs1 off) 2#32) ∧
    (s.AccessFails .half (s.reg rs1 + off) → loads (.cLhu r rs1 off) 2#32 ∧ stores (.cSh r rs1 off) 2#32) ∧
    (s.AccessFails .byte (s.reg 2 + off) → loads (.cLbusp r off) 2#32 ∧ stores (.cSbsp r off) 2#32) ∧
    (s.AccessFails .half (s.reg 2 + off) → loads (.cLhusp r off) 2#32 ∧ stores (.cShsp r off) 2#32)

/-- A store followed by loads of the same bytes, whole and in parts (20_memory.md R84, R85, R97). The byte order is
decision D1 (notes/assumptions/4.md). -/
def Obligations.StoredWordReadsBackInParts : Prop :=
  ∀ (s : State) (rs2 rs1 : Reg) (imm : BitVec 12),
    let ea := s.reg rs1 + imm.signExtend 32
    s.StoresRam .word ea → ∃ t, exec (.sw rs2 rs1 imm) s = .next t ∧
      t.memNat .word ea.toNat = (s.reg rs2).toNat ∧
      t.memNat .half ea.toNat = (s.reg rs2).toNat % 65536 ∧
      t.memNat .half (ea.toNat + 2) = (s.reg rs2).toNat / 65536 ∧
      t.memNat .byte (ea.toNat + 1) = (s.reg rs2).toNat / 256 % 256

/-! ### Fences -/

/-- FENCE and FENCE.I with no failed access in flight go on to the next instruction; FENCE.I also makes fetches see
every store and brings the core's copies of the interrupt masks up to date (43_system.md R240, R241, 20_memory.md R100
to R102, R104). What FENCE does in the model is decision D11. -/
def Obligations.FencesComplete : Prop :=
  ∀ (s : State) (fm pred succ : BitVec 4) (rs1 rd : BitVec 5) (imm : BitVec 12), s.inflight = [] →
    (∃ t, exec (.fence fm pred succ rs1 rd) s = .next t ∧ Moved s t (s.pc + 4#32)) ∧
    (∃ t, exec (.fenceI imm rs1 rd) s = .next t ∧ t.mieEff = s.mie ∧ t.pfic.enableEff = s.pfic.enable ∧
      (∀ a, t.fetchParcel a = (s.byteAt (a + 1) ++ s.byteAt a, t)) ∧ (∀ a, t.byteAt a = s.byteAt a) ∧
      t = { s with pc := s.pc + 4#32, mieEff := s.mie, pfic := { s.pfic with enableEff := s.pfic.enable }, stale := [] })

/-- After a FENCE.I no programmable interrupt whose enable bit is 0 is delivered, and none at all while MIE is 0
(43_system.md R241, 70_reset_and_hazards.md R575). The copies that lag are decision D47 (notes/assumptions/11.md). -/
def Obligations.MaskedInterruptsStayOutAfterFenceI : Prop :=
  ∀ (s : State) (imm : BitVec 12) (rs1 rd : BitVec 5), s.inflight = [] →
    ∃ t, exec (.fenceI imm rs1 rd) s = .next t ∧
      ∀ n : Irq, (s.pfic.enable.getLsbD n.val = false ∨ s.mie = false) → t.deliverable n = false ∧ t.bestIrq ≠ some n

/-- FENCE, FENCE.I, WFI and `mret` take the trap of a failed access that is in flight, with `mepc` the address of the next
instruction: FENCE.I has synchronised the masks, WFI does not sleep and has consumed an event if it stands for a WFE,
`mret` has returned. In the program buffer they end it, with every error in flight (43_system.md R240, R241, R252, R253;
60_exceptions.md R358; 64_debug.md R535). That the trap is taken here at the latest, and its `mepc`, are decision D17
(notes/assumptions/10.md); that the buffer is ended by all of them together is the model's choice
(notes/assumptions/34.md). -/
def Obligations.FenceTakesAccessErrors : Prop :=
  ∀ (s : State) (fm pred succ : BitVec 4) (rs1 rd : BitVec 5) (imm : BitVec 12) (e : AccessError)
    (rest : List AccessError), s.inflight = e :: rest →
    (s.EntersPlainly → s.NoVtf 3 →
      (∃ t, exec (.fence fm pred succ rs1 rd) s = .next t ∧ ErrorTaken s t e rest (s.pc + 4#32)) ∧
      (∃ t, exec (.fenceI imm rs1 rd) s = .next t ∧ ErrorTaken s t e rest (s.pc + 4#32) ∧
        t.pfic.enableEff = s.pfic.enable) ∧
      (∃ t, exec .wfi s = .next t ∧ ErrorTaken s t e rest (s.pc + 4#32) ∧
        t.event = (s.event && !s.wfiToWfe))) ∧
    (s.inDebug = false → s.nest ≤ 2 → s.hwstken = false → s.mtvec.getLsbD 1 = false → s.mtvec.extractLsb' 2 8 = 0#8 →
      s.NoVtf 3 → s.mepc.getLsbD 0 = false → s.mpop = false →
      ∃ u t, Returned s u ∧ u.regs = s.regs ∧ exec .mret s = .next t ∧ ErrorTaken u t e rest s.mepc) ∧
    (s.inDebug = true →
      (∃ t, exec (.fence fm pred succ rs1 rd) s = .next t ∧ BufferStopped s t) ∧
      (∃ t, exec (.fenceI imm rs1 rd) s = .next t ∧ BufferStopped s t) ∧
      (∃ t, exec .wfi s = .next t ∧ BufferStopped s t) ∧
      (s.mepc.getLsbD 0 = false → s.mpop = false → ∃ t, exec .mret s = .next t ∧ BufferStopped s t))

/-! ### Environment calls and breakpoints -/

/-- ECALL takes exception 11, and EBREAK and C.EBREAK with `dcsr.ebreakm` 0 take exception 3, each with `mepc` its own
address (43_system.md R242, R243, 45_compressed.md R304, 60_exceptions.md R360 to R367; the codes are decision D34). -/
def Obligations.CallsAndBreakpointsTrap : Prop :=
  ∀ s : State, s.EntersPlainly → s.NoVtf 3 →
    (∃ t, exec .ecall s = .next t ∧ Entered s t 11#32 s.pc ∧ t.pc = s.entryOf 3) ∧
    (s.dcsr.getLsbD 15 = false →
      (∃ t, exec .ebreak s = .next t ∧ Entered s t 3#32 s.pc ∧ t.pc = s.entryOf 3) ∧
      (∃ t, exec .cEbreak s = .next t ∧ Entered s t 3#32 s.pc ∧ t.pc = s.entryOf 3))

/-- EBREAK and C.EBREAK with `dcsr.ebreakm` 1 enter Debug mode: no machine CSR changes, `dpc` is their own address and
the cause is 001, and every bit of `dcsr` but cause and prv stays. In Debug mode they only end the program buffer
(43_system.md R243, 64_debug.md R536, R540). A model
with a debug host is the model's choice under decision D32 (notes/assumptions/34.md). -/
def Obligations.BreakpointsServeTheDebugger : Prop :=
  ∀ s : State,
    (s.inDebug = false → s.dcsr.getLsbD 15 = true →
      ∃ t, exec .ebreak s = .next t ∧ exec .cEbreak s = .next t ∧ t.run = .haltedDebug ∧ t.dpc = s.pc ∧
        t.dcsr.extractLsb' 6 3 = 1#3 ∧ t.dcsr.extractLsb' 0 2 = 3#2 ∧
        t.dcsr &&& 0xFFFFFE3C#32 = s.dcsr &&& 0xFFFFFE3C#32 ∧ (∀ a, t.byteAt a = s.byteAt a) ∧
        t = { s with dcsr := t.dcsr, dpc := s.pc, run := .haltedDebug, deepSleep := false }) ∧
    (s.inDebug = true →
      ∃ t, exec .ebreak s = .next t ∧ exec .cEbreak s = .next t ∧ t = { s with dm := { s.dm with busy := false } } ∧
        ∀ a, t.byteAt a = s.byteAt a)

/-! ### CSR instructions -/

/-- The six CSR instructions: rd takes the old value, the writable bits of the CSR take the new one, nothing else
changes. CSRRS and CSRRC write unless the rs1 field is x0, CSRRSI and CSRRCI unless the immediate is 0 (43_system.md
R244 to R250, 10_state.md R48). What an unlisted `mcause` reads as is the model's choice (notes/assumptions/14.md);
the zero immediate is decision D40. -/
def Obligations.CsrInstructionsComplete : Prop :=
  ∀ (s : State) (rd rs1 : Reg) (csr : BitVec 12) (c : Csr) (uimm : BitVec 5), s.CsrsShaped →
    let old := (s.csrRead c).1
    let u := BitVec.ofNat 32 uimm.toNat
    (CsrAllowed s csr c true → ∃ t, exec (.csrrw rd csr rs1) s = .next t ∧ CsrAccessed s t rd c true (s.reg rs1)) ∧
    (CsrAllowed s csr c (decide (rs1 ≠ 0)) → ∃ t, exec (.csrrs rd csr rs1) s = .next t ∧
      CsrAccessed s t rd c (decide (rs1 ≠ 0)) (old ||| s.reg rs1)) ∧
    (CsrAllowed s csr c (decide (rs1 ≠ 0)) → ∃ t, exec (.csrrc rd csr rs1) s = .next t ∧
      CsrAccessed s t rd c (decide (rs1 ≠ 0)) (old &&& ~~~s.reg rs1)) ∧
    (CsrAllowed s csr c true → ∃ t, exec (.csrrwi rd csr uimm) s = .next t ∧ CsrAccessed s t rd c true u) ∧
    (CsrAllowed s csr c (decide (uimm ≠ 0#5)) → ∃ t, exec (.csrrsi rd csr uimm) s = .next t ∧
      CsrAccessed s t rd c (decide (uimm ≠ 0#5)) (old ||| u)) ∧
    (CsrAllowed s csr c (decide (uimm ≠ 0#5)) → ∃ t, exec (.csrrci rd csr uimm) s = .next t ∧
      CsrAccessed s t rd c (decide (uimm ≠ 0#5)) (old &&& ~~~u))

/-- An access to a CSR that is not implemented, to a debug CSR outside Debug mode, or a write to a read-only one raises
exception 2 (43_system.md R244 step 1, 10_state.md R32 to R34; decisions D5, D6). -/
def Obligations.CsrViolationsTrap : Prop :=
  ∀ (s : State) (rd rs1 : Reg) (csr : BitVec 12) (uimm : BitVec 5),
    ((∀ c, csrAt csr = some c → c.debugOnly = true ∧ s.inDebug = false) →
      exec (.csrrw rd csr rs1) s = s.takeException 2#4 ∧ exec (.csrrs rd csr rs1) s = s.takeException 2#4 ∧
      exec (.csrrc rd csr rs1) s = s.takeException 2#4 ∧ exec (.csrrwi rd csr uimm) s = s.takeException 2#4 ∧
      exec (.csrrsi rd csr uimm) s = s.takeException 2#4 ∧ exec (.csrrci rd csr uimm) s = s.takeException 2#4) ∧
    (csr.extractLsb' 10 2 = 3#2 →
      exec (.csrrw rd csr rs1) s = s.takeException 2#4 ∧ exec (.csrrwi rd csr uimm) s = s.takeException 2#4 ∧
      (rs1 ≠ 0 → exec (.csrrs rd csr rs1) s = s.takeException 2#4 ∧ exec (.csrrc rd csr rs1) s = s.takeException 2#4) ∧
      (uimm ≠ 0#5 → exec (.csrrsi rd csr uimm) s = s.takeException 2#4 ∧
        exec (.csrrci rd csr uimm) s = s.takeException 2#4))

/-! ### Traps -/

/-- Every trap entry that is completed saves the pc and the cause, shifts MIE into MPIE and MPOP into MPPOP, records
in MPOP whether a frame was pushed, goes one level deeper and leaves every register but x2 alone (60_exceptions.md
R361 to R365, R391). All 32 bits of the pc are stored by decision D35; MIE at level 1 without INESTEN is free
(decision D18, notes/assumptions/12.md) and not stated. -/
def Obligations.TrapEntrySavesState : Prop :=
  ∀ (s t : State) (k : TrapId) (cause epc : Word), s.enterTrap k cause epc = .next t →
    Entered s t cause epc ∧ t.activeStack = k :: s.activeStack

/-- Where a trap goes: an interrupt with an enabled VTF channel to the channel's address, any other trap to the entry
that `mtvec` gives its number, or to the address stored there (60_exceptions.md R367, R368). That every exception uses
slot 3 is derived in R367. That `mtvec[9:2]` is looked at only where `mtvec` gives the entry, so that a VTF channel is
taken under any `mtvec`, is the model's reading of decision D25 and U-7 (notes/assumptions/21.md, DEDUCED). -/
def Obligations.TrapTargetsFollowVectors : Prop :=
  ∀ (s : State) (n : Irq) (cause epc : Word), s.nest < 2 → s.hwstken = false →
    (s.pfic.vtfaddr0.getLsbD 0 = true → (s.pfic.vtfidr.extractLsb' 0 8).toNat = n.val →
      (s.pfic.vtfaddr1.getLsbD 0 = false ∨ (s.pfic.vtfidr.extractLsb' 8 8).toNat ≠ n.val) →
      ∃ t, s.enterTrap (.irq n) cause epc = .next t ∧ t.pc = s.pfic.vtfaddr0 &&& 0xFFFFFFFE#32) ∧
    (s.pfic.vtfaddr1.getLsbD 0 = true → (s.pfic.vtfidr.extractLsb' 8 8).toNat = n.val →
      (s.pfic.vtfaddr0.getLsbD 0 = false ∨ (s.pfic.vtfidr.extractLsb' 0 8).toNat ≠ n.val) →
      ∃ t, s.enterTrap (.irq n) cause epc = .next t ∧ t.pc = s.pfic.vtfaddr1 &&& 0xFFFFFFFE#32) ∧
    (s.mtvec.extractLsb' 2 8 = 0#8 → s.mtvec.getLsbD 1 = false → s.NoVtf n.val →
      ∃ t, s.enterTrap (.irq n) cause epc = .next t ∧ t.pc = s.entryOf n.val) ∧
    (s.mtvec.extractLsb' 2 8 = 0#8 → s.mtvec.getLsbD 1 = true → s.NoVtf n.val →
      s.LoadsMemory .word (s.entryOf n.val) → s.memNat .word (s.entryOf n.val).toNat % 2 = 0 →
      ∃ t, s.enterTrap (.irq n) cause epc = .next t ∧
        t.pc = BitVec.ofNat 32 (s.memNat .word (s.entryOf n.val).toNat)) ∧
    (s.mtvec.extractLsb' 2 8 = 0#8 → s.mtvec.getLsbD 1 = true → s.NoVtf 3 →
      s.LoadsMemory .word (s.entryOf 3) → s.memNat .word (s.entryOf 3).toNat % 2 = 0 →
      ∃ t, s.enterTrap .exc cause epc = .next t ∧ t.pc = BitVec.ofNat 32 (s.memNat .word (s.entryOf 3).toNat))

/-- With HPE on, the entry of an exception or of an interrupt stores the ten registers below the stack pointer, lowers it
by 48, and changes no byte outside the frame; with a stack pointer that is no multiple of 4 it stops (60_exceptions.md
R375, 20_memory.md R87). The two words without a register are free (decision D23, notes/assumptions/17.md); the stop is
decision D22 (notes/assumptions/21.md). -/
def Obligations.HpePushesFrame : Prop :=
  ∀ (s : State) (trap : TrapId) (cause epc : Word), s.nest < 2 → s.hwstken = true →
    let slot := match trap with | .exc => 3 | .irq n => n.val
    ((s.reg 2).toNat % 4 = 0 → (∀ k, k < 12 → s.StoresRam .word (hpeSlot (s.reg 2) k)) →
      s.mtvec.extractLsb' 2 8 = 0#8 → s.mtvec.getLsbD 1 = false → s.NoVtf slot →
      ∃ t, s.enterTrap trap cause epc = .next t ∧ Entered s t cause epc ∧ t.pc = s.entryOf slot ∧
        t.activeStack = trap :: s.activeStack ∧
        (∀ (k : Nat) (h : k < hpeRegs.length),
          t.memNat .word (hpeSlot (s.reg 2) k).toNat = (s.reg (hpeRegs[k]'h)).toNat) ∧
        (∀ a, (∀ k, k < 12 → a < (hpeSlot (s.reg 2) k).toNat ∨ (hpeSlot (s.reg 2) k).toNat + 4 ≤ a) →
          t.byteAt a = s.byteAt a)) ∧
    ((s.reg 2).toNat % 4 ≠ 0 → s.enterTrap trap cause epc = .fault .hpeAccess)

/-- `mret` with no frame to pop and no failed access in flight (60_exceptions.md R380 to R382, R384, R385;
43_system.md R252). Outside a handler this is decision D45; MPIE and MPPOP are free afterwards (decision D31,
notes/assumptions/13.md) and not stated. -/
def Obligations.TrapReturnRestores : Prop :=
  ∀ s : State, s.mepc.getLsbD 0 = false → s.mpop = false → s.inflight = [] →
    ∃ t, exec .mret s = .next t ∧ Returned s t ∧ t.regs = s.regs ∧ t.pfic = s.pfic

/-- `mret` with a frame to pop reloads the ten registers from it and raises the stack pointer by 48 (60_exceptions.md
R380, R383). That the frame is read relative to x2 is derived in R383. -/
def Obligations.TrapReturnPopsFrame : Prop :=
  ∀ s : State, s.mepc.getLsbD 0 = false → s.mpop = true → s.inflight = [] → (s.reg 2).toNat % 4 = 0 →
    let n := s.reg 2 + 48#32
    (∀ k, k < 10 → s.LoadsMemory .word (hpeSlot n k)) →
    ∃ t, exec .mret s = .next t ∧ Returned s t ∧ t.reg 2 = n ∧
      (∀ (k : Nat) (h : k < hpeRegs.length), (t.reg (hpeRegs[k]'h)).toNat = s.memNat .word (hpeSlot n k).toNat) ∧
      (∀ q, q ≠ 2 → q ∉ hpeRegs → t.reg q = s.reg q)

/-! ### Interrupts -/

/-- The programmable interrupt that a boundary takes is a deliverable one, of the smallest priority value and, among
those, of the lowest number; there is none exactly when none is deliverable (60_exceptions.md R371, R373). The tie
goes to the lower number by decision D29. -/
def Obligations.BestInterruptIsTaken : Prop :=
  ∀ s : State,
    (∀ n, s.bestIrq = some n → s.deliverable n = true ∧ ∀ m, s.deliverable m = true →
      (s.prioOf n).toNat < (s.prioOf m).toNat ∨ (s.prioOf n).toNat = (s.prioOf m).toNat ∧ n.val ≤ m.val) ∧
    (s.bestIrq = none → ∀ m, s.deliverable m = false)

/-- What makes a programmable interrupt deliverable (60_exceptions.md R371). That NMI and exceptions are pre-empted by
no programmable interrupt is derived in R371. -/
def Obligations.DeliverabilityConditions : Prop :=
  ∀ (s : State) (n : Irq), s.deliverable n = true ↔
    (n.val ≠ 2 ∧ n.val ≠ 3 ∧ s.pending.getLsbD n.val = true ∧ s.pfic.enableEff.getLsbD n.val = true ∧
      s.mieEff = true ∧
      (s.pfic.ithresdr.extractLsb' 0 8 = 0#8 ∨ (s.prioOf n).toNat < (s.pfic.ithresdr.extractLsb' 0 8).toNat) ∧
      (s.activeStack = [] ∨
        ∃ m : Irq, s.activeStack = [TrapId.irq m] ∧ m.val ≠ 2 ∧ s.inesten = true ∧
          (s.prioOf n).getLsbD 7 = false ∧ (s.prioOf m).getLsbD 7 = true))

/-- A deliverable interrupt is taken at the boundary, from sleep too: with `mcause` its number and `mepc` the address
of the instruction that would have executed next (60_exceptions.md R361 to R363, R370; 63_low_power.md R502). The
boundary is that of decision D37 (notes/assumptions/32.md). -/
def Obligations.InterruptsAreTakenAtBoundaries : Prop :=
  ∀ (s : State) (n : Irq), s.AtBoundary → s.stepBit = false → s.nmiDeliverable = false → s.inflight = [] →
    s.bestIrq = some n → s.hwstken = false → s.mtvec.extractLsb' 2 8 = 0#8 → s.mtvec.getLsbD 1 = false → s.NoVtf n.val →
    ∃ t, step s = .next t ∧ Entered s t (BitVec.ofNat 32 (2147483648 + n.val)) s.pc ∧ t.pc = s.entryOf n.val ∧
      t.activeStack = TrapId.irq n :: s.activeStack

/-- NMI is taken whatever MIE, the threshold and the nesting enable say (60_exceptions.md R374; decision D39), here with no
frame to push, no VTF channel and a table of jumps. That it is taken before an access error that is due at the same
boundary is the model's choice (notes/assumptions/32.md). -/
def Obligations.NmiIsNotMaskable : Prop :=
  ∀ s : State, s.AtBoundary → s.stepBit = false → s.pending.getLsbD 2 = true →
    (s.activeStack = [] ∨ ∃ k : TrapId, s.activeStack = [k] ∧ k ≠ .irq 2) →
    s.hwstken = false → s.mtvec.extractLsb' 2 8 = 0#8 → s.mtvec.getLsbD 1 = false → s.NoVtf 2 →
    ∃ t, step s = .next t ∧ Entered s t 0x80000002#32 s.pc ∧ t.pc = s.entryOf 2

/-! ### The interrupt controller and SysTick -/

/-- A word store to PFIC_IENRx sets, and one to PFIC_IRERx clears, the enable bits it names, but for NMI, EXC and the
numbers without state (61_pfic.md R422, R425, R426, R430, R438). The core's copies of the bits are set with them and are
not cleared with them (R443). Numbers without state are decision D46, the copies decision D47 (notes/assumptions/11.md). -/
def Obligations.EnableRegistersSetAndClear : Prop :=
  ∀ (s : State) (rs2 rs1 : Reg) (imm : BitVec 12) (x : Fin 8),
    let ea := s.reg rs1 + imm.signExtend 32
    let names := fun n : Irq => decide (n.val / 32 = x.val) && (s.reg rs2).getLsbD (n.val % 32)
    (ea = BitVec.ofNat 32 (0xE000E100 + 4 * x.val) → ∃ t, exec (.sw rs2 rs1 imm) s = .next t ∧
      t = { s with pc := s.pc + 4#32, pfic := { s.pfic with enable := t.pfic.enable, enableEff := t.pfic.enableEff } } ∧
      (∀ a, t.byteAt a = s.byteAt a) ∧
      ∀ n : Irq,
        t.enabled.getLsbD n.val = (s.enabled.getLsbD n.val || (names n && (irqValid s.cfg).getLsbD n.val)) ∧
        t.pfic.enableEff.getLsbD n.val =
          (s.pfic.enableEff.getLsbD n.val || (names n && (irqValid s.cfg).getLsbD n.val))) ∧
    (ea = BitVec.ofNat 32 (0xE000E180 + 4 * x.val) → ∃ t, exec (.sw rs2 rs1 imm) s = .next t ∧
      t = { s with pc := s.pc + 4#32, pfic := { s.pfic with enable := t.pfic.enable } } ∧
      (∀ a, t.byteAt a = s.byteAt a) ∧
      ∀ n : Irq, t.enabled.getLsbD n.val =
        (s.enabled.getLsbD n.val && !(names n && decide (n.val ≠ 2) && decide (n.val ≠ 3))))

/-- A word store to PFIC_IPSRx sets, and one to PFIC_IPRRx clears, the latches it names: a number then pends while its
latch or its request line is 1 (61_pfic.md R422, R427, R428, R430, R438, R441). Bit 3 of IPSR0 is refused. The latch
and the line are decision D21, numbers without state decision D46, the refusal U-16 (notes/assumptions/25.md). -/
def Obligations.PendingRegistersSetAndClear : Prop :=
  ∀ (s : State) (rs2 rs1 : Reg) (imm : BitVec 12) (x : Fin 8),
    let ea := s.reg rs1 + imm.signExtend 32
    let names := fun n : Irq => decide (n.val / 32 = x.val) && (s.reg rs2).getLsbD (n.val % 32)
    (ea = BitVec.ofNat 32 (0xE000E200 + 4 * x.val) → (x.val = 0 → (s.reg rs2).getLsbD 3 = false) →
      ∃ t, exec (.sw rs2 rs1 imm) s = .next t ∧
        t = { s with pc := s.pc + 4#32, pfic := { s.pfic with pendLatch := t.pfic.pendLatch }, event := t.event } ∧
        (∀ a, t.byteAt a = s.byteAt a) ∧
        ∀ n : Irq, t.pending.getLsbD n.val =
          (s.pending.getLsbD n.val || (names n && (irqValid s.cfg).getLsbD n.val))) ∧
    (ea = BitVec.ofNat 32 0xE000E200 → (s.reg rs2).getLsbD 3 = true →
      exec (.sw rs2 rs1 imm) s = .refused .excPendingSet) ∧
    (ea = BitVec.ofNat 32 (0xE000E280 + 4 * x.val) → ∃ t, exec (.sw rs2 rs1 imm) s = .next t ∧
      t = { s with pc := s.pc + 4#32, pfic := { s.pfic with pendLatch := t.pfic.pendLatch } } ∧
      (∀ a, t.byteAt a = s.byteAt a) ∧
      ∀ n : Irq, t.pending.getLsbD n.val =
        ((s.pfic.pendLatch.getLsbD n.val && !names n || s.requestLines.getLsbD n.val) &&
          (irqValid s.cfg).getLsbD n.val))

/-- Priority bytes keep bits [7:6] of what is stored (61_pfic.md R431). Numbers without state are decision D46. -/
def Obligations.PriorityBytesReadBack : Prop :=
  ∀ (s : State) (rs2 rs1 rd : Reg) (imm : BitVec 12) (n : Irq), n.val ≠ 2 → n.val ≠ 3 →
    (irqValid s.cfg).getLsbD n.val = true → s.reg rs1 + imm.signExtend 32 = BitVec.ofNat 32 (0xE000E400 + n.val) →
    ∃ t, exec (.sb rs2 rs1 imm) s = .next t ∧ t.regs = s.regs ∧
      ∃ u, exec (.lbu rd rs1 imm) t = .next u ∧ Wrote t u rd (s.reg rs2 &&& 0xC0#32) (s.pc + 8#32) ∧
        ∀ m : Irq, m ≠ n → u.ipriorByte m = s.ipriorByte m

/-- What a word store to a read-write register of the PFIC, of SysTick or of the debug data window leaves in it, as a
word load then reads it (61_pfic.md R432, R434 to R436; 62_systick.md R482, R484, R485; 64_debug.md R537). The
reserved bits of VTFIDR and SCTLR and the address of `data1` are derived in R434, R436 and R537. -/
def Obligations.DeviceRegistersReadBack : Prop :=
  ∀ (s : State) (rs2 rs1 rd : Reg) (imm : BitVec 12) (a mask : Word),
    (a, mask) ∈ [(0xE000E040#32, 0xC0#32), (0xE000E050#32, 0xFFFF#32), (0xE000E060#32, 0xFFFFFFFF#32),
      (0xE000E064#32, 0xFFFFFFFF#32), (0xE000ED10#32, 0x1E#32), (0xE000F000#32, 0x8000000F#32),
      (0xE000F008#32, 0xFFFFFFFF#32), (0xE000F010#32, 0xFFFFFFFF#32), (0xE00000F4#32, 0xFFFFFFFF#32),
      (0xE00000F8#32, 0xFFFFFFFF#32)] →
    s.reg rs1 + imm.signExtend 32 = a →
    ∃ t, exec (.sw rs2 rs1 imm) s = .next t ∧ t.regs = s.regs ∧ t.mem = s.mem ∧
      ∃ u, exec (.lw rd rs1 imm) t = .next u ∧ Wrote t u rd (s.reg rs2 &&& mask) (s.pc + 8#32)

/-- PFIC_GISR shows the nesting level and whether anything pends (61_pfic.md R440, 60_exceptions.md R365). That
disabled pending interrupts count is derived in R440. -/
def Obligations.GlobalStatusShowsNesting : Prop :=
  ∀ (s : State) (rd rs1 : Reg) (imm : BitVec 12), s.NestOk → s.reg rs1 + imm.signExtend 32 = 0xE000E04C#32 →
    ∃ t v, exec (.lw rd rs1 imm) s = .next t ∧ Wrote s t rd v (s.pc + 4#32) ∧
      v.extractLsb' 0 8 = (match s.nest with | 0 => 0#8 | 1 => 1#8 | _ => 3#8) ∧
      v.getLsbD 8 = decide (0 < s.nest) ∧ v.getLsbD 9 = decide (s.pending ≠ 0#256) ∧ v.extractLsb' 10 22 = 0#22

/-- A store to STK_SR clears CNTIF if its bit 0 is 0 and changes nothing if it is 1; a load shows CNTIF in bit 0
(62_systick.md R483). -/
def Obligations.TimerFlagClearsOnZero : Prop :=
  ∀ (s : State) (rs2 rs1 rd : Reg) (imm : BitVec 12), s.reg rs1 + imm.signExtend 32 = 0xE000F004#32 →
    (∃ t, exec (.sw rs2 rs1 imm) s = .next t ∧ t.stk.cntif = (s.stk.cntif && (s.reg rs2).getLsbD 0) ∧
      t = { s with pc := s.pc + 4#32, stk := { s.stk with cntif := t.stk.cntif } } ∧
      ∀ a, t.byteAt a = s.byteAt a) ∧
    (∃ t, exec (.lw rd rs1 imm) s = .next t ∧
      Wrote s t rd (if s.stk.cntif then 1#32 else 0#32) (s.pc + 4#32))

/-- The SysTick line is CNTIF and STIE, the software interrupt's is SWIE: each pends while its line or its latch is 1, and a
store that starts or stops the software interrupt shows at once (62_systick.md R482, R487, R489). The latch beside the
line is decision D21. -/
def Obligations.TimerLinesPend : Prop :=
  ∀ s : State,
    s.pending.getLsbD 12 = (s.pfic.pendLatch.getLsbD 12 || (s.stk.cntif && s.stk.ctlr.getLsbD 1)) ∧
    s.pending.getLsbD 14 = (s.pfic.pendLatch.getLsbD 14 || s.stk.ctlr.getLsbD 31) ∧
    ∀ (rs2 rs1 : Reg) (imm : BitVec 12), s.reg rs1 + imm.signExtend 32 = 0xE000F000#32 →
      ∃ t, exec (.sw rs2 rs1 imm) s = .next t ∧
        t.pending.getLsbD 14 = (s.pfic.pendLatch.getLsbD 14 || (s.reg rs2).getLsbD 31)

/-- A `tick` does nothing while STE is 0, and in Debug mode while `dcsr.stoptime` is 1. Any other changes only the count,
CNTIF and, under SEVONPEND, the event latch. Without auto-reload it adds 1 modulo 2^32 and sets CNTIF where the count
reaches the comparison value. With auto-reload the count runs from 0 up to the comparison value and is 0 again after
`cmpr + 1` ticks, or after `cmpr` ticks where the match itself reloads; CNTIF is then set (62_systick.md R486, 64_debug.md
R543). The two ways of reloading are the open choice of R486 (decision D33, notes/assumptions/39.md). -/
def Obligations.SysTickPeriod : Prop :=
  ∀ s : State,
    let counts := s.stk.ctlr.getLsbD 0 = true ∧ ¬ (s.inDebug = true ∧ s.dcsr.getLsbD 9 = true)
    let reloads := s.stk.ctlr.getLsbD 3 = true ∧ s.stk.cntr = 0#32 ∧ s.stk.cmpr ≠ 0#32
    let after := fun k => (Nat.iterate State.tick k s).stk
    (¬ counts → s.tick = s) ∧
    (counts →
      s.tick = { s with stk := { s.stk with cntr := s.tick.stk.cntr, cntif := s.tick.stk.cntif }, event := s.tick.event } ∧
      (s.pfic.sctlr.getLsbD 4 = false → s.tick.event = s.event) ∧ ∀ a, s.tick.byteAt a = s.byteAt a) ∧
    (counts → s.stk.ctlr.getLsbD 3 = false → s.tick.stk.cntr = s.stk.cntr + 1#32 ∧
      s.tick.stk.cntif = (s.stk.cntif || decide (s.stk.cntr + 1#32 = s.stk.cmpr))) ∧
    (counts → reloads → s.cfg.stkReloadAfterMatch = true →
      (∀ k, k ≤ s.stk.cmpr.toNat → (after k).cntr = BitVec.ofNat 32 k) ∧
      (after (s.stk.cmpr.toNat + 1)).cntr = 0#32 ∧ (after s.stk.cmpr.toNat).cntif = true) ∧
    (counts → reloads → s.cfg.stkReloadAfterMatch = false →
      (∀ k, k < s.stk.cmpr.toNat → (after k).cntr = BitVec.ofNat 32 k) ∧
      (after s.stk.cmpr.toNat).cntr = 0#32 ∧ (after s.stk.cmpr.toNat).cntif = true)

/-! ### Sleep -/

/-- WFI with no failed access in flight: WFI sleep, WFE sleep, an event consumed, or nothing in Debug mode; no
register and no byte of memory changes (63_low_power.md R500, R507, R508; 43_system.md R253). That WFI settles failed
accesses first is decision D17; the event latch is one bit by decision D30. -/
def Obligations.WaitForInterruptSleeps : Prop :=
  ∀ s : State, s.inflight = [] →
    ∃ t, exec .wfi s = .next t ∧ t.pc = s.pc + 4#32 ∧ (∀ a, t.byteAt a = s.byteAt a) ∧
      t = { s with pc := t.pc, run := t.run, deepSleep := t.deepSleep, event := t.event } ∧
      (s.inDebug = true → t = { s with pc := s.pc + 4#32 }) ∧
      (s.inDebug = false → s.wfiToWfe = false → t.run = .sleepingWfi ∧ t.deepSleep = s.sleepDeep ∧ t.event = s.event) ∧
      (s.inDebug = false → s.wfiToWfe = true → s.event = true → t.run = s.run ∧ t.event = false) ∧
      (s.inDebug = false → s.wfiToWfe = true → s.event = false →
        t.run = .sleepingWfe ∧ t.deepSleep = s.sleepDeep ∧ t.event = false)

/-- Asleep with no trap to take: a WFE sleep ends when an event is latched, and without one the hart stays as it is
unless an interrupt is pending and enabled, which may wake it or not (63_low_power.md R500, R503, R509, R510). An
interrupt held back wakes the hart or does not: a free value (decision D30, notes/assumptions/41.md). -/
def Obligations.SleepEndsOnlyByWakeUps : Prop :=
  ∀ s : State, s.AtBoundary → ({ s with tailPop := false } : State).boundaryTrap s.tailPop = none →
    (s.run = .sleepingWfe → s.event = true →
      step s = .next { s with tailPop := false, run := .running, deepSleep := false, event := false }) ∧
    (s.run = .sleepingWfi ∨ s.run = .sleepingWfe ∧ s.event = false →
      (s.maskedPending = false → step s = .next { s with tailPop := false }) ∧
      (∃ t, step s = .next t ∧ (t.run = s.run ∨ t.run = .running) ∧
        t = { s with tailPop := false, run := t.run, deepSleep := t.deepSleep, freeCtr := t.freeCtr }))

/-! ### Reset and debug -/

/-- A word store to PFIC_CFGR requests a system reset exactly with KEY3 and bit 7, one to PFIC_SCTLR with bit 31; what the
reset then leaves: the values of 10_state.md R60, the debug CSRs as they were (61_pfic.md R433, R436, R437;
70_reset_and_hazards.md R561). What the reset leaves alone is decision D48 (notes/assumptions/29.md). -/
def Obligations.SystemResetLeavesResetValues : Prop :=
  ∀ s : State,
    (∀ (rs2 rs1 : Reg) (imm : BitVec 12), s.reg rs1 + imm.signExtend 32 = 0xE000E048#32 →
      ∃ t, exec (.sw rs2 rs1 imm) s = .next t ∧ t = { s with pc := s.pc + 4#32, resetReq := t.resetReq } ∧
        t.resetReq = (s.resetReq ||
          (decide ((s.reg rs2).extractLsb' 16 16 = 0xBEEF#16) && (s.reg rs2).getLsbD 7)) ∧
        ∀ a, t.byteAt a = s.byteAt a) ∧
    (∀ (rs2 rs1 : Reg) (imm : BitVec 12), s.reg rs1 + imm.signExtend 32 = 0xE000ED10#32 →
      ∃ t, exec (.sw rs2 rs1 imm) s = .next t ∧
        t = { s with
          pc := s.pc + 4#32
          pfic := { s.pfic with sctlr := s.reg rs2 &&& 0x1E#32 }
          event := s.event || (s.reg rs2).getLsbD 5
          resetReq := s.resetReq || (s.reg rs2).getLsbD 31 } ∧
        ∀ a, t.byteAt a = s.byteAt a) ∧
    (s.schedule = [] → s.resetReq = true → s.haltOnReset = false →
      ∃ t, step s = .next t ∧ t.pc = s.cfg.resetPc ∧ t.mstatus = 0x00001800#32 ∧ t.mtvec = 0#32 ∧ t.mscratch = 0#32 ∧
        t.mepc = 0#32 ∧ t.mcause = 0#32 ∧ t.intsyscr = 0#32 ∧ t.pfic.enable = 0xC#256 ∧ t.pfic.pendLatch = 0#256 ∧
        t.activeStack = [] ∧ (∀ n : Irq, t.pfic.prio[n.val] = 0#8) ∧ t.pfic.ithresdr = 0#32 ∧ t.pfic.vtfidr = 0#32 ∧
        t.pfic.vtfaddr0 = 0#32 ∧ t.pfic.vtfaddr1 = 0#32 ∧ t.pfic.sctlr = 0#32 ∧
        t.stk = { ctlr := 0#32, cntif := false, cntr := 0#32, cmpr := 0#32 } ∧ t.run = .running ∧ t.event = false ∧
        t.resetReq = false ∧ t.inflight = [] ∧ t.dcsr = s.dcsr ∧ t.dpc = s.dpc ∧ t.dscratch0 = s.dscratch0 ∧
        t.dscratch1 = s.dscratch1)

/-- What the machine holds right after reset, as the spec's table gives it; x1..x15 and RAM are the model's choice
(notes/assumptions/2.md, 3.md) and are not stated here (10_state.md R60), nor are bits 11 to 8 of dmstatus, in which R60
and 64_debug.md R524 disagree (notes/assumptions/36.md). `run_state` and the event latch are decision D30, `dcsr.prv` is
derived in R45. -/
def Obligations.ResetValues : Prop :=
  ∀ c : Config,
    let s := State.atReset c
    s.reg 0 = 0#32 ∧ s.pc = c.resetPc ∧ s.mstatus = 0x00001800#32 ∧
      (c.variant = .v2a → s.csrHeld .misa = 0x40800014#32 ∧ s.csrHeld .marchid = 0xDC68D841#32 ∧
        s.csrHeld .mimpid = 0xDC688001#32) ∧
      s.mtvec = 0#32 ∧ s.mscratch = 0#32 ∧ s.mepc = 0#32 ∧ s.mcause = 0#32 ∧ s.intsyscr = 0#32 ∧
      s.dcsr = 0x40000003#32 ∧ s.dpc = 0#32 ∧ s.dscratch0 = 0#32 ∧ s.dscratch1 = 0#32 ∧
      groupWord s.enabled 0 = 0xC#32 ∧ (∀ x : Fin 8, x ≠ 0 → groupWord s.enabled x = 0#32) ∧ s.pending = 0#256 ∧
      s.active = 0#256 ∧ (∀ n : Irq, s.ipriorByte n = 0#8) ∧ s.pfic.ithresdr = 0#32 ∧ s.pfic.vtfidr = 0#32 ∧
      s.pfic.vtfaddr0 = 0#32 ∧ s.pfic.vtfaddr1 = 0#32 ∧ s.pfic.sctlr = 0#32 ∧ s.nest = 0 ∧
      s.stk = { ctlr := 0#32, cntif := false, cntr := 0#32, cmpr := 0#32 } ∧
      s.dm.data0 = 0#32 ∧ s.dm.data1 = 0#32 ∧ (∀ k : Fin 8, s.dm.progbuf[k.val] = 0#32) ∧ s.dm.haltreq = false ∧
      s.dm.ndmreset = false ∧ s.dm.dmactive = false ∧ s.abstractcsView = 0x08000002#32 ∧
      s.dmstatusView &&& 0xFFFFF0FF#32 = 0x82#32 ∧ s.run = .running ∧ s.event = false

/-- A halt request stops the hart at the boundary, asleep or not: `dpc` is the next instruction's address, the cause is
011, no other bit of `dcsr` but prv, no machine CSR and no register changes. In deep sleep it does nothing: a hart that
nothing else wakes sleeps on, and no step takes it to Debug mode (64_debug.md R540, R546; 63_low_power.md R504). That the
request wakes a sleep and does not wake a deep sleep is read from a garbled sentence (notes/assumptions/38.md, DEDUCED);
the debug host is the model's choice under decision D32, its place in the boundary notes/assumptions/32.md. -/
def Obligations.HaltRequestEntersDebugMode : Prop :=
  ∀ s : State, s.schedule = [] → s.resetReq = false → s.dm.ndmreset = false → s.inDebug = false →
    s.dm.haltreq = true →
    (s.deepSleep = false →
      ∃ t, step s = .next t ∧ t.run = .haltedDebug ∧ t.dpc = s.pc ∧ t.dcsr.extractLsb' 6 3 = 3#3 ∧
        t.dcsr.extractLsb' 0 2 = 3#2 ∧ t.dcsr &&& 0xFFFFFE3C#32 = s.dcsr &&& 0xFFFFFE3C#32 ∧
        t = { s with dcsr := t.dcsr, dpc := s.pc, run := .haltedDebug, deepSleep := false, tailPop := false }) ∧
    (s.deepSleep = true → s.run = .sleepingWfi ∨ s.run = .sleepingWfe →
      (s.eabien = false → ({ s with tailPop := false } : State).boundaryTrap s.tailPop = none →
        s.maskedPending = false → (s.run = .sleepingWfe → s.event = false) →
        step s = .next { s with tailPop := false }) ∧
      ∀ t, step s = .next t → t.inDebug = false)

/-- A resume continues at `dpc` and is acknowledged (64_debug.md R541, R523). The debug host is the model's choice
under decision D32 (notes/assumptions/36.md, 37.md). -/
def Obligations.ResumeContinuesAtDpc : Prop :=
  ∀ (s : State) (v : Word), s.inDebug = true → s.dm.busy = false → s.dm.ndmreset = false →
    s.dcsr.extractLsb' 0 2 = 3#2 → s.dpc.getLsbD 0 = false → v.getLsbD 0 = true → v.getLsbD 30 = true →
    v.getLsbD 1 = false →
    ∃ t, s.hostWrite 0x10#7 v = .next t ∧ t.run = .running ∧ t.pc = s.dpc ∧ t.dm.resumeack = true ∧
      t.regs = s.regs ∧ ∀ a, t.byteAt a = s.byteAt a

/-- The debug host's abstract access to a general register of a halted hart: `data0` to register and back, x0 reading
0 (64_debug.md R528, R531, R532). The debug host is the model's choice under decision D32 (notes/assumptions/35.md). -/
def Obligations.AbstractRegisterAccess : Prop :=
  ∀ (s : State) (r : Reg), s.inDebug = true → s.dm.busy = false → s.dm.dmactive = true →
    (∃ t, s.hostWrite 0x17#7 (BitVec.ofNat 32 (0x00221000 + r.val)) = .next t ∧ t.dm.data0 = s.reg r ∧
      t = { s with dm := { s.dm with data0 := s.reg r, command := BitVec.ofNat 32 (0x00221000 + r.val) } }) ∧
    (∃ t, s.hostWrite 0x17#7 (BitVec.ofNat 32 (0x00231000 + r.val)) = .next t ∧
      (r ≠ 0 → t.reg r = s.dm.data0) ∧ (∀ q, q ≠ r → t.reg q = s.reg q) ∧
      t = { s with regs := t.regs, dm := { s.dm with command := BitVec.ofNat 32 (0x00231000 + r.val) } })

/-! ### Invariants of the step -/

/-- Every step keeps the canonical form of memory (20_memory.md R81). The form is the model's own
(notes/assumptions/3.md). -/
def Obligations.StepKeepsMemoryCanonical : Prop :=
  ∀ s t : State, s.MemOk → step s = .next t → t.MemOk

/-- Every step keeps MPP 0b11 and the reserved and fixed bits of `mstatus`, `intsyscr` and `dcsr` (10_state.md R35,
R36, R44, R45, R48; 60_exceptions.md R395). That reserved bits and MPP ignore writes is derived in R36 and R48. -/
def Obligations.StepKeepsCsrShapes : Prop :=
  ∀ s t : State, s.CsrsShaped → step s = .next t → t.CsrsShaped

/-- No step goes beyond two levels of traps (10_state.md R53, R54; 60_exceptions.md R376). That a third level stops
the machine is decision D20 (notes/assumptions/20.md). -/
def Obligations.StepKeepsTwoNestingLevels : Prop :=
  ∀ s t : State, s.NestOk → step s = .next t → t.NestOk

/-- Every step keeps the pc even, and the parameters as they are (10_state.md R27, 41_control_transfer.md R200). That
an odd pc stops the machine is decision D3 (notes/assumptions/22.md). -/
def Obligations.StepKeepsPcEven : Prop :=
  ∀ s t : State, s.CfgOk → s.PcEven → step s = .next t → t.PcEven ∧ t.cfg = s.cfg

/-- The masks as the core sees them never lag behind a bit that was set, and no step disables NMI or EXC (10_state.md
R55, 61_pfic.md R423, R425, R426, R443). The copies are the spec's model of the lag (decision D47,
notes/assumptions/11.md). -/
def Obligations.StepKeepsInterruptMasks : Prop :=
  ∀ s t : State, step s = .next t → (s.MasksLag → t.MasksLag) ∧ (s.FixedEnabled → t.FixedEnabled)

/-- Every step keeps the reserved bits of the PFIC and SysTick registers 0 (61_pfic.md R431, R432, R434, R436;
62_systick.md R482). The reserved bits of VTFIDR and SCTLR are derived in R434 and R436. -/
def Obligations.StepKeepsDeviceShapes : Prop :=
  ∀ s t : State, s.DevicesShaped → step s = .next t → t.DevicesShaped

/-- The program buffer runs only while the hart is halted, and only accesses in flight are due (64_debug.md R535,
60_exceptions.md R358). Both queues are the model's own (notes/assumptions/10.md, 34.md). -/
def Obligations.StepKeepsQueues : Prop :=
  ∀ s t : State, s.QueuesOk → step s = .next t → t.QueuesOk

/-- The state after reset meets every invariant of the step, whatever even reset and program-buffer addresses the parameters
give. -/
def Obligations.ResetMeetsInvariants : Prop :=
  ∀ c : Config, c.wf = true →
    (State.atReset c).MemOk ∧ (State.atReset c).CsrsShaped ∧ (State.atReset c).NestOk ∧ (State.atReset c).CfgOk ∧
      (State.atReset c).PcEven ∧ (State.atReset c).MasksLag ∧ (State.atReset c).FixedEnabled ∧
      (State.atReset c).DevicesShaped ∧ (State.atReset c).QueuesOk
end

