-- ==== Sys2Proof/Laws/State.lean ====
section
/-!
SUPPORT. What each named update of the state does to each field.
-/

namespace Sys2Proof.Machine.State

@[simp] theorem advance_cfg (s : State) (il : Word) : (s.advance il).cfg = s.cfg := rfl
@[simp] theorem advance_regs (s : State) (il : Word) : (s.advance il).regs = s.regs := rfl
@[simp] theorem advance_pc (s : State) (il : Word) : (s.advance il).pc = s.pc + il := rfl
@[simp] theorem advance_mstatus (s : State) (il : Word) : (s.advance il).mstatus = s.mstatus := rfl
@[simp] theorem advance_mtvec (s : State) (il : Word) : (s.advance il).mtvec = s.mtvec := rfl
@[simp] theorem advance_mscratch (s : State) (il : Word) : (s.advance il).mscratch = s.mscratch := rfl
@[simp] theorem advance_mepc (s : State) (il : Word) : (s.advance il).mepc = s.mepc := rfl
@[simp] theorem advance_mcause (s : State) (il : Word) : (s.advance il).mcause = s.mcause := rfl
@[simp] theorem advance_intsyscr (s : State) (il : Word) : (s.advance il).intsyscr = s.intsyscr := rfl
@[simp] theorem advance_dcsr (s : State) (il : Word) : (s.advance il).dcsr = s.dcsr := rfl
@[simp] theorem advance_dpc (s : State) (il : Word) : (s.advance il).dpc = s.dpc := rfl
@[simp] theorem advance_dscratch0 (s : State) (il : Word) : (s.advance il).dscratch0 = s.dscratch0 := rfl
@[simp] theorem advance_dscratch1 (s : State) (il : Word) : (s.advance il).dscratch1 = s.dscratch1 := rfl
@[simp] theorem advance_mieEff (s : State) (il : Word) : (s.advance il).mieEff = s.mieEff := rfl
@[simp] theorem advance_pfic (s : State) (il : Word) : (s.advance il).pfic = s.pfic := rfl
@[simp] theorem advance_stk (s : State) (il : Word) : (s.advance il).stk = s.stk := rfl
@[simp] theorem advance_activeStack (s : State) (il : Word) : (s.advance il).activeStack = s.activeStack := rfl
@[simp] theorem advance_tailPop (s : State) (il : Word) : (s.advance il).tailPop = s.tailPop := rfl
@[simp] theorem advance_run (s : State) (il : Word) : (s.advance il).run = s.run := rfl
@[simp] theorem advance_deepSleep (s : State) (il : Word) : (s.advance il).deepSleep = s.deepSleep := rfl
@[simp] theorem advance_event (s : State) (il : Word) : (s.advance il).event = s.event := rfl
@[simp] theorem advance_inflight (s : State) (il : Word) : (s.advance il).inflight = s.inflight := rfl
@[simp] theorem advance_dueErrors (s : State) (il : Word) : (s.advance il).dueErrors = s.dueErrors := rfl
@[simp] theorem advance_resetReq (s : State) (il : Word) : (s.advance il).resetReq = s.resetReq := rfl
@[simp] theorem advance_mem (s : State) (il : Word) : (s.advance il).mem = s.mem := rfl
@[simp] theorem advance_stale (s : State) (il : Word) : (s.advance il).stale = s.stale := rfl
@[simp] theorem advance_dm (s : State) (il : Word) : (s.advance il).dm = s.dm := rfl
@[simp] theorem advance_haltOnReset (s : State) (il : Word) : (s.advance il).haltOnReset = s.haltOnReset := rfl
@[simp] theorem advance_schedule (s : State) (il : Word) : (s.advance il).schedule = s.schedule := rfl
@[simp] theorem advance_freeCtr (s : State) (il : Word) : (s.advance il).freeCtr = s.freeCtr := rfl
@[simp] theorem advance_boots (s : State) (il : Word) : (s.advance il).boots = s.boots := rfl

@[simp] theorem jumpTo_cfg (s : State) (t : Word) : (s.jumpTo t).cfg = s.cfg := rfl
@[simp] theorem jumpTo_regs (s : State) (t : Word) : (s.jumpTo t).regs = s.regs := rfl
@[simp] theorem jumpTo_pc (s : State) (t : Word) : (s.jumpTo t).pc = t := rfl
@[simp] theorem jumpTo_mstatus (s : State) (t : Word) : (s.jumpTo t).mstatus = s.mstatus := rfl
@[simp] theorem jumpTo_mtvec (s : State) (t : Word) : (s.jumpTo t).mtvec = s.mtvec := rfl
@[simp] theorem jumpTo_mscratch (s : State) (t : Word) : (s.jumpTo t).mscratch = s.mscratch := rfl
@[simp] theorem jumpTo_mepc (s : State) (t : Word) : (s.jumpTo t).mepc = s.mepc := rfl
@[simp] theorem jumpTo_mcause (s : State) (t : Word) : (s.jumpTo t).mcause = s.mcause := rfl
@[simp] theorem jumpTo_intsyscr (s : State) (t : Word) : (s.jumpTo t).intsyscr = s.intsyscr := rfl
@[simp] theorem jumpTo_dcsr (s : State) (t : Word) : (s.jumpTo t).dcsr = s.dcsr := rfl
@[simp] theorem jumpTo_dpc (s : State) (t : Word) : (s.jumpTo t).dpc = s.dpc := rfl
@[simp] theorem jumpTo_dscratch0 (s : State) (t : Word) : (s.jumpTo t).dscratch0 = s.dscratch0 := rfl
@[simp] theorem jumpTo_dscratch1 (s : State) (t : Word) : (s.jumpTo t).dscratch1 = s.dscratch1 := rfl
@[simp] theorem jumpTo_mieEff (s : State) (t : Word) : (s.jumpTo t).mieEff = s.mieEff := rfl
@[simp] theorem jumpTo_pfic (s : State) (t : Word) : (s.jumpTo t).pfic = s.pfic := rfl
@[simp] theorem jumpTo_stk (s : State) (t : Word) : (s.jumpTo t).stk = s.stk := rfl
@[simp] theorem jumpTo_activeStack (s : State) (t : Word) : (s.jumpTo t).activeStack = s.activeStack := rfl
@[simp] theorem jumpTo_tailPop (s : State) (t : Word) : (s.jumpTo t).tailPop = s.tailPop := rfl
@[simp] theorem jumpTo_run (s : State) (t : Word) : (s.jumpTo t).run = s.run := rfl
@[simp] theorem jumpTo_deepSleep (s : State) (t : Word) : (s.jumpTo t).deepSleep = s.deepSleep := rfl
@[simp] theorem jumpTo_event (s : State) (t : Word) : (s.jumpTo t).event = s.event := rfl
@[simp] theorem jumpTo_inflight (s : State) (t : Word) : (s.jumpTo t).inflight = s.inflight := rfl
@[simp] theorem jumpTo_dueErrors (s : State) (t : Word) : (s.jumpTo t).dueErrors = s.dueErrors := rfl
@[simp] theorem jumpTo_resetReq (s : State) (t : Word) : (s.jumpTo t).resetReq = s.resetReq := rfl
@[simp] theorem jumpTo_mem (s : State) (t : Word) : (s.jumpTo t).mem = s.mem := rfl
@[simp] theorem jumpTo_stale (s : State) (t : Word) : (s.jumpTo t).stale = s.stale := rfl
@[simp] theorem jumpTo_dm (s : State) (t : Word) : (s.jumpTo t).dm = s.dm := rfl
@[simp] theorem jumpTo_haltOnReset (s : State) (t : Word) : (s.jumpTo t).haltOnReset = s.haltOnReset := rfl
@[simp] theorem jumpTo_schedule (s : State) (t : Word) : (s.jumpTo t).schedule = s.schedule := rfl
@[simp] theorem jumpTo_freeCtr (s : State) (t : Word) : (s.jumpTo t).freeCtr = s.freeCtr := rfl
@[simp] theorem jumpTo_boots (s : State) (t : Word) : (s.jumpTo t).boots = s.boots := rfl

@[simp] theorem drawn_cfg (s : State) : s.drawn.cfg = s.cfg := rfl
@[simp] theorem drawn_regs (s : State) : s.drawn.regs = s.regs := rfl
@[simp] theorem drawn_pc (s : State) : s.drawn.pc = s.pc := rfl
@[simp] theorem drawn_mstatus (s : State) : s.drawn.mstatus = s.mstatus := rfl
@[simp] theorem drawn_mtvec (s : State) : s.drawn.mtvec = s.mtvec := rfl
@[simp] theorem drawn_mscratch (s : State) : s.drawn.mscratch = s.mscratch := rfl
@[simp] theorem drawn_mepc (s : State) : s.drawn.mepc = s.mepc := rfl
@[simp] theorem drawn_mcause (s : State) : s.drawn.mcause = s.mcause := rfl
@[simp] theorem drawn_intsyscr (s : State) : s.drawn.intsyscr = s.intsyscr := rfl
@[simp] theorem drawn_dcsr (s : State) : s.drawn.dcsr = s.dcsr := rfl
@[simp] theorem drawn_dpc (s : State) : s.drawn.dpc = s.dpc := rfl
@[simp] theorem drawn_dscratch0 (s : State) : s.drawn.dscratch0 = s.dscratch0 := rfl
@[simp] theorem drawn_dscratch1 (s : State) : s.drawn.dscratch1 = s.dscratch1 := rfl
@[simp] theorem drawn_mieEff (s : State) : s.drawn.mieEff = s.mieEff := rfl
@[simp] theorem drawn_pfic (s : State) : s.drawn.pfic = s.pfic := rfl
@[simp] theorem drawn_stk (s : State) : s.drawn.stk = s.stk := rfl
@[simp] theorem drawn_activeStack (s : State) : s.drawn.activeStack = s.activeStack := rfl
@[simp] theorem drawn_tailPop (s : State) : s.drawn.tailPop = s.tailPop := rfl
@[simp] theorem drawn_run (s : State) : s.drawn.run = s.run := rfl
@[simp] theorem drawn_deepSleep (s : State) : s.drawn.deepSleep = s.deepSleep := rfl
@[simp] theorem drawn_event (s : State) : s.drawn.event = s.event := rfl
@[simp] theorem drawn_inflight (s : State) : s.drawn.inflight = s.inflight := rfl
@[simp] theorem drawn_dueErrors (s : State) : s.drawn.dueErrors = s.dueErrors := rfl
@[simp] theorem drawn_resetReq (s : State) : s.drawn.resetReq = s.resetReq := rfl
@[simp] theorem drawn_mem (s : State) : s.drawn.mem = s.mem := rfl
@[simp] theorem drawn_stale (s : State) : s.drawn.stale = s.stale := rfl
@[simp] theorem drawn_dm (s : State) : s.drawn.dm = s.dm := rfl
@[simp] theorem drawn_haltOnReset (s : State) : s.drawn.haltOnReset = s.haltOnReset := rfl
@[simp] theorem drawn_schedule (s : State) : s.drawn.schedule = s.schedule := rfl
@[simp] theorem drawn_freeCtr (s : State) : s.drawn.freeCtr = s.freeCtr + 1 := rfl
@[simp] theorem drawn_boots (s : State) : s.drawn.boots = s.boots := rfl

@[simp] theorem memStore_cfg (s : State) (w : Width) (a : Nat) (v : Word) : (s.memStore w a v).cfg = s.cfg := rfl
@[simp] theorem memStore_regs (s : State) (w : Width) (a : Nat) (v : Word) : (s.memStore w a v).regs = s.regs := rfl
@[simp] theorem memStore_pc (s : State) (w : Width) (a : Nat) (v : Word) : (s.memStore w a v).pc = s.pc := rfl
@[simp] theorem memStore_mstatus (s : State) (w : Width) (a : Nat) (v : Word) : (s.memStore w a v).mstatus = s.mstatus := rfl
@[simp] theorem memStore_mtvec (s : State) (w : Width) (a : Nat) (v : Word) : (s.memStore w a v).mtvec = s.mtvec := rfl
@[simp] theorem memStore_mscratch (s : State) (w : Width) (a : Nat) (v : Word) : (s.memStore w a v).mscratch = s.mscratch := rfl
@[simp] theorem memStore_mepc (s : State) (w : Width) (a : Nat) (v : Word) : (s.memStore w a v).mepc = s.mepc := rfl
@[simp] theorem memStore_mcause (s : State) (w : Width) (a : Nat) (v : Word) : (s.memStore w a v).mcause = s.mcause := rfl
@[simp] theorem memStore_intsyscr (s : State) (w : Width) (a : Nat) (v : Word) : (s.memStore w a v).intsyscr = s.intsyscr := rfl
@[simp] theorem memStore_dcsr (s : State) (w : Width) (a : Nat) (v : Word) : (s.memStore w a v).dcsr = s.dcsr := rfl
@[simp] theorem memStore_dpc (s : State) (w : Width) (a : Nat) (v : Word) : (s.memStore w a v).dpc = s.dpc := rfl
@[simp] theorem memStore_dscratch0 (s : State) (w : Width) (a : Nat) (v : Word) : (s.memStore w a v).dscratch0 = s.dscratch0 := rfl
@[simp] theorem memStore_dscratch1 (s : State) (w : Width) (a : Nat) (v : Word) : (s.memStore w a v).dscratch1 = s.dscratch1 := rfl
@[simp] theorem memStore_mieEff (s : State) (w : Width) (a : Nat) (v : Word) : (s.memStore w a v).mieEff = s.mieEff := rfl
@[simp] theorem memStore_pfic (s : State) (w : Width) (a : Nat) (v : Word) : (s.memStore w a v).pfic = s.pfic := rfl
@[simp] theorem memStore_stk (s : State) (w : Width) (a : Nat) (v : Word) : (s.memStore w a v).stk = s.stk := rfl
@[simp] theorem memStore_activeStack (s : State) (w : Width) (a : Nat) (v : Word) : (s.memStore w a v).activeStack = s.activeStack := rfl
@[simp] theorem memStore_tailPop (s : State) (w : Width) (a : Nat) (v : Word) : (s.memStore w a v).tailPop = s.tailPop := rfl
@[simp] theorem memStore_run (s : State) (w : Width) (a : Nat) (v : Word) : (s.memStore w a v).run = s.run := rfl
@[simp] theorem memStore_deepSleep (s : State) (w : Width) (a : Nat) (v : Word) : (s.memStore w a v).deepSleep = s.deepSleep := rfl
@[simp] theorem memStore_event (s : State) (w : Width) (a : Nat) (v : Word) : (s.memStore w a v).event = s.event := rfl
@[simp] theorem memStore_inflight (s : State) (w : Width) (a : Nat) (v : Word) : (s.memStore w a v).inflight = s.inflight := rfl
@[simp] theorem memStore_dueErrors (s : State) (w : Width) (a : Nat) (v : Word) : (s.memStore w a v).dueErrors = s.dueErrors := rfl
@[simp] theorem memStore_resetReq (s : State) (w : Width) (a : Nat) (v : Word) : (s.memStore w a v).resetReq = s.resetReq := rfl
@[simp] theorem memStore_mem (s : State) (w : Width) (a : Nat) (v : Word) : (s.memStore w a v).mem = s.mem.writeAll (storedBytes w a v) := rfl
@[simp] theorem memStore_stale (s : State) (w : Width) (a : Nat) (v : Word) : (s.memStore w a v).stale = ((storedBytes w a v).map fun b => (b.1, s.mem.read b.1)) :: s.stale := rfl
@[simp] theorem memStore_dm (s : State) (w : Width) (a : Nat) (v : Word) : (s.memStore w a v).dm = s.dm := rfl
@[simp] theorem memStore_haltOnReset (s : State) (w : Width) (a : Nat) (v : Word) : (s.memStore w a v).haltOnReset = s.haltOnReset := rfl
@[simp] theorem memStore_schedule (s : State) (w : Width) (a : Nat) (v : Word) : (s.memStore w a v).schedule = s.schedule := rfl
@[simp] theorem memStore_freeCtr (s : State) (w : Width) (a : Nat) (v : Word) : (s.memStore w a v).freeCtr = s.freeCtr := rfl
@[simp] theorem memStore_boots (s : State) (w : Width) (a : Nat) (v : Word) : (s.memStore w a v).boots = s.boots := rfl

@[simp] theorem enterDebug_cfg (s : State) (c : BitVec 3) (d : Word) : (s.enterDebug c d).cfg = s.cfg := rfl
@[simp] theorem enterDebug_regs (s : State) (c : BitVec 3) (d : Word) : (s.enterDebug c d).regs = s.regs := rfl
@[simp] theorem enterDebug_pc (s : State) (c : BitVec 3) (d : Word) : (s.enterDebug c d).pc = s.pc := rfl
@[simp] theorem enterDebug_mstatus (s : State) (c : BitVec 3) (d : Word) : (s.enterDebug c d).mstatus = s.mstatus := rfl
@[simp] theorem enterDebug_mtvec (s : State) (c : BitVec 3) (d : Word) : (s.enterDebug c d).mtvec = s.mtvec := rfl
@[simp] theorem enterDebug_mscratch (s : State) (c : BitVec 3) (d : Word) : (s.enterDebug c d).mscratch = s.mscratch := rfl
@[simp] theorem enterDebug_mepc (s : State) (c : BitVec 3) (d : Word) : (s.enterDebug c d).mepc = s.mepc := rfl
@[simp] theorem enterDebug_mcause (s : State) (c : BitVec 3) (d : Word) : (s.enterDebug c d).mcause = s.mcause := rfl
@[simp] theorem enterDebug_intsyscr (s : State) (c : BitVec 3) (d : Word) : (s.enterDebug c d).intsyscr = s.intsyscr := rfl
@[simp] theorem enterDebug_dcsr (s : State) (c : BitVec 3) (d : Word) : (s.enterDebug c d).dcsr = dcsrEntered s.dcsr c := rfl
@[simp] theorem enterDebug_dpc (s : State) (c : BitVec 3) (d : Word) : (s.enterDebug c d).dpc = d := rfl
@[simp] theorem enterDebug_dscratch0 (s : State) (c : BitVec 3) (d : Word) : (s.enterDebug c d).dscratch0 = s.dscratch0 := rfl
@[simp] theorem enterDebug_dscratch1 (s : State) (c : BitVec 3) (d : Word) : (s.enterDebug c d).dscratch1 = s.dscratch1 := rfl
@[simp] theorem enterDebug_mieEff (s : State) (c : BitVec 3) (d : Word) : (s.enterDebug c d).mieEff = s.mieEff := rfl
@[simp] theorem enterDebug_pfic (s : State) (c : BitVec 3) (d : Word) : (s.enterDebug c d).pfic = s.pfic := rfl
@[simp] theorem enterDebug_stk (s : State) (c : BitVec 3) (d : Word) : (s.enterDebug c d).stk = s.stk := rfl
@[simp] theorem enterDebug_activeStack (s : State) (c : BitVec 3) (d : Word) : (s.enterDebug c d).activeStack = s.activeStack := rfl
@[simp] theorem enterDebug_tailPop (s : State) (c : BitVec 3) (d : Word) : (s.enterDebug c d).tailPop = s.tailPop := rfl
@[simp] theorem enterDebug_run (s : State) (c : BitVec 3) (d : Word) : (s.enterDebug c d).run = .haltedDebug := rfl
@[simp] theorem enterDebug_deepSleep (s : State) (c : BitVec 3) (d : Word) : (s.enterDebug c d).deepSleep = false := rfl
@[simp] theorem enterDebug_event (s : State) (c : BitVec 3) (d : Word) : (s.enterDebug c d).event = s.event := rfl
@[simp] theorem enterDebug_inflight (s : State) (c : BitVec 3) (d : Word) : (s.enterDebug c d).inflight = s.inflight := rfl
@[simp] theorem enterDebug_dueErrors (s : State) (c : BitVec 3) (d : Word) : (s.enterDebug c d).dueErrors = s.dueErrors := rfl
@[simp] theorem enterDebug_resetReq (s : State) (c : BitVec 3) (d : Word) : (s.enterDebug c d).resetReq = s.resetReq := rfl
@[simp] theorem enterDebug_mem (s : State) (c : BitVec 3) (d : Word) : (s.enterDebug c d).mem = s.mem := rfl
@[simp] theorem enterDebug_stale (s : State) (c : BitVec 3) (d : Word) : (s.enterDebug c d).stale = s.stale := rfl
@[simp] theorem enterDebug_dm (s : State) (c : BitVec 3) (d : Word) : (s.enterDebug c d).dm = s.dm := rfl
@[simp] theorem enterDebug_haltOnReset (s : State) (c : BitVec 3) (d : Word) : (s.enterDebug c d).haltOnReset = s.haltOnReset := rfl
@[simp] theorem enterDebug_schedule (s : State) (c : BitVec 3) (d : Word) : (s.enterDebug c d).schedule = s.schedule := rfl
@[simp] theorem enterDebug_freeCtr (s : State) (c : BitVec 3) (d : Word) : (s.enterDebug c d).freeCtr = s.freeCtr := rfl
@[simp] theorem enterDebug_boots (s : State) (c : BitVec 3) (d : Word) : (s.enterDebug c d).boots = s.boots := rfl

@[simp] theorem endProgbuf_cfg (s : State) : s.endProgbuf.cfg = s.cfg := rfl
@[simp] theorem endProgbuf_regs (s : State) : s.endProgbuf.regs = s.regs := rfl
@[simp] theorem endProgbuf_pc (s : State) : s.endProgbuf.pc = s.pc := rfl
@[simp] theorem endProgbuf_mstatus (s : State) : s.endProgbuf.mstatus = s.mstatus := rfl
@[simp] theorem endProgbuf_mtvec (s : State) : s.endProgbuf.mtvec = s.mtvec := rfl
@[simp] theorem endProgbuf_mscratch (s : State) : s.endProgbuf.mscratch = s.mscratch := rfl
@[simp] theorem endProgbuf_mepc (s : State) : s.endProgbuf.mepc = s.mepc := rfl
@[simp] theorem endProgbuf_mcause (s : State) : s.endProgbuf.mcause = s.mcause := rfl
@[simp] theorem endProgbuf_intsyscr (s : State) : s.endProgbuf.intsyscr = s.intsyscr := rfl
@[simp] theorem endProgbuf_dcsr (s : State) : s.endProgbuf.dcsr = s.dcsr := rfl
@[simp] theorem endProgbuf_dpc (s : State) : s.endProgbuf.dpc = s.dpc := rfl
@[simp] theorem endProgbuf_dscratch0 (s : State) : s.endProgbuf.dscratch0 = s.dscratch0 := rfl
@[simp] theorem endProgbuf_dscratch1 (s : State) : s.endProgbuf.dscratch1 = s.dscratch1 := rfl
@[simp] theorem endProgbuf_mieEff (s : State) : s.endProgbuf.mieEff = s.mieEff := rfl
@[simp] theorem endProgbuf_pfic (s : State) : s.endProgbuf.pfic = s.pfic := rfl
@[simp] theorem endProgbuf_stk (s : State) : s.endProgbuf.stk = s.stk := rfl
@[simp] theorem endProgbuf_activeStack (s : State) : s.endProgbuf.activeStack = s.activeStack := rfl
@[simp] theorem endProgbuf_tailPop (s : State) : s.endProgbuf.tailPop = s.tailPop := rfl
@[simp] theorem endProgbuf_run (s : State) : s.endProgbuf.run = s.run := rfl
@[simp] theorem endProgbuf_deepSleep (s : State) : s.endProgbuf.deepSleep = s.deepSleep := rfl
@[simp] theorem endProgbuf_event (s : State) : s.endProgbuf.event = s.event := rfl
@[simp] theorem endProgbuf_inflight (s : State) : s.endProgbuf.inflight = s.inflight := rfl
@[simp] theorem endProgbuf_dueErrors (s : State) : s.endProgbuf.dueErrors = s.dueErrors := rfl
@[simp] theorem endProgbuf_resetReq (s : State) : s.endProgbuf.resetReq = s.resetReq := rfl
@[simp] theorem endProgbuf_mem (s : State) : s.endProgbuf.mem = s.mem := rfl
@[simp] theorem endProgbuf_stale (s : State) : s.endProgbuf.stale = s.stale := rfl
@[simp] theorem endProgbuf_dm (s : State) : s.endProgbuf.dm = { s.dm with busy := false } := rfl
@[simp] theorem endProgbuf_haltOnReset (s : State) : s.endProgbuf.haltOnReset = s.haltOnReset := rfl
@[simp] theorem endProgbuf_schedule (s : State) : s.endProgbuf.schedule = s.schedule := rfl
@[simp] theorem endProgbuf_freeCtr (s : State) : s.endProgbuf.freeCtr = s.freeCtr := rfl
@[simp] theorem endProgbuf_boots (s : State) : s.endProgbuf.boots = s.boots := rfl

@[simp] theorem wake_cfg (s : State) : s.wake.cfg = s.cfg := rfl
@[simp] theorem wake_regs (s : State) : s.wake.regs = s.regs := rfl
@[simp] theorem wake_pc (s : State) : s.wake.pc = s.pc := rfl
@[simp] theorem wake_mstatus (s : State) : s.wake.mstatus = s.mstatus := rfl
@[simp] theorem wake_mtvec (s : State) : s.wake.mtvec = s.mtvec := rfl
@[simp] theorem wake_mscratch (s : State) : s.wake.mscratch = s.mscratch := rfl
@[simp] theorem wake_mepc (s : State) : s.wake.mepc = s.mepc := rfl
@[simp] theorem wake_mcause (s : State) : s.wake.mcause = s.mcause := rfl
@[simp] theorem wake_intsyscr (s : State) : s.wake.intsyscr = s.intsyscr := rfl
@[simp] theorem wake_dcsr (s : State) : s.wake.dcsr = s.dcsr := rfl
@[simp] theorem wake_dpc (s : State) : s.wake.dpc = s.dpc := rfl
@[simp] theorem wake_dscratch0 (s : State) : s.wake.dscratch0 = s.dscratch0 := rfl
@[simp] theorem wake_dscratch1 (s : State) : s.wake.dscratch1 = s.dscratch1 := rfl
@[simp] theorem wake_mieEff (s : State) : s.wake.mieEff = s.mieEff := rfl
@[simp] theorem wake_pfic (s : State) : s.wake.pfic = s.pfic := rfl
@[simp] theorem wake_stk (s : State) : s.wake.stk = s.stk := rfl
@[simp] theorem wake_activeStack (s : State) : s.wake.activeStack = s.activeStack := rfl
@[simp] theorem wake_tailPop (s : State) : s.wake.tailPop = s.tailPop := rfl
@[simp] theorem wake_run (s : State) : s.wake.run = .running := rfl
@[simp] theorem wake_deepSleep (s : State) : s.wake.deepSleep = false := rfl
@[simp] theorem wake_event (s : State) : s.wake.event = s.event := rfl
@[simp] theorem wake_inflight (s : State) : s.wake.inflight = s.inflight := rfl
@[simp] theorem wake_dueErrors (s : State) : s.wake.dueErrors = s.dueErrors := rfl
@[simp] theorem wake_resetReq (s : State) : s.wake.resetReq = s.resetReq := rfl
@[simp] theorem wake_mem (s : State) : s.wake.mem = s.mem := rfl
@[simp] theorem wake_stale (s : State) : s.wake.stale = s.stale := rfl
@[simp] theorem wake_dm (s : State) : s.wake.dm = s.dm := rfl
@[simp] theorem wake_haltOnReset (s : State) : s.wake.haltOnReset = s.haltOnReset := rfl
@[simp] theorem wake_schedule (s : State) : s.wake.schedule = s.schedule := rfl
@[simp] theorem wake_freeCtr (s : State) : s.wake.freeCtr = s.freeCtr := rfl
@[simp] theorem wake_boots (s : State) : s.wake.boots = s.boots := rfl

@[simp] theorem syncMasks_cfg (s : State) : s.syncMasks.cfg = s.cfg := rfl
@[simp] theorem syncMasks_regs (s : State) : s.syncMasks.regs = s.regs := rfl
@[simp] theorem syncMasks_pc (s : State) : s.syncMasks.pc = s.pc := rfl
@[simp] theorem syncMasks_mstatus (s : State) : s.syncMasks.mstatus = s.mstatus := rfl
@[simp] theorem syncMasks_mtvec (s : State) : s.syncMasks.mtvec = s.mtvec := rfl
@[simp] theorem syncMasks_mscratch (s : State) : s.syncMasks.mscratch = s.mscratch := rfl
@[simp] theorem syncMasks_mepc (s : State) : s.syncMasks.mepc = s.mepc := rfl
@[simp] theorem syncMasks_mcause (s : State) : s.syncMasks.mcause = s.mcause := rfl
@[simp] theorem syncMasks_intsyscr (s : State) : s.syncMasks.intsyscr = s.intsyscr := rfl
@[simp] theorem syncMasks_dcsr (s : State) : s.syncMasks.dcsr = s.dcsr := rfl
@[simp] theorem syncMasks_dpc (s : State) : s.syncMasks.dpc = s.dpc := rfl
@[simp] theorem syncMasks_dscratch0 (s : State) : s.syncMasks.dscratch0 = s.dscratch0 := rfl
@[simp] theorem syncMasks_dscratch1 (s : State) : s.syncMasks.dscratch1 = s.dscratch1 := rfl
@[simp] theorem syncMasks_mieEff (s : State) : s.syncMasks.mieEff = s.mie := rfl
@[simp] theorem syncMasks_pfic (s : State) : s.syncMasks.pfic = { s.pfic with enableEff := s.pfic.enable } := rfl
@[simp] theorem syncMasks_stk (s : State) : s.syncMasks.stk = s.stk := rfl
@[simp] theorem syncMasks_activeStack (s : State) : s.syncMasks.activeStack = s.activeStack := rfl
@[simp] theorem syncMasks_tailPop (s : State) : s.syncMasks.tailPop = s.tailPop := rfl
@[simp] theorem syncMasks_run (s : State) : s.syncMasks.run = s.run := rfl
@[simp] theorem syncMasks_deepSleep (s : State) : s.syncMasks.deepSleep = s.deepSleep := rfl
@[simp] theorem syncMasks_event (s : State) : s.syncMasks.event = s.event := rfl
@[simp] theorem syncMasks_inflight (s : State) : s.syncMasks.inflight = s.inflight := rfl
@[simp] theorem syncMasks_dueErrors (s : State) : s.syncMasks.dueErrors = s.dueErrors := rfl
@[simp] theorem syncMasks_resetReq (s : State) : s.syncMasks.resetReq = s.resetReq := rfl
@[simp] theorem syncMasks_mem (s : State) : s.syncMasks.mem = s.mem := rfl
@[simp] theorem syncMasks_stale (s : State) : s.syncMasks.stale = [] := rfl
@[simp] theorem syncMasks_dm (s : State) : s.syncMasks.dm = s.dm := rfl
@[simp] theorem syncMasks_haltOnReset (s : State) : s.syncMasks.haltOnReset = s.haltOnReset := rfl
@[simp] theorem syncMasks_schedule (s : State) : s.syncMasks.schedule = s.schedule := rfl
@[simp] theorem syncMasks_freeCtr (s : State) : s.syncMasks.freeCtr = s.freeCtr := rfl
@[simp] theorem syncMasks_boots (s : State) : s.syncMasks.boots = s.boots := rfl

@[simp] theorem requestReset_cfg (s : State) : s.requestReset.cfg = s.cfg := rfl
@[simp] theorem requestReset_regs (s : State) : s.requestReset.regs = s.regs := rfl
@[simp] theorem requestReset_pc (s : State) : s.requestReset.pc = s.pc := rfl
@[simp] theorem requestReset_mstatus (s : State) : s.requestReset.mstatus = s.mstatus := rfl
@[simp] theorem requestReset_mtvec (s : State) : s.requestReset.mtvec = s.mtvec := rfl
@[simp] theorem requestReset_mscratch (s : State) : s.requestReset.mscratch = s.mscratch := rfl
@[simp] theorem requestReset_mepc (s : State) : s.requestReset.mepc = s.mepc := rfl
@[simp] theorem requestReset_mcause (s : State) : s.requestReset.mcause = s.mcause := rfl
@[simp] theorem requestReset_intsyscr (s : State) : s.requestReset.intsyscr = s.intsyscr := rfl
@[simp] theorem requestReset_dcsr (s : State) : s.requestReset.dcsr = s.dcsr := rfl
@[simp] theorem requestReset_dpc (s : State) : s.requestReset.dpc = s.dpc := rfl
@[simp] theorem requestReset_dscratch0 (s : State) : s.requestReset.dscratch0 = s.dscratch0 := rfl
@[simp] theorem requestReset_dscratch1 (s : State) : s.requestReset.dscratch1 = s.dscratch1 := rfl
@[simp] theorem requestReset_mieEff (s : State) : s.requestReset.mieEff = s.mieEff := rfl
@[simp] theorem requestReset_pfic (s : State) : s.requestReset.pfic = s.pfic := rfl
@[simp] theorem requestReset_stk (s : State) : s.requestReset.stk = s.stk := rfl
@[simp] theorem requestReset_activeStack (s : State) : s.requestReset.activeStack = s.activeStack := rfl
@[simp] theorem requestReset_tailPop (s : State) : s.requestReset.tailPop = s.tailPop := rfl
@[simp] theorem requestReset_run (s : State) : s.requestReset.run = s.run := rfl
@[simp] theorem requestReset_deepSleep (s : State) : s.requestReset.deepSleep = s.deepSleep := rfl
@[simp] theorem requestReset_event (s : State) : s.requestReset.event = s.event := rfl
@[simp] theorem requestReset_inflight (s : State) : s.requestReset.inflight = s.inflight := rfl
@[simp] theorem requestReset_dueErrors (s : State) : s.requestReset.dueErrors = s.dueErrors := rfl
@[simp] theorem requestReset_resetReq (s : State) : s.requestReset.resetReq = true := rfl
@[simp] theorem requestReset_mem (s : State) : s.requestReset.mem = s.mem := rfl
@[simp] theorem requestReset_stale (s : State) : s.requestReset.stale = s.stale := rfl
@[simp] theorem requestReset_dm (s : State) : s.requestReset.dm = s.dm := rfl
@[simp] theorem requestReset_haltOnReset (s : State) : s.requestReset.haltOnReset = s.haltOnReset := rfl
@[simp] theorem requestReset_schedule (s : State) : s.requestReset.schedule = s.schedule := rfl
@[simp] theorem requestReset_freeCtr (s : State) : s.requestReset.freeCtr = s.freeCtr := rfl
@[simp] theorem requestReset_boots (s : State) : s.requestReset.boots = s.boots := rfl

@[simp] theorem writeMstatus_cfg (s : State) (v : Word) : (s.writeMstatus v).cfg = s.cfg := rfl
@[simp] theorem writeMstatus_regs (s : State) (v : Word) : (s.writeMstatus v).regs = s.regs := rfl
@[simp] theorem writeMstatus_pc (s : State) (v : Word) : (s.writeMstatus v).pc = s.pc := rfl
@[simp] theorem writeMstatus_mstatus (s : State) (v : Word) : (s.writeMstatus v).mstatus = mstatusOf (v.getLsbD 3) (v.getLsbD 7) (v.getLsbD 23) (v.getLsbD 24) := rfl
@[simp] theorem writeMstatus_mtvec (s : State) (v : Word) : (s.writeMstatus v).mtvec = s.mtvec := rfl
@[simp] theorem writeMstatus_mscratch (s : State) (v : Word) : (s.writeMstatus v).mscratch = s.mscratch := rfl
@[simp] theorem writeMstatus_mepc (s : State) (v : Word) : (s.writeMstatus v).mepc = s.mepc := rfl
@[simp] theorem writeMstatus_mcause (s : State) (v : Word) : (s.writeMstatus v).mcause = s.mcause := rfl
@[simp] theorem writeMstatus_intsyscr (s : State) (v : Word) : (s.writeMstatus v).intsyscr = s.intsyscr := rfl
@[simp] theorem writeMstatus_dcsr (s : State) (v : Word) : (s.writeMstatus v).dcsr = s.dcsr := rfl
@[simp] theorem writeMstatus_dpc (s : State) (v : Word) : (s.writeMstatus v).dpc = s.dpc := rfl
@[simp] theorem writeMstatus_dscratch0 (s : State) (v : Word) : (s.writeMstatus v).dscratch0 = s.dscratch0 := rfl
@[simp] theorem writeMstatus_dscratch1 (s : State) (v : Word) : (s.writeMstatus v).dscratch1 = s.dscratch1 := rfl
@[simp] theorem writeMstatus_mieEff (s : State) (v : Word) : (s.writeMstatus v).mieEff = (s.mieEff || v.getLsbD 3) := rfl
@[simp] theorem writeMstatus_pfic (s : State) (v : Word) : (s.writeMstatus v).pfic = s.pfic := rfl
@[simp] theorem writeMstatus_stk (s : State) (v : Word) : (s.writeMstatus v).stk = s.stk := rfl
@[simp] theorem writeMstatus_activeStack (s : State) (v : Word) : (s.writeMstatus v).activeStack = s.activeStack := rfl
@[simp] theorem writeMstatus_tailPop (s : State) (v : Word) : (s.writeMstatus v).tailPop = s.tailPop := rfl
@[simp] theorem writeMstatus_run (s : State) (v : Word) : (s.writeMstatus v).run = s.run := rfl
@[simp] theorem writeMstatus_deepSleep (s : State) (v : Word) : (s.writeMstatus v).deepSleep = s.deepSleep := rfl
@[simp] theorem writeMstatus_event (s : State) (v : Word) : (s.writeMstatus v).event = s.event := rfl
@[simp] theorem writeMstatus_inflight (s : State) (v : Word) : (s.writeMstatus v).inflight = s.inflight := rfl
@[simp] theorem writeMstatus_dueErrors (s : State) (v : Word) : (s.writeMstatus v).dueErrors = s.dueErrors := rfl
@[simp] theorem writeMstatus_resetReq (s : State) (v : Word) : (s.writeMstatus v).resetReq = s.resetReq := rfl
@[simp] theorem writeMstatus_mem (s : State) (v : Word) : (s.writeMstatus v).mem = s.mem := rfl
@[simp] theorem writeMstatus_stale (s : State) (v : Word) : (s.writeMstatus v).stale = s.stale := rfl
@[simp] theorem writeMstatus_dm (s : State) (v : Word) : (s.writeMstatus v).dm = s.dm := rfl
@[simp] theorem writeMstatus_haltOnReset (s : State) (v : Word) : (s.writeMstatus v).haltOnReset = s.haltOnReset := rfl
@[simp] theorem writeMstatus_schedule (s : State) (v : Word) : (s.writeMstatus v).schedule = s.schedule := rfl
@[simp] theorem writeMstatus_freeCtr (s : State) (v : Word) : (s.writeMstatus v).freeCtr = s.freeCtr := rfl
@[simp] theorem writeMstatus_boots (s : State) (v : Word) : (s.writeMstatus v).boots = s.boots := rfl

@[simp] theorem setReg_cfg (s : State) (r : Reg) (v : Word) : (s.setReg r v).cfg = s.cfg := by
  unfold State.setReg; split <;> rfl
@[simp] theorem setReg_pc (s : State) (r : Reg) (v : Word) : (s.setReg r v).pc = s.pc := by
  unfold State.setReg; split <;> rfl
@[simp] theorem setReg_mstatus (s : State) (r : Reg) (v : Word) : (s.setReg r v).mstatus = s.mstatus := by
  unfold State.setReg; split <;> rfl
@[simp] theorem setReg_mtvec (s : State) (r : Reg) (v : Word) : (s.setReg r v).mtvec = s.mtvec := by
  unfold State.setReg; split <;> rfl
@[simp] theorem setReg_mscratch (s : State) (r : Reg) (v : Word) : (s.setReg r v).mscratch = s.mscratch := by
  unfold State.setReg; split <;> rfl
@[simp] theorem setReg_mepc (s : State) (r : Reg) (v : Word) : (s.setReg r v).mepc = s.mepc := by
  unfold State.setReg; split <;> rfl
@[simp] theorem setReg_mcause (s : State) (r : Reg) (v : Word) : (s.setReg r v).mcause = s.mcause := by
  unfold State.setReg; split <;> rfl
@[simp] theorem setReg_intsyscr (s : State) (r : Reg) (v : Word) : (s.setReg r v).intsyscr = s.intsyscr := by
  unfold State.setReg; split <;> rfl
@[simp] theorem setReg_dcsr (s : State) (r : Reg) (v : Word) : (s.setReg r v).dcsr = s.dcsr := by
  unfold State.setReg; split <;> rfl
@[simp] theorem setReg_dpc (s : State) (r : Reg) (v : Word) : (s.setReg r v).dpc = s.dpc := by
  unfold State.setReg; split <;> rfl
@[simp] theorem setReg_dscratch0 (s : State) (r : Reg) (v : Word) : (s.setReg r v).dscratch0 = s.dscratch0 := by
  unfold State.setReg; split <;> rfl
@[simp] theorem setReg_dscratch1 (s : State) (r : Reg) (v : Word) : (s.setReg r v).dscratch1 = s.dscratch1 := by
  unfold State.setReg; split <;> rfl
@[simp] theorem setReg_mieEff (s : State) (r : Reg) (v : Word) : (s.setReg r v).mieEff = s.mieEff := by
  unfold State.setReg; split <;> rfl
@[simp] theorem setReg_pfic (s : State) (r : Reg) (v : Word) : (s.setReg r v).pfic = s.pfic := by
  unfold State.setReg; split <;> rfl
@[simp] theorem setReg_stk (s : State) (r : Reg) (v : Word) : (s.setReg r v).stk = s.stk := by
  unfold State.setReg; split <;> rfl
@[simp] theorem setReg_activeStack (s : State) (r : Reg) (v : Word) : (s.setReg r v).activeStack = s.activeStack := by
  unfold State.setReg; split <;> rfl
@[simp] theorem setReg_tailPop (s : State) (r : Reg) (v : Word) : (s.setReg r v).tailPop = s.tailPop := by
  unfold State.setReg; split <;> rfl
@[simp] theorem setReg_run (s : State) (r : Reg) (v : Word) : (s.setReg r v).run = s.run := by
  unfold State.setReg; split <;> rfl
@[simp] theorem setReg_deepSleep (s : State) (r : Reg) (v : Word) : (s.setReg r v).deepSleep = s.deepSleep := by
  unfold State.setReg; split <;> rfl
@[simp] theorem setReg_event (s : State) (r : Reg) (v : Word) : (s.setReg r v).event = s.event := by
  unfold State.setReg; split <;> rfl
@[simp] theorem setReg_inflight (s : State) (r : Reg) (v : Word) : (s.setReg r v).inflight = s.inflight := by
  unfold State.setReg; split <;> rfl
@[simp] theorem setReg_dueErrors (s : State) (r : Reg) (v : Word) : (s.setReg r v).dueErrors = s.dueErrors := by
  unfold State.setReg; split <;> rfl
@[simp] theorem setReg_resetReq (s : State) (r : Reg) (v : Word) : (s.setReg r v).resetReq = s.resetReq := by
  unfold State.setReg; split <;> rfl
@[simp] theorem setReg_mem (s : State) (r : Reg) (v : Word) : (s.setReg r v).mem = s.mem := by
  unfold State.setReg; split <;> rfl
@[simp] theorem setReg_stale (s : State) (r : Reg) (v : Word) : (s.setReg r v).stale = s.stale := by
  unfold State.setReg; split <;> rfl
@[simp] theorem setReg_dm (s : State) (r : Reg) (v : Word) : (s.setReg r v).dm = s.dm := by
  unfold State.setReg; split <;> rfl
@[simp] theorem setReg_haltOnReset (s : State) (r : Reg) (v : Word) : (s.setReg r v).haltOnReset = s.haltOnReset := by
  unfold State.setReg; split <;> rfl
@[simp] theorem setReg_schedule (s : State) (r : Reg) (v : Word) : (s.setReg r v).schedule = s.schedule := by
  unfold State.setReg; split <;> rfl
@[simp] theorem setReg_freeCtr (s : State) (r : Reg) (v : Word) : (s.setReg r v).freeCtr = s.freeCtr := by
  unfold State.setReg; split <;> rfl
@[simp] theorem setReg_boots (s : State) (r : Reg) (v : Word) : (s.setReg r v).boots = s.boots := by
  unfold State.setReg; split <;> rfl

@[simp] theorem setCmder_cfg (s : State) (e : BitVec 3) : (s.setCmder e).cfg = s.cfg := by
  unfold State.setCmder; split <;> rfl
@[simp] theorem setCmder_regs (s : State) (e : BitVec 3) : (s.setCmder e).regs = s.regs := by
  unfold State.setCmder; split <;> rfl
@[simp] theorem setCmder_pc (s : State) (e : BitVec 3) : (s.setCmder e).pc = s.pc := by
  unfold State.setCmder; split <;> rfl
@[simp] theorem setCmder_mstatus (s : State) (e : BitVec 3) : (s.setCmder e).mstatus = s.mstatus := by
  unfold State.setCmder; split <;> rfl
@[simp] theorem setCmder_mtvec (s : State) (e : BitVec 3) : (s.setCmder e).mtvec = s.mtvec := by
  unfold State.setCmder; split <;> rfl
@[simp] theorem setCmder_mscratch (s : State) (e : BitVec 3) : (s.setCmder e).mscratch = s.mscratch := by
  unfold State.setCmder; split <;> rfl
@[simp] theorem setCmder_mepc (s : State) (e : BitVec 3) : (s.setCmder e).mepc = s.mepc := by
  unfold State.setCmder; split <;> rfl
@[simp] theorem setCmder_mcause (s : State) (e : BitVec 3) : (s.setCmder e).mcause = s.mcause := by
  unfold State.setCmder; split <;> rfl
@[simp] theorem setCmder_intsyscr (s : State) (e : BitVec 3) : (s.setCmder e).intsyscr = s.intsyscr := by
  unfold State.setCmder; split <;> rfl
@[simp] theorem setCmder_dcsr (s : State) (e : BitVec 3) : (s.setCmder e).dcsr = s.dcsr := by
  unfold State.setCmder; split <;> rfl
@[simp] theorem setCmder_dpc (s : State) (e : BitVec 3) : (s.setCmder e).dpc = s.dpc := by
  unfold State.setCmder; split <;> rfl
@[simp] theorem setCmder_dscratch0 (s : State) (e : BitVec 3) : (s.setCmder e).dscratch0 = s.dscratch0 := by
  unfold State.setCmder; split <;> rfl
@[simp] theorem setCmder_dscratch1 (s : State) (e : BitVec 3) : (s.setCmder e).dscratch1 = s.dscratch1 := by
  unfold State.setCmder; split <;> rfl
@[simp] theorem setCmder_mieEff (s : State) (e : BitVec 3) : (s.setCmder e).mieEff = s.mieEff := by
  unfold State.setCmder; split <;> rfl
@[simp] theorem setCmder_pfic (s : State) (e : BitVec 3) : (s.setCmder e).pfic = s.pfic := by
  unfold State.setCmder; split <;> rfl
@[simp] theorem setCmder_stk (s : State) (e : BitVec 3) : (s.setCmder e).stk = s.stk := by
  unfold State.setCmder; split <;> rfl
@[simp] theorem setCmder_activeStack (s : State) (e : BitVec 3) : (s.setCmder e).activeStack = s.activeStack := by
  unfold State.setCmder; split <;> rfl
@[simp] theorem setCmder_tailPop (s : State) (e : BitVec 3) : (s.setCmder e).tailPop = s.tailPop := by
  unfold State.setCmder; split <;> rfl
@[simp] theorem setCmder_run (s : State) (e : BitVec 3) : (s.setCmder e).run = s.run := by
  unfold State.setCmder; split <;> rfl
@[simp] theorem setCmder_deepSleep (s : State) (e : BitVec 3) : (s.setCmder e).deepSleep = s.deepSleep := by
  unfold State.setCmder; split <;> rfl
@[simp] theorem setCmder_event (s : State) (e : BitVec 3) : (s.setCmder e).event = s.event := by
  unfold State.setCmder; split <;> rfl
@[simp] theorem setCmder_inflight (s : State) (e : BitVec 3) : (s.setCmder e).inflight = s.inflight := by
  unfold State.setCmder; split <;> rfl
@[simp] theorem setCmder_dueErrors (s : State) (e : BitVec 3) : (s.setCmder e).dueErrors = s.dueErrors := by
  unfold State.setCmder; split <;> rfl
@[simp] theorem setCmder_resetReq (s : State) (e : BitVec 3) : (s.setCmder e).resetReq = s.resetReq := by
  unfold State.setCmder; split <;> rfl
@[simp] theorem setCmder_mem (s : State) (e : BitVec 3) : (s.setCmder e).mem = s.mem := by
  unfold State.setCmder; split <;> rfl
@[simp] theorem setCmder_stale (s : State) (e : BitVec 3) : (s.setCmder e).stale = s.stale := by
  unfold State.setCmder; split <;> rfl
@[simp] theorem setCmder_haltOnReset (s : State) (e : BitVec 3) : (s.setCmder e).haltOnReset = s.haltOnReset := by
  unfold State.setCmder; split <;> rfl
@[simp] theorem setCmder_schedule (s : State) (e : BitVec 3) : (s.setCmder e).schedule = s.schedule := by
  unfold State.setCmder; split <;> rfl
@[simp] theorem setCmder_freeCtr (s : State) (e : BitVec 3) : (s.setCmder e).freeCtr = s.freeCtr := by
  unfold State.setCmder; split <;> rfl
@[simp] theorem setCmder_boots (s : State) (e : BitVec 3) : (s.setCmder e).boots = s.boots := by
  unfold State.setCmder; split <;> rfl

@[simp] theorem finishReg_cfg (s : State) (r : Reg) (v il : Word) : (s.finishReg r v il).cfg = s.cfg := by
  simp [State.finishReg]
@[simp] theorem finishReg_regs (s : State) (r : Reg) (v il : Word) : (s.finishReg r v il).regs = (s.setReg r v).regs := by
  simp [State.finishReg]
@[simp] theorem finishReg_pc (s : State) (r : Reg) (v il : Word) : (s.finishReg r v il).pc = s.pc + il := by
  simp [State.finishReg]
@[simp] theorem finishReg_mstatus (s : State) (r : Reg) (v il : Word) : (s.finishReg r v il).mstatus = s.mstatus := by
  simp [State.finishReg]
@[simp] theorem finishReg_mtvec (s : State) (r : Reg) (v il : Word) : (s.finishReg r v il).mtvec = s.mtvec := by
  simp [State.finishReg]
@[simp] theorem finishReg_mscratch (s : State) (r : Reg) (v il : Word) : (s.finishReg r v il).mscratch = s.mscratch := by
  simp [State.finishReg]
@[simp] theorem finishReg_mepc (s : State) (r : Reg) (v il : Word) : (s.finishReg r v il).mepc = s.mepc := by
  simp [State.finishReg]
@[simp] theorem finishReg_mcause (s : State) (r : Reg) (v il : Word) : (s.finishReg r v il).mcause = s.mcause := by
  simp [State.finishReg]
@[simp] theorem finishReg_intsyscr (s : State) (r : Reg) (v il : Word) : (s.finishReg r v il).intsyscr = s.intsyscr := by
  simp [State.finishReg]
@[simp] theorem finishReg_dcsr (s : State) (r : Reg) (v il : Word) : (s.finishReg r v il).dcsr = s.dcsr := by
  simp [State.finishReg]
@[simp] theorem finishReg_dpc (s : State) (r : Reg) (v il : Word) : (s.finishReg r v il).dpc = s.dpc := by
  simp [State.finishReg]
@[simp] theorem finishReg_dscratch0 (s : State) (r : Reg) (v il : Word) : (s.finishReg r v il).dscratch0 = s.dscratch0 := by
  simp [State.finishReg]
@[simp] theorem finishReg_dscratch1 (s : State) (r : Reg) (v il : Word) : (s.finishReg r v il).dscratch1 = s.dscratch1 := by
  simp [State.finishReg]
@[simp] theorem finishReg_mieEff (s : State) (r : Reg) (v il : Word) : (s.finishReg r v il).mieEff = s.mieEff := by
  simp [State.finishReg]
@[simp] theorem finishReg_pfic (s : State) (r : Reg) (v il : Word) : (s.finishReg r v il).pfic = s.pfic := by
  simp [State.finishReg]
@[simp] theorem finishReg_stk (s : State) (r : Reg) (v il : Word) : (s.finishReg r v il).stk = s.stk := by
  simp [State.finishReg]
@[simp] theorem finishReg_activeStack (s : State) (r : Reg) (v il : Word) : (s.finishReg r v il).activeStack = s.activeStack := by
  simp [State.finishReg]
@[simp] theorem finishReg_tailPop (s : State) (r : Reg) (v il : Word) : (s.finishReg r v il).tailPop = s.tailPop := by
  simp [State.finishReg]
@[simp] theorem finishReg_run (s : State) (r : Reg) (v il : Word) : (s.finishReg r v il).run = s.run := by
  simp [State.finishReg]
@[simp] theorem finishReg_deepSleep (s : State) (r : Reg) (v il : Word) : (s.finishReg r v il).deepSleep = s.deepSleep := by
  simp [State.finishReg]
@[simp] theorem finishReg_event (s : State) (r : Reg) (v il : Word) : (s.finishReg r v il).event = s.event := by
  simp [State.finishReg]
@[simp] theorem finishReg_inflight (s : State) (r : Reg) (v il : Word) : (s.finishReg r v il).inflight = s.inflight := by
  simp [State.finishReg]
@[simp] theorem finishReg_dueErrors (s : State) (r : Reg) (v il : Word) : (s.finishReg r v il).dueErrors = s.dueErrors := by
  simp [State.finishReg]
@[simp] theorem finishReg_resetReq (s : State) (r : Reg) (v il : Word) : (s.finishReg r v il).resetReq = s.resetReq := by
  simp [State.finishReg]
@[simp] theorem finishReg_mem (s : State) (r : Reg) (v il : Word) : (s.finishReg r v il).mem = s.mem := by
  simp [State.finishReg]
@[simp] theorem finishReg_stale (s : State) (r : Reg) (v il : Word) : (s.finishReg r v il).stale = s.stale := by
  simp [State.finishReg]
@[simp] theorem finishReg_dm (s : State) (r : Reg) (v il : Word) : (s.finishReg r v il).dm = s.dm := by
  simp [State.finishReg]
@[simp] theorem finishReg_haltOnReset (s : State) (r : Reg) (v il : Word) : (s.finishReg r v il).haltOnReset = s.haltOnReset := by
  simp [State.finishReg]
@[simp] theorem finishReg_schedule (s : State) (r : Reg) (v il : Word) : (s.finishReg r v il).schedule = s.schedule := by
  simp [State.finishReg]
@[simp] theorem finishReg_freeCtr (s : State) (r : Reg) (v il : Word) : (s.finishReg r v il).freeCtr = s.freeCtr := by
  simp [State.finishReg]
@[simp] theorem finishReg_boots (s : State) (r : Reg) (v il : Word) : (s.finishReg r v il).boots = s.boots := by
  simp [State.finishReg]

/-- What a register reads after one is written (10_state.md R21). -/
theorem reg_setReg (s : State) (r q : Reg) (v : Word) :
    (s.setReg r v).reg q = if r = 0 then s.reg q else if q = r then v else s.reg q := by
  unfold setReg reg
  by_cases hr : r = 0
  · simp [hr]
  · by_cases hq : q = r
    · subst hq; simp [hr]
    · have hv : r.val ≠ q.val := fun h => hq (Fin.ext h.symm)
      simp [hr, hq, hv]

/-- x0 reads 0 whatever was written (10_state.md R21). -/
@[simp] theorem reg_zero (s : State) : s.reg 0 = 0#32 := rfl

/-- Reading the register just written, unless it is x0. -/
theorem reg_setReg_same (s : State) (r : Reg) (v : Word) (h : r ≠ 0) : (s.setReg r v).reg r = v := by
  simp [reg_setReg, h]

/-- The other registers keep their values. -/
theorem reg_setReg_other (s : State) (r q : Reg) (v : Word) (h : q ≠ r) : (s.setReg r v).reg q = s.reg q := by
  simp [reg_setReg, h]

/-- A write to x0 changes nothing (10_state.md R21). -/
@[simp] theorem setReg_zero (s : State) (v : Word) : s.setReg 0 v = s := rfl

/-- Registers are read from `regs` alone. -/
theorem reg_congr (s t : State) (h : s.regs = t.regs) (q : Reg) : s.reg q = t.reg q := by
  simp [reg, h]

/-- Memory bytes are read from `mem`, the configuration and the number of resets alone. -/
theorem byteAt_congr (s t : State) (hm : s.mem = t.mem) (hc : s.cfg = t.cfg) (hb : s.boots = t.boots) (a : Nat) :
    s.byteAt a = t.byteAt a := by
  simp [byteAt, unwritten, hm, hc, hb]

@[simp] theorem advance_reg (s : State) (il : Word) (q : Reg) : (s.advance il).reg q = s.reg q := rfl
@[simp] theorem jumpTo_reg (s : State) (t : Word) (q : Reg) : (s.jumpTo t).reg q = s.reg q := rfl
@[simp] theorem drawn_reg (s : State) (q : Reg) : s.drawn.reg q = s.reg q := rfl
@[simp] theorem memStore_reg (s : State) (w : Width) (a : Nat) (v : Word) (q : Reg) : (s.memStore w a v).reg q = s.reg q := rfl

/-- What a register reads after an instruction has written one and gone on. -/
theorem reg_finishReg (s : State) (r q : Reg) (v il : Word) :
    (s.finishReg r v il).reg q = if r = 0 then s.reg q else if q = r then v else s.reg q :=
  reg_setReg s r q v

end Sys2Proof.Machine.State
end

