-- ==== Sys2Proof/Laws/Memory.lean ====
section
/-!
SUPPORT. Memory: a read after a write, and that every operation on memory keeps its canonical form.
-/

namespace Sys2Proof.Machine

namespace Memory

/-- A byte just written reads as written. -/
@[simp] theorem read_write_same (m : Memory) (a : Nat) (b : Byte) : (m.write a b).read a = some b := by
  induction m with
  | nil => simp [write, read]
  | cons e rest ih =>
    obtain ⟨k, v⟩ := e
    unfold write
    split
    · simp [read]
    · split
      · simp [read]
      · simp [read, *]

/-- Writing a byte leaves every other address as it was. -/
theorem read_write_other (m : Memory) (a c : Nat) (b : Byte) (h : c ≠ a) : (m.write a b).read c = m.read c := by
  induction m with
  | nil => simp [write, read, Ne.symm h]
  | cons e rest ih =>
    obtain ⟨k, v⟩ := e
    unfold write
    split
    · simp [read, Ne.symm h]
    · split
      · next _ hk => subst hk; simp [read, Ne.symm h]
      · simp [read, ih]

/-- A write at or above the lower bound keeps the canonical form from that bound. -/
theorem wfFrom_write (m : Memory) (lo a : Nat) (b : Byte) (hm : m.wfFrom lo = true) (hlo : lo ≤ a) (ha : a < 2 ^ 32) :
    (m.write a b).wfFrom lo = true := by
  induction m generalizing lo with
  | nil => simp [write, wfFrom, hlo]; omega
  | cons e rest ih =>
    obtain ⟨k, v⟩ := e
    simp only [wfFrom, Bool.and_eq_true, decide_eq_true_eq] at hm
    obtain ⟨⟨h1, h2⟩, h3⟩ := hm
    unfold write
    split
    · next h =>
      simp only [wfFrom, Bool.and_eq_true, decide_eq_true_eq]
      exact ⟨⟨hlo, ha⟩, ⟨by omega, h2⟩, h3⟩
    · split
      · next _ hk =>
        subst hk
        simp only [wfFrom, Bool.and_eq_true, decide_eq_true_eq]
        exact ⟨⟨hlo, ha⟩, h3⟩
      · simp only [wfFrom, Bool.and_eq_true, decide_eq_true_eq]
        exact ⟨⟨h1, h2⟩, ih (k + 1) h3 (by omega)⟩

/-- A write at a 32-bit address keeps the canonical form. -/
theorem wf_write (m : Memory) (a : Nat) (b : Byte) (hm : m.wf = true) (ha : a < 2 ^ 32) : (m.write a b).wf = true :=
  wfFrom_write m 0 a b hm (Nat.zero_le a) ha

/-- Writing bytes at 32-bit addresses keeps the canonical form. -/
theorem wf_writeAll (bs : List (Nat × Byte)) (m : Memory) (hm : m.wf = true) (hb : ∀ e ∈ bs, e.1 < 2 ^ 32) :
    (m.writeAll bs).wf = true := by
  induction bs generalizing m with
  | nil => exact hm
  | cons e rest ih =>
    exact ih (m.write e.1 e.2) (wf_write m e.1 e.2 hm (hb e (by simp))) (fun x hx => hb x (by simp [hx]))

/-- Raising the lower bound of a canonical form only weakens it. -/
theorem wfFrom_mono (m : Memory) (lo lo' : Nat) (h : lo' ≤ lo) (hm : m.wfFrom lo = true) : m.wfFrom lo' = true := by
  cases m with
  | nil => rfl
  | cons e rest =>
    obtain ⟨k, v⟩ := e
    simp only [wfFrom, Bool.and_eq_true, decide_eq_true_eq] at hm ⊢
    exact ⟨⟨by omega, hm.1.2⟩, hm.2⟩

/-- Keeping some of the bytes keeps the canonical form. -/
theorem wfFrom_filter (p : Host.Cell → Bool) (m : Memory) (lo : Nat) (hm : m.wfFrom lo = true) :
    wfFrom lo (m.filter p) = true := by
  induction m generalizing lo with
  | nil => rfl
  | cons e rest ih =>
    obtain ⟨k, v⟩ := e
    simp only [wfFrom, Bool.and_eq_true, decide_eq_true_eq] at hm
    by_cases hp : p (k, v) = true
    · simp only [List.filter_cons, hp, if_true, wfFrom, Bool.and_eq_true, decide_eq_true_eq]
      exact ⟨hm.1, ih (k + 1) hm.2⟩
    · have : List.filter p ((k, v) :: rest) = List.filter p rest := by simp [hp]
      rw [this]
      exact ih lo (wfFrom_mono rest (k + 1) lo (by omega) hm.2)

/-- What a reset keeps of memory has the canonical form. -/
theorem wf_romOnly (c : Config) (m : Memory) (hm : m.wf = true) : (m.romOnly c).wf = true :=
  wfFrom_filter _ m 0 hm

/-- A byte that no write of a list touches stays. -/
theorem read_writeAll_other (bs : List (Nat × Byte)) (m : Memory) (a : Nat) (h : ∀ e ∈ bs, e.1 ≠ a) :
    (m.writeAll bs).read a = m.read a := by
  induction bs generalizing m with
  | nil => rfl
  | cons e rest ih =>
    have h1 : a ≠ e.1 := fun x => h e (by simp) x.symm
    show ((m.write e.1 e.2).writeAll rest).read a = m.read a
    rw [ih (m.write e.1 e.2) (fun x hx => h x (by simp [hx])), read_write_other m e.1 a e.2 h1]

end Memory

/-- The addresses of a stored value are those of its width. -/
theorem storedBytes_addr (w : Width) (a : Nat) (v : Word) (e : Nat × Byte) (h : e ∈ storedBytes w a v) :
    a ≤ e.1 ∧ e.1 < a + w.bytes := by
  cases w <;> simp only [storedBytes, List.mem_cons, List.not_mem_nil, or_false] at h <;>
    simp only [Width.bytes] <;> first
      | (subst h; constructor <;> simp)
      | (rcases h with h | h <;> subst h <;> constructor <;> simp)
      | (rcases h with h | h | h | h <;> subst h <;> constructor <;> simp)

/-- An aligned access ends below 2^32. -/
theorem aligned_end (w : Width) (a : Word) (h : isAligned w a = true) : a.toNat + w.bytes ≤ 2 ^ 32 := by
  have := a.isLt
  unfold isAligned at h
  have h := of_decide_eq_true h
  cases w <;> simp only [Width.bytes] at h ⊢ <;> omega

namespace State

/-- A store to plain memory leaves every byte outside it as it was (20_memory.md R84). -/
theorem byteAt_memStore_other (s : State) (w : Width) (a c : Nat) (v : Word) (h : c < a ∨ a + w.bytes ≤ c) :
    (s.memStore w a v).byteAt c = s.byteAt c := by
  have hr : (s.mem.writeAll (storedBytes w a v)).read c = s.mem.read c := by
    apply Memory.read_writeAll_other
    intro e he hc
    have := storedBytes_addr w a v e he
    omega
  show ((s.mem.writeAll (storedBytes w a v)).read c).getD (s.unwritten c) = s.byteAt c
  rw [hr]; rfl

/-- What a store to plain memory put there is read back (20_memory.md R84). -/
theorem memLoad_memStore (s : State) (a : Nat) (v : Word) : (s.memStore .word a v).memLoad .word a = v := by
  have key : ∀ c, (s.memStore .word a v).byteAt c =
      if c = a then v.extractLsb' 0 8 else if c = a + 1 then v.extractLsb' 8 8
      else if c = a + 2 then v.extractLsb' 16 8 else if c = a + 3 then v.extractLsb' 24 8 else s.byteAt c := by
    intro c
    simp only [byteAt, unwritten, memStore_mem, memStore_cfg, memStore_boots, storedBytes, Memory.writeAll, List.foldl]
    by_cases h3 : c = a + 3
    · subst h3; simp
    · by_cases h2 : c = a + 2
      · subst h2; rw [Memory.read_write_other _ _ _ _ h3]; simp
      · by_cases h1 : c = a + 1
        · subst h1; rw [Memory.read_write_other _ _ _ _ h3, Memory.read_write_other _ _ _ _ h2]; simp
        · by_cases h0 : c = a
          · subst h0
            rw [Memory.read_write_other _ _ _ _ h3, Memory.read_write_other _ _ _ _ h2,
              Memory.read_write_other _ _ _ _ h1]
            simp
          · rw [Memory.read_write_other _ _ _ _ h3, Memory.read_write_other _ _ _ _ h2,
              Memory.read_write_other _ _ _ _ h1, Memory.read_write_other _ _ _ _ h0]
            simp only [h0, h1, h2, h3, if_false]; rfl
  apply BitVec.eq_of_getLsbD_eq; intro i hi
  show BitVec.getLsbD (w := 8 + 8 + 8 + 8) (_ ++ _ ++ _ ++ _) i = _
  simp only [key, BitVec.getLsbD_append]
  simp
  interval_cases i <;> simp

/-- An aligned store keeps the canonical form of memory. -/
theorem memStore_wf (s : State) (w : Width) (a : Word) (v : Word) (hm : s.MemOk) (ha : isAligned w a = true) :
    (s.memStore w a.toNat v).MemOk := by
  unfold MemOk
  rw [memStore_mem]
  apply Memory.wf_writeAll _ _ hm
  intro e he
  have h1 := storedBytes_addr w a.toNat v e he
  have h2 := aligned_end w a ha
  omega

/-- Memory has its canonical form right after reset. -/
theorem reset_memOk : State.reset.MemOk := rfl

end State

end Sys2Proof.Machine
end

