-- ==== Sys2Proof/Laws/Results.lean ====
section
/-!
SUPPORT. What the shared ends of the meanings do, in the terms of Safety.lean, and the arithmetic the result rules use.
-/

namespace Sys2Proof.Machine

/-! ### Arithmetic -/

theorem boolWord_eq (p : Prop) [Decidable p] : boolWord (decide p) = if p then 1#32 else 0#32 := by
  unfold boolWord; by_cases h : p <;> simp [h]

/-- Sign extension is the signed value in 32 bits. -/
theorem sext_eq {k : Nat} (x : BitVec k) : sext x = BitVec.ofInt 32 x.toInt := rfl

/-- Zero extension is the unsigned value in 32 bits. -/
theorem zext_eq {k : Nat} (x : BitVec k) : zext x = BitVec.ofNat 32 x.toNat := by
  apply BitVec.eq_of_toNat_eq; simp [zext]

/-- A wrapping sum is the sum of the signed values in 32 bits. -/
theorem add_sext_eq {k : Nat} (a : Word) (x : BitVec k) : a + sext x = BitVec.ofInt 32 (a.toInt + x.toInt) := by
  rw [BitVec.ofInt_add, BitVec.ofInt_toInt]; simp [sext_eq]

theorem upperImm_eq (imm : BitVec 20) : upperImm imm = BitVec.ofNat 32 (imm.toNat * 4096) := by
  have h := imm.isLt
  apply BitVec.eq_of_toNat_eq
  show (BitVec.append imm 0#12).toNat = _
  simp only [BitVec.append_eq, BitVec.toNat_append, Nat.shiftLeft_eq, BitVec.toNat_ofNat]
  simp
  omega

theorem shiftLeft_eq (a : Word) (n : Nat) : a <<< n = BitVec.ofNat 32 (a.toNat * 2 ^ n) := by
  apply BitVec.eq_of_toNat_eq; simp [Nat.shiftLeft_eq]

theorem shiftRight_eq (a : Word) (n : Nat) : a >>> n = BitVec.ofNat 32 (a.toNat / 2 ^ n) := by
  apply BitVec.eq_of_toNat_eq
  simp only [BitVec.toNat_ushiftRight, Nat.shiftRight_eq_div_pow, BitVec.toNat_ofNat]
  exact (Nat.mod_eq_of_lt (lt_of_le_of_lt (Nat.div_le_self _ _) a.isLt)).symm

theorem sshiftRight_eq (a : Word) (n : Nat) : a.sshiftRight n = BitVec.ofInt 32 (a.toInt / 2 ^ n) := by
  unfold BitVec.sshiftRight; rw [Int.shiftRight_eq_div_pow]; norm_cast

theorem shiftAmount_eq (a : Word) : shiftAmount a = a.toNat % 32 := by
  simp [shiftAmount]

theorem highWord_eq (p : Int) : highWord p = BitVec.ofInt 32 (p / 4294967296) := by
  apply BitVec.eq_of_toNat_eq
  simp [highWord, BitVec.toNat_ofInt, Nat.shiftRight_eq_div_pow]
  omega

/-- Clearing bit 0 (41_control_transfer.md R202). -/
theorem clearBit0_eq (a : Word) : a &&& 0xFFFFFFFE#32 = BitVec.ofNat 32 (a.toNat / 2 * 2) := by
  have h : a &&& 0xFFFFFFFE#32 = (a >>> 1) <<< 1 := by
    apply BitVec.eq_of_getLsbD_eq
    intro i hi
    interval_cases i <;> simp
  rw [h]
  apply BitVec.eq_of_toNat_eq
  simp [Nat.shiftLeft_eq, Nat.shiftRight_eq_div_pow]

/-! ### The ends of the meanings -/

theorem wrote_finishReg (s : State) (rd : Reg) (v il : Word) : Wrote s (s.finishReg rd v il) rd v (s.pc + il) where
  value h := by simp [State.reg_finishReg, h]
  discarded h := by subst h; rfl
  others q h := by simp [State.reg_finishReg, h]
  pc := by simp
  rest := by unfold State.finishReg State.setReg State.advance; split <;> rfl
  bytes a := State.byteAt_congr _ _ (by simp) (by simp) (by simp) a

theorem wrote_jumpLink (s : State) (rd : Reg) (t il : Word) : Wrote s (s.jumpLink rd t il) rd (s.pc + il) t where
  value h := by unfold State.jumpLink; simp [State.reg_setReg, h]
  discarded h := by subst h; rfl
  others q h := by unfold State.jumpLink; simp [State.reg_setReg, h]
  pc := by simp [State.jumpLink]
  rest := by unfold State.jumpLink State.setReg State.jumpTo; split <;> rfl
  bytes a := State.byteAt_congr _ _ (by simp [State.jumpLink]) (by simp [State.jumpLink]) (by simp [State.jumpLink]) a

theorem moved_advance (s : State) (il : Word) : Moved s (s.advance il) (s.pc + il) := ⟨rfl, fun _ => rfl⟩

theorem moved_jumpTo (s : State) (t : Word) : Moved s (s.jumpTo t) t := ⟨rfl, fun _ => rfl⟩

/-- A branch goes to its target or on (41_control_transfer.md R203). -/
theorem moved_branch (s : State) (c : Bool) (off il : Word) :
    Moved s (s.branch c off il) (if c then s.pc + off else s.pc + il) := by
  cases c
  · exact moved_advance s il
  · exact moved_jumpTo s (s.pc + off)

/-- A meaning that ends in one register written completes. -/
theorem finishReg_completes (s : State) (rd : Reg) (v w il : Word) (h : v = w) :
    ∃ t, (Host.Outcome.next (s.finishReg rd v il) : Res State) = .next t ∧ Wrote s t rd w (s.pc + il) :=
  ⟨_, rfl, h ▸ wrote_finishReg s rd v il⟩

/-- A jump completes. -/
theorem jumpLink_completes (s : State) (rd : Reg) (t u il : Word) (h : t = u) :
    ∃ x, (Host.Outcome.next (s.jumpLink rd t il) : Res State) = .next x ∧ Wrote s x rd (s.pc + il) u :=
  ⟨_, rfl, h ▸ wrote_jumpLink s rd t il⟩

/-- A branch completes. -/
theorem branch_completes (s : State) (c : Bool) (off il p : Word) (h : (if c then s.pc + off else s.pc + il) = p) :
    ∃ x, (Host.Outcome.next (s.branch c off il) : Res State) = .next x ∧ Moved s x p :=
  ⟨_, rfl, h ▸ moved_branch s c off il⟩

end Sys2Proof.Machine
end

