-- ==== Sys2Proof/Laws/Access.lean ====
section
/-!
SUPPORT. What loads and stores do, by what stands at their address: plain memory, nothing, or a misaligned address.
-/

namespace Sys2Proof.Machine

/-! ### Sequencing -/

/-- A sequence answers next only if both parts do. -/
theorem andThen_next {α β : Type} {o : Res α} {f : α → Res β} {b : β} (h : andThen o f = .next b) :
    ∃ a, o = .next a ∧ f a = .next b := by
  cases o with
  | next a => exact ⟨a, rfl, h⟩
  | fault r => cases h
  | refused r => cases h

@[simp] theorem andThen_of_next {α β : Type} (a : α) (f : α → Res β) : andThen (.next a) f = f a := rfl

namespace State

/-! ### Alignment and kinds -/

theorem isAligned_iff (w : Width) (a : Word) : isAligned w a = true ↔ Aligned w a := by
  simp [isAligned, Aligned]

theorem not_isAligned (w : Width) (a : Word) (h : ¬ Aligned w a) : isAligned w a = false := by
  simpa [isAligned, Aligned] using h

theorem allBytes_iff (w : Width) (a : Nat) (p : Nat → Bool) :
    allBytes w a p = true ↔ ∀ k, k < w.bytes → p (a + k) = true := by
  constructor
  · intro h k hk
    cases w <;> simp only [Width.bytes] at hk <;> simp only [allBytes, Bool.and_eq_true] at h <;> interval_cases k <;>
      simp_all
  · intro h
    cases w <;> simp only [Width.bytes] at h <;> simp only [allBytes, Bool.and_eq_true]
    · exact h 0 (by omega)
    · exact ⟨h 0 (by omega), h 1 (by omega)⟩
    · exact ⟨⟨⟨h 0 (by omega), h 1 (by omega)⟩, h 2 (by omega)⟩, h 3 (by omega)⟩

theorem width_pos (w : Width) : 0 < w.bytes := by cases w <;> decide

/-- An access to plain memory reads it and changes nothing (20_memory.md R84, R91). -/
theorem busRead_memory (s : State) (w : Width) (a : Word) (h : s.LoadsMemory w a) :
    s.busRead w a = .done (s.memLoad w a.toNat, s) := by
  have h0 := h.2 0 (width_pos w)
  have hw : inCoreWindow a.toNat = false := by
    simp only [isMemory, Bool.and_eq_true, Nat.add_zero, Bool.not_eq_true'] at h0
    exact h0.1
  simp [busRead, hw, (allBytes_iff w a.toNat _).2 h.2]

/-- A store to RAM is performed (20_memory.md R84). -/
theorem busWrite_ram (s : State) (w : Width) (a v : Word) (h : s.StoresRam w a) :
    s.busWrite w a v = .done (s.memStore w a.toNat v) := by
  have h0 := h.2 0 (width_pos w)
  have hw : inCoreWindow a.toNat = false := by
    simp only [isRam, Bool.and_eq_true, Nat.add_zero, Bool.not_eq_true'] at h0
    exact h0.1
  simp [busWrite, hw, (allBytes_iff w a.toNat _).2 h.2]

/-- No byte of a failing access is memory, ROM or a platform peripheral. -/
theorem fails_not (s : State) (w : Width) (a : Word) (h : s.AccessFails w a) (p : Nat → Bool)
    (hp : ∀ b, regionKind s.cfg b = .unmapped → p b = false) : allBytes w a.toNat p = false := by
  have := hp _ (h.2 0 (width_pos w)).2
  cases hb : allBytes w a.toNat p with
  | false => rfl
  | true => rw [(allBytes_iff w a.toNat p).1 hb 0 (width_pos w)] at this; exact this

/-- An access to unmapped addresses fails (20_memory.md R94, R95). -/
theorem busRead_fails (s : State) (w : Width) (a : Word) (h : s.AccessFails w a) : s.busRead w a = .accessError := by
  have hw : inCoreWindow a.toNat = false := (h.2 0 (width_pos w)).1
  have h1 := s.fails_not w a h (isMemory s.cfg) (fun b hb => by simp [isMemory, hb])
  have h2 := s.fails_not w a h (isPlatform s.cfg) (fun b hb => by simp [isPlatform, hb])
  simp [busRead, hw, h1, h2]

/-- A store to unmapped addresses fails (20_memory.md R94, R95). -/
theorem busWrite_fails (s : State) (w : Width) (a v : Word) (h : s.AccessFails w a) :
    s.busWrite w a v = .accessError := by
  have hw : inCoreWindow a.toNat = false := (h.2 0 (width_pos w)).1
  have h1 := s.fails_not w a h (isRam s.cfg) (fun b hb => by simp [isRam, hb])
  have h2 := s.fails_not w a h (isRom s.cfg) (fun b hb => by simp [isRom, hb])
  have h3 := s.fails_not w a h (isPlatform s.cfg) (fun b hb => by simp [isPlatform, hb])
  simp [busWrite, hw, h1, h2, h3]

/-! ### Values -/

/-- A load's value is the little-endian number of its bytes (20_memory.md R84). -/
theorem memLoad_eq (s : State) (w : Width) (a : Nat) : s.memLoad w a = BitVec.ofNat 32 (s.memNat w a) := by
  apply BitVec.eq_of_toNat_eq
  cases w with
  | byte => simp [memLoad, memNat]
  | half =>
    show (BitVec.setWidth 32 (BitVec.append _ _)).toNat = _
    have := (s.byteAt a).isLt
    simp only [BitVec.append_eq, BitVec.toNat_setWidth, BitVec.toNat_append, Nat.shiftLeft_eq, memNat, BitVec.toNat_ofNat]
    rw [← Nat.shiftLeft_eq, ← Nat.shiftLeft_add_eq_or_of_lt this, Nat.shiftLeft_eq]
    omega
  | word =>
    have h0 := (s.byteAt a).isLt
    have h1 := (s.byteAt (a + 1)).isLt
    have h2 := (s.byteAt (a + 2)).isLt
    show (BitVec.append (BitVec.append (BitVec.append _ _) _) _).toNat = _
    simp only [BitVec.append_eq, BitVec.toNat_append, memNat, BitVec.toNat_ofNat]
    rw [← Nat.shiftLeft_add_eq_or_of_lt h0, ← Nat.shiftLeft_add_eq_or_of_lt h1, ← Nat.shiftLeft_add_eq_or_of_lt h2]
    simp only [Nat.shiftLeft_eq]
    have h3 := (s.byteAt (a + 3)).isLt
    omega

theorem memNat_lt (s : State) (w : Width) (a : Nat) : s.memNat w a < 2 ^ (8 * w.bytes) := by
  have h0 := (s.byteAt a).isLt
  have h1 := (s.byteAt (a + 1)).isLt
  have h2 := (s.byteAt (a + 2)).isLt
  have h3 := (s.byteAt (a + 3)).isLt
  cases w <;> simp only [memNat, Width.bytes] <;> omega

/-- A sign-extended byte. -/
theorem extendLoad_byte (n : Nat) :
    extendLoad .signed .byte (BitVec.ofNat 32 n) = BitVec.ofInt 32 (BitVec.ofNat 8 n).toInt := by
  have : (BitVec.ofNat 32 n).extractLsb' 0 8 = BitVec.ofNat 8 n := by
    apply BitVec.eq_of_toNat_eq
    simp only [BitVec.extractLsb'_toNat, BitVec.toNat_ofNat, Nat.shiftRight_zero]
    omega
  simp only [extendLoad, this]; rfl

/-- A sign-extended half-word. -/
theorem extendLoad_half (n : Nat) :
    extendLoad .signed .half (BitVec.ofNat 32 n) = BitVec.ofInt 32 (BitVec.ofNat 16 n).toInt := by
  have : (BitVec.ofNat 32 n).extractLsb' 0 16 = BitVec.ofNat 16 n := by
    apply BitVec.eq_of_toNat_eq
    simp only [BitVec.extractLsb'_toNat, BitVec.toNat_ofNat, Nat.shiftRight_zero]
    omega
  simp only [extendLoad, this]; rfl

/-- A zero-extended value is kept by cutting it back to its width. -/
theorem extract_setWidth {k : Nat} (v : BitVec k) (h : k ≤ 32) :
    ((v.setWidth 32).extractLsb' 0 k).setWidth 32 = v.setWidth 32 := by
  have hv : v.toNat < 2 ^ 32 := Nat.lt_of_lt_of_le v.isLt (Nat.pow_le_pow_right (by omega) h)
  apply BitVec.eq_of_toNat_eq
  simp only [BitVec.toNat_setWidth, BitVec.extractLsb'_toNat, Nat.shiftRight_zero, Nat.mod_eq_of_lt hv, Nat.mod_eq_of_lt v.isLt]

/-- The low bytes of the low bytes are the low bytes. -/
theorem lowBytes_lowBytes (w : Width) (v : Word) : lowBytes w (lowBytes w v) = lowBytes w v := by
  cases w with
  | byte => exact extract_setWidth (v.extractLsb' 0 8) (by decide)
  | half => exact extract_setWidth (v.extractLsb' 0 16) (by decide)
  | word => rfl

/-- Whatever a load reads is the zero-extension of as many bytes as its width has (20_memory.md R84, R89). -/
theorem busRead_lowBytes (s t : State) (w : Width) (a v : Word) (h : s.busRead w a = .done (v, t)) : lowBytes w v = v := by
  have low : ∀ a, lowBytes w (s.memLoad w a) = s.memLoad w a := fun a => by
    cases w with
    | byte => exact extract_setWidth _ (by decide)
    | half => exact extract_setWidth _ (by decide)
    | word => rfl
  have ipr : ∀ a, lowBytes w (s.ipriorLoad w a) = s.ipriorLoad w a := fun a => by
    cases w with
    | byte => exact extract_setWidth _ (by decide)
    | half => exact extract_setWidth _ (by decide)
    | word => rfl
  unfold busRead at h
  split at h
  · unfold windowLoad at h
    split at h
    · cases h; exact ipr _
    · split at h
      · rfl
      · cases h; exact lowBytes_lowBytes _ _
      · cases h
  · split at h
    · cases h; exact low _
    · split at h <;> cases h

/-! ### Loads and stores -/

/-- A load from plain memory writes its register and goes on (42_load_store.md R220). -/
theorem load_memory (s : State) (w : Width) (k : LoadKind) (rd : Reg) (ea il : Word) (h : s.LoadsMemory w ea) :
    s.load w k rd ea il = .next (s.finishReg rd (extendLoad k w (BitVec.ofNat 32 (s.memNat w ea.toNat))) il) := by
  simp only [load, (isAligned_iff w ea).2 h.1, if_true, s.busRead_memory w ea h, memLoad_eq]

/-- A store to RAM stores its bytes and goes on (42_load_store.md R220). -/
theorem store_ram (s : State) (w : Width) (v ea il : Word) (h : s.StoresRam w ea) :
    s.store w v ea il = .next ((s.memStore w ea.toNat v).advance il) := by
  simp only [store, (isAligned_iff w ea).2 h.1, if_true, s.busWrite_ram w ea v h]

/-- A misaligned load raises exception 4 (20_memory.md R86). -/
theorem load_misaligned (s : State) (w : Width) (k : LoadKind) (rd : Reg) (ea il : Word) (h : ¬ Aligned w ea) :
    s.load w k rd ea il = s.takeException 4#4 := by
  simp [load, not_isAligned w ea h]

/-- A misaligned store raises exception 6 (20_memory.md R86). -/
theorem store_misaligned (s : State) (w : Width) (v ea il : Word) (h : ¬ Aligned w ea) :
    s.store w v ea il = s.takeException 6#4 := by
  simp [store, not_isAligned w ea h]

/-- The bytes that a store has put into memory. -/
theorem byteAt_memStore (s : State) (w : Width) (a : Nat) (v : Word) (k : Nat) (h : k < w.bytes) :
    (s.memStore w a v).byteAt (a + k) = v.extractLsb' (8 * k) 8 := by
  cases w <;> simp only [Width.bytes] at h <;> interval_cases k <;>
    simp [byteAt, memStore, storedBytes, Memory.writeAll, Memory.read_write_other]

/-- A store to RAM has stored its bytes and nothing else (20_memory.md R84). -/
theorem stored_memStore (s : State) (w : Width) (a : Nat) (v il : Word) :
    Stored s ((s.memStore w a v).advance il) w a v (s.pc + il) where
  stored k h := s.byteAt_memStore w a v k h
  others b h := s.byteAt_memStore_other w a b v h
  rest := rfl

/-- A load from plain memory completes. -/
theorem load_completes (s : State) (w : Width) (k : LoadKind) (rd : Reg) (ea v il : Word) (h : s.LoadsMemory w ea)
    (hv : extendLoad k w (BitVec.ofNat 32 (s.memNat w ea.toNat)) = v) :
    ∃ t, s.load w k rd ea il = .next t ∧ Wrote s t rd v (s.pc + il) :=
  ⟨_, s.load_memory w k rd ea il h, hv ▸ wrote_finishReg s rd _ il⟩

/-- A store to RAM completes. -/
theorem store_completes (s : State) (w : Width) (v ea il : Word) (h : s.StoresRam w ea) :
    ∃ t, s.store w v ea il = .next t ∧ Stored s t w ea.toNat v (s.pc + il) :=
  ⟨_, s.store_ram w v ea il h, s.stored_memStore w ea.toNat v il⟩

end State

end Sys2Proof.Machine
end

