-- ==== Sys2Proof/Laws/Changes.lean ====
section
/-!
SUPPORT. Say once what a step can do: every step is a sequence of the changes below. An invariant of the step is then shown
change by change.
-/

namespace Sys2Proof.Machine

/-- The core's enable bits lag only behind cleared ones. -/
def Pfic.Lag (p : Pfic) : Prop := p.enable &&& ~~~p.enableEff = 0#256

/-- NMI and EXC are enabled. -/
def Pfic.Fixed (p : Pfic) : Prop := p.enable &&& fixedIrqs = fixedIrqs

/-- The reserved bits of the PFIC registers are 0. -/
def Pfic.Shaped (p : Pfic) : Prop :=
  p.ithresdr &&& 0xFFFFFF3F#32 = 0#32 ∧ p.vtfidr &&& 0xFFFF0000#32 = 0#32 ∧ p.sctlr &&& 0xFFFFFFE1#32 = 0#32 ∧
    priosShaped p.prio

/-- One change that a step can make to the state. -/
inductive Change (s : State) : State → Prop where
  | reg (r : Reg) (v : Word) : Change s (s.setReg r v)
  | move (off : Word) (h : off.getLsbD 0 = false) : Change s (s.advance off)
  | jump (t : Word) (h : t.getLsbD 0 = false) : Change s (s.jumpTo t)
  | draw (n : Nat) : Change s { s with freeCtr := n }
  | store (w : Width) (a v : Word) (h : isAligned w a = true) : Change s (s.memStore w a.toNat v)
  | csr (c : Csr) (v : Word) : Change s (s.csrWrite c v)
  | status (a b c d e : Bool) (h : (s.mie = true → s.mieEff = true) → a = true → e = true) :
      Change s { s with mstatus := mstatusOf a b c d, mieEff := e }
  | maskCopy (e : Bool) (h : (s.mie = true → s.mieEff = true) → s.mie = true → e = true) :
      Change s { s with mieEff := e }
  | trap (t : TrapId) (h : s.nest < 2) : Change s { s with activeStack := t :: s.activeStack }
  | untrap : Change s { s with activeStack := s.activeStack.tail }
  | tail (b : Bool) : Change s { s with tailPop := b }
  | run (r : RunState) (d : Bool) (h : s.run ≠ .haltedDebug ∨ s.dm.busy = false ∨ r = .haltedDebug) :
      Change s { s with run := r, deepSleep := d }
  | event (b : Bool) : Change s { s with event := b }
  | errors (l : List AccessError) (n : Nat) (h : s.dueErrors ≤ s.inflight.length → n ≤ l.length) :
      Change s { s with inflight := l, dueErrors := n }
  | resetReq (b : Bool) : Change s { s with resetReq := b }
  | haltOnReset (b : Bool) : Change s { s with haltOnReset := b }
  | schedule (l : List (List Event)) : Change s { s with schedule := l }
  | stale (l : List Replaced) : Change s { s with stale := l }
  | stk (t : SysTick) (h : s.stk.ctlr &&& 0x7FFFFFF0#32 = 0#32 → t.ctlr &&& 0x7FFFFFF0#32 = 0#32) :
      Change s { s with stk := t }
  | pfic (p : Pfic) (hl : s.pfic.Lag → p.Lag) (hf : s.pfic.Fixed → p.Fixed) (hs : s.pfic.Shaped → p.Shaped) :
      Change s { s with pfic := p }
  | dm (d : DebugModule) (h : d.busy = true → s.dm.busy = true) : Change s { s with dm := d }
  | progbuf (h : s.inDebug = true) : Change s s.startProgbuf
  | debug (c : BitVec 3) (d : Word) : Change s { s with dcsr := dcsrEntered s.dcsr c, dpc := d }
  | systemReset : Change s s.systemReset
  | powerReset : Change s s.powerReset

/-- A sequence of changes. -/
abbrev Changes : State → State → Prop := Relation.ReflTransGen Change

namespace Changes

theorem none (s : State) : Changes s s := Relation.ReflTransGen.refl

theorem append {s t u : State} (h : Changes s t) (k : Changes t u) : Changes s u := Relation.ReflTransGen.trans h k

theorem one {s t : State} (h : Change s t) : Changes s t := .single h

/-- What every change keeps, a sequence of changes keeps. -/
theorem keep {P : State → Prop} (hP : ∀ s t, P s → Change s t → P t) {s t : State} (h : Changes s t) (hs : P s) : P t := by
  induction h with
  | refl => exact hs
  | tail _ hc ih => exact hP _ _ ih hc

end Changes

open Changes (append one)

namespace State

/-! ### Registers, the pc and free values -/

theorem changes_drawn (s : State) : Changes s s.drawn := one (.draw (s.freeCtr + 1))

theorem changes_finishReg (s : State) (r : Reg) (v il : Word) (h : il.getLsbD 0 = false) :
    Changes s (s.finishReg r v il) :=
  append (one (.reg r v)) (one (.move il h))

theorem changes_branch (s : State) (c : Bool) (off il : Word) (ho : off.getLsbD 0 = false) (hi : il.getLsbD 0 = false) :
    Changes s (s.branch c off il) := by
  cases c
  · exact one (.move il hi)
  · exact one (.move off ho)

/-! ### Devices -/

theorem change_dmOnly (s : State) (d : DebugModule) (h : d.busy = s.dm.busy) : Change s { s with dm := d } :=
  .dm d (fun hb => h ▸ hb)

theorem changes_note (old s : State) (t : State) (h : Changes t s) : Changes t (noteNewPending old s) := by
  unfold noteNewPending
  split
  · exact append h (one (.event true))
  · exact h

theorem lag_or (e f v : BitVec 256) (h : e &&& ~~~f = 0#256) : (e ||| v) &&& ~~~(f ||| v) = 0#256 := by
  apply BitVec.eq_of_getLsbD_eq
  intro i hi
  have := congrArg (fun b => b.getLsbD i) h
  simp at this ⊢
  grind

theorem lag_and (e f v : BitVec 256) (h : e &&& ~~~f = 0#256) : (e &&& v) &&& ~~~f = 0#256 := by
  apply BitVec.eq_of_getLsbD_eq
  intro i hi
  have := congrArg (fun b => b.getLsbD i) h
  simp at this ⊢
  grind

theorem fixed_or (e v : BitVec 256) (h : e &&& fixedIrqs = fixedIrqs) : (e ||| v) &&& fixedIrqs = fixedIrqs := by
  apply BitVec.eq_of_getLsbD_eq
  intro i hi
  have := congrArg (fun b => b.getLsbD i) h
  simp only [BitVec.getLsbD_and, BitVec.getLsbD_or] at this ⊢
  grind

theorem fixed_and (e v : BitVec 256) (h : e &&& fixedIrqs = fixedIrqs) :
    (e &&& ~~~(v &&& ~~~fixedIrqs)) &&& fixedIrqs = fixedIrqs := by
  apply BitVec.eq_of_getLsbD_eq
  intro i hi
  have := congrArg (fun b => b.getLsbD i) h
  simp only [BitVec.getLsbD_and, BitVec.getLsbD_not, hi] at this ⊢
  grind

theorem masked32 (v m k : Word) (h : m &&& k = 0#32) : (v &&& m) &&& k = 0#32 := by
  rw [BitVec.and_assoc, h]; simp

/-- A store to a 32-bit device register that is performed. -/
theorem changes_devStore (s t : State) (r : DevReg) (v : Word) (h : s.devStore r v = .done t) : Changes s t := by
  cases r <;> simp only [devStore] at h
  case ithresdr =>
    cases h
    exact one (.pfic _ id id fun k => ⟨masked32 v _ _ (by decide), k.2⟩)
  case cfgr =>
    cases h
    unfold storeCfgr
    split
    · exact one (.resetReq true)
    · exact Changes.none s
  case vtfidr =>
    cases h
    exact one (.pfic _ id id fun k => ⟨k.1, masked32 v _ _ (by decide), k.2.2⟩)
  case vtfaddr0 => cases h; exact one (.pfic _ id id id)
  case vtfaddr1 => cases h; exact one (.pfic _ id id id)
  case ienr x =>
    cases h
    exact one (.pfic _ (fun k => lag_or _ _ _ k) (fun k => fixed_or _ _ k) id)
  case irer x =>
    cases h
    exact one (.pfic _ (fun k => lag_and _ _ _ k) (fun k => fixed_and _ _ k) id)
  case ipsr x =>
    split at h
    · cases h
    · cases h
      exact changes_note _ _ _ (one (.pfic _ id id id))
  case iprr x => cases h; exact one (.pfic _ id id id)
  case sctlr =>
    cases h
    refine append (one (.pfic { s.pfic with sctlr := v &&& 0x1E#32 } id id
      fun k => ⟨k.1, k.2.1, masked32 v _ _ (by decide), k.2.2.2⟩)) ?_
    exact append (one (.event (s.event || v.getLsbD 5))) (one (.resetReq (s.resetReq || v.getLsbD 31)))
  case stkCtlr =>
    cases h
    exact changes_note _ _ _ (one (.stk _ fun _ => masked32 v _ _ (by decide)))
  case stkSr => cases h; exact one (.stk _ id)
  case stkCntr => cases h; exact one (.stk _ id)
  case stkCmpr => cases h; exact one (.stk _ id)
  case data0 => cases h; exact one (.dm _ id)
  case data1 => cases h; exact one (.dm _ id)
  all_goals (cases h; exact Changes.none _)

theorem priosShaped_set (p : Vector Byte 256) (n : Irq) (v : Byte) (h : priosShaped p) :
    priosShaped (p.set n.val (v &&& 0xC0#8)) := by
  intro m
  rw [Vector.getElem_set]
  split
  · rw [BitVec.and_assoc]; simp
  · exact h m

theorem changes_ipriorStoreByte (s : State) (n : Irq) (v : Byte) : Changes s (s.ipriorStoreByte n v) := by
  unfold ipriorStoreByte
  split
  · exact append (one (.draw (s.freeCtr + 1)))
      (one (.pfic _ id id fun k => ⟨k.1, k.2.1, k.2.2.1, priosShaped_set _ _ _ k.2.2.2⟩))
  · split
    · exact one (.pfic _ id id fun k => ⟨k.1, k.2.1, k.2.2.1, priosShaped_set _ _ _ k.2.2.2⟩)
    · exact Changes.none s

theorem changes_ipriorFold (bs : List (Nat × Byte)) (s : State) :
    Changes s (bs.foldl (fun s b => s.ipriorStoreByte (ipriorIrq b.1) b.2) s) := by
  induction bs generalizing s with
  | nil => exact Changes.none s
  | cons b rest ih => exact append (s.changes_ipriorStoreByte _ _) (ih _)

/-! ### Accesses -/

/-- A load of a device register changes nothing, or draws a free value. -/
theorem devLoad_state (s : State) (r : DevReg) : (s.devLoad r).2 = s ∨ (s.devLoad r).2 = s.drawn := by
  cases r
  case iactr x =>
    unfold devLoad
    simp only
    split
    · exact .inr rfl
    · exact .inl rfl
  all_goals first | exact .inl rfl | exact .inr rfl

theorem windowLoad_done (s t : State) (w : Width) (a : Nat) (v : Word) (h : s.windowLoad w a = .done (v, t)) :
    t = s ∨ t = s.drawn := by
  unfold windowLoad at h
  split at h
  · cases h; exact .inl rfl
  · split at h
    · injection h with h
      have : t = (s.devLoad (devReg a)).2 := by rw [h]
      subst this
      exact s.devLoad_state (devReg a)
    · cases h; exact .inr rfl
    · cases h

/-- A load that is performed changes nothing, or draws a free value (20_memory.md R91). -/
theorem busRead_done (s t : State) (w : Width) (a v : Word) (h : s.busRead w a = .done (v, t)) : t = s ∨ t = s.drawn := by
  unfold busRead at h
  split at h
  · exact s.windowLoad_done t w _ v h
  · split at h
    · cases h; exact .inl rfl
    · split at h <;> cases h

theorem changes_busRead (s t : State) (w : Width) (a v : Word) (h : s.busRead w a = .done (v, t)) : Changes s t := by
  rcases s.busRead_done t w a v h with h | h <;> subst h
  · exact Changes.none _
  · exact changes_drawn _

theorem changes_busWrite (s t : State) (w : Width) (a v : Word) (ha : isAligned w a = true)
    (h : s.busWrite w a v = .done t) : Changes s t := by
  unfold busWrite at h
  split at h
  · unfold windowStore at h
    split at h
    · cases h; exact changes_ipriorFold _ _
    · split at h
      · exact s.changes_devStore t _ v h
      · cases h; exact Changes.none _
      · cases h
  · split at h
    · cases h; exact one (.store w a v ha)
    · split at h
      · split at h
        · cases h; exact Changes.none _
        · cases h
      · split at h <;> cases h

/-! ### Taking a trap -/

theorem aligned_sub (n off : Word) (hn : isAligned .word n = true) (ho : isAligned .word off = true) :
    isAligned .word (n - off) = true := by
  rw [isAligned_iff] at *
  unfold Aligned Width.bytes at *
  simp only [BitVec.toNat_sub] at *
  have := n.isLt
  have := off.isLt
  omega

theorem changes_pushRegs (n : Word) (hn : isAligned .word n = true) (l : List (Word × Reg))
    (hl : ∀ e ∈ l, isAligned .word e.1 = true) (s t : State) (h : pushRegs n l s = .next t) : Changes s t := by
  induction l generalizing s with
  | nil => cases h; exact Changes.none _
  | cons e rest ih =>
    obtain ⟨off, r⟩ := e
    unfold pushRegs at h
    split at h
    · next s' hs =>
      exact append (s.changes_busWrite s' _ _ _ (aligned_sub n off hn (hl (off, r) (by simp))) hs)
        (ih (fun e he => hl e (by simp [he])) s' h)
    · cases h
    · cases h

theorem changes_freeRamWord (s : State) (a : Word) (h : isAligned .word a = true) : Changes s (s.freeRamWord a) := by
  unfold freeRamWord
  split
  · exact append (one (.store _ a _ h)) (changes_drawn _)
  · exact Changes.none s

theorem hpeFrame_aligned : ∀ e ∈ hpeFrame, isAligned .word e.1 = true := by
  simp [hpeFrame, isAligned, Width.bytes]

theorem changes_hpePush (s t : State) (h : s.hpePush = .next t) : Changes s t := by
  unfold hpePush at h
  simp only at h
  split at h
  · next hn =>
    obtain ⟨s1, h1, h2⟩ := andThen_next h
    cases h2
    refine append (changes_pushRegs _ hn _ hpeFrame_aligned s s1 h1) ?_
    refine append (s1.changes_freeRamWord _ (aligned_sub _ 44#32 hn (by decide))) ?_
    exact append (changes_freeRamWord _ _ (aligned_sub _ 48#32 hn (by decide))) (one (.reg _ _))
  · cases h

theorem changes_popRegs (n : Word) (l : List (Word × Reg)) (s t : State) (h : popRegs n l s = .next t) : Changes s t := by
  induction l generalizing s with
  | nil => cases h; exact Changes.none _
  | cons e rest ih =>
    obtain ⟨off, r⟩ := e
    unfold popRegs at h
    split at h
    · next v s' hs => exact append (s.changes_busRead s' _ _ v hs) (append (one (.reg r v)) (ih _ h))
    · cases h
    · cases h

theorem changes_hpePop (s t : State) (h : s.hpePop = .next t) : Changes s t := by
  unfold hpePop at h
  simp only at h
  split at h
  · obtain ⟨s1, h1, h2⟩ := andThen_next h
    cases h2
    exact append (changes_popRegs _ _ s s1 h1) (one (.reg _ _))
  · cases h

/-! ### What accesses leave alone -/

/-- The state without what an access to the address space can change. -/
def core (s : State) : State :=
  { s with
    pfic := Pfic.reset
    stk := SysTick.reset
    event := false
    resetReq := false
    mem := []
    stale := []
    dm := DebugModule.reset
    freeCtr := 0 }

theorem core_note (old s : State) : (noteNewPending old s).core = s.core := by
  unfold noteNewPending; split <;> rfl

theorem core_devStore (s t : State) (r : DevReg) (v : Word) (h : s.devStore r v = .done t) : t.core = s.core := by
  cases r <;> simp only [devStore] at h
  case cfgr => cases h; unfold storeCfgr; split <;> rfl
  case ipsr x =>
    split at h
    · cases h
    · cases h; exact core_note _ _
  case stkCtlr => cases h; exact core_note _ _
  all_goals (cases h; rfl)

theorem core_ipriorStoreByte (s : State) (n : Irq) (v : Byte) : (s.ipriorStoreByte n v).core = s.core := by
  unfold ipriorStoreByte; split
  · rfl
  · split <;> rfl

theorem core_ipriorFold (bs : List (Nat × Byte)) (s : State) :
    (bs.foldl (fun s b => s.ipriorStoreByte (ipriorIrq b.1) b.2) s).core = s.core := by
  induction bs generalizing s with
  | nil => rfl
  | cons b rest ih => exact (ih _).trans (core_ipriorStoreByte s _ _)

/-- A store that is performed changes no register of the core. -/
theorem core_busWrite (s t : State) (w : Width) (a v : Word) (h : s.busWrite w a v = .done t) : t.core = s.core := by
  unfold busWrite at h
  split at h
  · unfold windowStore at h
    split at h
    · cases h; exact core_ipriorFold _ _
    · split at h
      · exact s.core_devStore t _ v h
      · cases h; rfl
      · cases h
  · split at h
    · cases h; rfl
    · split at h
      · split at h
        · cases h; rfl
        · cases h
      · split at h <;> cases h

theorem core_pushRegs (n : Word) (l : List (Word × Reg)) (s t : State) (h : pushRegs n l s = .next t) :
    t.core = s.core := by
  induction l generalizing s with
  | nil => cases h; rfl
  | cons e rest ih =>
    obtain ⟨off, r⟩ := e
    unfold pushRegs at h
    split at h
    · next s' hs => exact (ih s' h).trans (s.core_busWrite s' _ _ _ hs)
    · cases h
    · cases h

theorem core_freeRamWord (s : State) (a : Word) : (s.freeRamWord a).core = s.core := by
  unfold freeRamWord; split <;> rfl

/-- The HPE push changes x2 alone of the core's registers (60_exceptions.md R375). -/
theorem core_hpePush (s t : State) (h : s.hpePush = .next t) : t.core = (s.setReg 2 (s.reg 2 - 48#32)).core := by
  unfold hpePush at h
  simp only at h
  split at h
  · obtain ⟨s1, h1, h2⟩ := andThen_next h
    cases h2
    have e : ((s1.freeRamWord (s.reg 2 - 44#32)).freeRamWord (s.reg 2 - 48#32)).core = s.core := by
      rw [core_freeRamWord, core_freeRamWord, core_pushRegs _ _ s s1 h1]
    exact congrArg (fun x : State => x.setReg 2 (s.reg 2 - 48#32)) e
  · cases h

/-- The state a trap entry starts from after its push, if any. -/
theorem core_push (s t : State) (h : (if s.hwstken then s.hpePush else .next s) = .next t) :
    t.core = (if s.hwstken then s.setReg 2 (s.reg 2 - 48#32) else s).core := by
  split at h
  · next hk => simp only [hk, if_true]; exact s.core_hpePush t h
  · next hk => cases h; simp [hk]

end State

end Sys2Proof.Machine
end

