-- ==== Sys2Proof/Laws/Decode.lean ====
section
/-!
SUPPORT. The encoder's formats and the decoder's immediates bit by bit, what each field of an encoded word is, and how a
32-bit word is read from its parcels. Proofs about encodings cite these and unfold no format.
-/

namespace Sys2Proof

/-- A register's 5-bit field names it. -/
@[simp] theorem reg5_regBits (r : Reg) : reg5 (regBits r) = .ok r := by
  revert r; decide

/-- The 3-bit field of one of x8..x15 names it. -/
theorem reg3_regBits3 (r : Reg) (h : r.isCompressed = true) : reg3 (regBits3 r) = r := by
  revert r; decide

/-- A 5-bit field that names a register is that register's. -/
theorem regBits_of_reg5 (f : BitVec 5) (r : Reg) (h : reg5 f = .ok r) : regBits r = f := by
  revert f r; decide

/-! ### The formats, bit by bit -/

/-- The bits of `encR`. -/
theorem encR_getLsbD (f7 : BitVec 7) (f3 : BitVec 3) (rd rs1 rs2 : Reg) (i : Nat) : (encR f7 f3 rd rs1 rs2).getLsbD i =
    BitVec.getLsbD (w := 7+5+5+3+5+7)
      (f7 ++ regBits rs2 ++ regBits rs1 ++ f3 ++ regBits rd ++ 0b0110011#7) i := rfl

/-- The bits of `encI`. -/
theorem encI_getLsbD (op : BitVec 7) (f3 : BitVec 3) (rd rs1 : BitVec 5) (imm : BitVec 12) (i : Nat) : (encI op f3 rd rs1 imm).getLsbD i =
    BitVec.getLsbD (w := 12+5+3+5+7)
      (imm ++ rs1 ++ f3 ++ rd ++ op) i := rfl

/-- The bits of `encS`. -/
theorem encS_getLsbD (f3 : BitVec 3) (rs2 rs1 : Reg) (imm : BitVec 12) (i : Nat) : (encS f3 rs2 rs1 imm).getLsbD i =
    BitVec.getLsbD (w := 7+5+5+3+5+7)
      (field imm 5 7 ++ regBits rs2 ++ regBits rs1 ++ f3 ++ field imm 0 5 ++ 0b0100011#7) i := rfl

/-- The bits of `encB`. -/
theorem encB_getLsbD (f3 : BitVec 3) (rs1 rs2 : Reg) (imm : BitVec 13) (i : Nat) : (encB f3 rs1 rs2 imm).getLsbD i =
    BitVec.getLsbD (w := 1+6+5+5+3+4+1+7)
      (field imm 12 1 ++ field imm 5 6 ++ regBits rs2 ++ regBits rs1 ++ f3 ++ field imm 1 4 ++ field imm 11 1 ++ 0b1100011#7) i := rfl

/-- The bits of `encU`. -/
theorem encU_getLsbD (op : BitVec 7) (rd : Reg) (imm : BitVec 20) (i : Nat) : (encU op rd imm).getLsbD i =
    BitVec.getLsbD (w := 20+5+7)
      (imm ++ regBits rd ++ op) i := rfl

/-- The bits of `encJ`. -/
theorem encJ_getLsbD (rd : Reg) (imm : BitVec 21) (i : Nat) : (encJ rd imm).getLsbD i =
    BitVec.getLsbD (w := 1+10+1+8+5+7)
      (field imm 20 1 ++ field imm 1 10 ++ field imm 11 1 ++ field imm 12 8 ++ regBits rd ++ 0b1101111#7) i := rfl

/-- The bits of `encCR`. -/
theorem encCR_getLsbD (f4 : BitVec 4) (r : Reg) (rs2 : BitVec 5) (i : Nat) : (encCR f4 r rs2).getLsbD i =
    BitVec.getLsbD (w := 4+5+5+2)
      (f4 ++ regBits r ++ rs2 ++ 0b10#2) i := rfl

/-- The bits of `encCI`. -/
theorem encCI_getLsbD (f3 : BitVec 3) (r : BitVec 5) (imm : BitVec 6) (op : BitVec 2) (i : Nat) : (encCI f3 r imm op).getLsbD i =
    BitVec.getLsbD (w := 3+1+5+5+2)
      (f3 ++ field imm 5 1 ++ r ++ field imm 0 5 ++ op) i := rfl

/-- The bits of `encCLS`. -/
theorem encCLS_getLsbD (f3 : BitVec 3) (r rs1 : Reg) (imm : BitVec 7) (i : Nat) : (encCLS f3 r rs1 imm).getLsbD i =
    BitVec.getLsbD (w := 3+3+3+1+1+3+2)
      (f3 ++ field imm 3 3 ++ regBits3 rs1 ++ field imm 2 1 ++ field imm 6 1 ++ regBits3 r ++ 0b00#2) i := rfl

/-- The bits of `encCA`. -/
theorem encCA_getLsbD (f2 : BitVec 2) (rd rs2 : Reg) (i : Nat) : (encCA f2 rd rs2).getLsbD i =
    BitVec.getLsbD (w := 6+3+2+3+2)
      (0b100011#6 ++ regBits3 rd ++ f2 ++ regBits3 rs2 ++ 0b01#2) i := rfl

/-- The bits of `encCBAlu`. -/
theorem encCBAlu_getLsbD (f2 : BitVec 2) (rd : Reg) (imm : BitVec 6) (i : Nat) : (encCBAlu f2 rd imm).getLsbD i =
    BitVec.getLsbD (w := 3+1+2+3+5+2)
      (0b100#3 ++ field imm 5 1 ++ f2 ++ regBits3 rd ++ field imm 0 5 ++ 0b01#2) i := rfl

/-- The bits of `encCB`. -/
theorem encCB_getLsbD (f3 : BitVec 3) (rs1 : Reg) (imm : BitVec 9) (i : Nat) : (encCB f3 rs1 imm).getLsbD i =
    BitVec.getLsbD (w := 3+1+2+3+2+2+1+2)
      (f3 ++ field imm 8 1 ++ field imm 3 2 ++ regBits3 rs1 ++ field imm 6 2 ++ field imm 1 2 ++ field imm 5 1 ++ 0b01#2) i := rfl

/-- The bits of `encCJ`. -/
theorem encCJ_getLsbD (f3 : BitVec 3) (imm : BitVec 12) (i : Nat) : (encCJ f3 imm).getLsbD i =
    BitVec.getLsbD (w := 3+1+1+2+1+1+1+3+1+2)
      (f3 ++ field imm 11 1 ++ field imm 4 1 ++ field imm 8 2 ++ field imm 10 1 ++ field imm 6 1 ++ field imm 7 1 ++ field imm 1 3 ++ field imm 5 1 ++ 0b01#2) i := rfl

/-! ### The immediates, bit by bit -/

/-- The bits of `immS`. -/
theorem immS_getLsbD (w : BitVec 32) (i : Nat) : (immS w).getLsbD i =
    BitVec.getLsbD (w := 7+5) (field w 25 7 ++ field w 7 5) i := rfl

/-- The bits of `immB`. -/
theorem immB_getLsbD (w : BitVec 32) (i : Nat) : (immB w).getLsbD i =
    BitVec.getLsbD (w := 1+1+6+4+1) (field w 31 1 ++ field w 7 1 ++ field w 25 6 ++ field w 8 4 ++ 0#1) i := rfl

/-- The bits of `immJ`. -/
theorem immJ_getLsbD (w : BitVec 32) (i : Nat) : (immJ w).getLsbD i =
    BitVec.getLsbD (w := 1+8+1+10+1) (field w 31 1 ++ field w 12 8 ++ field w 20 1 ++ field w 21 10 ++ 0#1) i := rfl

/-- The bits of `cImm6`. -/
theorem cImm6_getLsbD (h : Parcel) (i : Nat) : (cImm6 h).getLsbD i =
    BitVec.getLsbD (w := 1+5) (field h 12 1 ++ field h 2 5) i := rfl

/-- The bits of `cImm4spn`. -/
theorem cImm4spn_getLsbD (h : Parcel) (i : Nat) : (cImm4spn h).getLsbD i =
    BitVec.getLsbD (w := 4+2+1+1+2) (field h 7 4 ++ field h 11 2 ++ field h 5 1 ++ field h 6 1 ++ 0#2) i := rfl

/-- The bits of `cImmLw`. -/
theorem cImmLw_getLsbD (h : Parcel) (i : Nat) : (cImmLw h).getLsbD i =
    BitVec.getLsbD (w := 1+3+1+2) (field h 5 1 ++ field h 10 3 ++ field h 6 1 ++ 0#2) i := rfl

/-- The bits of `cImm16sp`. -/
theorem cImm16sp_getLsbD (h : Parcel) (i : Nat) : (cImm16sp h).getLsbD i =
    BitVec.getLsbD (w := 1+2+1+1+1+4) (field h 12 1 ++ field h 3 2 ++ field h 5 1 ++ field h 2 1 ++ field h 6 1 ++ 0#4) i := rfl

/-- The bits of `cImmJ`. -/
theorem cImmJ_getLsbD (h : Parcel) (i : Nat) : (cImmJ h).getLsbD i =
    BitVec.getLsbD (w := 1+1+2+1+1+1+1+3+1) (field h 12 1 ++ field h 8 1 ++ field h 9 2 ++ field h 6 1 ++ field h 7 1 ++ field h 2 1 ++ field h 11 1 ++ field h 3 3 ++ 0#1) i := rfl

/-- The bits of `cImmB`. -/
theorem cImmB_getLsbD (h : Parcel) (i : Nat) : (cImmB h).getLsbD i =
    BitVec.getLsbD (w := 1+2+1+2+2+1) (field h 12 1 ++ field h 5 2 ++ field h 2 1 ++ field h 10 2 ++ field h 3 2 ++ 0#1) i := rfl

/-- The bits of `cImmLwsp`. -/
theorem cImmLwsp_getLsbD (h : Parcel) (i : Nat) : (cImmLwsp h).getLsbD i =
    BitVec.getLsbD (w := 2+1+3+2) (field h 2 2 ++ field h 12 1 ++ field h 4 3 ++ 0#2) i := rfl

/-- The bits of `cImmSwsp`. -/
theorem cImmSwsp_getLsbD (h : Parcel) (i : Nat) : (cImmSwsp h).getLsbD i =
    BitVec.getLsbD (w := 2+4+2) (field h 7 2 ++ field h 9 4 ++ 0#2) i := rfl

/-! ### The fields of an encoded word -/

theorem encR_field_0 (f7 : BitVec 7) (f3 : BitVec 3) (rd rs1 rs2 : Reg) :
    field (encR f7 f3 rd rs1 rs2) 0 7 = 0b0110011#7 := by
  apply BitVec.eq_of_getLsbD_eq; intro i hi
  simp only [BitVec.getLsbD_append, BitVec.getLsbD_extractLsb', encR_getLsbD]
  interval_cases i <;> simp

theorem encR_field_7 (f7 : BitVec 7) (f3 : BitVec 3) (rd rs1 rs2 : Reg) :
    field (encR f7 f3 rd rs1 rs2) 7 5 = regBits rd := by
  apply BitVec.eq_of_getLsbD_eq; intro i hi
  simp only [BitVec.getLsbD_append, BitVec.getLsbD_extractLsb', encR_getLsbD]
  interval_cases i <;> simp

theorem encR_field_12 (f7 : BitVec 7) (f3 : BitVec 3) (rd rs1 rs2 : Reg) :
    field (encR f7 f3 rd rs1 rs2) 12 3 = f3 := by
  apply BitVec.eq_of_getLsbD_eq; intro i hi
  simp only [BitVec.getLsbD_append, BitVec.getLsbD_extractLsb', encR_getLsbD]
  interval_cases i <;> simp

theorem encR_field_15 (f7 : BitVec 7) (f3 : BitVec 3) (rd rs1 rs2 : Reg) :
    field (encR f7 f3 rd rs1 rs2) 15 5 = regBits rs1 := by
  apply BitVec.eq_of_getLsbD_eq; intro i hi
  simp only [BitVec.getLsbD_append, BitVec.getLsbD_extractLsb', encR_getLsbD]
  interval_cases i <;> simp

theorem encR_field_20 (f7 : BitVec 7) (f3 : BitVec 3) (rd rs1 rs2 : Reg) :
    field (encR f7 f3 rd rs1 rs2) 20 5 = regBits rs2 := by
  apply BitVec.eq_of_getLsbD_eq; intro i hi
  simp only [BitVec.getLsbD_append, BitVec.getLsbD_extractLsb', encR_getLsbD]
  interval_cases i <;> simp

theorem encR_field_25 (f7 : BitVec 7) (f3 : BitVec 3) (rd rs1 rs2 : Reg) :
    field (encR f7 f3 rd rs1 rs2) 25 7 = f7 := by
  apply BitVec.eq_of_getLsbD_eq; intro i hi
  simp only [BitVec.getLsbD_append, BitVec.getLsbD_extractLsb', encR_getLsbD]
  interval_cases i <;> simp

theorem encI_field_0 (op : BitVec 7) (f3 : BitVec 3) (rd rs1 : BitVec 5) (imm : BitVec 12) :
    field (encI op f3 rd rs1 imm) 0 7 = op := by
  apply BitVec.eq_of_getLsbD_eq; intro i hi
  simp only [BitVec.getLsbD_append, BitVec.getLsbD_extractLsb', encI_getLsbD]
  interval_cases i <;> simp

theorem encI_field_7 (op : BitVec 7) (f3 : BitVec 3) (rd rs1 : BitVec 5) (imm : BitVec 12) :
    field (encI op f3 rd rs1 imm) 7 5 = rd := by
  apply BitVec.eq_of_getLsbD_eq; intro i hi
  simp only [BitVec.getLsbD_append, BitVec.getLsbD_extractLsb', encI_getLsbD]
  interval_cases i <;> simp

theorem encI_field_12 (op : BitVec 7) (f3 : BitVec 3) (rd rs1 : BitVec 5) (imm : BitVec 12) :
    field (encI op f3 rd rs1 imm) 12 3 = f3 := by
  apply BitVec.eq_of_getLsbD_eq; intro i hi
  simp only [BitVec.getLsbD_append, BitVec.getLsbD_extractLsb', encI_getLsbD]
  interval_cases i <;> simp

theorem encI_field_15 (op : BitVec 7) (f3 : BitVec 3) (rd rs1 : BitVec 5) (imm : BitVec 12) :
    field (encI op f3 rd rs1 imm) 15 5 = rs1 := by
  apply BitVec.eq_of_getLsbD_eq; intro i hi
  simp only [BitVec.getLsbD_append, BitVec.getLsbD_extractLsb', encI_getLsbD]
  interval_cases i <;> simp

theorem encI_field_20 (op : BitVec 7) (f3 : BitVec 3) (rd rs1 : BitVec 5) (imm : BitVec 12) :
    field (encI op f3 rd rs1 imm) 20 12 = imm := by
  apply BitVec.eq_of_getLsbD_eq; intro i hi
  simp only [BitVec.getLsbD_append, BitVec.getLsbD_extractLsb', encI_getLsbD]
  interval_cases i <;> simp

theorem encS_field_0 (f3 : BitVec 3) (rs2 rs1 : Reg) (imm : BitVec 12) :
    field (encS f3 rs2 rs1 imm) 0 7 = 0b0100011#7 := by
  apply BitVec.eq_of_getLsbD_eq; intro i hi
  simp only [BitVec.getLsbD_append, BitVec.getLsbD_extractLsb', encS_getLsbD]
  interval_cases i <;> simp

theorem encS_field_12 (f3 : BitVec 3) (rs2 rs1 : Reg) (imm : BitVec 12) :
    field (encS f3 rs2 rs1 imm) 12 3 = f3 := by
  apply BitVec.eq_of_getLsbD_eq; intro i hi
  simp only [BitVec.getLsbD_append, BitVec.getLsbD_extractLsb', encS_getLsbD]
  interval_cases i <;> simp

theorem encS_field_15 (f3 : BitVec 3) (rs2 rs1 : Reg) (imm : BitVec 12) :
    field (encS f3 rs2 rs1 imm) 15 5 = regBits rs1 := by
  apply BitVec.eq_of_getLsbD_eq; intro i hi
  simp only [BitVec.getLsbD_append, BitVec.getLsbD_extractLsb', encS_getLsbD]
  interval_cases i <;> simp

theorem encS_field_20 (f3 : BitVec 3) (rs2 rs1 : Reg) (imm : BitVec 12) :
    field (encS f3 rs2 rs1 imm) 20 5 = regBits rs2 := by
  apply BitVec.eq_of_getLsbD_eq; intro i hi
  simp only [BitVec.getLsbD_append, BitVec.getLsbD_extractLsb', encS_getLsbD]
  interval_cases i <;> simp

theorem encB_field_0 (f3 : BitVec 3) (rs1 rs2 : Reg) (imm : BitVec 13) :
    field (encB f3 rs1 rs2 imm) 0 7 = 0b1100011#7 := by
  apply BitVec.eq_of_getLsbD_eq; intro i hi
  simp only [BitVec.getLsbD_append, BitVec.getLsbD_extractLsb', encB_getLsbD]
  interval_cases i <;> simp

theorem encB_field_12 (f3 : BitVec 3) (rs1 rs2 : Reg) (imm : BitVec 13) :
    field (encB f3 rs1 rs2 imm) 12 3 = f3 := by
  apply BitVec.eq_of_getLsbD_eq; intro i hi
  simp only [BitVec.getLsbD_append, BitVec.getLsbD_extractLsb', encB_getLsbD]
  interval_cases i <;> simp

theorem encB_field_15 (f3 : BitVec 3) (rs1 rs2 : Reg) (imm : BitVec 13) :
    field (encB f3 rs1 rs2 imm) 15 5 = regBits rs1 := by
  apply BitVec.eq_of_getLsbD_eq; intro i hi
  simp only [BitVec.getLsbD_append, BitVec.getLsbD_extractLsb', encB_getLsbD]
  interval_cases i <;> simp

theorem encB_field_20 (f3 : BitVec 3) (rs1 rs2 : Reg) (imm : BitVec 13) :
    field (encB f3 rs1 rs2 imm) 20 5 = regBits rs2 := by
  apply BitVec.eq_of_getLsbD_eq; intro i hi
  simp only [BitVec.getLsbD_append, BitVec.getLsbD_extractLsb', encB_getLsbD]
  interval_cases i <;> simp

theorem encU_field_0 (op : BitVec 7) (rd : Reg) (imm : BitVec 20) :
    field (encU op rd imm) 0 7 = op := by
  apply BitVec.eq_of_getLsbD_eq; intro i hi
  simp only [BitVec.getLsbD_append, BitVec.getLsbD_extractLsb', encU_getLsbD]
  interval_cases i <;> simp

theorem encU_field_7 (op : BitVec 7) (rd : Reg) (imm : BitVec 20) :
    field (encU op rd imm) 7 5 = regBits rd := by
  apply BitVec.eq_of_getLsbD_eq; intro i hi
  simp only [BitVec.getLsbD_append, BitVec.getLsbD_extractLsb', encU_getLsbD]
  interval_cases i <;> simp

theorem encU_field_12 (op : BitVec 7) (rd : Reg) (imm : BitVec 20) :
    field (encU op rd imm) 12 20 = imm := by
  apply BitVec.eq_of_getLsbD_eq; intro i hi
  simp only [BitVec.getLsbD_append, BitVec.getLsbD_extractLsb', encU_getLsbD]
  interval_cases i <;> simp

theorem encJ_field_0 (rd : Reg) (imm : BitVec 21) :
    field (encJ rd imm) 0 7 = 0b1101111#7 := by
  apply BitVec.eq_of_getLsbD_eq; intro i hi
  simp only [BitVec.getLsbD_append, BitVec.getLsbD_extractLsb', encJ_getLsbD]
  interval_cases i <;> simp

theorem encJ_field_7 (rd : Reg) (imm : BitVec 21) :
    field (encJ rd imm) 7 5 = regBits rd := by
  apply BitVec.eq_of_getLsbD_eq; intro i hi
  simp only [BitVec.getLsbD_append, BitVec.getLsbD_extractLsb', encJ_getLsbD]
  interval_cases i <;> simp

theorem encCR_field_0 (f4 : BitVec 4) (r : Reg) (rs2 : BitVec 5) :
    field (encCR f4 r rs2) 0 2 = 0b10#2 := by
  apply BitVec.eq_of_getLsbD_eq; intro i hi
  simp only [BitVec.getLsbD_append, BitVec.getLsbD_extractLsb', encCR_getLsbD]
  interval_cases i <;> simp

theorem encCR_field_2 (f4 : BitVec 4) (r : Reg) (rs2 : BitVec 5) :
    field (encCR f4 r rs2) 2 5 = rs2 := by
  apply BitVec.eq_of_getLsbD_eq; intro i hi
  simp only [BitVec.getLsbD_append, BitVec.getLsbD_extractLsb', encCR_getLsbD]
  interval_cases i <;> simp

theorem encCR_field_7 (f4 : BitVec 4) (r : Reg) (rs2 : BitVec 5) :
    field (encCR f4 r rs2) 7 5 = regBits r := by
  apply BitVec.eq_of_getLsbD_eq; intro i hi
  simp only [BitVec.getLsbD_append, BitVec.getLsbD_extractLsb', encCR_getLsbD]
  interval_cases i <;> simp

theorem encCR_field_13 (f4 : BitVec 4) (r : Reg) (rs2 : BitVec 5) :
    field (encCR f4 r rs2) 13 3 = f4.extractLsb' 1 3 := by
  apply BitVec.eq_of_getLsbD_eq; intro i hi
  simp only [BitVec.getLsbD_append, BitVec.getLsbD_extractLsb', encCR_getLsbD]
  interval_cases i <;> simp

theorem encCR_field_12 (f4 : BitVec 4) (r : Reg) (rs2 : BitVec 5) :
    field (encCR f4 r rs2) 12 1 = f4.extractLsb' 0 1 := by
  apply BitVec.eq_of_getLsbD_eq; intro i hi
  simp only [BitVec.getLsbD_append, BitVec.getLsbD_extractLsb', encCR_getLsbD]
  interval_cases i; simp

theorem encCI_field_0 (f3 : BitVec 3) (r : BitVec 5) (imm : BitVec 6) (op : BitVec 2) :
    field (encCI f3 r imm op) 0 2 = op := by
  apply BitVec.eq_of_getLsbD_eq; intro i hi
  simp only [BitVec.getLsbD_append, BitVec.getLsbD_extractLsb', encCI_getLsbD]
  interval_cases i <;> simp

theorem encCI_field_7 (f3 : BitVec 3) (r : BitVec 5) (imm : BitVec 6) (op : BitVec 2) :
    field (encCI f3 r imm op) 7 5 = r := by
  apply BitVec.eq_of_getLsbD_eq; intro i hi
  simp only [BitVec.getLsbD_append, BitVec.getLsbD_extractLsb', encCI_getLsbD]
  interval_cases i <;> simp

theorem encCI_field_13 (f3 : BitVec 3) (r : BitVec 5) (imm : BitVec 6) (op : BitVec 2) :
    field (encCI f3 r imm op) 13 3 = f3 := by
  apply BitVec.eq_of_getLsbD_eq; intro i hi
  simp only [BitVec.getLsbD_append, BitVec.getLsbD_extractLsb', encCI_getLsbD]
  interval_cases i <;> simp

theorem encCI_field_2 (f3 : BitVec 3) (r : BitVec 5) (imm : BitVec 6) (op : BitVec 2) :
    field (encCI f3 r imm op) 2 5 = imm.extractLsb' 0 5 := by
  apply BitVec.eq_of_getLsbD_eq; intro i hi
  simp only [BitVec.getLsbD_append, BitVec.getLsbD_extractLsb', encCI_getLsbD]
  interval_cases i <;> simp

theorem encCI_field_12 (f3 : BitVec 3) (r : BitVec 5) (imm : BitVec 6) (op : BitVec 2) :
    field (encCI f3 r imm op) 12 1 = imm.extractLsb' 5 1 := by
  apply BitVec.eq_of_getLsbD_eq; intro i hi
  simp only [BitVec.getLsbD_append, BitVec.getLsbD_extractLsb', encCI_getLsbD]
  interval_cases i; simp

theorem encCLS_field_0 (f3 : BitVec 3) (r rs1 : Reg) (imm : BitVec 7) :
    field (encCLS f3 r rs1 imm) 0 2 = 0b00#2 := by
  apply BitVec.eq_of_getLsbD_eq; intro i hi
  simp only [BitVec.getLsbD_append, BitVec.getLsbD_extractLsb', encCLS_getLsbD]
  interval_cases i <;> simp

theorem encCLS_field_2 (f3 : BitVec 3) (r rs1 : Reg) (imm : BitVec 7) :
    field (encCLS f3 r rs1 imm) 2 3 = regBits3 r := by
  apply BitVec.eq_of_getLsbD_eq; intro i hi
  simp only [BitVec.getLsbD_append, BitVec.getLsbD_extractLsb', encCLS_getLsbD]
  interval_cases i <;> simp

theorem encCLS_field_7 (f3 : BitVec 3) (r rs1 : Reg) (imm : BitVec 7) :
    field (encCLS f3 r rs1 imm) 7 3 = regBits3 rs1 := by
  apply BitVec.eq_of_getLsbD_eq; intro i hi
  simp only [BitVec.getLsbD_append, BitVec.getLsbD_extractLsb', encCLS_getLsbD]
  interval_cases i <;> simp

theorem encCLS_field_13 (f3 : BitVec 3) (r rs1 : Reg) (imm : BitVec 7) :
    field (encCLS f3 r rs1 imm) 13 3 = f3 := by
  apply BitVec.eq_of_getLsbD_eq; intro i hi
  simp only [BitVec.getLsbD_append, BitVec.getLsbD_extractLsb', encCLS_getLsbD]
  interval_cases i <;> simp

theorem encCA_field_0 (f2 : BitVec 2) (rd rs2 : Reg) :
    field (encCA f2 rd rs2) 0 2 = 0b01#2 := by
  apply BitVec.eq_of_getLsbD_eq; intro i hi
  simp only [BitVec.getLsbD_append, BitVec.getLsbD_extractLsb', encCA_getLsbD]
  interval_cases i <;> simp

theorem encCA_field_2 (f2 : BitVec 2) (rd rs2 : Reg) :
    field (encCA f2 rd rs2) 2 3 = regBits3 rs2 := by
  apply BitVec.eq_of_getLsbD_eq; intro i hi
  simp only [BitVec.getLsbD_append, BitVec.getLsbD_extractLsb', encCA_getLsbD]
  interval_cases i <;> simp

theorem encCA_field_5 (f2 : BitVec 2) (rd rs2 : Reg) :
    field (encCA f2 rd rs2) 5 2 = f2 := by
  apply BitVec.eq_of_getLsbD_eq; intro i hi
  simp only [BitVec.getLsbD_append, BitVec.getLsbD_extractLsb', encCA_getLsbD]
  interval_cases i <;> simp

theorem encCA_field_7 (f2 : BitVec 2) (rd rs2 : Reg) :
    field (encCA f2 rd rs2) 7 3 = regBits3 rd := by
  apply BitVec.eq_of_getLsbD_eq; intro i hi
  simp only [BitVec.getLsbD_append, BitVec.getLsbD_extractLsb', encCA_getLsbD]
  interval_cases i <;> simp

theorem encCA_field_10 (f2 : BitVec 2) (rd rs2 : Reg) :
    field (encCA f2 rd rs2) 10 2 = 0b11#2 := by
  apply BitVec.eq_of_getLsbD_eq; intro i hi
  simp only [BitVec.getLsbD_append, BitVec.getLsbD_extractLsb', encCA_getLsbD]
  interval_cases i <;> simp

theorem encCA_field_12 (f2 : BitVec 2) (rd rs2 : Reg) :
    field (encCA f2 rd rs2) 12 1 = 0b0#1 := by
  apply BitVec.eq_of_getLsbD_eq; intro i hi
  simp only [BitVec.getLsbD_append, BitVec.getLsbD_extractLsb', encCA_getLsbD]
  interval_cases i; simp

theorem encCA_field_13 (f2 : BitVec 2) (rd rs2 : Reg) :
    field (encCA f2 rd rs2) 13 3 = 0b100#3 := by
  apply BitVec.eq_of_getLsbD_eq; intro i hi
  simp only [BitVec.getLsbD_append, BitVec.getLsbD_extractLsb', encCA_getLsbD]
  interval_cases i <;> simp

theorem encCBAlu_field_0 (f2 : BitVec 2) (rd : Reg) (imm : BitVec 6) :
    field (encCBAlu f2 rd imm) 0 2 = 0b01#2 := by
  apply BitVec.eq_of_getLsbD_eq; intro i hi
  simp only [BitVec.getLsbD_append, BitVec.getLsbD_extractLsb', encCBAlu_getLsbD]
  interval_cases i <;> simp

theorem encCBAlu_field_7 (f2 : BitVec 2) (rd : Reg) (imm : BitVec 6) :
    field (encCBAlu f2 rd imm) 7 3 = regBits3 rd := by
  apply BitVec.eq_of_getLsbD_eq; intro i hi
  simp only [BitVec.getLsbD_append, BitVec.getLsbD_extractLsb', encCBAlu_getLsbD]
  interval_cases i <;> simp

theorem encCBAlu_field_10 (f2 : BitVec 2) (rd : Reg) (imm : BitVec 6) :
    field (encCBAlu f2 rd imm) 10 2 = f2 := by
  apply BitVec.eq_of_getLsbD_eq; intro i hi
  simp only [BitVec.getLsbD_append, BitVec.getLsbD_extractLsb', encCBAlu_getLsbD]
  interval_cases i <;> simp

theorem encCBAlu_field_13 (f2 : BitVec 2) (rd : Reg) (imm : BitVec 6) :
    field (encCBAlu f2 rd imm) 13 3 = 0b100#3 := by
  apply BitVec.eq_of_getLsbD_eq; intro i hi
  simp only [BitVec.getLsbD_append, BitVec.getLsbD_extractLsb', encCBAlu_getLsbD]
  interval_cases i <;> simp

theorem encCBAlu_field_2 (f2 : BitVec 2) (rd : Reg) (imm : BitVec 6) :
    field (encCBAlu f2 rd imm) 2 5 = imm.extractLsb' 0 5 := by
  apply BitVec.eq_of_getLsbD_eq; intro i hi
  simp only [BitVec.getLsbD_append, BitVec.getLsbD_extractLsb', encCBAlu_getLsbD]
  interval_cases i <;> simp

theorem encCBAlu_field_12 (f2 : BitVec 2) (rd : Reg) (imm : BitVec 6) :
    field (encCBAlu f2 rd imm) 12 1 = imm.extractLsb' 5 1 := by
  apply BitVec.eq_of_getLsbD_eq; intro i hi
  simp only [BitVec.getLsbD_append, BitVec.getLsbD_extractLsb', encCBAlu_getLsbD]
  interval_cases i; simp

theorem encCB_field_0 (f3 : BitVec 3) (rs1 : Reg) (imm : BitVec 9) :
    field (encCB f3 rs1 imm) 0 2 = 0b01#2 := by
  apply BitVec.eq_of_getLsbD_eq; intro i hi
  simp only [BitVec.getLsbD_append, BitVec.getLsbD_extractLsb', encCB_getLsbD]
  interval_cases i <;> simp

theorem encCB_field_7 (f3 : BitVec 3) (rs1 : Reg) (imm : BitVec 9) :
    field (encCB f3 rs1 imm) 7 3 = regBits3 rs1 := by
  apply BitVec.eq_of_getLsbD_eq; intro i hi
  simp only [BitVec.getLsbD_append, BitVec.getLsbD_extractLsb', encCB_getLsbD]
  interval_cases i <;> simp

theorem encCB_field_13 (f3 : BitVec 3) (rs1 : Reg) (imm : BitVec 9) :
    field (encCB f3 rs1 imm) 13 3 = f3 := by
  apply BitVec.eq_of_getLsbD_eq; intro i hi
  simp only [BitVec.getLsbD_append, BitVec.getLsbD_extractLsb', encCB_getLsbD]
  interval_cases i <;> simp

theorem encCJ_field_0 (f3 : BitVec 3) (imm : BitVec 12) :
    field (encCJ f3 imm) 0 2 = 0b01#2 := by
  apply BitVec.eq_of_getLsbD_eq; intro i hi
  simp only [BitVec.getLsbD_append, BitVec.getLsbD_extractLsb', encCJ_getLsbD]
  interval_cases i <;> simp

theorem encCJ_field_13 (f3 : BitVec 3) (imm : BitVec 12) :
    field (encCJ f3 imm) 13 3 = f3 := by
  apply BitVec.eq_of_getLsbD_eq; intro i hi
  simp only [BitVec.getLsbD_append, BitVec.getLsbD_extractLsb', encCJ_getLsbD]
  interval_cases i <;> simp

theorem encS_immS (f3 : BitVec 3) (rs2 rs1 : Reg) (imm : BitVec 12) :
    immS (encS f3 rs2 rs1 imm) = imm := by
  apply BitVec.eq_of_getLsbD_eq; intro i hi
  rw [immS_getLsbD]
  simp only [BitVec.getLsbD_append, BitVec.getLsbD_extractLsb', encS_getLsbD]
  interval_cases i <;> simp

theorem encB_immB (f3 : BitVec 3) (rs1 rs2 : Reg) (imm : BitVec 13) (h : imm.getLsbD 0 = false) :
    immB (encB f3 rs1 rs2 imm) = imm := by
  apply BitVec.eq_of_getLsbD_eq; intro i hi
  rw [immB_getLsbD]
  simp only [BitVec.getLsbD_append, BitVec.getLsbD_extractLsb', encB_getLsbD]
  interval_cases i <;> simp
  all_goals exact h

theorem encJ_immJ (rd : Reg) (imm : BitVec 21) (h : imm.getLsbD 0 = false) :
    immJ (encJ rd imm) = imm := by
  apply BitVec.eq_of_getLsbD_eq; intro i hi
  rw [immJ_getLsbD]
  simp only [BitVec.getLsbD_append, BitVec.getLsbD_extractLsb', encJ_getLsbD]
  interval_cases i <;> simp
  all_goals exact h

theorem encCI_cImm6 (f3 : BitVec 3) (r : BitVec 5) (imm : BitVec 6) (op : BitVec 2) :
    cImm6 (encCI f3 r imm op) = imm := by
  apply BitVec.eq_of_getLsbD_eq; intro i hi
  rw [cImm6_getLsbD]
  simp only [BitVec.getLsbD_append, BitVec.getLsbD_extractLsb', encCI_getLsbD]
  interval_cases i <;> simp

theorem encCBAlu_cImm6 (f2 : BitVec 2) (rd : Reg) (imm : BitVec 6) :
    cImm6 (encCBAlu f2 rd imm) = imm := by
  apply BitVec.eq_of_getLsbD_eq; intro i hi
  rw [cImm6_getLsbD]
  simp only [BitVec.getLsbD_append, BitVec.getLsbD_extractLsb', encCBAlu_getLsbD]
  interval_cases i <;> simp

theorem encCLS_cImmLw (f3 : BitVec 3) (r rs1 : Reg) (imm : BitVec 7) (h0 : imm.getLsbD 0 = false) (h1 : imm.getLsbD 1 = false) :
    cImmLw (encCLS f3 r rs1 imm) = imm := by
  apply BitVec.eq_of_getLsbD_eq; intro i hi
  rw [cImmLw_getLsbD]
  simp only [BitVec.getLsbD_append, BitVec.getLsbD_extractLsb', encCLS_getLsbD]
  interval_cases i <;> simp
  all_goals first | exact h0 | exact h1

theorem encCB_cImmB (f3 : BitVec 3) (rs1 : Reg) (imm : BitVec 9) (h : imm.getLsbD 0 = false) :
    cImmB (encCB f3 rs1 imm) = imm := by
  apply BitVec.eq_of_getLsbD_eq; intro i hi
  rw [cImmB_getLsbD]
  simp only [BitVec.getLsbD_append, BitVec.getLsbD_extractLsb', encCB_getLsbD]
  interval_cases i <;> simp
  all_goals exact h

theorem encCJ_cImmJ (f3 : BitVec 3) (imm : BitVec 12) (h : imm.getLsbD 0 = false) :
    cImmJ (encCJ f3 imm) = imm := by
  apply BitVec.eq_of_getLsbD_eq; intro i hi
  rw [cImmJ_getLsbD]
  simp only [BitVec.getLsbD_append, BitVec.getLsbD_extractLsb', encCJ_getLsbD]
  interval_cases i <;> simp
  all_goals exact h

/-! ### A word from its parcels -/

/-- The two parcels of a word make it up again. -/
theorem wide_append (w : BitVec 32) : (field w 16 16 ++ field w 0 16 : BitVec 32) = w := by
  apply BitVec.eq_of_getLsbD_eq; intro i hi
  show BitVec.getLsbD (w := 16+16) (field w 16 16 ++ field w 0 16) i = _
  rw [BitVec.getLsbD_append]
  simp only [BitVec.getLsbD_extractLsb']
  split
  · simp_all
  · rw [show 16 + (i - 16) = i by omega]; simp; omega

/-- A field of the low parcel is that field of the word. -/
theorem field_low_parcel (w : BitVec 32) (a b : Nat) (h : a + b ≤ 16) : field (field w 0 16) a b = field w a b := by
  apply BitVec.eq_of_getLsbD_eq; intro i hi
  simp only [BitVec.getLsbD_extractLsb']
  grind

/-- A field of the major opcode is that field of the word. -/
theorem field_opcode (w : BitVec 32) (a b : Nat) (h : a + b ≤ 7) : field (field w 0 7) a b = field w a b := by
  apply BitVec.eq_of_getLsbD_eq; intro i hi
  simp only [BitVec.getLsbD_extractLsb']
  grind

/-- A word whose major opcode `c` announces 32 bits is decoded whole (30_encoding.md R120). -/
theorem decode_wide (isa : Isa) (w : BitVec 32) (c : BitVec 7) (rest : List Parcel) (h : field w 0 7 = c)
    (h2 : field c 0 2 = 3#2) (h3 : field c 2 3 ≠ 7#3) :
    decode isa (wide w ++ rest) = (decode32 isa w).map fun i => (i, rest) := by
  have a : field w 0 2 = 3 := by rw [← field_opcode w 0 2 (by omega), h]; exact h2
  have b : field w 2 3 ≠ 7#3 := by rw [← field_opcode w 2 3 (by omega), h]; exact h3
  have a' : field (field w 0 16) 0 2 = 3#2 := by rw [field_low_parcel w 0 2 (by omega)]; exact a
  have b' : field (field w 0 16) 2 3 ≠ 7#3 := by rw [field_low_parcel w 2 3 (by omega)]; exact b
  simp only [wide, List.cons_append, List.nil_append, decode, isLong, isWide, a']
  have b'' : (field (field w 0 16) 2 3 == 7) = false := by simpa using b'
  simp only [b'', bne, Bool.and_false, Bool.not_false, Bool.and_true]
  rw [show (field w 16 16 ++ field w 0 16 : BitVec 32) = w from wide_append w]
  simp

/-- A parcel whose low two bits are not 11 is an instruction by itself (30_encoding.md R120). -/
theorem decode_narrow (isa : Isa) (h : Parcel) (rest : List Parcel) (hq : field h 0 2 ≠ 3#2) :
    decode isa (h :: rest) = (decode16 isa h).map fun i => (i, rest) := by
  have b : (field h 0 2 == 3) = false := by simpa using hq
  simp only [decode, isLong, isWide, b, Bool.false_and]
  simp

end Sys2Proof
end

