-- ==== Sys2Proof/Laws/Traps.lean ====
section
/-!
SUPPORT. Taking a trap and returning from one: all they can do, and the changes they are made of.
-/

namespace Sys2Proof.Machine

/-! ### mstatus -/

theorem mstatusOf_mie (a b c d : Bool) : (mstatusOf a b c d).getLsbD 3 = a := by
  cases a <;> cases b <;> cases c <;> cases d <;> decide
theorem mstatusOf_mpie (a b c d : Bool) : (mstatusOf a b c d).getLsbD 7 = b := by
  cases a <;> cases b <;> cases c <;> cases d <;> decide
theorem mstatusOf_mpop (a b c d : Bool) : (mstatusOf a b c d).getLsbD 23 = c := by
  cases a <;> cases b <;> cases c <;> cases d <;> decide
theorem mstatusOf_mppop (a b c d : Bool) : (mstatusOf a b c d).getLsbD 24 = d := by
  cases a <;> cases b <;> cases c <;> cases d <;> decide
theorem mstatusOf_mpp (a b c d : Bool) : (mstatusOf a b c d).extractLsb' 11 2 = 3#2 := by
  cases a <;> cases b <;> cases c <;> cases d <;> decide
theorem mstatusOf_fixed (a b c d : Bool) : mstatusOf a b c d &&& 0xFE7FFF77#32 = 0x00001800#32 := by
  cases a <;> cases b <;> cases c <;> cases d <;> decide

open Changes (append one)

namespace State

theorem mie_of (x : State) {a b c d : Bool} (h : x.mstatus = mstatusOf a b c d) : x.mie = a := by
  unfold mie; rw [h, mstatusOf_mie]

theorem mpie_of (x : State) {a b c d : Bool} (h : x.mstatus = mstatusOf a b c d) : x.mpie = b := by
  unfold mpie; rw [h, mstatusOf_mpie]

theorem mpop_of (x : State) {a b c d : Bool} (h : x.mstatus = mstatusOf a b c d) : x.mpop = c := by
  unfold mpop; rw [h, mstatusOf_mpop]

theorem mppop_of (x : State) {a b c d : Bool} (h : x.mstatus = mstatusOf a b c d) : x.mppop = d := by
  unfold mppop; rw [h, mstatusOf_mppop]

theorem mpp_of (x : State) {a b c d : Bool} (h : x.mstatus = mstatusOf a b c d) : x.mstatus.extractLsb' 11 2 = 3#2 := by
  rw [h, mstatusOf_mpp]

/-! ### Entering -/

/-- An address whose bit 0 is masked off is even. -/
theorem even_and (v : Word) (m : Word) (h : m.getLsbD 0 = false) : (v &&& m).getLsbD 0 = false := by
  rw [BitVec.getLsbD_and, h, Bool.and_false]

theorem even_add (a b : Word) (ha : a.getLsbD 0 = false) (hb : b.getLsbD 0 = false) : (a + b).getLsbD 0 = false := by
  have h : ∀ x : Word, x.getLsbD 0 = decide (x.toNat % 2 = 1) := fun x => by
    simp [BitVec.getLsbD, Nat.testBit_zero]
  rw [h] at *
  simp only [decide_eq_false_iff_not, BitVec.toNat_add] at *
  omega

theorem even_four (n : BitVec 8) : (4#32 * n.setWidth 32).getLsbD 0 = false := by
  have h : ∀ x : Word, x.getLsbD 0 = decide (x.toNat % 2 = 1) := fun x => by
    simp [BitVec.getLsbD, Nat.testBit_zero]
  rw [h]
  simp only [decide_eq_false_iff_not, BitVec.toNat_mul, BitVec.toNat_setWidth, BitVec.toNat_ofNat]
  omega

/-- Where the vector leads: only the pc changes, to an even address, and perhaps a free value is drawn. -/
theorem enterAtVector_next (s t : State) (n : BitVec 8) (h : s.enterAtVector n = .next t) :
    ∃ a : Word, a.getLsbD 0 = false ∧ (t = s.jumpTo a ∨ t = s.drawn.jumpTo a) := by
  unfold enterAtVector at h
  split at h
  · cases h
  · simp only at h
    have he : (if s.mtvecMode0 then s.mtvecBase + 4#32 * n.setWidth 32 else s.mtvecBase).getLsbD 0 = false := by
      have hb : s.mtvecBase.getLsbD 0 = false := even_and _ _ (by decide)
      split
      · exact even_add _ _ hb (even_four n)
      · exact hb
    split at h
    · split at h
      · next v s' hv =>
        split at h
        · cases h
        · next ht =>
          cases h
          refine ⟨v, by simpa using ht, ?_⟩
          rcases s.busRead_done s' _ _ v hv with hs | hs <;> subst hs
          · exact .inl rfl
          · exact .inr rfl
      · cases h
      · cases h
    · cases h
      exact ⟨_, he, .inl rfl⟩

/-- Where a trap goes: only the pc changes, to an even address, and perhaps a free value is drawn. -/
theorem enterTarget_next (s t : State) (k : TrapId) (h : s.enterTarget k = .next t) :
    ∃ a : Word, a.getLsbD 0 = false ∧ (t = s.jumpTo a ∨ t = s.drawn.jumpTo a) := by
  unfold enterTarget at h
  simp only at h
  split at h
  · split at h
    · cases h
    · exact s.enterAtVector_next t _ h
  · split at h
    · cases h
    · split at h
      · cases h; exact ⟨_, even_and _ _ (by decide), .inl rfl⟩
      · split at h
        · cases h; exact ⟨_, even_and _ _ (by decide), .inl rfl⟩
        · exact s.enterAtVector_next t _ h

/-- What trap entry makes of `mstatus` (60_exceptions.md R364). -/
theorem trapMstatus_eq (s : State) (p : Bool) :
    ∃ (m e : Bool) (n : Nat), s.trapMstatus p = { s with mstatus := mstatusOf m s.mie p s.mpop, mieEff := e, freeCtr := n } ∧
      (s.activeStack ≠ [] → m = false) ∧ (s.activeStack = [] → s.inesten = true → m = s.mie) ∧
      ((s.mie = true → s.mieEff = true) → m = true → e = true) := by
  unfold trapMstatus
  split
  · next hs => exact ⟨false, false, s.freeCtr, rfl, by simp, by simp [hs], by simp⟩
  · next hs =>
    split
    · next hn => exact ⟨s.mie, s.mieEff, s.freeCtr, rfl, by simp [hs], by simp, id⟩
    · next hn => exact ⟨_, _, _, rfl, by simp [hs], by simp [hn], by simp; grind⟩

/-- The changes of a completed trap entry. -/
theorem changes_enterTrap (s t : State) (k : TrapId) (cause epc : Word) (hd : s.inDebug = false)
    (h : s.enterTrap k cause epc = .next t) : Changes s t := by
  unfold enterTrap at h
  split at h
  · cases h
  · next hn =>
    obtain ⟨s1, h1, h2⟩ := andThen_next h
    have hc := s.core_push s1 h1
    have hrun : s1.run = s.run := by
      have := congrArg State.run hc
      simp only [core] at this
      split at this <;> simpa using this
    have hstk : s1.activeStack = s.activeStack := by
      have := congrArg State.activeStack hc
      simp only [core] at this
      split at this <;> simpa using this
    have c1 : Changes s s1 := by
      split at h1
      · exact s.changes_hpePush s1 h1
      · cases h1; exact Changes.none _
    obtain ⟨m, e, n, hm, -, -, hl⟩ := s1.trapMstatus_eq s.hwstken
    obtain ⟨a, ha, ht⟩ := enterTarget_next _ t k h2
    have hrn : s1.run ≠ .haltedDebug := by
      rw [hrun]; simpa [inDebug] using hd
    have hnest : s1.nest < 2 := by
      simp only [nest, hstk] at *; omega
    rw [hm] at ht
    have c2 : Changes s1
        { s1 with
          mstatus := mstatusOf m s1.mie s.hwstken s1.mpop
          mieEff := e
          freeCtr := n
          mepc := epc
          mcause := cause
          activeStack := k :: s1.activeStack
          run := .running
          deepSleep := false } := by
      refine append (one (.status m s1.mie s.hwstken s1.mpop e hl)) ?_
      refine append (one (.draw n)) ?_
      refine append (one (.csr .mepc epc)) ?_
      refine append (one (.csr .mcause cause)) ?_
      refine append (one (.trap k hnest)) ?_
      exact one (.run .running false (.inl hrn))
    refine append c1 (append c2 ?_)
    rcases ht with rfl | rfl
    · exact one (.jump a ha)
    · exact append (changes_drawn _) (one (.jump a ha))

/-- What every completed trap entry has done (60_exceptions.md R361 to R365). -/
theorem enterTrap_fields (s t : State) (k : TrapId) (cause epc : Word) (h : s.enterTrap k cause epc = .next t) :
    s.nest < 2 ∧ t.mepc = epc ∧ t.mcause = cause ∧ t.mpie = s.mie ∧ t.mppop = s.mpop ∧ t.mpop = s.hwstken ∧
      t.mstatus.extractLsb' 11 2 = 3#2 ∧ (s.nest = 1 → t.mie = false) ∧
      (s.nest = 0 → s.inesten = true → t.mie = s.mie) ∧ t.activeStack = k :: s.activeStack ∧ t.run = .running ∧
      t.regs = (if s.hwstken then s.setReg 2 (s.reg 2 - 48#32) else s).regs ∧
      (t.mtvec = s.mtvec ∧ t.mscratch = s.mscratch ∧ t.intsyscr = s.intsyscr ∧ t.dcsr = s.dcsr ∧ t.dpc = s.dpc ∧
        t.dscratch0 = s.dscratch0 ∧ t.dscratch1 = s.dscratch1) := by
  unfold enterTrap at h
  split at h
  · cases h
  · next hn =>
    obtain ⟨s1, h1, h2⟩ := andThen_next h
    have hc := s.core_push s1 h1
    obtain ⟨m, e, n, hm, hlast, hfirst, -⟩ := s1.trapMstatus_eq s.hwstken
    obtain ⟨a, -, ht⟩ := enterTarget_next _ t k h2
    rw [hm] at ht
    have field : ∀ {α : Type} (f : State → α), (∀ x : State, f x.core = f x) → (∀ x : State, f (x.setReg 2 (x.reg 2 - 48#32)) = f x) →
        f s1 = f s := by
      intro α f hf hr
      have := congrArg f hc
      rw [hf, hf] at this
      rw [this]
      split
      · exact hr s
      · rfl
    have hms := field State.mstatus (fun _ => rfl) (fun _ => by simp)
    have hmie : s1.mie = s.mie := by simp [mie, hms]
    have hmpop : s1.mpop = s.mpop := by simp [mpop, hms]
    have hstk := field State.activeStack (fun _ => rfl) (fun _ => by simp)
    have hint := field State.intsyscr (fun _ => rfl) (fun _ => by simp)
    have hin : s1.inesten = s.inesten := by simp [inesten, hint]
    have hregs : s1.regs = (if s.hwstken then s.setReg 2 (s.reg 2 - 48#32) else s).regs := by
      have := congrArg State.regs hc
      simpa [core] using this
    refine ⟨by omega, ?_⟩
    have hnil : s.nest = 0 → s1.activeStack = [] := fun h0 => by
      rw [hstk]; exact List.length_eq_zero_iff.1 h0
    have hcons : s.nest = 1 → s1.activeStack ≠ [] := fun h0 hx => by
      rw [hstk] at hx; simp [nest, hx] at h0
    rcases ht with rfl | rfl
    all_goals
      refine ⟨rfl, rfl, ?_, ?_, ?_, ?_, ?_, ?_, ?_, rfl, hregs,
        field State.mtvec (fun _ => rfl) (fun _ => by simp), field State.mscratch (fun _ => rfl) (fun _ => by simp), hint,
        field State.dcsr (fun _ => rfl) (fun _ => by simp), field State.dpc (fun _ => rfl) (fun _ => by simp),
        field State.dscratch0 (fun _ => rfl) (fun _ => by simp), field State.dscratch1 (fun _ => rfl) (fun _ => by simp)⟩
      · exact (mpie_of _ rfl).trans hmie
      · exact (mppop_of _ rfl).trans hmpop
      · exact mpop_of _ rfl
      · exact mpp_of _ rfl
      · intro h0
        exact (mie_of _ rfl).trans (hlast (hcons h0))
      · intro h0 hi
        exact (mie_of _ rfl).trans ((hfirst (hnil h0) (hin ▸ hi)).trans hmie)
      · exact congrArg (k :: ·) hstk

/-- A trap entered without a push, with the table's entry an instruction: it completes (60_exceptions.md R367). -/
theorem enterTrap_completes (s : State) (k : TrapId) (cause epc : Word) (hn : s.nest < 2) (hp : s.hwstken = false)
    (hv : ∀ u : State, u.pfic = s.pfic → u.mtvec = s.mtvec → ∃ a, u.enterTarget k = .next (u.jumpTo a)) :
    ∃ t, s.enterTrap k cause epc = .next t ∧ ∀ a, t.byteAt a = s.byteAt a := by
  unfold enterTrap
  have h1 : ¬ 2 ≤ s.nest := by omega
  simp only [h1, if_false, hp, Bool.false_eq_true, andThen_of_next]
  obtain ⟨m, e, n, hm, -, -, -⟩ := s.trapMstatus_eq false
  rw [hm]
  obtain ⟨a, ha⟩ := hv
    { s with
      mstatus := mstatusOf m s.mie false s.mpop
      mieEff := e
      freeCtr := n
      mepc := epc
      mcause := cause
      activeStack := k :: s.activeStack
      run := .running
      deepSleep := false } rfl rfl
  exact ⟨_, ha, fun _ => rfl⟩

end State

end Sys2Proof.Machine
end

