-- ==== Sys2Proof/Laws/Steps.lean ====
section
/-!
SUPPORT. The changes that an instruction, an input and a whole step are made of.
-/

namespace Sys2Proof.Machine

open Changes (append one)

namespace State

/-! ### Traps, faults of accesses, returns -/

theorem changes_setCmder (s : State) (e : BitVec 3) : Changes s (s.setCmder e) := by
  unfold setCmder
  split
  · exact one (.dm _ id)
  · exact Changes.none _

theorem changes_endProgbuf (s : State) : Changes s s.endProgbuf := one (.dm _ (by simp))

theorem changes_progbufException (s : State) : Changes s s.progbufException :=
  append (s.changes_setCmder 3#3) (changes_endProgbuf _)

theorem changes_takeException (s t : State) (code : BitVec 4) (h : s.takeException code = .next t) : Changes s t := by
  unfold takeException at h
  split at h
  · cases h; exact s.changes_progbufException
  · next hd => exact s.changes_enterTrap t _ _ _ (by simpa using hd) h

theorem changes_takeAccessError (s t : State) (h : s.takeAccessError = .next t) : Changes s t := by
  unfold takeAccessError at h
  split at h
  · cases h; exact Changes.none _
  · next e rest hl =>
    split at h
    · cases h
      exact append (one (.errors (s.inflight.drop s.dueErrors) 0 fun _ => Nat.zero_le _)) (changes_progbufException _)
    · next hd =>
      refine append (one (.errors rest (s.dueErrors - 1) fun hle => ?_))
        (changes_enterTrap _ t _ _ _ (by simpa [inDebug] using hd) h)
      rw [hl, List.length_cons] at hle
      omega

theorem changes_settleErrors (s t : State) (h : s.settleErrors = .next t) : Changes s t := by
  unfold settleErrors at h
  split at h
  · cases h; exact Changes.none _
  · exact append (one (.errors s.inflight s.inflight.length fun _ => le_refl _)) (changes_takeAccessError _ t h)

theorem changes_freeHpeRegs (s : State) : Changes s s.freeHpeRegs := by
  unfold freeHpeRegs
  generalize hpeFrame = l
  induction l generalizing s with
  | nil => exact Changes.none _
  | cons e rest ih => exact append (append (one (.reg e.2 s.freshWord)) (changes_drawn _)) (ih _)

theorem changes_settleMret (s t : State) (h : s.settleMret = .next t) : Changes s t := by
  unfold settleMret at h
  split at h
  · cases h; exact Changes.none _
  · obtain ⟨u, h1, h2⟩ := andThen_next h
    cases h2
    refine append (changes_settleErrors s u h1) (append (?_ : Changes u _) (one (.tail false)))
    split
    · exact u.changes_freeHpeRegs
    · exact Changes.none _

theorem changes_mretMstatus (s : State) : Changes s s.mretMstatus :=
  append (one (.status s.mpie s.freshBool s.mppop (Config.freeBool (s.freeCtr + 1)) s.mpie fun _ h => h))
    (one (.draw (s.freeCtr + 2)))

theorem changes_mretNesting (s : State) : Changes s s.mretNesting := by
  unfold mretNesting
  split
  · exact Changes.none _
  · next t hs =>
    have hu : Changes s { s with activeStack := [] } := by
      have := one (.untrap (s := s))
      rwa [hs] at this
    split
    · next h =>
      simp only [Bool.and_eq_true, Bool.not_eq_true'] at h
      exact append hu (one (.run .sleepingWfi s.sleepDeep (.inl (by simpa [inDebug] using h.2))))
    · exact hu
  · next t rest _ hs =>
    have hu : Changes s { s with activeStack := rest } := by
      have := one (.untrap (s := s))
      rwa [hs] at this
    exact append hu (append (one (.csr .mepc s.freshWord))
      (append (one (.csr .mcause (Config.freeWord (s.freeCtr + 1)))) (one (.draw (s.freeCtr + 2)))))

theorem changes_trapReturn (s t : State) (h : s.trapReturn = .next t) : Changes s t := by
  unfold trapReturn at h
  split at h
  · cases h
  · next he =>
    obtain ⟨s1, h1, h2⟩ := andThen_next h
    cases h2
    have c1 : Changes s s1 := by
      split at h1
      · exact s.changes_hpePop s1 h1
      · cases h1; exact Changes.none _
    refine append c1 (append s1.changes_mretMstatus (append (changes_mretNesting _) ?_))
    exact append (one (.jump s.mepc (by simpa using he))) (one (.tail _))

theorem changes_enterDebug (s : State) (c : BitVec 3) (d : Word) : Changes s (s.enterDebug c d) :=
  append (one (.debug c d)) (one (.run .haltedDebug false (.inr (.inr rfl))))

theorem changes_breakpoint (s t : State) (h : s.breakpoint = .next t) : Changes s t := by
  unfold breakpoint at h
  split at h
  · cases h; exact s.changes_endProgbuf
  · split at h
    · cases h; exact s.changes_enterDebug _ _
    · exact s.changes_takeException t _ h

theorem changes_waitForInterrupt (s : State) : Changes s s.waitForInterrupt := by
  unfold waitForInterrupt
  split
  · exact Changes.none _
  · next hd =>
    have hr : s.run ≠ .haltedDebug := by simpa [inDebug] using hd
    split
    · split
      · exact one (.event false)
      · exact one (.run .sleepingWfe s.sleepDeep (.inl hr))
    · exact one (.run .sleepingWfi s.sleepDeep (.inl hr))

theorem changes_syncMasks (s : State) : Changes s s.syncMasks := by
  refine append (one (.maskCopy s.mie fun _ h => h)) ?_
  refine append (one (.pfic { s.pfic with enableEff := s.pfic.enable } (fun _ => ?_) id id)) (one (.stale []))
  simp [Pfic.Lag]

/-! ### The shared forms of the meanings -/

theorem changes_load (s t : State) (w : Width) (k : LoadKind) (rd : Reg) (ea il : Word) (hi : il.getLsbD 0 = false)
    (h : s.load w k rd ea il = .next t) : Changes s t := by
  unfold load at h
  split at h
  · split at h
    · next v s' hs =>
      cases h
      exact append (s.changes_busRead s' _ _ v hs) (changes_finishReg _ _ _ _ hi)
    · cases h
      refine append s.changes_drawn (append (one (.errors (s.inflight ++ [AccessError.load]) s.dueErrors fun hl => ?_))
        (changes_finishReg _ _ _ _ hi))
      simp only [drawn_inflight, drawn_dueErrors] at hl
      simp only [List.length_append, List.length_singleton]
      omega
    · cases h
  · exact s.changes_takeException t _ h

theorem changes_store (s t : State) (w : Width) (v ea il : Word) (hi : il.getLsbD 0 = false)
    (h : s.store w v ea il = .next t) : Changes s t := by
  unfold store at h
  split at h
  · next ha =>
    split at h
    · next s' hs =>
      cases h
      exact append (s.changes_busWrite s' _ _ v ha hs) (one (.move il hi))
    · cases h
      refine append (one (.errors (s.inflight ++ [AccessError.store]) s.dueErrors fun hl => ?_)) (one (.move il hi))
      simp only [List.length_append, List.length_singleton]
      omega
    · cases h
  · exact s.changes_takeException t _ h

theorem csrRead_done (s : State) (c : Csr) : (s.csrRead c).2 = s ∨ (s.csrRead c).2 = s.drawn := by
  cases c
  case mcause =>
    unfold csrRead
    simp only
    split
    · exact .inl rfl
    · exact .inr rfl
  all_goals exact .inl rfl

theorem changes_csrRead (s : State) (c : Csr) : Changes s (s.csrRead c).2 := by
  rcases s.csrRead_done c with h | h
  · rw [h]
  · rw [h]; exact s.changes_drawn

theorem changes_csrAccess (s t : State) (rd : Reg) (csr : BitVec 12) (w : Bool) (f : Word → Word)
    (h : s.csrAccess rd csr w f = .next t) : Changes s t := by
  unfold csrAccess at h
  split at h
  · exact s.changes_takeException t _ h
  · next c _ =>
    have hr := s.changes_csrRead c
    revert h
    cases hv : s.csrRead c with
    | mk old s1 =>
      rw [hv] at hr
      intro h
      cases h
      refine append hr (append ?_ (changes_finishReg _ _ _ _ (by decide)))
      split
      · exact one (.csr c _)
      · exact Changes.none _

theorem changes_jumpLink (s : State) (rd : Reg) (t il : Word) (h : t.getLsbD 0 = false) : Changes s (s.jumpLink rd t il) :=
  append (one (.reg _ _)) (one (.jump t h))

theorem changes_jumpRel (s : State) (off : Word) (h : off.getLsbD 0 = false) : Changes s (s.jumpTo (s.pc + off)) :=
  one (.move off h)

theorem changes_linkRel (s : State) (rd : Reg) (off il : Word) (h : off.getLsbD 0 = false) :
    Changes s (s.jumpLink rd (s.pc + off) il) := by
  have : s.jumpLink rd (s.pc + off) il = (s.setReg rd (s.pc + il)).advance off := by
    simp [jumpLink, jumpTo, advance]
  rw [this]
  exact append (one (.reg _ _)) (one (.move off h))

end State

/-- An immediate that is a multiple of 2 is even when extended. -/
theorem even_sext {k : Nat} (v : BitVec k) (hk : 0 < k) (h : lowBitsZero 1 v = true) : (sext v).getLsbD 0 = false := by
  have h0 : v.getLsbD 0 = false := by
    simp only [lowBitsZero, decide_eq_true_eq] at h
    simp [BitVec.getLsbD, Nat.testBit_zero]; omega
  rw [sext, BitVec.getLsbD_signExtend, if_pos hk, h0, Bool.and_false]

/-- The offset of a jump or branch is a multiple of 2 (30_encoding.md R126, R127, R132). -/
def evenOffset : Instr → Bool
  | .jal _ imm => lowBitsZero 1 imm
  | .beq _ _ imm | .bne _ _ imm | .blt _ _ imm | .bge _ _ imm | .bltu _ _ imm | .bgeu _ _ imm => lowBitsZero 1 imm
  | .cJal imm | .cJ imm => lowBitsZero 1 imm
  | .cBeqz _ imm | .cBnez _ imm => lowBitsZero 1 imm
  | _ => true

/-- The changes of an instruction that completes. -/
theorem changes_exec (i : Instr) (s t : State) (hw : evenOffset i = true) (h : exec i s = .next t) : Changes s t := by
  cases i <;> simp only [exec] at h
  case fence => exact append (one (.move ilen4 (by decide))) (State.changes_settleErrors _ t h)
  case fenceI =>
    exact append s.changes_syncMasks (append (one (.move ilen4 (by decide))) (State.changes_settleErrors _ t h))
  case ecall => exact s.changes_takeException t _ h
  case ebreak => exact s.changes_breakpoint t h
  case cEbreak => exact s.changes_breakpoint t h
  case mret =>
    obtain ⟨u, h1, h2⟩ := andThen_next h
    exact append (s.changes_trapReturn u h1) (u.changes_settleMret t h2)
  case wfi =>
    exact append (one (.move ilen4 (by decide)))
      (append (State.changes_waitForInterrupt _) (State.changes_settleErrors _ t h))
  case csrrw => exact s.changes_csrAccess t _ _ _ _ h
  case csrrs => exact s.changes_csrAccess t _ _ _ _ h
  case csrrc => exact s.changes_csrAccess t _ _ _ _ h
  case csrrwi => exact s.changes_csrAccess t _ _ _ _ h
  case csrrsi => exact s.changes_csrAccess t _ _ _ _ h
  case csrrci => exact s.changes_csrAccess t _ _ _ _ h
  case jal => cases h; exact s.changes_linkRel _ _ _ (even_sext _ (by omega) hw)
  case jalr => cases h; exact s.changes_jumpLink _ _ _ (State.even_and _ _ (by decide))
  case beq => cases h; exact s.changes_branch _ _ _ (even_sext _ (by omega) hw) (by decide)
  case bne => cases h; exact s.changes_branch _ _ _ (even_sext _ (by omega) hw) (by decide)
  case blt => cases h; exact s.changes_branch _ _ _ (even_sext _ (by omega) hw) (by decide)
  case bge => cases h; exact s.changes_branch _ _ _ (even_sext _ (by omega) hw) (by decide)
  case bltu => cases h; exact s.changes_branch _ _ _ (even_sext _ (by omega) hw) (by decide)
  case bgeu => cases h; exact s.changes_branch _ _ _ (even_sext _ (by omega) hw) (by decide)
  case cJal => cases h; exact s.changes_linkRel _ _ _ (even_sext _ (by omega) hw)
  case cJ => cases h; exact s.changes_jumpRel _ (even_sext _ (by omega) hw)
  case cJr => cases h; exact one (.jump _ (State.even_and _ _ (by decide)))
  case cJalr => cases h; exact s.changes_jumpLink _ _ _ (State.even_and _ _ (by decide))
  case cBeqz => cases h; exact s.changes_branch _ _ _ (even_sext _ (by omega) hw) (by decide)
  case cBnez => cases h; exact s.changes_branch _ _ _ (even_sext _ (by omega) hw) (by decide)
  case cNop => cases h; exact one (.move ilen2 (by decide))
  all_goals first
    | (cases h; exact s.changes_finishReg _ _ _ (by decide))
    | exact s.changes_load t _ _ _ _ _ (by decide) h
    | exact s.changes_store t _ _ _ _ (by decide) h

end Sys2Proof.Machine
end

