-- ==== Sys2Proof/Laws/Cycle.lean ====
section
/-!
SUPPORT. The changes of a whole step: the inputs, the boundary, the instruction that runs.
-/

namespace Sys2Proof

/-! ### Decoding gives even offsets -/

theorem rowRd_ok {w : BitVec 32} {mk : Reg → Instr} {i : Instr} (h : rowRd w mk = .ok i) : ∃ d, i = mk d := by
  unfold rowRd at h; split at h <;> cases h; exact ⟨_, rfl⟩

theorem rowRdRs1_ok {w : BitVec 32} {mk : Reg → Reg → Instr} {i : Instr} (h : rowRdRs1 w mk = .ok i) :
    ∃ d a, i = mk d a := by
  unfold rowRdRs1 at h; split at h <;> cases h; exact ⟨_, _, rfl⟩

theorem rowRs1Rs2_ok {w : BitVec 32} {mk : Reg → Reg → Instr} {i : Instr} (h : rowRs1Rs2 w mk = .ok i) :
    ∃ a b, i = mk a b := by
  unfold rowRs1Rs2 at h; split at h <;> cases h; exact ⟨_, _, rfl⟩

theorem rowRdRs1Rs2_ok {w : BitVec 32} {mk : Reg → Reg → Reg → Instr} {i : Instr} (h : rowRdRs1Rs2 w mk = .ok i) :
    ∃ d a b, i = mk d a b := by
  unfold rowRdRs1Rs2 at h; split at h <;> cases h; exact ⟨_, _, _, rfl⟩

theorem rowC1_ok {p : Parcel} {mk : Reg → Instr} {i : Instr} (h : rowC1 p mk = .ok i) :
    ∃ d, reg5 (field p 7 5) = .ok d ∧ i = mk d := by
  unfold rowC1 at h
  split at h
  · next d hd => cases h; exact ⟨d, hd, rfl⟩
  · cases h

theorem rowC2_ok {p : Parcel} {mk : Reg → Reg → Instr} {i : Instr} (h : rowC2 p mk = .ok i) :
    ∃ a b, reg5 (field p 7 5) = .ok a ∧ reg5 (field p 2 5) = .ok b ∧ i = mk a b := by
  unfold rowC2 at h
  split at h
  · next a b ha hb => cases h; exact ⟨a, b, ha, hb, rfl⟩
  · cases h

theorem lowBitsZero_append {n k : Nat} (v : BitVec n) : lowBitsZero k (v ++ 0#k) = true := by
  simp [lowBitsZero, BitVec.toNat_append, Nat.shiftLeft_eq]

theorem immB_even (w : BitVec 32) : lowBitsZero 1 (immB w) = true := lowBitsZero_append _
theorem immJ_even (w : BitVec 32) : lowBitsZero 1 (immJ w) = true := lowBitsZero_append _
theorem cImmJ_even (h : Parcel) : lowBitsZero 1 (cImmJ h) = true := lowBitsZero_append _
theorem cImmB_even (h : Parcel) : lowBitsZero 1 (cImmB h) = true := lowBitsZero_append _

end Sys2Proof

namespace Sys2Proof.Machine

theorem evenOffset_branch (w : BitVec 32) (i : Instr) (h : decodeBranch w = .ok i) : evenOffset i = true := by
  unfold decodeBranch at h
  split at h
  all_goals first
    | (obtain ⟨_, _, rfl⟩ := rowRs1Rs2_ok h; exact immB_even w)
    | cases h

theorem evenOffset_load (w : BitVec 32) (i : Instr) (h : decodeLoad w = .ok i) : evenOffset i = true := by
  unfold decodeLoad at h
  split at h
  all_goals first
    | (obtain ⟨_, _, rfl⟩ := rowRdRs1_ok h; rfl)
    | cases h

theorem evenOffset_store (w : BitVec 32) (i : Instr) (h : decodeStore w = .ok i) : evenOffset i = true := by
  unfold decodeStore at h
  split at h
  all_goals first
    | (obtain ⟨_, _, rfl⟩ := rowRs1Rs2_ok h; rfl)
    | cases h

theorem evenOffset_opImm (w : BitVec 32) (i : Instr) (h : decodeOpImm w = .ok i) : evenOffset i = true := by
  unfold decodeOpImm at h
  repeat' (split at h)
  all_goals first
    | (obtain ⟨_, _, rfl⟩ := rowRdRs1_ok h; rfl)
    | cases h

theorem evenOffset_op (isa : Isa) (w : BitVec 32) (i : Instr) (h : decodeOp isa w = .ok i) : evenOffset i = true := by
  unfold decodeOp at h
  repeat' (split at h)
  all_goals first
    | (obtain ⟨_, _, _, rfl⟩ := rowRdRs1Rs2_ok h; rfl)
    | cases h

theorem evenOffset_miscMem (w : BitVec 32) (i : Instr) (h : decodeMiscMem w = .ok i) : evenOffset i = true := by
  unfold decodeMiscMem at h
  split at h <;> cases h <;> rfl

theorem evenOffset_system (w : BitVec 32) (i : Instr) (h : decodeSystem w = .ok i) : evenOffset i = true := by
  unfold decodeSystem at h
  repeat' (split at h)
  all_goals first
    | (obtain ⟨_, _, rfl⟩ := rowRdRs1_ok h; rfl)
    | (obtain ⟨_, rfl⟩ := rowRd_ok h; rfl)
    | (cases h; rfl)
    | cases h

theorem evenOffset_decode32 (isa : Isa) (w : BitVec 32) (i : Instr) (h : decode32 isa w = .ok i) :
    evenOffset i = true := by
  unfold decode32 at h
  split at h
  case h_3 => obtain ⟨_, rfl⟩ := rowRd_ok h; exact immJ_even w
  case h_4 =>
    split at h
    · obtain ⟨_, _, rfl⟩ := rowRdRs1_ok h; rfl
    · cases h
  case h_5 => exact evenOffset_branch w i h
  case h_6 => exact evenOffset_load w i h
  case h_7 => exact evenOffset_store w i h
  case h_8 => exact evenOffset_opImm w i h
  case h_9 => exact evenOffset_op isa w i h
  case h_10 => exact evenOffset_miscMem w i h
  case h_11 => exact evenOffset_system w i h
  case h_12 => cases h
  all_goals (obtain ⟨_, rfl⟩ := rowRd_ok h; rfl)

theorem evenOffset_toInstr (f : XwForm) : evenOffset f.toInstr = true := by
  unfold XwForm.toInstr; split <;> rfl

theorem evenOffset_xw (isa : Isa) (p : Parcel) (i : Instr) (h : decodeXw isa p = .ok i) : evenOffset i = true := by
  unfold decodeXw at h
  split at h
  · split at h
    · cases h
    · split at h
      · next j hx =>
        cases h
        simp only [xwLookup, Option.map_eq_some_iff] at hx
        obtain ⟨e, -, rfl⟩ := hx
        exact evenOffset_toInstr e.2
      · cases h
  · cases h

theorem evenOffset_quadrants (p : Parcel) (i : Instr) (h : decodeQ0 p = .ok i ∨ decodeQ1 p = .ok i ∨ decodeQ2 p = .ok i) :
    evenOffset i = true := by
  unfold decodeQ0 decodeQ1 decodeQ1Alu decodeQ2 at h
  rcases h with h | h | h
  all_goals
    repeat' (split at h)
    all_goals first
      | (obtain ⟨_, _, rfl⟩ := rowC1_ok h; rfl)
      | (obtain ⟨_, _, _, _, rfl⟩ := rowC2_ok h; rfl)
      | (cases h; first | rfl | exact cImmJ_even p | exact cImmB_even p)
      | cases h

theorem evenOffset_decode16 (isa : Isa) (p : Parcel) (i : Instr) (h : decode16 isa p = .ok i) : evenOffset i = true := by
  unfold decode16 at h
  split at h
  · cases h
  · split at h
    · exact evenOffset_xw isa p i h
    · split at h
      · exact evenOffset_quadrants p i (.inl h)
      · exact evenOffset_quadrants p i (.inr (.inl h))
      · exact evenOffset_quadrants p i (.inr (.inr h))

/-- Every jump or branch that decodes has an even offset (30_encoding.md R126, R127, R132). -/
theorem evenOffset_decode (isa : Isa) (ps rest : List Parcel) (i : Instr) (h : decode isa ps = .ok (i, rest)) :
    evenOffset i = true := by
  have map_ok : ∀ (d : Decoded) (r : List Parcel), d.map (fun j => (j, r)) = .ok (i, rest) → d = .ok i := by
    intro d r hd
    cases d <;> cases hd
    rfl
  unfold decode at h
  split at h
  · cases h
  · split at h
    · cases h
    · split at h
      · split at h
        · cases h
        · exact evenOffset_decode32 isa _ _ (map_ok _ _ h)
      · exact evenOffset_decode16 isa _ _ (map_ok _ _ h)

open Changes (append one)

namespace State

/-! ### Inputs -/

theorem changes_hostGets (s : State) (v : Word) : Changes s (s.hostGets v) := one (.dm _ id)

theorem changes_busyError (s : State) : Changes s s.busyError := s.changes_setCmder _

theorem changes_busyGets (s : State) (c : Bool) (v : Word) :
    Changes s ((if c then s.busyError else s).hostGets v) := by
  cases c
  · exact s.changes_hostGets v
  · exact append s.changes_busyError (changes_hostGets _ v)

theorem changes_hostRead (s : State) (a : BitVec 7) : Changes s (s.hostRead a) := by
  unfold hostRead
  split
  · exact s.changes_busyGets _ _
  · exact s.changes_busyGets _ _
  · exact append s.changes_drawn (changes_hostGets _ _)
  · exact s.changes_hostGets _
  · exact s.changes_hostGets _
  · exact s.changes_hostGets _
  · exact s.changes_busyGets _ _
  · exact s.changes_hostGets _
  · exact append s.changes_drawn (changes_hostGets _ _)
  · exact append s.changes_drawn (changes_hostGets _ _)

theorem changes_narrowed (s : State) (size : BitVec 3) (v : Word) : Changes s (s.narrowed size v).2 := by
  unfold narrowed
  split
  · exact Changes.none _
  · exact s.changes_drawn

theorem narrowed_run (s : State) (size : BitVec 3) (v : Word) : (s.narrowed size v).2.run = s.run := by
  unfold narrowed
  split <;> rfl

/-- An abstract transfer leaves the run state alone. -/
theorem changes_abstractTransfer (s t : State) (cmd : Word) (h : s.abstractTransfer cmd = .next (some t)) :
    Changes s t ∧ t.run = s.run := by
  unfold abstractTransfer at h
  simp only at h
  split at h
  · split at h
    · cases h
    · next c _ =>
      split at h
      all_goals simp only [Host.Outcome.next.injEq, Option.some.injEq] at h
      · subst h
        refine ⟨append (s.changes_narrowed _ _) (one (.csr c _)), ?_⟩
        exact Eq.trans (by cases c <;> rfl) (s.narrowed_run (cmd.extractLsb' 20 3) s.dm.data0)
      · subst h
        refine ⟨append (s.changes_csrRead c) (append (changes_narrowed _ _ _) (one (.dm _ id))), ?_⟩
        refine (narrowed_run _ _ _).trans ?_
        rcases s.csrRead_done c with h | h <;> rw [h] <;> rfl
  · split at h
    · split at h
      all_goals simp only [Host.Outcome.next.injEq, Option.some.injEq] at h
      · subst h
        exact ⟨append (s.changes_narrowed _ _) (one (.reg _ _)), (setReg_run _ _ _).trans (narrowed_run _ _ _)⟩
      · subst h
        exact ⟨append (s.changes_narrowed _ _) (one (.dm _ id)), s.narrowed_run _ _⟩
    · cases h

theorem changes_postincrement (s : State) (cmd : Word) : Changes s (s.postincrement cmd) := by
  unfold postincrement
  split
  · exact one (.dm _ id)
  · exact Changes.none _

theorem changes_runCommand (s t : State) (cmd : Word) (hd : s.inDebug = true) (h : s.runCommand cmd = .next t) :
    Changes s t := by
  have c0 : Changes s { s with dm := { s.dm with command := cmd } } := one (.dm _ id)
  unfold runCommand at h
  simp only at h
  split at h
  · cases h; exact append c0 (changes_setCmder _ _)
  · obtain ⟨o, h1, h2⟩ := andThen_next h
    split at h2
    · cases h2; exact append c0 (changes_setCmder _ _)
    · next s1 =>
      have c1 : Changes s s1 ∧ s1.run = s.run := by
        split at h1
        · have := changes_abstractTransfer { s with dm := { s.dm with command := cmd } } s1 cmd h1
          exact ⟨append c0 this.1, this.2⟩
        · cases h1; exact ⟨c0, rfl⟩
      have c2 := append c1.1 (s1.changes_postincrement cmd)
      have hr : (s1.postincrement cmd).run = s.run := by
        rw [← c1.2]; unfold postincrement; split <;> rfl
      cases h2
      split
      · exact append c2 (one (.progbuf (by simpa [inDebug, hr] using hd)))
      · exact c2

theorem changes_resetEntry (s : State) : Changes s s.resetEntry := by
  unfold resetEntry
  split
  · exact s.changes_enterDebug _ _
  · exact Changes.none _

theorem changes_resume (s t : State) (h : s.resume = .next t) : Changes s t := by
  unfold resume at h
  split at h
  · next hd =>
    simp only [Bool.and_eq_true, Bool.not_eq_true'] at hd
    split at h
    · cases h
    · split at h
      · cases h
      · next he =>
        cases h
        refine append (one (.dm { s.dm with resumeack := true } id)) ?_
        refine append (one (.run .running s.deepSleep (.inr (.inl hd.2)))) ?_
        exact one (.jump s.dpc (by simpa using he))
  · cases h; exact Changes.none _

theorem changes_releaseReset (s : State) : Changes s s.releaseReset :=
  append (one (.dm { s.dm with ndmreset := false } id)) (changes_resetEntry _)

theorem changes_writeNdmreset (s : State) (v : Word) : Changes s (s.writeNdmreset v) := by
  have key : ∀ s1 : State, Changes s s1 →
      Changes s (if v.getLsbD 1 then { s1.systemReset with dm := { s1.systemReset.dm with ndmreset := true } }
        else if s1.dm.ndmreset then s1.releaseReset else s1) := by
    intro s1 c1
    split
    · exact append c1 (append (one .systemReset) (one (.dm { s1.systemReset.dm with ndmreset := true } id)))
    · split
      · exact append c1 s1.changes_releaseReset
      · exact c1
  unfold writeNdmreset
  apply key
  split
  · exact one (.dm _ id)
  · exact Changes.none _

theorem changes_writeDmcontrol (s t : State) (v : Word) (h : s.writeDmcontrol v = .next t) : Changes s t := by
  unfold writeDmcontrol at h
  split at h
  · have c : Changes s ({ s with dm := { s.dm with dmactive := true, haltreq := v.getLsbD 31 } } : State) :=
      one (.dm _ id)
    simp only at h
    split at h
    · exact append (append c (changes_writeNdmreset _ v)) (changes_resume _ t h)
    · cases h; exact append c (changes_writeNdmreset _ v)
  · cases h
    split
    · exact append s.changes_releaseReset (one (.dm _ (by simp [DebugModule.reset])))
    · exact one (.dm _ (by simp [DebugModule.reset]))

theorem changes_writeCommand (s t : State) (v : Word) (h : s.writeCommand v = .next t) : Changes s t := by
  unfold writeCommand at h
  split at h
  · cases h; exact s.changes_busyError
  · split at h
    · next hd => exact s.changes_runCommand t v hd h
    · cases h; exact s.changes_setCmder _

theorem changes_hostWrite (s t : State) (a : BitVec 7) (v : Word) (h : s.hostWrite a v = .next t) : Changes s t := by
  unfold hostWrite at h
  split at h
  · exact s.changes_writeDmcontrol t v h
  · split at h
    · split at h
      case h_4 => exact s.changes_writeCommand t v h
      all_goals
        cases h
        first
          | exact Changes.none _
          | (split
             · exact s.changes_busyError
             · exact one (.dm _ id))
    · cases h; exact Changes.none _

theorem changes_tick (s : State) : Changes s s.tick := by
  unfold tick
  split
  · exact changes_note _ _ _ (one (.stk (s.stk.ticked s.cfg.stkReloadAfterMatch) id))
  · exact Changes.none _

theorem changes_applyEvent (s t : State) (e : Event) (h : s.applyEvent e = .next t) : Changes s t := by
  cases e <;> simp only [applyEvent] at h
  case tick => cases h; exact s.changes_tick
  case setRequest n level =>
    cases h
    exact changes_note _ _ _ (one (.pfic _ id id id))
  case extEvent => cases h; exact one (.event true)
  case takeError =>
    cases h
    exact one (.errors s.inflight _ fun _ => Nat.min_le_left _ _)
  case syncEnable n =>
    cases h
    refine one (.pfic _ (fun hl => ?_) id id)
    unfold Pfic.Lag at *
    apply BitVec.eq_of_getLsbD_eq
    intro i hi
    have := congrArg (fun b => b.getLsbD i) hl
    simp at this ⊢
    grind
  case syncMie =>
    cases h
    exact one (.maskCopy (s.mieEff && s.mie) fun hk hm => by simp [hk hm, hm])
  case hostWrite a v => exact s.changes_hostWrite t a v h
  case hostRead a => cases h; exact s.changes_hostRead a
  case sdiParityError => cases h; exact s.changes_setCmder _
  case powerReset => cases h; exact append (one .powerReset) (changes_resetEntry _)
  case haltOnReset b => cases h; exact one (.haltOnReset b)

theorem changes_applyEvents (l : List Event) (s t : State) (h : applyEvents l s = .next t) : Changes s t := by
  induction l generalizing s with
  | nil => cases h; exact Changes.none _
  | cons e rest ih =>
    obtain ⟨s1, h1, h2⟩ := andThen_next h
    exact append (s.changes_applyEvent s1 e h1) (ih s1 h2)

theorem changes_applyInputs (s t : State) (h : s.applyInputs = .next t) : Changes s t := by
  unfold applyInputs at h
  split at h
  · cases h; exact Changes.none _
  · next es rest hs => exact append (one (.schedule rest)) (changes_applyEvents _ _ t h)

/-! ### The instruction -/

theorem changes_stepDone (s t : State) : Changes t (s.stepDone t) := by
  unfold stepDone
  split
  · exact t.changes_enterDebug _ _
  · exact Changes.none _

theorem changes_executeParcels (s t : State) (ps : List Parcel) (h : s.executeParcels ps = .next t) : Changes s t := by
  unfold executeParcels at h
  split at h
  · next i rest hd => exact changes_exec i s t (evenOffset_decode _ _ _ _ hd) h
  · cases h
  · exact s.changes_takeException t _ h

theorem changes_fetch (s s1 : State) (a : Word) (p : Parcel) (h : s.fetch a = some (p, s1)) : Changes s s1 := by
  unfold fetch fetchParcel at h
  split at h
  · split at h
    · cases h; exact Changes.none _
    · cases h; exact s.changes_drawn
  · cases h

theorem changes_runInstruction (s t : State) (h : s.runInstruction = .next t) : Changes s t := by
  unfold runInstruction at h
  split at h
  · cases h
  · split at h
    · exact s.changes_takeException t _ h
    · next p s1 h1 =>
      have c1 := s.changes_fetch s1 _ p h1
      split at h
      · split at h
        · cases h
        · split at h
          · exact append c1 (s1.changes_takeException t _ h)
          · next q s2 h2 => exact append c1 (append (s1.changes_fetch s2 _ q h2) (s2.changes_executeParcels t _ h))
      · exact append c1 (s1.changes_executeParcels t _ h)

theorem changes_runProgbuf (s t : State) (h : s.runProgbuf = .next t) : Changes s t := by
  unfold runProgbuf at h
  simp only at h
  split at h
  · cases h
  · split at h
    · cases h; exact s.changes_endProgbuf
    · split at h
      · cases h
      · split at h
        · split at h
          · cases h
          · exact s.changes_executeParcels t _ h
        · exact s.changes_executeParcels t _ h

/-! ### The boundary -/

theorem changes_takeInterrupt (s t : State) (b : Bool) (n : Irq) (hd : s.inDebug = false)
    (h : s.takeInterrupt b n = .next t) : Changes s t := by
  unfold takeInterrupt at h
  obtain ⟨s1, h1, h2⟩ := andThen_next h
  have c0 : Changes s (s.clearLatchOnEntry n) ∧ (s.clearLatchOnEntry n).inDebug = false := by
    unfold clearLatchOnEntry
    split
    · exact ⟨one (.pfic _ id id id), hd⟩
    · exact ⟨Changes.none _, hd⟩
  have c1 := append c0.1 (changes_enterTrap _ s1 _ _ _ c0.2 h1)
  cases h2
  split
  · exact append c1 s1.changes_freeHpeRegs
  · exact c1

theorem changes_boundaryTrap (s t : State) (b : Bool) (r : Res State) (hd : s.inDebug = false)
    (hr : s.boundaryTrap b = some r) (h : r = .next t) : Changes s t := by
  unfold boundaryTrap at hr
  split at hr
  · cases hr; exact s.changes_takeInterrupt t _ _ hd h
  · split at hr
    · cases hr; exact s.changes_takeAccessError t h
    · split at hr
      · cases hr
      · simp only [Option.map_eq_some_iff] at hr
        obtain ⟨n, -, rfl⟩ := hr
        exact s.changes_takeInterrupt t _ n hd h

theorem changes_wake (s : State) (hd : s.inDebug = false) : Changes s s.wake :=
  one (.run .running false (.inl (by simpa [inDebug] using hd)))

theorem changes_stayAsleep (s : State) (hd : s.inDebug = false) : Changes s s.stayAsleep := by
  unfold stayAsleep
  split
  · split
    · exact append s.changes_drawn (changes_wake _ hd)
    · exact s.changes_drawn
  · exact Changes.none _

theorem changes_runOrSleep (s t : State) (hd : s.inDebug = false) (h : s.runOrSleep = .next t) : Changes s t := by
  unfold runOrSleep at h
  split at h
  · obtain ⟨s1, h1, h2⟩ := andThen_next h
    cases h2
    exact append (s.changes_runInstruction s1 h1) (s.changes_stepDone s1)
  · cases h; exact s.changes_stayAsleep hd
  · split at h
    · cases h; exact append (one (.event false)) (changes_wake _ hd)
    · cases h; exact s.changes_stayAsleep hd
  · cases h; exact Changes.none _

theorem changes_hartBoundary (s t : State) (b : Bool) (hd : s.inDebug = false) (h : s.hartBoundary b = .next t) :
    Changes s t := by
  unfold hartBoundary at h
  split at h
  · cases h; exact s.changes_enterDebug _ _
  · split at h
    · cases h
    · split at h
      · next r hr => exact s.changes_boundaryTrap t b r hd hr h
      · exact s.changes_runOrSleep t hd h

theorem changes_progbufBoundary (s t : State) (h : s.progbufBoundary = .next t) : Changes s t := by
  unfold progbufBoundary at h
  split at h
  · cases h
  · split at h
    · exact s.changes_takeAccessError t h
    · exact s.changes_runProgbuf t h

theorem changes_boundary (s t : State) (h : s.boundary = .next t) : Changes s t := by
  unfold boundary at h
  split at h
  · cases h; exact append (one .systemReset) (changes_resetEntry _)
  · split at h
    · cases h; exact Changes.none _
    · split at h
      · split at h
        · exact s.changes_progbufBoundary t h
        · cases h; exact Changes.none _
      · next hd =>
        have hd : s.inDebug = false := by simpa using hd
        exact append (one (.tail false)) (changes_hartBoundary _ t _ hd h)

end State

/-- A step is a sequence of changes. -/
theorem changes_step (s t : State) (h : step s = .next t) : Changes s t := by
  obtain ⟨s1, h1, h2⟩ := andThen_next h
  exact append (s.changes_applyInputs s1 h1) (s1.changes_boundary t h2)

end Sys2Proof.Machine
end

