-- ==== Sys2Proof/Laws/Devices.lean ====
section
/-!
SUPPORT. The device windows, the debug host's access to registers and the boundary, each as one equation.
-/

namespace Sys2Proof.Machine

/-- The bits of `groupBits` (61_pfic.md R422). -/
theorem groupBits_getLsbD (x : Fin 8) (v : Word) (n : Nat) (hn : n < 256) :
    (groupBits x v).getLsbD n = (decide (n / 32 = x.val) && v.getLsbD (n % 32)) := by
  unfold groupBits
  rw [BitVec.getLsbD_shiftLeft, BitVec.getLsbD_setWidth]
  by_cases h : n < 32 * x.val
  · have : n / 32 ≠ x.val := by omega
    simp [h, this]
  · simp only [hn, h]
    by_cases h2 : n / 32 = x.val
    · have : n - 32 * x.val = n % 32 := by omega
      simp [this, h2]; intro _; omega
    · have : 32 ≤ n - 32 * x.val := by omega
      simp [h2, BitVec.getLsbD_of_ge v _ this]

/-- The register number of an abstract command (64_debug.md R531). -/
theorem gpr_index (n : Nat) (r : Reg) (p : n - 0x1000 < 16) (h : n = 0x1000 + r.val) : (⟨n - 0x1000, p⟩ : Reg) = r := by
  subst h
  exact Fin.ext (Nat.add_sub_cancel_left ..)

namespace State

/-- What `noteNewPending` can change is `event`. -/
theorem noteNewPending_eq (old s : State) : ∃ b, noteNewPending old s = { s with event := b } := by
  unfold noteNewPending
  split
  · exact ⟨true, rfl⟩
  · exact ⟨s.event, rfl⟩

/-- A word store to a device register of the core's windows. -/
theorem store_device (s : State) (v a il : Word) (r : DevReg) (hw : inCoreWindow a.toNat = true)
    (ha : isAligned .word a = true) (hp : isIprior a.toNat = false) (hr : devReg a.toNat = r) :
    s.store .word v a il =
      match s.devStore r v with
      | .done t => .next (t.advance il)
      | .accessError => s.storeFailed il
      | .refused e => .refused e := by
  unfold store busWrite windowStore
  rw [if_pos ha, if_pos hw, hp, hr]
  simp
  all_goals (cases s.devStore r v <;> rfl)

/-- A word load from a device register of the core's windows. -/
theorem load_device (s : State) (k : LoadKind) (rd : Reg) (a il : Word) (r : DevReg) (hw : inCoreWindow a.toNat = true)
    (ha : isAligned .word a = true) (hp : isIprior a.toNat = false) (hr : devReg a.toNat = r) :
    s.load .word k rd a il = .next ((s.devLoad r).2.finishReg rd (s.devLoad r).1 il) := by
  unfold load busRead windowLoad
  rw [if_pos ha, if_pos hw, hp, hr]
  cases k <;> simp [extendLoad]

/-- The abstract access to a general register (64_debug.md R531). -/
theorem abstractTransfer_gpr (s : State) (cmd : Word) (r : Reg) (h : (cmd.extractLsb' 0 16).toNat = 0x1000 + r.val) :
    s.abstractTransfer cmd =
      if cmd.getLsbD 16 then
        .next
          (some ((s.narrowed (cmd.extractLsb' 20 3) s.dm.data0).2.setReg r
            (s.narrowed (cmd.extractLsb' 20 3) s.dm.data0).1))
      else
        .next
          (some
            { (s.narrowed (cmd.extractLsb' 20 3) (s.reg r)).2 with
              dm :=
                { (s.narrowed (cmd.extractLsb' 20 3) (s.reg r)).2.dm with
                  data0 := (s.narrowed (cmd.extractLsb' 20 3) (s.reg r)).1 } }) := by
  have hlt := r.isLt
  unfold abstractTransfer
  simp only
  rw [if_neg (by omega), dif_pos (by omega)]
  have hr : ∀ p, (⟨(cmd.extractLsb' 0 16).toNat - 0x1000, p⟩ : Reg) = r := fun p => gpr_index _ r p h
  simp only [hr]

/-- A step at a boundary takes the trap that is to be taken there, or else runs or sleeps. -/
theorem step_atBoundary (s : State) (h : s.AtBoundary) :
    step s =
      match ({ s with tailPop := false } : State).boundaryTrap s.tailPop with
      | some r => r
      | none => ({ s with tailPop := false } : State).runOrSleep := by
  unfold step cycle
  have ha : s.applyInputs = .next s := by unfold applyInputs; rw [h.noInput]
  rw [ha]
  simp only [andThen_of_next]
  unfold boundary
  rw [if_neg (by rw [h.noReset]; simp), if_neg (by rw [h.notHeld]; simp), if_neg (by rw [h.notDebug]; simp)]
  unfold hartBoundary
  have h2 : ({ s with tailPop := false } : State).dm.haltreq = false := h.noHalt
  have h3 : ({ s with tailPop := false } : State).eabien = false := h.noEabi
  rw [if_neg (by rw [h2]; simp), if_neg (by rw [h3]; simp)]
  all_goals (cases ({ s with tailPop := false } : State).boundaryTrap s.tailPop <;> rfl)

/-- A parcel that can be fetched and that no store has touched is fetched as memory holds it (20_memory.md R88). -/
theorem fetch_fetchable (s : State) (a : Word) (h : s.Fetchable a) : s.fetch a = some (s.parcelAt a, s) := by
  unfold fetch fetchParcel
  rw [if_pos (by simp [allBytes, h.lo, h.hi]), if_pos h.fresh]
  rfl

/-- With no access error in flight nothing is settled. -/
theorem settleErrors_none (s : State) (h : s.inflight = []) : s.settleErrors = .next s := by
  unfold settleErrors
  rw [if_pos (by simp [h])]

/-- With access errors in flight the first is taken, and those behind it are due (60_exceptions.md R358). -/
theorem settleErrors_cons (s : State) (e : AccessError) (rest : List AccessError) (h : s.inflight = e :: rest)
    (hd : s.inDebug = false) :
    s.settleErrors =
      ({ s with inflight := rest, dueErrors := rest.length } : State).enterTrap .exc (accessErrorCode e) s.pc := by
  have hn : s.inflight.isEmpty = false := by rw [h]; rfl
  have hx : ({ s with dueErrors := s.inflight.length } : State).inDebug = false := hd
  unfold settleErrors takeAccessError
  rw [hn, hx, h]
  rfl

/-- In Debug mode the access errors in flight end the program buffer together (64_debug.md R535). -/
theorem settleErrors_debug (s : State) (h : s.inflight ≠ []) (hd : s.inDebug = true) :
    s.settleErrors = .next ({ s with inflight := [], dueErrors := 0 } : State).progbufException := by
  obtain ⟨e, rest, hl⟩ := List.exists_cons_of_ne_nil h
  have hn : s.inflight.isEmpty = false := by rw [hl]; rfl
  have hx : ({ s with dueErrors := s.inflight.length } : State).inDebug = true := hd
  unfold settleErrors takeAccessError
  rw [hn, hx, hl]
  simp

/-- With no access error in flight the end of `mret` takes none. -/
theorem settleMret_none (s : State) (h : s.inflight = []) : s.settleMret = .next s := by
  unfold settleMret
  rw [if_pos (by simp [h])]

end State

end Sys2Proof.Machine
end

