-- ==== Sys2Proof/Laws/PerInstr.lean ====
section
/-!
SUPPORT. The per-instruction family `LengthCode`: the first parcel of an instruction's encoding announces its length
(30_encoding.md R120).
-/

namespace Sys2Proof.Laws

/-- The low bits of the first parcel tell how many parcels the encoding has: two, or one (30_encoding.md R120). -/
def LengthCode.Statement (i : Instr) : Prop :=
  ∀ (isa : Isa) (p : Parcel) (rest : List Parcel), encode isa i = p :: rest →
    isLong p = false ∧ isWide p = decide (rest.length = 1) ∧ rest.length ≤ 1

namespace LengthCode

/-- A word whose major opcode ends in 11 and is no longer encoding. -/
theorem of_wide (w : BitVec 32) (c : BitVec 7) (hc : field w 0 7 = c) (h2 : field c 0 2 = 3#2) (h3 : field c 2 3 ≠ 7#3)
    (p : Parcel) (rest : List Parcel) (h : wide w = p :: rest) :
    isLong p = false ∧ isWide p = decide (rest.length = 1) ∧ rest.length ≤ 1 := by
  have a : field (field w 0 16) 0 2 = 3#2 := by
    rw [field_low_parcel w 0 2 (by omega), ← field_opcode w 0 2 (by omega), hc]; exact h2
  have b : field (field w 0 16) 2 3 ≠ 7#3 := by
    rw [field_low_parcel w 2 3 (by omega), ← field_opcode w 2 3 (by omega), hc]; exact h3
  simp only [wide, List.cons.injEq] at h
  obtain ⟨rfl, rfl⟩ := h
  generalize field w 0 16 = q at *
  have b' : (field q 2 3 == 7#3) = false := by simpa using b
  simp [isLong, isWide, a, b', bne]

/-- A parcel that does not end in 11. -/
theorem of_narrow (q : Parcel) (hq : field q 0 2 ≠ 3#2) (p : Parcel) (rest : List Parcel) (h : [q] = p :: rest) :
    isLong p = false ∧ isWide p = decide (rest.length = 1) ∧ rest.length ≤ 1 := by
  simp only [List.cons.injEq] at h
  obtain ⟨rfl, rfl⟩ := h
  have b : (field q 0 2 == 3#2) = false := by simpa using hq
  simp [isLong, isWide, b]

/-- The lowest field of a concatenation. -/
theorem field_append_low {n k : Nat} (a : BitVec n) (b : BitVec k) : field (a ++ b) 0 k = b := by
  apply BitVec.eq_of_getLsbD_eq; intro i hi
  simp only [BitVec.getLsbD_extractLsb', BitVec.getLsbD_append]
  grind

/-- A candidate word of XW does not end in 11 (30_encoding.md R144). -/
theorem of_xw (isa : Isa) (i : Instr) (p : Parcel) (rest : List Parcel) (h : (xwWord isa i).toList = p :: rest) :
    isLong p = false ∧ isWide p = decide (rest.length = 1) ∧ rest.length ≤ 1 := by
  cases hw : xwWord isa i with
  | none => rw [hw] at h; cases h
  | some q =>
    rw [hw] at h
    refine of_narrow q ?_ p rest h
    unfold xwWord at hw
    split at hw
    · split at hw
      · cases hw
      · simp only [Option.map_eq_some_iff] at hw
        obtain ⟨e, he, rfl⟩ := hw
        have hc := List.find?_some he
        simp only [Bool.and_eq_true] at hc
        intro hq
        have := hc.1
        simp [xwCandidate, hq] at this
    · cases hw

theorem lui (rd : Reg) (imm : BitVec 20) : Statement (.lui rd imm) :=
  fun _ => of_wide _ _ (encU_field_0 ..) (by decide) (by decide)
theorem auipc (rd : Reg) (imm : BitVec 20) : Statement (.auipc rd imm) :=
  fun _ => of_wide _ _ (encU_field_0 ..) (by decide) (by decide)
theorem addi (rd rs1 : Reg) (imm : BitVec 12) : Statement (.addi rd rs1 imm) :=
  fun _ => of_wide _ _ (encI_field_0 ..) (by decide) (by decide)
theorem slti (rd rs1 : Reg) (imm : BitVec 12) : Statement (.slti rd rs1 imm) :=
  fun _ => of_wide _ _ (encI_field_0 ..) (by decide) (by decide)
theorem sltiu (rd rs1 : Reg) (imm : BitVec 12) : Statement (.sltiu rd rs1 imm) :=
  fun _ => of_wide _ _ (encI_field_0 ..) (by decide) (by decide)
theorem xori (rd rs1 : Reg) (imm : BitVec 12) : Statement (.xori rd rs1 imm) :=
  fun _ => of_wide _ _ (encI_field_0 ..) (by decide) (by decide)
theorem ori (rd rs1 : Reg) (imm : BitVec 12) : Statement (.ori rd rs1 imm) :=
  fun _ => of_wide _ _ (encI_field_0 ..) (by decide) (by decide)
theorem andi (rd rs1 : Reg) (imm : BitVec 12) : Statement (.andi rd rs1 imm) :=
  fun _ => of_wide _ _ (encI_field_0 ..) (by decide) (by decide)
theorem slli (rd rs1 : Reg) (shamt : BitVec 5) : Statement (.slli rd rs1 shamt) :=
  fun _ => of_wide _ _ (encI_field_0 ..) (by decide) (by decide)
theorem srli (rd rs1 : Reg) (shamt : BitVec 5) : Statement (.srli rd rs1 shamt) :=
  fun _ => of_wide _ _ (encI_field_0 ..) (by decide) (by decide)
theorem srai (rd rs1 : Reg) (shamt : BitVec 5) : Statement (.srai rd rs1 shamt) :=
  fun _ => of_wide _ _ (encI_field_0 ..) (by decide) (by decide)
theorem add (rd rs1 rs2 : Reg) : Statement (.add rd rs1 rs2) :=
  fun _ => of_wide _ _ (encR_field_0 ..) (by decide) (by decide)
theorem sub (rd rs1 rs2 : Reg) : Statement (.sub rd rs1 rs2) :=
  fun _ => of_wide _ _ (encR_field_0 ..) (by decide) (by decide)
theorem sll (rd rs1 rs2 : Reg) : Statement (.sll rd rs1 rs2) :=
  fun _ => of_wide _ _ (encR_field_0 ..) (by decide) (by decide)
theorem slt (rd rs1 rs2 : Reg) : Statement (.slt rd rs1 rs2) :=
  fun _ => of_wide _ _ (encR_field_0 ..) (by decide) (by decide)
theorem sltu (rd rs1 rs2 : Reg) : Statement (.sltu rd rs1 rs2) :=
  fun _ => of_wide _ _ (encR_field_0 ..) (by decide) (by decide)
theorem xor (rd rs1 rs2 : Reg) : Statement (.xor rd rs1 rs2) :=
  fun _ => of_wide _ _ (encR_field_0 ..) (by decide) (by decide)
theorem srl (rd rs1 rs2 : Reg) : Statement (.srl rd rs1 rs2) :=
  fun _ => of_wide _ _ (encR_field_0 ..) (by decide) (by decide)
theorem sra (rd rs1 rs2 : Reg) : Statement (.sra rd rs1 rs2) :=
  fun _ => of_wide _ _ (encR_field_0 ..) (by decide) (by decide)
theorem or (rd rs1 rs2 : Reg) : Statement (.or rd rs1 rs2) :=
  fun _ => of_wide _ _ (encR_field_0 ..) (by decide) (by decide)
theorem and (rd rs1 rs2 : Reg) : Statement (.and rd rs1 rs2) :=
  fun _ => of_wide _ _ (encR_field_0 ..) (by decide) (by decide)
theorem jal (rd : Reg) (imm : BitVec 21) : Statement (.jal rd imm) :=
  fun _ => of_wide _ _ (encJ_field_0 ..) (by decide) (by decide)
theorem jalr (rd rs1 : Reg) (imm : BitVec 12) : Statement (.jalr rd rs1 imm) :=
  fun _ => of_wide _ _ (encI_field_0 ..) (by decide) (by decide)
theorem beq (rs1 rs2 : Reg) (imm : BitVec 13) : Statement (.beq rs1 rs2 imm) :=
  fun _ => of_wide _ _ (encB_field_0 ..) (by decide) (by decide)
theorem bne (rs1 rs2 : Reg) (imm : BitVec 13) : Statement (.bne rs1 rs2 imm) :=
  fun _ => of_wide _ _ (encB_field_0 ..) (by decide) (by decide)
theorem blt (rs1 rs2 : Reg) (imm : BitVec 13) : Statement (.blt rs1 rs2 imm) :=
  fun _ => of_wide _ _ (encB_field_0 ..) (by decide) (by decide)
theorem bge (rs1 rs2 : Reg) (imm : BitVec 13) : Statement (.bge rs1 rs2 imm) :=
  fun _ => of_wide _ _ (encB_field_0 ..) (by decide) (by decide)
theorem bltu (rs1 rs2 : Reg) (imm : BitVec 13) : Statement (.bltu rs1 rs2 imm) :=
  fun _ => of_wide _ _ (encB_field_0 ..) (by decide) (by decide)
theorem bgeu (rs1 rs2 : Reg) (imm : BitVec 13) : Statement (.bgeu rs1 rs2 imm) :=
  fun _ => of_wide _ _ (encB_field_0 ..) (by decide) (by decide)
theorem lb (rd rs1 : Reg) (imm : BitVec 12) : Statement (.lb rd rs1 imm) :=
  fun _ => of_wide _ _ (encI_field_0 ..) (by decide) (by decide)
theorem lh (rd rs1 : Reg) (imm : BitVec 12) : Statement (.lh rd rs1 imm) :=
  fun _ => of_wide _ _ (encI_field_0 ..) (by decide) (by decide)
theorem lw (rd rs1 : Reg) (imm : BitVec 12) : Statement (.lw rd rs1 imm) :=
  fun _ => of_wide _ _ (encI_field_0 ..) (by decide) (by decide)
theorem lbu (rd rs1 : Reg) (imm : BitVec 12) : Statement (.lbu rd rs1 imm) :=
  fun _ => of_wide _ _ (encI_field_0 ..) (by decide) (by decide)
theorem lhu (rd rs1 : Reg) (imm : BitVec 12) : Statement (.lhu rd rs1 imm) :=
  fun _ => of_wide _ _ (encI_field_0 ..) (by decide) (by decide)
theorem sb (rs2 rs1 : Reg) (imm : BitVec 12) : Statement (.sb rs2 rs1 imm) :=
  fun _ => of_wide _ _ (encS_field_0 ..) (by decide) (by decide)
theorem sh (rs2 rs1 : Reg) (imm : BitVec 12) : Statement (.sh rs2 rs1 imm) :=
  fun _ => of_wide _ _ (encS_field_0 ..) (by decide) (by decide)
theorem sw (rs2 rs1 : Reg) (imm : BitVec 12) : Statement (.sw rs2 rs1 imm) :=
  fun _ => of_wide _ _ (encS_field_0 ..) (by decide) (by decide)
theorem fence (fm pred succ : BitVec 4) (rs1 rd : BitVec 5) : Statement (.fence fm pred succ rs1 rd) :=
  fun _ => of_wide _ _ (encI_field_0 ..) (by decide) (by decide)
theorem fenceI (imm : BitVec 12) (rs1 rd : BitVec 5) : Statement (.fenceI imm rs1 rd) :=
  fun _ => of_wide _ _ (encI_field_0 ..) (by decide) (by decide)
theorem ecall : Statement (.ecall) := fun _ => of_wide _ 0b1110011#7 (by decide) (by decide) (by decide)
theorem ebreak : Statement (.ebreak) := fun _ => of_wide _ 0b1110011#7 (by decide) (by decide) (by decide)
theorem csrrw (rd : Reg) (csr : BitVec 12) (rs1 : Reg) : Statement (.csrrw rd csr rs1) :=
  fun _ => of_wide _ _ (encI_field_0 ..) (by decide) (by decide)
theorem csrrs (rd : Reg) (csr : BitVec 12) (rs1 : Reg) : Statement (.csrrs rd csr rs1) :=
  fun _ => of_wide _ _ (encI_field_0 ..) (by decide) (by decide)
theorem csrrc (rd : Reg) (csr : BitVec 12) (rs1 : Reg) : Statement (.csrrc rd csr rs1) :=
  fun _ => of_wide _ _ (encI_field_0 ..) (by decide) (by decide)
theorem csrrwi (rd : Reg) (csr : BitVec 12) (uimm : BitVec 5) : Statement (.csrrwi rd csr uimm) :=
  fun _ => of_wide _ _ (encI_field_0 ..) (by decide) (by decide)
theorem csrrsi (rd : Reg) (csr : BitVec 12) (uimm : BitVec 5) : Statement (.csrrsi rd csr uimm) :=
  fun _ => of_wide _ _ (encI_field_0 ..) (by decide) (by decide)
theorem csrrci (rd : Reg) (csr : BitVec 12) (uimm : BitVec 5) : Statement (.csrrci rd csr uimm) :=
  fun _ => of_wide _ _ (encI_field_0 ..) (by decide) (by decide)
theorem mret : Statement (.mret) := fun _ => of_wide _ 0b1110011#7 (by decide) (by decide) (by decide)
theorem wfi : Statement (.wfi) := fun _ => of_wide _ 0b1110011#7 (by decide) (by decide) (by decide)
theorem mul (rd rs1 rs2 : Reg) : Statement (.mul rd rs1 rs2) :=
  fun _ => of_wide _ _ (encR_field_0 ..) (by decide) (by decide)
theorem mulh (rd rs1 rs2 : Reg) : Statement (.mulh rd rs1 rs2) :=
  fun _ => of_wide _ _ (encR_field_0 ..) (by decide) (by decide)
theorem mulhsu (rd rs1 rs2 : Reg) : Statement (.mulhsu rd rs1 rs2) :=
  fun _ => of_wide _ _ (encR_field_0 ..) (by decide) (by decide)
theorem mulhu (rd rs1 rs2 : Reg) : Statement (.mulhu rd rs1 rs2) :=
  fun _ => of_wide _ _ (encR_field_0 ..) (by decide) (by decide)
theorem cAddi4spn (rd : Reg) (nzuimm : BitVec 10) : Statement (.cAddi4spn rd nzuimm) :=
  fun _ => of_narrow _ (by rw [field_append_low]; decide)
theorem cLw (rd rs1 : Reg) (uimm : BitVec 7) : Statement (.cLw rd rs1 uimm) :=
  fun _ => of_narrow _ (by simp [encCLS_field_0])
theorem cSw (rs2 rs1 : Reg) (uimm : BitVec 7) : Statement (.cSw rs2 rs1 uimm) :=
  fun _ => of_narrow _ (by simp [encCLS_field_0])
theorem cNop (imm : BitVec 6) : Statement (.cNop imm) := fun _ => of_narrow _ (by simp [encCI_field_0])
theorem cAddi (rd : Reg) (imm : BitVec 6) : Statement (.cAddi rd imm) := fun _ => of_narrow _ (by simp [encCI_field_0])
theorem cJal (imm : BitVec 12) : Statement (.cJal imm) := fun _ => of_narrow _ (by simp [encCJ_field_0])
theorem cLi (rd : Reg) (imm : BitVec 6) : Statement (.cLi rd imm) := fun _ => of_narrow _ (by simp [encCI_field_0])
theorem cAddi16sp (nzimm : BitVec 10) : Statement (.cAddi16sp nzimm) :=
  fun _ => of_narrow _ (by rw [field_append_low]; decide)
theorem cLui (rd : Reg) (nzimm : BitVec 6) : Statement (.cLui rd nzimm) :=
  fun _ => of_narrow _ (by simp [encCI_field_0])
theorem cSrli (rd : Reg) (shamt : BitVec 5) : Statement (.cSrli rd shamt) :=
  fun _ => of_narrow _ (by simp [encCBAlu_field_0])
theorem cSrai (rd : Reg) (shamt : BitVec 5) : Statement (.cSrai rd shamt) :=
  fun _ => of_narrow _ (by simp [encCBAlu_field_0])
theorem cAndi (rd : Reg) (imm : BitVec 6) : Statement (.cAndi rd imm) :=
  fun _ => of_narrow _ (by simp [encCBAlu_field_0])
theorem cSub (rd rs2 : Reg) : Statement (.cSub rd rs2) := fun _ => of_narrow _ (by simp [encCA_field_0])
theorem cXor (rd rs2 : Reg) : Statement (.cXor rd rs2) := fun _ => of_narrow _ (by simp [encCA_field_0])
theorem cOr (rd rs2 : Reg) : Statement (.cOr rd rs2) := fun _ => of_narrow _ (by simp [encCA_field_0])
theorem cAnd (rd rs2 : Reg) : Statement (.cAnd rd rs2) := fun _ => of_narrow _ (by simp [encCA_field_0])
theorem cJ (imm : BitVec 12) : Statement (.cJ imm) := fun _ => of_narrow _ (by simp [encCJ_field_0])
theorem cBeqz (rs1 : Reg) (imm : BitVec 9) : Statement (.cBeqz rs1 imm) :=
  fun _ => of_narrow _ (by simp [encCB_field_0])
theorem cBnez (rs1 : Reg) (imm : BitVec 9) : Statement (.cBnez rs1 imm) :=
  fun _ => of_narrow _ (by simp [encCB_field_0])
theorem cSlli (rd : Reg) (shamt : BitVec 5) : Statement (.cSlli rd shamt) :=
  fun _ => of_narrow _ (by simp [encCI_field_0])
theorem cLwsp (rd : Reg) (uimm : BitVec 8) : Statement (.cLwsp rd uimm) :=
  fun _ => of_narrow _ (by rw [field_append_low]; decide)
theorem cJr (rs1 : Reg) : Statement (.cJr rs1) := fun _ => of_narrow _ (by simp [encCR_field_0])
theorem cMv (rd rs2 : Reg) : Statement (.cMv rd rs2) := fun _ => of_narrow _ (by simp [encCR_field_0])
theorem cEbreak : Statement (.cEbreak) := fun _ => of_narrow _ (by decide)
theorem cJalr (rs1 : Reg) : Statement (.cJalr rs1) := fun _ => of_narrow _ (by simp [encCR_field_0])
theorem cAdd (rd rs2 : Reg) : Statement (.cAdd rd rs2) := fun _ => of_narrow _ (by simp [encCR_field_0])
theorem cSwsp (rs2 : Reg) (uimm : BitVec 8) : Statement (.cSwsp rs2 uimm) :=
  fun _ => of_narrow _ (by rw [field_append_low]; decide)
theorem cLbu (rd rs1 : Reg) (uimm : Word) : Statement (.cLbu rd rs1 uimm) := fun isa => of_xw isa _
theorem cLhu (rd rs1 : Reg) (uimm : Word) : Statement (.cLhu rd rs1 uimm) := fun isa => of_xw isa _
theorem cSb (rs2 rs1 : Reg) (uimm : Word) : Statement (.cSb rs2 rs1 uimm) := fun isa => of_xw isa _
theorem cSh (rs2 rs1 : Reg) (uimm : Word) : Statement (.cSh rs2 rs1 uimm) := fun isa => of_xw isa _
theorem cLbusp (rd : Reg) (uimm : Word) : Statement (.cLbusp rd uimm) := fun isa => of_xw isa _
theorem cLhusp (rd : Reg) (uimm : Word) : Statement (.cLhusp rd uimm) := fun isa => of_xw isa _
theorem cSbsp (rs2 : Reg) (uimm : Word) : Statement (.cSbsp rs2 uimm) := fun isa => of_xw isa _
theorem cShsp (rs2 : Reg) (uimm : Word) : Statement (.cShsp rs2 uimm) := fun isa => of_xw isa _

end LengthCode

end Sys2Proof.Laws
end

