-- ==== Sys2Proof/Laws/Vectors.lean ====
section
/-!
SUPPORT. Where a trap goes (60_exceptions.md R367, R368), and a trap entry without a push as one equation.
-/

namespace Sys2Proof.Machine.State

theorem odd_iff (x : Word) : x.getLsbD 0 = decide (x.toNat % 2 = 1) := by
  simp [BitVec.getLsbD, Nat.testBit_zero]

theorem vtf0Holds_eq (s : State) (n : BitVec 8) :
    s.vtf0Holds n = (s.pfic.vtfaddr0.getLsbD 0 && decide ((s.pfic.vtfidr.extractLsb' 0 8).toNat = n.toNat)) := by
  unfold vtf0Holds
  rw [decide_eq_decide.2 BitVec.toNat_inj.symm]

theorem vtf1Holds_eq (s : State) (n : BitVec 8) :
    s.vtf1Holds n = (s.pfic.vtfaddr1.getLsbD 0 && decide ((s.pfic.vtfidr.extractLsb' 8 8).toNat = n.toNat)) := by
  unfold vtf1Holds
  rw [decide_eq_decide.2 BitVec.toNat_inj.symm]

theorem noVtf_holds (s : State) (n : BitVec 8) (h : s.NoVtf n.toNat) : s.vtf0Holds n = false ∧ s.vtf1Holds n = false := by
  rw [vtf0Holds_eq, vtf1Holds_eq]
  refine ⟨?_, ?_⟩
  · cases h0 : s.pfic.vtfaddr0.getLsbD 0
    · rfl
    · simpa using h.1 h0
  · cases h0 : s.pfic.vtfaddr1.getLsbD 0
    · rfl
    · simpa using h.2 h0

/-- The entry address of a number (60_exceptions.md R367). -/
theorem entry_eq (s : State) (n : BitVec 8) :
    (if s.mtvecMode0 then s.mtvecBase + 4 * n.setWidth 32 else s.mtvecBase) = s.entryOf n.toNat := by
  have : (4 * n.setWidth 32 : Word) = BitVec.ofNat 32 (4 * n.toNat) := by
    apply BitVec.eq_of_toNat_eq; simp
  unfold entryOf mtvecMode0 mtvecBase
  rw [this]

/-- Without a VTF channel for its number a trap goes through the vector table. -/
theorem enterTarget_vector (s : State) (k : TrapId) (h : s.NoVtf (trapNumber k).toNat) :
    s.enterTarget k = s.enterAtVector (trapNumber k) := by
  obtain ⟨a, b⟩ := s.noVtf_holds _ h
  cases k <;> simp [enterTarget, a, b]

/-- A table of instructions is entered at the entry itself. -/
theorem enterAtVector_jump (s : State) (n : BitVec 8) (h : s.mtvec.extractLsb' 2 8 = 0#8)
    (h1 : s.mtvec.getLsbD 1 = false) : s.enterAtVector n = .next (s.jumpTo (s.entryOf n.toNat)) := by
  unfold enterAtVector
  rw [if_neg (by simp [h])]
  simp only [mtvecMode1, h1, Bool.false_eq_true, if_false]
  rw [entry_eq]

/-- A table of addresses is entered at the address stored in the entry. -/
theorem enterAtVector_indirect (s : State) (n : BitVec 8) (h : s.mtvec.extractLsb' 2 8 = 0#8)
    (h1 : s.mtvec.getLsbD 1 = true) (hm : s.LoadsMemory .word (s.entryOf n.toNat))
    (he : s.memNat .word (s.entryOf n.toNat).toNat % 2 = 0) :
    s.enterAtVector n = .next (s.jumpTo (BitVec.ofNat 32 (s.memNat .word (s.entryOf n.toNat).toNat))) := by
  unfold enterAtVector
  rw [if_neg (by simp [h])]
  simp only [mtvecMode1, h1, if_true]
  rw [entry_eq, busRead_memory _ _ _ hm]
  simp only [memLoad_eq]
  rw [if_neg]
  rw [odd_iff]
  simp
  omega

/-- A trap entry without a push, up to the choice of its target. -/
theorem enterTrap_eq (s : State) (k : TrapId) (cause epc : Word) (hn : s.nest < 2) (hp : s.hwstken = false) :
    ∃ (u : State) (m e : Bool) (n : Nat), s.enterTrap k cause epc = u.enterTarget k ∧
      u =
        { s with
          mstatus := mstatusOf m s.mie false s.mpop
          mieEff := e
          freeCtr := n
          mepc := epc
          mcause := cause
          activeStack := k :: s.activeStack
          run := .running
          deepSleep := false } := by
  obtain ⟨m, e, n, hm, -⟩ := s.trapMstatus_eq false
  refine ⟨_, m, e, n, ?_, rfl⟩
  unfold enterTrap
  rw [if_neg (by omega)]
  simp only [hp, Bool.false_eq_true, if_false, andThen_of_next, hm]

end Sys2Proof.Machine.State
end

