-- ==== Sys2Proof/Tests/Slice0.lean ====
section
/-!
SUPPORT. Tests: ill-formed terms refused, a word of the spec decoded for every constructor, one step of every instruction
from the worked vectors of spec/95_test_vectors.md, and for every obligation with hypotheses a state that meets them.
-/

namespace Sys2Proof.Tests

open Sys2Proof Sys2Proof.Machine

/-! ### Ill-formed terms (30_encoding.md R126, R127, R132, R142, R146) -/

theorem test_wf_jal_odd : Instr.wf tableIsa (.jal 0 1#21) = false := by decide
theorem test_wf_branch_odd : ∀ i ∈ ([.beq 0 0 1#13, .bne 0 0 1#13, .blt 0 0 1#13, .bge 0 0 1#13, .bltu 0 0 1#13,
    .bgeu 0 0 1#13] : List Instr), i.wf tableIsa = false := by decide
theorem test_wf_multiply_without_zmmul : ∀ i ∈ ([.mul 1 2 3, .mulh 1 2 3, .mulhsu 1 2 3, .mulhu 1 2 3] : List Instr),
    i.wf { tableIsa with hasZmmul := false } = false := by decide
theorem test_wf_cAddi4spn : ∀ i ∈ ([.cAddi4spn 7 4#10, .cAddi4spn 8 0#10, .cAddi4spn 8 2#10] : List Instr),
    i.wf tableIsa = false := by decide
theorem test_wf_cLw : ∀ i ∈ ([.cLw 7 8 0#7, .cLw 8 7 0#7, .cLw 8 8 2#7] : List Instr), i.wf tableIsa = false := by
  decide
theorem test_wf_cSw : ∀ i ∈ ([.cSw 7 8 0#7, .cSw 8 7 0#7, .cSw 8 8 2#7] : List Instr), i.wf tableIsa = false := by
  decide
theorem test_wf_cAddi_x0 : Instr.wf tableIsa (.cAddi 0 1#6) = false := by decide
theorem test_wf_cJump_odd : ∀ i ∈ ([.cJal 1#12, .cJ 1#12] : List Instr), i.wf tableIsa = false := by decide
theorem test_wf_cAddi16sp : ∀ i ∈ ([.cAddi16sp 0#10, .cAddi16sp 8#10] : List Instr), i.wf tableIsa = false := by decide
theorem test_wf_cLui : ∀ i ∈ ([.cLui 2 1#6, .cLui 1 0#6] : List Instr), i.wf tableIsa = false := by decide
theorem test_wf_cShift_register : ∀ i ∈ ([.cSrli 7 1#5, .cSrai 7 1#5, .cAndi 7 1#6] : List Instr),
    i.wf tableIsa = false := by decide
theorem test_wf_cAlu_register : ∀ i ∈ ([.cSub 7 8, .cSub 8 7, .cXor 7 8, .cXor 8 7, .cOr 7 8, .cOr 8 7, .cAnd 7 8,
    .cAnd 8 7] : List Instr), i.wf tableIsa = false := by decide
theorem test_wf_cBranch : ∀ i ∈ ([.cBeqz 7 2#9, .cBeqz 8 1#9, .cBnez 7 2#9, .cBnez 8 1#9] : List Instr),
    i.wf tableIsa = false := by decide
theorem test_wf_cLwsp : ∀ i ∈ ([.cLwsp 0 4#8, .cLwsp 1 2#8] : List Instr), i.wf tableIsa = false := by decide
theorem test_wf_cSwsp : Instr.wf tableIsa (.cSwsp 1 2#8) = false := by decide
theorem test_wf_cJump_register_x0 : ∀ i ∈ ([.cJr 0, .cJalr 0] : List Instr), i.wf tableIsa = false := by decide
theorem test_wf_cMove_x0 : ∀ i ∈ ([.cMv 1 0, .cAdd 1 0] : List Instr), i.wf tableIsa = false := by decide
theorem test_wf_xw_absent : ∀ i ∈ ([.cLbu 1 2 0#32, .cLhu 1 2 0#32, .cSb 1 2 0#32, .cSh 1 2 0#32, .cLbusp 1 0#32,
    .cLhusp 1 0#32, .cSbsp 1 0#32, .cShsp 1 0#32] : List Instr), i.wf tableIsa = false := by decide

/-! ### Decoding

The words are those of spec/95_test_vectors.md V40 to V45, and `sb x7, -1(x6)` by hand. XW has no encoding in the spec:
`xwIsa` names one candidate word for each of its instructions (V46 gives them by decoded form). -/

/-- The term is well-formed, its words are these parcels, and they decode to it. -/
def codes (isa : Isa) (i : Instr) (ps : List Parcel) : Bool :=
  i.wf isa && encode isa i == ps && decide (decode isa ps = .ok (i, []))

/-- A table that gives each XW instruction of V46 one candidate word. -/
def xwTable : XwTable :=
  [(0x2000#16, { op := .lbu, reg := 10, base := 11, uimm := 3#32 }),
   (0x2004#16, { op := .lhu, reg := 10, base := 11, uimm := 2#32 }),
   (0x6000#16, { op := .sb, reg := 10, base := 11, uimm := 1#32 }),
   (0x6004#16, { op := .sh, reg := 10, base := 11, uimm := 2#32 }),
   (0x2002#16, { op := .lbusp, reg := 10, base := 2, uimm := 2#32 }),
   (0x2006#16, { op := .lhusp, reg := 10, base := 2, uimm := 2#32 }),
   (0x6002#16, { op := .sbsp, reg := 10, base := 2, uimm := 0#32 }),
   (0x6006#16, { op := .shsp, reg := 10, base := 2, uimm := 0#32 })]

/-- A core with XW and that table. -/
def xwIsa : Isa := { hasZmmul := true, hasXw := true, xwDecode := some xwTable }

theorem test_decode_lui : codes tableIsa (.lui 5 0xFFFFF#20) [0xF2B7#16, 0xFFFF#16] = true := by decide
theorem test_decode_auipc : codes tableIsa (.auipc 6 0xFFFFF#20) [0xF317#16, 0xFFFF#16] = true := by decide
theorem test_decode_addi : codes tableIsa (.addi 5 6 0x800#12) [0x0293#16, 0x8003#16] = true := by decide
theorem test_decode_slti : codes tableIsa (.slti 5 6 0xFFF#12) [0x2293#16, 0xFFF3#16] = true := by decide
theorem test_decode_sltiu : codes tableIsa (.sltiu 5 6 0xFFF#12) [0x3293#16, 0xFFF3#16] = true := by decide
theorem test_decode_xori : codes tableIsa (.xori 5 6 0xFFF#12) [0x4293#16, 0xFFF3#16] = true := by decide
theorem test_decode_ori : codes tableIsa (.ori 5 6 0x800#12) [0x6293#16, 0x8003#16] = true := by decide
theorem test_decode_andi : codes tableIsa (.andi 5 6 0xFF0#12) [0x7293#16, 0xFF03#16] = true := by decide
theorem test_decode_slli : codes tableIsa (.slli 5 6 31#5) [0x1293#16, 0x01F3#16] = true := by decide
theorem test_decode_srli : codes tableIsa (.srli 5 6 4#5) [0x5293#16, 0x0043#16] = true := by decide
theorem test_decode_srai : codes tableIsa (.srai 5 6 4#5) [0x5293#16, 0x4043#16] = true := by decide
theorem test_decode_add : codes tableIsa (.add 5 6 7) [0x02B3#16, 0x0073#16] = true := by decide
theorem test_decode_sub : codes tableIsa (.sub 5 6 7) [0x02B3#16, 0x4073#16] = true := by decide
theorem test_decode_sll : codes tableIsa (.sll 5 6 7) [0x12B3#16, 0x0073#16] = true := by decide
theorem test_decode_slt : codes tableIsa (.slt 5 6 7) [0x22B3#16, 0x0073#16] = true := by decide
theorem test_decode_sltu : codes tableIsa (.sltu 5 6 7) [0x32B3#16, 0x0073#16] = true := by decide
theorem test_decode_xor : codes tableIsa (.xor 5 6 7) [0x42B3#16, 0x0073#16] = true := by decide
theorem test_decode_srl : codes tableIsa (.srl 5 6 7) [0x52B3#16, 0x0073#16] = true := by decide
theorem test_decode_sra : codes tableIsa (.sra 5 6 7) [0x52B3#16, 0x4073#16] = true := by decide
theorem test_decode_or : codes tableIsa (.or 5 6 7) [0x62B3#16, 0x0073#16] = true := by decide
theorem test_decode_and : codes tableIsa (.and 5 6 7) [0x72B3#16, 0x0073#16] = true := by decide
theorem test_decode_jal : codes tableIsa (.jal 0 0x1FFFFC#21) [0xF06F#16, 0xFFDF#16] = true := by decide
theorem test_decode_jalr : codes tableIsa (.jalr 1 6 5#12) [0x00E7#16, 0x0053#16] = true := by decide
theorem test_decode_beq : codes tableIsa (.beq 6 7 16#13) [0x0863#16, 0x0073#16] = true := by decide
theorem test_decode_bne : codes tableIsa (.bne 6 7 16#13) [0x1863#16, 0x0073#16] = true := by decide
theorem test_decode_blt : codes tableIsa (.blt 6 7 16#13) [0x4863#16, 0x0073#16] = true := by decide
theorem test_decode_bge : codes tableIsa (.bge 6 7 16#13) [0x5863#16, 0x0073#16] = true := by decide
theorem test_decode_bltu : codes tableIsa (.bltu 6 7 16#13) [0x6863#16, 0x0073#16] = true := by decide
theorem test_decode_bgeu : codes tableIsa (.bgeu 6 7 16#13) [0x7863#16, 0x0073#16] = true := by decide
theorem test_decode_lb : codes tableIsa (.lb 5 6 1#12) [0x0283#16, 0x0013#16] = true := by decide
theorem test_decode_lh : codes tableIsa (.lh 5 6 2#12) [0x1283#16, 0x0023#16] = true := by decide
theorem test_decode_lw : codes tableIsa (.lw 5 6 0#12) [0x2283#16, 0x0003#16] = true := by decide
theorem test_decode_lbu : codes tableIsa (.lbu 5 6 0#12) [0x4283#16, 0x0003#16] = true := by decide
theorem test_decode_lhu : codes tableIsa (.lhu 5 6 2#12) [0x5283#16, 0x0023#16] = true := by decide
theorem test_decode_sb : codes tableIsa (.sb 7 6 0xFFF#12) [0x0FA3#16, 0xFE73#16] = true := by decide
theorem test_decode_sh : codes tableIsa (.sh 7 6 2#12) [0x1123#16, 0x0073#16] = true := by decide
theorem test_decode_sw : codes tableIsa (.sw 7 6 0#12) [0x2023#16, 0x0073#16] = true := by decide
theorem test_decode_fence : codes tableIsa (.fence 0#4 0xF#4 0xF#4 0#5 0#5) [0x000F#16, 0x0FF0#16] = true := by decide
theorem test_decode_fenceI : codes tableIsa (.fenceI 0#12 0#5 0#5) [0x100F#16, 0x0000#16] = true := by decide
theorem test_decode_ecall : codes tableIsa (.ecall) [0x0073#16, 0x0000#16] = true := by decide
theorem test_decode_ebreak : codes tableIsa (.ebreak) [0x0073#16, 0x0010#16] = true := by decide
theorem test_decode_csrrw : codes tableIsa (.csrrw 10 0x340#12 11) [0x9573#16, 0x3405#16] = true := by decide
theorem test_decode_csrrs : codes tableIsa (.csrrs 10 0x340#12 11) [0xA573#16, 0x3405#16] = true := by decide
theorem test_decode_csrrc : codes tableIsa (.csrrc 10 0x340#12 11) [0xB573#16, 0x3405#16] = true := by decide
theorem test_decode_csrrwi : codes tableIsa (.csrrwi 10 0x340#12 31#5) [0xD573#16, 0x340F#16] = true := by decide
theorem test_decode_csrrsi : codes tableIsa (.csrrsi 0 0x300#12 8#5) [0x6073#16, 0x3004#16] = true := by decide
theorem test_decode_csrrci : codes tableIsa (.csrrci 10 0x340#12 31#5) [0xF573#16, 0x340F#16] = true := by decide
theorem test_decode_mret : codes tableIsa (.mret) [0x0073#16, 0x3020#16] = true := by decide
theorem test_decode_wfi : codes tableIsa (.wfi) [0x0073#16, 0x1050#16] = true := by decide
theorem test_decode_mul : codes tableIsa (.mul 5 6 7) [0x02B3#16, 0x0273#16] = true := by decide
theorem test_decode_mulh : codes tableIsa (.mulh 5 6 7) [0x12B3#16, 0x0273#16] = true := by decide
theorem test_decode_mulhsu : codes tableIsa (.mulhsu 5 6 7) [0x22B3#16, 0x0273#16] = true := by decide
theorem test_decode_mulhu : codes tableIsa (.mulhu 5 6 7) [0x32B3#16, 0x0273#16] = true := by decide
theorem test_decode_cAddi4spn : codes tableIsa (.cAddi4spn 10 256#10) [0x0208#16] = true := by decide
theorem test_decode_cLw : codes tableIsa (.cLw 10 10 64#7) [0x4128#16] = true := by decide
theorem test_decode_cSw : codes tableIsa (.cSw 9 10 4#7) [0xC144#16] = true := by decide
theorem test_decode_cNop : codes tableIsa (.cNop 1#6) [0x0005#16] = true := by decide
theorem test_decode_cAddi : codes tableIsa (.cAddi 5 0x20#6) [0x1281#16] = true := by decide
theorem test_decode_cJal : codes tableIsa (.cJal 0x800#12) [0x3001#16] = true := by decide
theorem test_decode_cLi : codes tableIsa (.cLi 1 0x20#6) [0x5081#16] = true := by decide
theorem test_decode_cAddi16sp : codes tableIsa (.cAddi16sp 0x3D0#10) [0x7179#16] = true := by decide
theorem test_decode_cLui : codes tableIsa (.cLui 10 0x20#6) [0x7501#16] = true := by decide
theorem test_decode_cSrli : codes tableIsa (.cSrli 10 1#5) [0x8105#16] = true := by decide
theorem test_decode_cSrai : codes tableIsa (.cSrai 10 1#5) [0x8505#16] = true := by decide
theorem test_decode_cAndi : codes tableIsa (.cAndi 10 0x30#6) [0x9941#16] = true := by decide
theorem test_decode_cSub : codes tableIsa (.cSub 10 11) [0x8D0D#16] = true := by decide
theorem test_decode_cXor : codes tableIsa (.cXor 10 11) [0x8D2D#16] = true := by decide
theorem test_decode_cOr : codes tableIsa (.cOr 8 15) [0x8C5D#16] = true := by decide
theorem test_decode_cAnd : codes tableIsa (.cAnd 10 11) [0x8D6D#16] = true := by decide
theorem test_decode_cJ : codes tableIsa (.cJ 0xFFE#12) [0xBFFD#16] = true := by decide
theorem test_decode_cBeqz : codes tableIsa (.cBeqz 8 0x100#9) [0xD001#16] = true := by decide
theorem test_decode_cBnez : codes tableIsa (.cBnez 10 0x1FC#9) [0xFD75#16] = true := by decide
theorem test_decode_cSlli : codes tableIsa (.cSlli 10 4#5) [0x0512#16] = true := by decide
theorem test_decode_cLwsp : codes tableIsa (.cLwsp 10 252#8) [0x557E#16] = true := by decide
theorem test_decode_cJr : codes tableIsa (.cJr 1) [0x8082#16] = true := by decide
theorem test_decode_cMv : codes tableIsa (.cMv 10 11) [0x852E#16] = true := by decide
theorem test_decode_cEbreak : codes tableIsa (.cEbreak) [0x9002#16] = true := by decide
theorem test_decode_cJalr : codes tableIsa (.cJalr 1) [0x9082#16] = true := by decide
theorem test_decode_cAdd : codes tableIsa (.cAdd 10 10) [0x952A#16] = true := by decide
theorem test_decode_cSwsp : codes tableIsa (.cSwsp 15 252#8) [0xDFBE#16] = true := by decide
theorem test_decode_cLbu : codes xwIsa (.cLbu 10 11 3#32) [0x2000#16] = true := by decide
theorem test_decode_cLhu : codes xwIsa (.cLhu 10 11 2#32) [0x2004#16] = true := by decide
theorem test_decode_cSb : codes xwIsa (.cSb 10 11 1#32) [0x6000#16] = true := by decide
theorem test_decode_cSh : codes xwIsa (.cSh 10 11 2#32) [0x6004#16] = true := by decide
theorem test_decode_cLbusp : codes xwIsa (.cLbusp 10 2#32) [0x2002#16] = true := by decide
theorem test_decode_cLhusp : codes xwIsa (.cLhusp 10 2#32) [0x2006#16] = true := by decide
theorem test_decode_cSbsp : codes xwIsa (.cSbsp 10 0#32) [0x6002#16] = true := by decide
theorem test_decode_cShsp : codes xwIsa (.cShsp 10 0#32) [0x6006#16] = true := by decide

/-- Words written out field by field from the formats of 30_encoding.md R121, R130, one for each family. -/
theorem test_bits_r : decode32 tableIsa (0b0100000#7 ++ 7#5 ++ 6#5 ++ 0b101#3 ++ 5#5 ++ 0b0110011#7) =
    .ok (.sra 5 6 7) := by decide
theorem test_bits_i : decode32 tableIsa (0x7FF#12 ++ 6#5 ++ 0b111#3 ++ 5#5 ++ 0b0010011#7) =
    .ok (.andi 5 6 0x7FF#12) := by decide
theorem test_bits_u : decode32 tableIsa (0x12345#20 ++ 5#5 ++ 0b0110111#7) = .ok (.lui 5 0x12345#20) := by decide
theorem test_bits_j : decode32 tableIsa
    (0b0#1 ++ 0b0000000100#10 ++ 0b1#1 ++ 0b00000010#8 ++ 1#5 ++ 0b1101111#7) = .ok (.jal 1 0x2808#21) := by decide
theorem test_bits_b : decode32 tableIsa
    (0b1#1 ++ 0b111000#6 ++ 7#5 ++ 6#5 ++ 0b001#3 ++ 0b0010#4 ++ 0b0#1 ++ 0b1100011#7) =
    .ok (.bne 6 7 0x1704#13) := by decide
theorem test_bits_load : decode32 tableIsa (0x801#12 ++ 6#5 ++ 0b100#3 ++ 5#5 ++ 0b0000011#7) =
    .ok (.lbu 5 6 0x801#12) := by decide
theorem test_bits_store : decode32 tableIsa (0b1000000#7 ++ 7#5 ++ 6#5 ++ 0b010#3 ++ 0b00100#5 ++ 0b0100011#7) =
    .ok (.sw 7 6 0x804#12) := by decide
theorem test_bits_csr : decode32 tableIsa (0x341#12 ++ 17#5 ++ 0b101#3 ++ 5#5 ++ 0b1110011#7) =
    .ok (.csrrwi 5 0x341#12 17#5) := by decide
theorem test_bits_multiply : decode32 tableIsa (0b0000001#7 ++ 7#5 ++ 6#5 ++ 0b010#3 ++ 5#5 ++ 0b0110011#7) =
    .ok (.mulhsu 5 6 7) := by decide
theorem test_bits_ciw : decode16 tableIsa (0b000#3 ++ 0b01#2 ++ 0b1000#4 ++ 0b0#1 ++ 0b1#1 ++ 0b011#3 ++ 0b00#2) =
    .ok (.cAddi4spn 11 0x218#10) := by decide
theorem test_bits_cj : decode16 tableIsa (0b101#3 ++ 0b1#1 ++ 0b0#1 ++ 0b01#2 ++ 0b0#1 ++ 0b1#1 ++ 0b0#1 ++ 0b011#3 ++
    0b0#1 ++ 0b01#2) = .ok (.cJ 0x946#12) := by decide

/-- Words that are no instruction (95_test_vectors.md V40, V41, V43, V44, V45). -/
def noInstr (nbits : Nat) (ws : List Nat) : Bool := ws.all fun w => (decodeTableWord nbits w).isNone

theorem test_undecodable : noInstr 32 [0x02031293, 0x407312b3, 0x00732863, 0x3405c573, 0x00200073, 0x10200073,
    0x7b200073, 0x027342b3, 0x00208833, 0x010080b3] = true := by decide
theorem test_undecodable_compressed : noInstr 16 [0x0000, 0x0004, 0x6101, 0x6501, 0x9105, 0x9d0d, 0x4002, 0x8002, 0x8806,
    0x9546, 0x2000, 0x6002] = true := by decide

/-! ### One step of each instruction

The states and results are those of 95_test_vectors.md V40 to V46, T1 and W, at pc 0x1000 with `mtvec` 0x400; where a
vector has another pc or memory address, the numbers are moved by hand. -/

/-- The state after reset, with the pc, the vector base and registers set. -/
def start (regs : List (Reg × Word)) : State :=
  regs.foldl (fun s p => s.setReg p.1 p.2) { State.reset with pc := 0x1000#32, mtvec := 0x400#32 }

/-- The memory of V42: the word 0x8877F680 at 0x20000000. -/
def holding (s : State) : State :=
  { s with mem := [⟨0x20000000, 0x80⟩, ⟨0x20000001, 0xF6⟩, ⟨0x20000002, 0x77⟩, ⟨0x20000003, 0x88⟩] }

/-- The core has XW, with the table of `xwIsa`. -/
def withXw (s : State) : State := { s with cfg := { s.cfg with v2cHasXw := true, xwDecode := some xwTable } }

/-- `start` with a value in `mscratch`. -/
def scratch (v : Word) (regs : List (Reg × Word)) : State := { start regs with mscratch := v }

/-- MIE has just been cleared. -/
def masking : State := { start [] with mieEff := true }

/-- A level-1 handler about to return (V43, `mret`). -/
def inHandler : State := { start [] with mepc := 0x124#32, mstatus := 0x1880#32, activeStack := [.exc] }

/-- The outcome is a next state with the property. -/
def answers (r : Res State) (p : State → Bool) : Bool :=
  match r with
  | .next t => p t
  | _ => false

/-- One step on the instruction whose bits are `w` gives a next state with the property. -/
def ran (s : State) (nbits w : Nat) (p : State → Bool) : Bool := answers (step (s.withFetchWord nbits w)) p

theorem test_lui : ran (start []) 32 0xfffff2b7 (fun t =>
    t.reg 5 == 0xFFFFF000#32 && t.pc == 0x00001004#32) = true := by decide
theorem test_auipc : ran (start []) 32 0xfffff317 (fun t =>
    t.reg 6 == 0x00000000#32 && t.pc == 0x00001004#32) = true := by decide
theorem test_addi : ran (start [(6, 0x800#32)]) 32 0x80030293 (fun t =>
    t.reg 5 == 0x00000000#32 && t.pc == 0x00001004#32) = true := by decide
theorem test_slti : ran (start [(6, 0x80000000#32)]) 32 0xfff32293 (fun t =>
    t.reg 5 == 0x00000001#32 && t.pc == 0x00001004#32) = true := by decide
theorem test_sltiu : ran (start [(6, 0xFFFFFFFE#32)]) 32 0xfff33293 (fun t =>
    t.reg 5 == 0x00000001#32 && t.pc == 0x00001004#32) = true := by decide
theorem test_xori : ran (start [(6, 0x12345678#32)]) 32 0xfff34293 (fun t =>
    t.reg 5 == 0xEDCBA987#32 && t.pc == 0x00001004#32) = true := by decide
theorem test_ori : ran (start [(6, 0x1#32)]) 32 0x80036293 (fun t =>
    t.reg 5 == 0xFFFFF801#32 && t.pc == 0x00001004#32) = true := by decide
theorem test_andi : ran (start [(6, 0x1234567F#32)]) 32 0xff037293 (fun t =>
    t.reg 5 == 0x12345670#32 && t.pc == 0x00001004#32) = true := by decide
theorem test_slli : ran (start [(6, 0x3#32)]) 32 0x01f31293 (fun t =>
    t.reg 5 == 0x80000000#32 && t.pc == 0x00001004#32) = true := by decide
theorem test_srli : ran (start [(6, 0xF0000000#32)]) 32 0x00435293 (fun t =>
    t.reg 5 == 0x0F000000#32 && t.pc == 0x00001004#32) = true := by decide
theorem test_srai : ran (start [(6, 0xF0000000#32)]) 32 0x40435293 (fun t =>
    t.reg 5 == 0xFF000000#32 && t.pc == 0x00001004#32) = true := by decide
theorem test_add : ran (start [(6, 0xFFFFFFFF#32), (7, 0x1#32)]) 32 0x007302b3 (fun t =>
    t.reg 5 == 0x00000000#32 && t.pc == 0x00001004#32) = true := by decide
theorem test_sub : ran (start [(6, 0x80000000#32), (7, 0x1#32)]) 32 0x407302b3 (fun t =>
    t.reg 5 == 0x7FFFFFFF#32 && t.pc == 0x00001004#32) = true := by decide
theorem test_sll : ran (start [(6, 0x1#32), (7, 0x21#32)]) 32 0x007312b3 (fun t =>
    t.reg 5 == 0x00000002#32 && t.pc == 0x00001004#32) = true := by decide
theorem test_slt : ran (start [(6, 0x80000000#32), (7, 0x7FFFFFFF#32)]) 32 0x007322b3 (fun t =>
    t.reg 5 == 0x00000001#32 && t.pc == 0x00001004#32) = true := by decide
theorem test_sltu : ran (start [(6, 0x80000000#32), (7, 0x7FFFFFFF#32), (5, 0x9#32)]) 32 0x007332b3 (fun t =>
    t.reg 5 == 0x00000000#32 && t.pc == 0x00001004#32) = true := by decide
theorem test_xor : ran (start [(6, 0xFF00FF00#32), (7, 0xFF00FF0#32)]) 32 0x007342b3 (fun t =>
    t.reg 5 == 0xF0F0F0F0#32 && t.pc == 0x00001004#32) = true := by decide
theorem test_srl : ran (start [(6, 0x80000000#32), (7, 0x3F#32)]) 32 0x007352b3 (fun t =>
    t.reg 5 == 0x00000001#32 && t.pc == 0x00001004#32) = true := by decide
theorem test_sra : ran (start [(6, 0x80000000#32), (7, 0x3F#32)]) 32 0x407352b3 (fun t =>
    t.reg 5 == 0xFFFFFFFF#32 && t.pc == 0x00001004#32) = true := by decide
theorem test_or : ran (start [(6, 0xF0F00000#32), (7, 0xF0F0000#32)]) 32 0x007362b3 (fun t =>
    t.reg 5 == 0xFFFF0000#32 && t.pc == 0x00001004#32) = true := by decide
theorem test_and : ran (start [(6, 0xFFFF0000#32), (7, 0xFF00FF0#32)]) 32 0x007372b3 (fun t =>
    t.reg 5 == 0x0FF00000#32 && t.pc == 0x00001004#32) = true := by decide
theorem test_jal : ran (start []) 32 0xffdff06f (fun t =>
    t.reg 0 == 0x00000000#32 && t.pc == 0x00000FFC#32) = true := by decide
theorem test_jalr : ran (start [(6, 0x2000#32)]) 32 0x005300e7 (fun t =>
    t.reg 1 == 0x00001004#32 && t.pc == 0x00002004#32) = true := by decide
theorem test_beq : ran (start [(6, 0x5#32), (7, 0x5#32)]) 32 0x00730863 (fun t =>
    t.pc == 0x00001010#32) = true := by decide
theorem test_bne : ran (start [(6, 0x5#32), (7, 0x5#32)]) 32 0x00731863 (fun t =>
    t.pc == 0x00001004#32) = true := by decide
theorem test_blt : ran (start [(6, 0xFFFFFFFF#32), (7, 0x1#32)]) 32 0x00734863 (fun t =>
    t.pc == 0x00001010#32) = true := by decide
theorem test_bge : ran (start [(6, 0x80000000#32), (7, 0x0#32)]) 32 0x00735863 (fun t =>
    t.pc == 0x00001004#32) = true := by decide
theorem test_bltu : ran (start [(6, 0xFFFFFFFF#32), (7, 0x1#32)]) 32 0x00736863 (fun t =>
    t.pc == 0x00001004#32) = true := by decide
theorem test_bgeu : ran (start [(6, 0xFFFFFFFF#32), (7, 0x1#32)]) 32 0x00737863 (fun t =>
    t.pc == 0x00001010#32) = true := by decide
theorem test_lb : ran (holding (start [(6, 0x20000000#32)])) 32 0x00130283 (fun t =>
    t.reg 5 == 0xFFFFFFF6#32 && t.pc == 0x00001004#32) = true := by decide
theorem test_lh : ran (holding (start [(6, 0x20000000#32)])) 32 0x00231283 (fun t =>
    t.reg 5 == 0xFFFF8877#32 && t.pc == 0x00001004#32) = true := by decide
theorem test_lw : ran (holding (start [(6, 0x20000000#32)])) 32 0x00032283 (fun t =>
    t.reg 5 == 0x8877F680#32 && t.pc == 0x00001004#32) = true := by decide
theorem test_lbu : ran (holding (start [(6, 0x20000000#32)])) 32 0x00034283 (fun t =>
    t.reg 5 == 0x00000080#32 && t.pc == 0x00001004#32) = true := by decide
theorem test_lhu : ran (holding (start [(6, 0x20000000#32)])) 32 0x00235283 (fun t =>
    t.reg 5 == 0x00008877#32 && t.pc == 0x00001004#32) = true := by decide
theorem test_sb : ran (holding (start [(6, 0x20000002#32), (7, 0x123456AB#32)])) 32 0xfe730fa3 (fun t =>
    t.memLoad .word 0x20000000 == 0x8877AB80#32 && t.pc == 0x00001004#32) = true := by decide
theorem test_sh : ran (holding (start [(6, 0x20000000#32), (7, 0x1234BEEF#32)])) 32 0x00731123 (fun t =>
    t.memLoad .word 0x20000000 == 0xBEEFF680#32 && t.pc == 0x00001004#32) = true := by decide
theorem test_sw : ran (holding (start [(6, 0x20000000#32), (7, 0x11223344#32)])) 32 0x00732023 (fun t =>
    t.memLoad .word 0x20000000 == 0x11223344#32 && t.pc == 0x00001004#32) = true := by decide
theorem test_fence : ran (start []) 32 0x0ff0000f (fun t =>
    t.pc == 0x00001004#32) = true := by decide
theorem test_fenceI : ran (masking) 32 0x0000100f (fun t =>
    t.mieEff == false && t.pc == 0x00001004#32) = true := by decide
theorem test_ecall : ran (start []) 32 0x00000073 (fun t =>
    t.mepc == 0x1000#32 && t.mcause == 0xB#32 && t.pc == 0x00000400#32) = true := by decide
theorem test_ebreak : ran (start []) 32 0x00100073 (fun t =>
    t.mepc == 0x1000#32 && t.mcause == 3#32 && t.pc == 0x00000400#32) = true := by decide
theorem test_csrrw : ran (scratch 0x11111111#32 [(11, 0x22222222#32)]) 32 0x34059573 (fun t =>
    t.reg 10 == 0x11111111#32 && t.mscratch == 0x22222222#32) = true := by decide
theorem test_csrrs : ran (scratch 0x0F0F0000#32 [(11, 0xFF00FF#32)]) 32 0x3405a573 (fun t =>
    t.reg 10 == 0x0F0F0000#32 && t.mscratch == 0x0FFF00FF#32) = true := by decide
theorem test_csrrc : ran (scratch 0x0F0F0F0F#32 [(11, 0xFF00FF#32)]) 32 0x3405b573 (fun t =>
    t.reg 10 == 0x0F0F0F0F#32 && t.mscratch == 0x0F000F00#32) = true := by decide
theorem test_csrrwi : ran (scratch 0xFFFFFFFF#32 []) 32 0x340fd573 (fun t =>
    t.reg 10 == 0xFFFFFFFF#32 && t.mscratch == 0x1F#32) = true := by decide
theorem test_csrrsi : ran (start []) 32 0x30046073 (fun t =>
    t.mstatus == 0x1808#32 && t.pc == 0x00001004#32) = true := by decide
theorem test_csrrci : ran (scratch 0xFF#32 []) 32 0x340ff573 (fun t =>
    t.reg 10 == 0x000000FF#32 && t.mscratch == 0xE0#32) = true := by decide
theorem test_mret : ran (inHandler) 32 0x30200073 (fun t =>
    t.nest == 0 && t.pc == 0x00000124#32) = true := by decide
theorem test_wfi : ran (start []) 32 0x10500073 (fun t =>
    t.run == RunState.sleepingWfi && t.pc == 0x00001004#32) = true := by decide
theorem test_mul : ran (start [(6, 0x12345678#32), (7, 0x9ABCDEF0#32)]) 32 0x027302b3 (fun t =>
    t.reg 5 == 0x242D2080#32 && t.pc == 0x00001004#32) = true := by decide
theorem test_mulh : ran (start [(6, 0x12345678#32), (7, 0x9ABCDEF0#32)]) 32 0x027312b3 (fun t =>
    t.reg 5 == 0xF8CC93D6#32 && t.pc == 0x00001004#32) = true := by decide
theorem test_mulhsu : ran (start [(6, 0x80000000#32), (7, 0xFFFFFFFF#32)]) 32 0x027322b3 (fun t =>
    t.reg 5 == 0x80000000#32 && t.pc == 0x00001004#32) = true := by decide
theorem test_mulhu : ran (start [(6, 0x80000000#32), (7, 0xFFFFFFFF#32)]) 32 0x027332b3 (fun t =>
    t.reg 5 == 0x7FFFFFFF#32 && t.pc == 0x00001004#32) = true := by decide
theorem test_cAddi4spn : ran (start [(2, 0xFFFFFF80#32)]) 16 0x0208 (fun t =>
    t.reg 10 == 0x00000080#32 && t.pc == 0x00001002#32) = true := by decide
theorem test_cLw : ran (holding (start [(10, 0x1FFFFFC0#32)])) 16 0x4128 (fun t =>
    t.reg 10 == 0x8877F680#32 && t.pc == 0x00001002#32) = true := by decide
theorem test_cSw : ran (holding (start [(10, 0x1FFFFFFC#32), (9, 0x11223344#32)])) 16 0xc144 (fun t =>
    t.memLoad .word 0x20000000 == 0x11223344#32 && t.pc == 0x00001002#32) = true := by decide
theorem test_cNop : ran (start []) 16 0x0005 (fun t =>
    t.pc == 0x00001002#32) = true := by decide
theorem test_cAddi : ran (start [(5, 0x80000000#32)]) 16 0x1281 (fun t =>
    t.reg 5 == 0x7FFFFFE0#32 && t.pc == 0x00001002#32) = true := by decide
theorem test_cJal : ran (start []) 16 0x3001 (fun t =>
    t.reg 1 == 0x00001002#32 && t.pc == 0x00000800#32) = true := by decide
theorem test_cLi : ran (start []) 16 0x5081 (fun t =>
    t.reg 1 == 0xFFFFFFE0#32 && t.pc == 0x00001002#32) = true := by decide
theorem test_cAddi16sp : ran (start [(2, 0x20000100#32)]) 16 0x7179 (fun t =>
    t.reg 2 == 0x200000D0#32 && t.pc == 0x00001002#32) = true := by decide
theorem test_cLui : ran (start []) 16 0x7501 (fun t =>
    t.reg 10 == 0xFFFE0000#32 && t.pc == 0x00001002#32) = true := by decide
theorem test_cSrli : ran (start [(10, 0x80000001#32)]) 16 0x8105 (fun t =>
    t.reg 10 == 0x40000000#32 && t.pc == 0x00001002#32) = true := by decide
theorem test_cSrai : ran (start [(10, 0x80000001#32)]) 16 0x8505 (fun t =>
    t.reg 10 == 0xC0000000#32 && t.pc == 0x00001002#32) = true := by decide
theorem test_cAndi : ran (start [(10, 0x1234567F#32)]) 16 0x9941 (fun t =>
    t.reg 10 == 0x12345670#32 && t.pc == 0x00001002#32) = true := by decide
theorem test_cSub : ran (start [(10, 0x0#32), (11, 0x1#32)]) 16 0x8d0d (fun t =>
    t.reg 10 == 0xFFFFFFFF#32 && t.pc == 0x00001002#32) = true := by decide
theorem test_cXor : ran (start [(10, 0xFF00FF00#32), (11, 0xFF00FF0#32)]) 16 0x8d2d (fun t =>
    t.reg 10 == 0xF0F0F0F0#32 && t.pc == 0x00001002#32) = true := by decide
theorem test_cOr : ran (start [(8, 0xF0F00000#32), (15, 0xF0F0000#32)]) 16 0x8c5d (fun t =>
    t.reg 8 == 0xFFFF0000#32 && t.pc == 0x00001002#32) = true := by decide
theorem test_cAnd : ran (start [(10, 0xFFFF0000#32), (11, 0xFF00FF0#32)]) 16 0x8d6d (fun t =>
    t.reg 10 == 0x0FF00000#32 && t.pc == 0x00001002#32) = true := by decide
theorem test_cJ : ran (start []) 16 0xbffd (fun t =>
    t.pc == 0x00000FFE#32) = true := by decide
theorem test_cBeqz : ran (start [(8, 0x0#32)]) 16 0xd001 (fun t =>
    t.pc == 0x00000F00#32) = true := by decide
theorem test_cBnez : ran (start [(10, 0x1#32)]) 16 0xfd75 (fun t =>
    t.pc == 0x00000FFC#32) = true := by decide
theorem test_cSlli : ran (start [(10, 0xF000000F#32)]) 16 0x0512 (fun t =>
    t.reg 10 == 0x000000F0#32 && t.pc == 0x00001002#32) = true := by decide
theorem test_cLwsp : ran (holding (start [(2, 0x1FFFFF04#32)])) 16 0x557e (fun t =>
    t.reg 10 == 0x8877F680#32 && t.pc == 0x00001002#32) = true := by decide
theorem test_cJr : ran (start [(1, 0x205#32)]) 16 0x8082 (fun t =>
    t.reg 1 == 0x00000205#32 && t.pc == 0x00000204#32) = true := by decide
theorem test_cMv : ran (start [(10, 0x1#32), (11, 0xABCDEF01#32)]) 16 0x852e (fun t =>
    t.reg 10 == 0xABCDEF01#32 && t.pc == 0x00001002#32) = true := by decide
theorem test_cEbreak : ran (start []) 16 0x9002 (fun t =>
    t.mepc == 0x1000#32 && t.mcause == 3#32 && t.pc == 0x00000400#32) = true := by decide
theorem test_cJalr : ran (start [(1, 0x2000#32)]) 16 0x9082 (fun t =>
    t.reg 1 == 0x00001002#32 && t.pc == 0x00002000#32) = true := by decide
theorem test_cAdd : ran (start [(10, 0x80000001#32)]) 16 0x952a (fun t =>
    t.reg 10 == 0x00000002#32 && t.pc == 0x00001002#32) = true := by decide
theorem test_cSwsp : ran (holding (start [(2, 0x1FFFFF04#32), (15, 0xA5A5A5A5#32)])) 16 0xdfbe (fun t =>
    t.memLoad .word 0x20000000 == 0xA5A5A5A5#32 && t.pc == 0x00001002#32) = true := by decide
theorem test_cLbu : ran (holding (withXw (start [(11, 0x20000000#32)]))) 16 0x2000 (fun t =>
    t.reg 10 == 0x00000088#32 && t.pc == 0x00001002#32) = true := by decide
theorem test_cLhu : ran (holding (withXw (start [(11, 0x20000000#32)]))) 16 0x2004 (fun t =>
    t.reg 10 == 0x00008877#32 && t.pc == 0x00001002#32) = true := by decide
theorem test_cSb : ran (holding (withXw (start [(11, 0x20000000#32), (10, 0x123456AB#32)]))) 16 0x6000 (fun t =>
    t.memLoad .word 0x20000000 == 0x8877AB80#32 && t.pc == 0x00001002#32) = true := by decide
theorem test_cSh : ran (holding (withXw (start [(11, 0x20000000#32), (10, 0x1234BEEF#32)]))) 16 0x6004 (fun t =>
    t.memLoad .word 0x20000000 == 0xBEEFF680#32 && t.pc == 0x00001002#32) = true := by decide
theorem test_cLbusp : ran (holding (withXw (start [(2, 0x20000000#32)]))) 16 0x2002 (fun t =>
    t.reg 10 == 0x00000077#32 && t.pc == 0x00001002#32) = true := by decide
theorem test_cLhusp : ran (holding (withXw (start [(2, 0x20000000#32)]))) 16 0x2006 (fun t =>
    t.reg 10 == 0x00008877#32 && t.pc == 0x00001002#32) = true := by decide
theorem test_cSbsp : ran (holding (withXw (start [(2, 0x20000000#32), (10, 0xFFFFFF01#32)]))) 16 0x6002 (fun t =>
    t.memLoad .word 0x20000000 == 0x8877F601#32 && t.pc == 0x00001002#32) = true := by decide
theorem test_cShsp : ran (holding (withXw (start [(2, 0x20000000#32), (10, 0xFFFF0201#32)]))) 16 0x6006 (fun t =>
    t.memLoad .word 0x20000000 == 0x88770201#32 && t.pc == 0x00001002#32) = true := by decide

/-! ### States that meet the hypotheses of the obligations

Each theorem shows the hypotheses of one obligation, or of each of its clauses, met together at a state and operands. -/

theorem of_answers {r : Res State} {p : State → Bool} (h : answers r p = true) : ∃ t, r = .next t ∧ p t = true := by
  unfold answers at h
  split at h
  · exact ⟨_, rfl, h⟩
  · cases h

/-- The state with an instruction word at the pc, about to run it. -/
def at32 (w : Nat) : State := (start []).withFetchWord 32 w

/-- `State.Executing` as a truth value. -/
def executes (s : State) : Bool :=
  decide (s.run = .running) && s.schedule.isEmpty && !s.resetReq && !s.dm.ndmreset && !s.dm.haltreq && !s.eabien &&
    (({ s with tailPop := false } : State).boundaryTrap s.tailPop).isNone

theorem executing_of {s : State} (h : executes s = true) : s.Executing := by
  simp only [executes, Bool.and_eq_true, decide_eq_true_eq, List.isEmpty_iff, Bool.not_eq_true',
    Option.isNone_iff_eq_none] at h
  obtain ⟨⟨⟨⟨⟨⟨a, b⟩, c⟩, d⟩, e⟩, f⟩, g⟩ := h
  exact ⟨a, b, c, d, e, f, g⟩

/-- `State.AtBoundary` as a truth value. -/
def atBoundaryB (s : State) : Bool :=
  s.schedule.isEmpty && !s.resetReq && !s.dm.ndmreset && !s.inDebug && !s.dm.haltreq && !s.eabien

theorem atBoundary_of {s : State} (h : atBoundaryB s = true) : s.AtBoundary := by
  simp only [atBoundaryB, Bool.and_eq_true, List.isEmpty_iff, Bool.not_eq_true'] at h
  obtain ⟨⟨⟨⟨⟨a, b⟩, c⟩, d⟩, e⟩, f⟩ := h
  exact ⟨a, b, c, d, e, f⟩

theorem witness_BaseEncodingRoundTrip : Instr.wf tableIsa (.jal 15 0x1FFFFE#21) = true ∧
    (encode tableIsa (.jal 15 0x1FFFFE#21)).length = 2 := by decide

theorem witness_CompressedEncodingRoundTrip :
    (Instr.wf tableIsa (.cAddi4spn 15 1020#10) = true ∧ (encode tableIsa (.cAddi4spn 15 1020#10)).length ≠ 2 ∧
      Instr.isXw (.cAddi4spn 15 1020#10) = false) ∧
    (Instr.wf xwIsa (.cLbu 10 11 3#32) = true ∧ (encode xwIsa (.cLbu 10 11 3#32)).length ≠ 2 ∧
      (xwWord xwIsa (.cLbu 10 11 3#32)).isSome = true) := by decide

theorem witness_DecodedInstructionsWellFormed : decode tableIsa [0xF2B7#16, 0xFFFF#16] = .ok (.lui 5 0xFFFFF#20, []) := by
  decide

/-- One word for each 32-bit format and each of its register fields at 16, two words of CSR instructions. -/
theorem witness_AbsentRegistersRefused_wide :
    (field 0x00208833#32 0 7 = 0b0110011#7 ∧ (0x00208833#32).getLsbD 11 = true) ∧
    (field 0x00180133#32 0 7 = 0b0110011#7 ∧ (0x00180133#32).getLsbD 19 = true) ∧
    (field 0x010080b3#32 0 7 = 0b0110011#7 ∧ (0x010080b3#32).getLsbD 24 = true) ∧
    (field 0x00000813#32 0 7 = 0b0010011#7 ∧ (0x00000813#32).getLsbD 11 = true) ∧
    (field 0x00080003#32 0 7 = 0b0000011#7 ∧ (0x00080003#32).getLsbD 19 = true) ∧
    (field 0x00000867#32 0 7 = 0b1100111#7 ∧ (0x00000867#32).getLsbD 11 = true) ∧
    (field 0x01000023#32 0 7 = 0b0100011#7 ∧ (0x01000023#32).getLsbD 24 = true) ∧
    (field 0x00080063#32 0 7 = 0b1100011#7 ∧ (0x00080063#32).getLsbD 19 = true) ∧
    (field 0x00000837#32 0 7 = 0b0110111#7 ∧ (0x00000837#32).getLsbD 11 = true) ∧
    (field 0x00000817#32 0 7 = 0b0010111#7 ∧ (0x00000817#32).getLsbD 11 = true) ∧
    (field 0x0000086f#32 0 7 = 0b1101111#7 ∧ (0x0000086f#32).getLsbD 11 = true) ∧
    (field 0x34005873#32 0 7 = 0b1110011#7 ∧ field 0x34005873#32 12 3 ≠ 0#3 ∧ (0x34005873#32).getLsbD 11 = true) ∧
    (field 0x34081073#32 0 7 = 0b1110011#7 ∧ field 0x34081073#32 12 3 ≠ 0#3 ∧
      (0x34081073#32).getLsbD 14 = false ∧ (0x34081073#32).getLsbD 19 = true) := by decide

/-- One 16-bit word for each row with a 5-bit register field, at 16. -/
theorem witness_AbsentRegistersRefused_narrow :
    (([0x0805, 0x4801, 0x6805, 0x0802, 0x4802, 0x8802] : List Nat).all fun n =>
      let h := BitVec.ofNat 16 n
      !xwCandidate h && h.getLsbD 11 &&
        decide ((field h 0 2, field h 13 3) ∈ [(0b01#2, 0b000#3), (0b01#2, 0b010#3), (0b01#2, 0b011#3),
          (0b10#2, 0b000#3), (0b10#2, 0b010#3), (0b10#2, 0b100#3)])) = true ∧
    (([0x80C2, 0xC042] : List Nat).all fun n =>
      let h := BitVec.ofNat 16 n
      !xwCandidate h && h.getLsbD 6 &&
        decide ((field h 0 2, field h 13 3) ∈ [(0b10#2, 0b100#3), (0b10#2, 0b110#3)])) = true := by decide

/-- A 32-bit and a 16-bit instruction that go on, one that stops with a fault and one that is refused. -/
def runsWide : State := at32 0xfff30293
def runsNarrow : State := (start []).withFetchWord 16 0x157d
def runsToFault : State := { at32 0x30200073 with mepc := 1#32 }
def runsToRefusal : State :=
  { at32 0x00032283 with
    cfg := { Config.atReset with memMap := [⟨0, 0x10, .device⟩, ⟨0x10, 0xDFFFFFF0, .ram⟩] } }

theorem witness_StepRunsDecodedInstruction_next :
    (runsWide.Executing ∧ runsWide.PcEven ∧ runsWide.Fetchable runsWide.pc ∧ runsWide.pc ≠ 0xFFFFFFFE#32 ∧
      runsWide.Fetchable (runsWide.pc + 2#32) ∧
      decode runsWide.cfg.isa [runsWide.parcelAt runsWide.pc, runsWide.parcelAt (runsWide.pc + 2#32)] =
        .ok (.addi 5 6 0xFFF#12, []) ∧
      answers (exec (.addi 5 6 0xFFF#12) { runsWide with tailPop := false }) (fun _ => true) = true) ∧
    (runsNarrow.Executing ∧ runsNarrow.PcEven ∧ runsNarrow.Fetchable runsNarrow.pc ∧
      decode runsNarrow.cfg.isa [runsNarrow.parcelAt runsNarrow.pc] = .ok (.cAddi 10 0x3F#6, []) ∧
      answers (exec (.cAddi 10 0x3F#6) { runsNarrow with tailPop := false }) (fun _ => true) = true) :=
  ⟨⟨executing_of (by decide), rfl, ⟨by decide, by decide, by decide⟩, by decide, ⟨by decide, by decide, by decide⟩,
      by decide, by decide⟩,
    ⟨executing_of (by decide), rfl, ⟨by decide, by decide, by decide⟩, by decide, by decide⟩⟩

theorem witness_StepRunsDecodedInstruction_stops :
    (runsToFault.Executing ∧ runsToFault.PcEven ∧ runsToFault.Fetchable runsToFault.pc ∧
      runsToFault.pc ≠ 0xFFFFFFFE#32 ∧ runsToFault.Fetchable (runsToFault.pc + 2#32) ∧
      decode runsToFault.cfg.isa [runsToFault.parcelAt runsToFault.pc, runsToFault.parcelAt (runsToFault.pc + 2#32)] =
        .ok (.mret, []) ∧ exec .mret { runsToFault with tailPop := false } = .fault .oddPc) ∧
    (runsToRefusal.Executing ∧ runsToRefusal.PcEven ∧ runsToRefusal.Fetchable runsToRefusal.pc ∧
      runsToRefusal.pc ≠ 0xFFFFFFFE#32 ∧ runsToRefusal.Fetchable (runsToRefusal.pc + 2#32) ∧
      decode runsToRefusal.cfg.isa [runsToRefusal.parcelAt runsToRefusal.pc,
        runsToRefusal.parcelAt (runsToRefusal.pc + 2#32)] = .ok (.lw 5 6 0#12, []) ∧
      exec (.lw 5 6 0#12) { runsToRefusal with tailPop := false } = .refused .platformDevice) :=
  ⟨⟨executing_of (by decide), rfl, ⟨by decide, by decide, by decide⟩, by decide, ⟨by decide, by decide, by decide⟩,
      by decide, rfl⟩,
    ⟨executing_of (by decide), rfl, ⟨by decide, by decide, by decide⟩, by decide, ⟨by decide, by decide, by decide⟩,
      by decide, rfl⟩⟩

/-- An unmapped pc, a 16-bit word that is no instruction, and the two ways a 32-bit one fails in its second half. -/
def runsUnmapped : State := { start [] with pc := 0xF0000000#32 }
def runsUndecodable16 : State := (start []).withFetchWord 16 0x0004
def runsUndecodable32 : State := at32 0x02031293
def runsOffTheEnd : State := ({ start [] with pc := 0xDFFFFFFE#32 } : State).withFetchWord 16 0x0003

theorem witness_UndecodableWordsTrap_narrow :
    (runsUnmapped.Executing ∧ runsUnmapped.PcEven ∧ runsUnmapped.stepBit = false ∧
      isMemory runsUnmapped.cfg runsUnmapped.pc.toNat = false) ∧
    (runsUndecodable16.Executing ∧ runsUndecodable16.PcEven ∧ runsUndecodable16.stepBit = false ∧
      runsUndecodable16.Fetchable runsUndecodable16.pc ∧
      isWide (runsUndecodable16.parcelAt runsUndecodable16.pc) = false ∧
      decode runsUndecodable16.cfg.isa [runsUndecodable16.parcelAt runsUndecodable16.pc] =
        .error .reservedCompressed) :=
  ⟨⟨executing_of (by decide), rfl, by decide, by decide⟩,
    ⟨executing_of (by decide), rfl, by decide, ⟨by decide, by decide, by decide⟩, by decide, by decide⟩⟩

theorem witness_UndecodableWordsTrap_wide :
    (runsOffTheEnd.Executing ∧ runsOffTheEnd.PcEven ∧ runsOffTheEnd.stepBit = false ∧
      runsOffTheEnd.Fetchable runsOffTheEnd.pc ∧ isWide (runsOffTheEnd.parcelAt runsOffTheEnd.pc) = true ∧
      runsOffTheEnd.pc ≠ 0xFFFFFFFE#32 ∧ isMemory runsOffTheEnd.cfg (runsOffTheEnd.pc + 2#32).toNat = false) ∧
    (runsUndecodable32.Executing ∧ runsUndecodable32.PcEven ∧ runsUndecodable32.stepBit = false ∧
      runsUndecodable32.Fetchable runsUndecodable32.pc ∧
      isWide (runsUndecodable32.parcelAt runsUndecodable32.pc) = true ∧ runsUndecodable32.pc ≠ 0xFFFFFFFE#32 ∧
      runsUndecodable32.Fetchable (runsUndecodable32.pc + 2#32) ∧
      decode runsUndecodable32.cfg.isa [runsUndecodable32.parcelAt runsUndecodable32.pc,
        runsUndecodable32.parcelAt (runsUndecodable32.pc + 2#32)] = .error .unknownFunction) :=
  ⟨⟨executing_of (by decide), rfl, by decide, ⟨by decide, by decide, by decide⟩, by decide, by decide, by decide⟩,
    ⟨executing_of (by decide), rfl, by decide, ⟨by decide, by decide, by decide⟩, by decide, by decide,
      ⟨by decide, by decide, by decide⟩, by decide⟩⟩

/-- Base registers at the last word of RAM, the first one, an odd address, and beyond RAM. -/
def atTop : State := start [(2, 0xDFFFFFFC#32), (6, 0xDFFFFFFC#32)]
def atBottom : State := start []
def atOdd : State := start [(2, 0x20000001#32), (6, 0x20000001#32)]
def beyond : State := start [(2, 0xFFFFFFFC#32), (6, 0xFFFFFFFC#32)]

/-- A plain access at a concrete state, from the fields of its definition. -/
theorem loads_of {s : State} {w : Width} {a : Word}
    (h : (decide (a.toNat % w.bytes = 0) && (List.range w.bytes).all fun k => isMemory s.cfg (a.toNat + k)) = true) :
    s.LoadsMemory w a := by
  simp only [Bool.and_eq_true, decide_eq_true_eq, List.all_eq_true, List.mem_range] at h
  exact h

theorem stores_of {s : State} {w : Width} {a : Word}
    (h : (decide (a.toNat % w.bytes = 0) && (List.range w.bytes).all fun k => isRam s.cfg (a.toNat + k)) = true) :
    s.StoresRam w a := by
  simp only [Bool.and_eq_true, decide_eq_true_eq, List.all_eq_true, List.mem_range] at h
  exact h

theorem witness_LoadResults : let ea := fun (s : State) (imm : BitVec 12) => BitVec.ofInt 32 ((s.reg 6).toInt + imm.toInt)
    atTop.LoadsMemory .byte (ea atTop 3#12) ∧ atTop.LoadsMemory .half (ea atTop 2#12) ∧
      atTop.LoadsMemory .word (ea atTop 0#12) ∧ atBottom.LoadsMemory .byte (ea atBottom 0#12) ∧
      atBottom.LoadsMemory .half (ea atBottom 0#12) ∧ atBottom.LoadsMemory .word (ea atBottom 0#12) :=
  ⟨loads_of (by decide), loads_of (by decide), loads_of (by decide), loads_of (by decide), loads_of (by decide),
    loads_of (by decide)⟩

theorem witness_StoreResults : let ea := fun (s : State) (imm : BitVec 12) => BitVec.ofInt 32 ((s.reg 6).toInt + imm.toInt)
    atTop.StoresRam .byte (ea atTop 3#12) ∧ atTop.StoresRam .half (ea atTop 2#12) ∧
      atTop.StoresRam .word (ea atTop 0#12) ∧ atBottom.StoresRam .byte (ea atBottom 0#12) ∧
      atBottom.StoresRam .half (ea atBottom 0#12) ∧ atBottom.StoresRam .word (ea atBottom 0#12) :=
  ⟨stores_of (by decide), stores_of (by decide), stores_of (by decide), stores_of (by decide), stores_of (by decide),
    stores_of (by decide)⟩

theorem witness_CompressedLoadResults :
    atTop.LoadsMemory .word (atTop.reg 6 + BitVec.ofNat 32 (0#7).toNat) ∧
      atTop.LoadsMemory .word (atTop.reg 2 + BitVec.ofNat 32 (0#8).toNat) ∧
      atTop.LoadsMemory .byte (atTop.reg 6 + 3#32) ∧ atTop.LoadsMemory .half (atTop.reg 6 + 2#32) ∧
      atTop.LoadsMemory .byte (atTop.reg 2 + 3#32) ∧ atTop.LoadsMemory .half (atTop.reg 2 + 2#32) :=
  ⟨loads_of (by decide), loads_of (by decide), loads_of (by decide), loads_of (by decide), loads_of (by decide),
    loads_of (by decide)⟩

theorem witness_CompressedStoreResults :
    atTop.StoresRam .word (atTop.reg 6 + BitVec.ofNat 32 (0#7).toNat) ∧
      atTop.StoresRam .word (atTop.reg 2 + BitVec.ofNat 32 (0#8).toNat) ∧
      atTop.StoresRam .byte (atTop.reg 6 + 3#32) ∧ atTop.StoresRam .half (atTop.reg 6 + 2#32) ∧
      atTop.StoresRam .byte (atTop.reg 2 + 3#32) ∧ atTop.StoresRam .half (atTop.reg 2 + 2#32) :=
  ⟨stores_of (by decide), stores_of (by decide), stores_of (by decide), stores_of (by decide), stores_of (by decide),
    stores_of (by decide)⟩

theorem witness_MisalignedAccessesTrap :
    ¬ State.Aligned .half (atOdd.reg 6 + (0#12).signExtend 32) ∧
      ¬ State.Aligned .word (atOdd.reg 6 + (1#12).signExtend 32) ∧
      ¬ State.Aligned .word (atOdd.reg 6 + (4#7).setWidth 32) ∧ ¬ State.Aligned .word (atOdd.reg 2 + (4#8).setWidth 32) ∧
      ¬ State.Aligned .half (atOdd.reg 6 + 2#32) ∧ ¬ State.Aligned .half (atOdd.reg 2 + 2#32) := by
  unfold State.Aligned; decide

/-- A failing access at a concrete state, from the fields of its definition. -/
theorem fails_of {s : State} {w : Width} {a : Word}
    (h : (decide (a.toNat % w.bytes = 0) && (List.range w.bytes).all fun k =>
      !inCoreWindow (a.toNat + k) && decide (regionKind s.cfg (a.toNat + k) = .unmapped)) = true) :
    s.AccessFails w a := by
  simp only [Bool.and_eq_true, decide_eq_true_eq, List.all_eq_true, List.mem_range, Bool.not_eq_true'] at h
  exact h

/-- The last byte, half-word and word of the address space, in a program and in the program buffer, and the first word
above RAM. -/
theorem witness_FailedAccessesRetire :
    beyond.AccessFails .byte (beyond.reg 6 + (3#12).signExtend 32) ∧
    beyond.AccessFails .half (beyond.reg 6 + (2#12).signExtend 32) ∧
    beyond.AccessFails .word (beyond.reg 6 + (0#12).signExtend 32) ∧
    beyond.AccessFails .word (beyond.reg 6 + (0#7).setWidth 32) ∧
    beyond.AccessFails .word (beyond.reg 2 + (0#8).setWidth 32) ∧
    beyond.AccessFails .byte (beyond.reg 6 + 3#32) ∧ beyond.AccessFails .half (beyond.reg 6 + 2#32) ∧
    beyond.AccessFails .byte (beyond.reg 2 + 3#32) ∧ beyond.AccessFails .half (beyond.reg 2 + 2#32) ∧
    atTop.AccessFails .word (atTop.reg 6 + (4#12).signExtend 32) ∧
    (let halted : State := { beyond with run := .haltedDebug };
      halted.inDebug = true ∧ halted.AccessFails .word (halted.reg 6 + (0#12).signExtend 32)) :=
  ⟨fails_of (by decide), fails_of (by decide), fails_of (by decide), fails_of (by decide), fails_of (by decide),
    fails_of (by decide), fails_of (by decide), fails_of (by decide), fails_of (by decide), fails_of (by decide),
    by decide, fails_of (by decide)⟩

theorem witness_StoredWordReadsBackInParts : atTop.StoresRam .word (atTop.reg 6 + (0#12).signExtend 32) :=
  stores_of (by decide)

/-! Fences, calls, CSR instructions -/

/-- An access error in flight. -/
def failing (e : AccessError) : State := { start [] with inflight := [e] }

/-- The hart in Debug mode. -/
def halted : State := { start [] with run := .haltedDebug }

theorem witness_FencesComplete : (start []).inflight = [] := rfl

theorem witness_MaskedInterruptsStayOutAfterFenceI :
    masking.inflight = [] ∧ masking.mie = false ∧ masking.pfic.enable.getLsbD 16 = false := by decide

theorem witness_FenceTakesAccessErrors :
    ((failing .load).inflight = AccessError.load :: [] ∧ (failing .load).EntersPlainly ∧ (failing .load).NoVtf 3) ∧
    ((failing .store).inflight = AccessError.store :: [] ∧ (failing .store).EntersPlainly ∧ (failing .store).NoVtf 3) :=
  ⟨⟨rfl, ⟨by decide, by decide, by decide, by decide, by decide⟩, by unfold State.NoVtf; decide⟩,
    ⟨rfl, ⟨by decide, by decide, by decide, by decide, by decide⟩, by unfold State.NoVtf; decide⟩⟩

/-- A level-2 handler about to return, with two access errors in flight. -/
def returningWithErrors : State := { inHandler with activeStack := [.exc, .irq 16], inflight := [.store, .load] }

/-- A program buffer that runs, with an access error in flight. -/
def bufferFailing : State :=
  { failing .load with run := .haltedDebug, dm := { DebugModule.reset with dmactive := true, busy := true } }

theorem witness_FenceTakesAccessErrors_mret :
    returningWithErrors.inflight = AccessError.store :: [.load] ∧ returningWithErrors.inDebug = false ∧
      returningWithErrors.nest ≤ 2 ∧ returningWithErrors.hwstken = false ∧
      returningWithErrors.mtvec.getLsbD 1 = false ∧ returningWithErrors.mtvec.extractLsb' 2 8 = 0#8 ∧
      returningWithErrors.NoVtf 3 ∧ returningWithErrors.mepc.getLsbD 0 = false ∧ returningWithErrors.mpop = false :=
  ⟨rfl, by decide, by decide, by decide, by decide, by decide, by unfold State.NoVtf; decide, by decide, by decide⟩

theorem witness_FenceTakesAccessErrors_debug : bufferFailing.inflight = AccessError.load :: [] ∧
    bufferFailing.inDebug = true ∧ bufferFailing.mepc.getLsbD 0 = false ∧ bufferFailing.mpop = false := by decide

theorem witness_CallsAndBreakpointsTrap :
    ((start []).EntersPlainly ∧ (start []).NoVtf 3 ∧ (start []).dcsr.getLsbD 15 = false) ∧
    (inHandler.EntersPlainly ∧ inHandler.NoVtf 3 ∧ inHandler.dcsr.getLsbD 15 = false) :=
  ⟨⟨⟨by decide, by decide, by decide, by decide, by decide⟩, by unfold State.NoVtf; decide, by decide⟩,
    ⟨⟨by decide, by decide, by decide, by decide, by decide⟩, by unfold State.NoVtf; decide, by decide⟩⟩

/-- A debugger has set `dcsr.ebreakm`. -/
def debugging : State := { start [] with dcsr := 0x40008003#32 }

theorem witness_BreakpointsServeTheDebugger :
    (debugging.inDebug = false ∧ debugging.dcsr.getLsbD 15 = true) ∧ halted.inDebug = true := by decide

/-- A readable and writable CSR, a read-only one that is only read, and a debug CSR in Debug mode. -/
theorem witness_CsrInstructionsComplete :
    (start []).CsrsShaped ∧ halted.CsrsShaped ∧ CsrAllowed (start []) 0x340#12 .mscratch true ∧
      CsrAllowed (start []) 0xF12#12 .marchid (decide ((0 : Reg) ≠ 0)) ∧
      CsrAllowed (start []) 0xF13#12 .mimpid (decide (0#5 ≠ 0#5)) ∧
      CsrAllowed (start []) 0x300#12 .mstatus (decide ((1 : Reg) ≠ 0)) ∧
      CsrAllowed (start []) 0x804#12 .intsyscr (decide (31#5 ≠ 0#5)) ∧ CsrAllowed halted 0x7B0#12 .dcsr true :=
  ⟨⟨by decide, by decide, by decide⟩, ⟨by decide, by decide, by decide⟩, ⟨by decide, by decide, by decide⟩,
    ⟨by decide, by decide, by decide⟩, ⟨by decide, by decide, by decide⟩, ⟨by decide, by decide, by decide⟩,
    ⟨by decide, by decide, by decide⟩, ⟨by decide, by decide, by decide⟩⟩

theorem witness_CsrViolationsTrap :
    csrAt 0x304#12 = none ∧ (csrAt 0x7B0#12 = some .dcsr ∧ Csr.debugOnly .dcsr = true ∧ (start []).inDebug = false) ∧
      (0xF12#12).extractLsb' 10 2 = 3#2 ∧ (1 : Reg) ≠ 0 ∧ 1#5 ≠ 0#5 := by decide

/-! Traps -/

theorem witness_TrapEntrySavesState : ∃ t, (start []).enterTrap .exc 11#32 0x1000#32 = .next t := by
  obtain ⟨t, h, _⟩ := of_answers (p := fun _ => true) (show answers ((start []).enterTrap .exc 11#32 0x1000#32) _ = true by
    decide)
  exact ⟨t, h⟩

/-- VTF channel 0 or 1 holds number 16. -/
def vtfOnChannel0 : State := { start [] with pfic := { Pfic.reset with vtfidr := 0x10#32, vtfaddr0 := 0xA01#32 } }
def vtfOnChannel1 : State := { start [] with pfic := { Pfic.reset with vtfidr := 0x1000#32, vtfaddr1 := 0xA01#32 } }

/-- A vector table of addresses at 0x400: numbers 3 and 16 go to 0x800. -/
def tableOfAddresses : State :=
  { start [] with
    mtvec := 0x403#32
    mem := [⟨0x40C, 0⟩, ⟨0x40D, 8⟩, ⟨0x40E, 0⟩, ⟨0x40F, 0⟩, ⟨0x440, 0⟩, ⟨0x441, 8⟩, ⟨0x442, 0⟩, ⟨0x443, 0⟩] }

theorem witness_TrapTargetsFollowVectors_vtf :
    (vtfOnChannel0.nest < 2 ∧ vtfOnChannel0.hwstken = false ∧ vtfOnChannel0.pfic.vtfaddr0.getLsbD 0 = true ∧
      (vtfOnChannel0.pfic.vtfidr.extractLsb' 0 8).toNat = (16 : Irq).val ∧
      vtfOnChannel0.pfic.vtfaddr1.getLsbD 0 = false) ∧
    (vtfOnChannel1.nest < 2 ∧ vtfOnChannel1.hwstken = false ∧ vtfOnChannel1.pfic.vtfaddr1.getLsbD 0 = true ∧
      (vtfOnChannel1.pfic.vtfidr.extractLsb' 8 8).toNat = (16 : Irq).val ∧
      vtfOnChannel1.pfic.vtfaddr0.getLsbD 0 = false) := by decide

theorem witness_TrapTargetsFollowVectors_mtvec :
    ((start []).nest < 2 ∧ (start []).hwstken = false ∧ (start []).mtvec.extractLsb' 2 8 = 0#8 ∧
      (start []).mtvec.getLsbD 1 = false ∧ (start []).NoVtf (16 : Irq).val) ∧
    (tableOfAddresses.nest < 2 ∧ tableOfAddresses.hwstken = false ∧ tableOfAddresses.mtvec.extractLsb' 2 8 = 0#8 ∧
      tableOfAddresses.mtvec.getLsbD 1 = true ∧ tableOfAddresses.NoVtf (16 : Irq).val ∧ tableOfAddresses.NoVtf 3 ∧
      tableOfAddresses.LoadsMemory .word (tableOfAddresses.entryOf (16 : Irq).val) ∧
      tableOfAddresses.memNat .word (tableOfAddresses.entryOf (16 : Irq).val).toNat % 2 = 0 ∧
      tableOfAddresses.LoadsMemory .word (tableOfAddresses.entryOf 3) ∧
      tableOfAddresses.memNat .word (tableOfAddresses.entryOf 3).toNat % 2 = 0) :=
  ⟨⟨by decide, by decide, by decide, by decide, by unfold State.NoVtf; decide⟩,
    ⟨by decide, by decide, by decide, by decide, by unfold State.NoVtf; decide, by unfold State.NoVtf; decide,
      loads_of (by decide), by decide, loads_of (by decide), by decide⟩⟩

theorem stores_all {s : State} {n : Nat} {f : Nat → Word} (h : ((List.range n).all fun k =>
    decide ((f k).toNat % 4 = 0) && (List.range 4).all fun j => isRam s.cfg ((f k).toNat + j)) = true) :
    ∀ k, k < n → s.StoresRam .word (f k) :=
  fun k hk => stores_of (List.all_eq_true.mp h k (List.mem_range.mpr hk))

theorem loads_all {s : State} {n : Nat} {f : Nat → Word} (h : ((List.range n).all fun k =>
    decide ((f k).toNat % 4 = 0) && (List.range 4).all fun j => isMemory s.cfg ((f k).toNat + j)) = true) :
    ∀ k, k < n → s.LoadsMemory .word (f k) :=
  fun k hk => loads_of (List.all_eq_true.mp h k (List.mem_range.mpr hk))

/-- HPE on, with the stack pointer at the first place that leaves room for a frame, and with a misaligned one. -/
def stacking (sp : Word) : State := { start [(2, sp)] with intsyscr := 1#32 }

theorem witness_HpePushesFrame :
    ((stacking 48#32).nest < 2 ∧ (stacking 48#32).hwstken = true ∧ ((stacking 48#32).reg 2).toNat % 4 = 0 ∧
      (∀ k, k < 12 → (stacking 48#32).StoresRam .word (hpeSlot ((stacking 48#32).reg 2) k)) ∧
      (stacking 48#32).mtvec.extractLsb' 2 8 = 0#8 ∧ (stacking 48#32).mtvec.getLsbD 1 = false ∧
      (stacking 48#32).NoVtf 3) ∧
    (stacking 48#32).NoVtf (255 : Irq).val ∧
    ((stacking 50#32).nest < 2 ∧ (stacking 50#32).hwstken = true ∧ ((stacking 50#32).reg 2).toNat % 4 ≠ 0) :=
  ⟨⟨by decide, by decide, by decide, stores_all (by decide), by decide,
      by decide, by unfold State.NoVtf; decide⟩, by unfold State.NoVtf; decide, by decide⟩

theorem witness_TrapReturnRestores : inHandler.mepc.getLsbD 0 = false ∧ inHandler.mpop = false ∧ inHandler.inflight = [] := by
  decide

/-- A level-1 handler about to pop the frame at the bottom of RAM. -/
def popping : State := { inHandler with mstatus := 0x00801880#32 }

theorem witness_TrapReturnPopsFrame : popping.mepc.getLsbD 0 = false ∧ popping.mpop = true ∧ popping.inflight = [] ∧
    (popping.reg 2).toNat % 4 = 0 ∧ ∀ k, k < 10 → popping.LoadsMemory .word (hpeSlot (popping.reg 2 + 48#32) k) :=
  ⟨by decide, by decide, by decide, by decide, loads_all (by decide)⟩

/-! Interrupts -/

/-- Interrupt 16 pends and is enabled, of priority 0x40. -/
def interrupted : State :=
  { start [] with
    mstatus := 0x1808#32
    mieEff := true
    pfic :=
      { Pfic.reset with
        enable := 0x1000C#256
        enableEff := 0x1000C#256
        request := 0x10000#256
        prio := Pfic.reset.prio.set 16 0x40#8 } }

theorem witness_BestInterruptIsTaken : interrupted.bestIrq = some 16 ∧ (start []).bestIrq = none := by decide +kernel

theorem witness_InterruptsAreTakenAtBoundaries : interrupted.AtBoundary ∧ interrupted.stepBit = false ∧
    interrupted.nmiDeliverable = false ∧ interrupted.inflight = [] ∧ interrupted.bestIrq = some 16 ∧
    interrupted.hwstken = false ∧ interrupted.mtvec.extractLsb' 2 8 = 0#8 ∧ interrupted.mtvec.getLsbD 1 = false ∧
    interrupted.NoVtf (16 : Irq).val :=
  ⟨atBoundary_of (by decide), by decide, by decide, by decide, by decide +kernel, by decide, by decide, by decide,
    by unfold State.NoVtf; decide⟩

/-- NMI pends, outside and inside a handler. -/
def nmiPends (stack : List TrapId) : State :=
  { start [] with pfic := { Pfic.reset with pendLatch := 4#256 }, activeStack := stack }

theorem witness_NmiIsNotMaskable :
    ((nmiPends []).AtBoundary ∧ (nmiPends []).stepBit = false ∧ (nmiPends []).pending.getLsbD 2 = true ∧
      (nmiPends []).activeStack = [] ∧ (nmiPends []).hwstken = false ∧ (nmiPends []).mtvec.extractLsb' 2 8 = 0#8 ∧
      (nmiPends []).mtvec.getLsbD 1 = false ∧ (nmiPends []).NoVtf 2) ∧
    ((nmiPends [.exc]).AtBoundary ∧ (nmiPends [.exc]).stepBit = false ∧ (nmiPends [.exc]).pending.getLsbD 2 = true ∧
      (nmiPends [.exc]).activeStack = [.exc] ∧ TrapId.exc ≠ .irq 2 ∧ (nmiPends [.exc]).hwstken = false ∧
      (nmiPends [.exc]).mtvec.extractLsb' 2 8 = 0#8 ∧ (nmiPends [.exc]).mtvec.getLsbD 1 = false ∧
      (nmiPends [.exc]).NoVtf 2) :=
  ⟨⟨atBoundary_of (by decide), by decide, by decide, by decide, by decide, by decide, by decide,
      by unfold State.NoVtf; decide⟩,
    ⟨atBoundary_of (by decide), by decide, by decide, by decide, by decide, by decide, by decide, by decide,
      by unfold State.NoVtf; decide⟩⟩

/-! Devices -/

/-- The base register x6 holds a device address. -/
def pointing (a : Word) : State := start [(6, a), (7, 8#32)]

theorem witness_EnableRegistersSetAndClear :
    (pointing 0xE000E100#32).reg 6 + (0#12).signExtend 32 = BitVec.ofNat 32 (0xE000E100 + 4 * (0 : Fin 8).val) ∧
    (pointing 0xE000E11C#32).reg 6 + (0#12).signExtend 32 = BitVec.ofNat 32 (0xE000E100 + 4 * (7 : Fin 8).val) ∧
    (pointing 0xE000E180#32).reg 6 + (0#12).signExtend 32 = BitVec.ofNat 32 (0xE000E180 + 4 * (0 : Fin 8).val) ∧
    (pointing 0xE000E19C#32).reg 6 + (0#12).signExtend 32 = BitVec.ofNat 32 (0xE000E180 + 4 * (7 : Fin 8).val) := by
  decide

theorem witness_PendingRegistersSetAndClear :
    ((pointing 0xE000E200#32).reg 6 + (0#12).signExtend 32 = BitVec.ofNat 32 (0xE000E200 + 4 * (0 : Fin 8).val) ∧
      ((pointing 0xE000E200#32).reg 2).getLsbD 3 = false) ∧
    (pointing 0xE000E21C#32).reg 6 + (0#12).signExtend 32 = BitVec.ofNat 32 (0xE000E200 + 4 * (7 : Fin 8).val) ∧
    ((pointing 0xE000E200#32).reg 6 + (0#12).signExtend 32 = BitVec.ofNat 32 0xE000E200 ∧
      ((pointing 0xE000E200#32).reg 7).getLsbD 3 = true) ∧
    (pointing 0xE000E280#32).reg 6 + (0#12).signExtend 32 = BitVec.ofNat 32 (0xE000E280 + 4 * (0 : Fin 8).val) ∧
    (pointing 0xE000E29C#32).reg 6 + (0#12).signExtend 32 = BitVec.ofNat 32 (0xE000E280 + 4 * (7 : Fin 8).val) := by
  decide

theorem witness_PriorityBytesReadBack :
    ((12 : Irq).val ≠ 2 ∧ (12 : Irq).val ≠ 3 ∧ (irqValid (pointing 0xE000E40C#32).cfg).getLsbD 12 = true ∧
      (pointing 0xE000E40C#32).reg 6 + (0#12).signExtend 32 = BitVec.ofNat 32 (0xE000E400 + (12 : Irq).val)) ∧
    ((255 : Irq).val ≠ 2 ∧ (255 : Irq).val ≠ 3 ∧ (irqValid (pointing 0xE000E4FF#32).cfg).getLsbD 255 = true ∧
      (pointing 0xE000E4FF#32).reg 6 + (0#12).signExtend 32 = BitVec.ofNat 32 (0xE000E400 + (255 : Irq).val)) := by
  decide

theorem witness_DeviceRegistersReadBack :
    (pointing 0xE000E040#32).reg 6 + (0#12).signExtend 32 = 0xE000E040#32 ∧
      (pointing 0xE000ED10#32).reg 6 + (0#12).signExtend 32 = 0xE000ED10#32 ∧
      (pointing 0xE00000F8#32).reg 6 + (0#12).signExtend 32 = 0xE00000F8#32 := by decide

theorem witness_GlobalStatusShowsNesting : (pointing 0xE000E04C#32).NestOk ∧
    (pointing 0xE000E04C#32).reg 6 + (0#12).signExtend 32 = 0xE000E04C#32 := by
  unfold State.NestOk; decide

theorem witness_TimerFlagClearsOnZero : (pointing 0xE000F004#32).reg 6 + (0#12).signExtend 32 = 0xE000F004#32 := by
  decide

theorem witness_TimerLinesPend : (pointing 0xE000F000#32).reg 6 + (0#12).signExtend 32 = 0xE000F000#32 := by decide

/-- SysTick with the control bits, count and comparison value given, and one of the two ways of reloading. -/
def timing (ctlr cntr cmpr : Word) (after : Bool) : State :=
  { start [] with
    cfg := { Config.atReset with stkReloadAfterMatch := after }
    stk := { ctlr := ctlr, cntif := false, cntr := cntr, cmpr := cmpr } }

/-- STE 0; Debug mode with stoptime; no auto-reload at the wrap; auto-reload in both ways with the least comparison
value. -/
theorem witness_SysTickPeriod :
    (timing 8#32 0#32 1#32 true).stk.ctlr.getLsbD 0 = false ∧
    (let stopped : State := { timing 1#32 0#32 1#32 true with run := .haltedDebug, dcsr := 0x40000203#32 };
      stopped.inDebug = true ∧ stopped.dcsr.getLsbD 9 = true) ∧
    (let s := timing 1#32 0xFFFFFFFF#32 0#32 true;
      s.stk.ctlr.getLsbD 0 = true ∧ s.inDebug = false ∧ s.stk.ctlr.getLsbD 3 = false) ∧
    ([true, false].all fun after =>
      let s := timing 9#32 0#32 1#32 after
      s.stk.ctlr.getLsbD 0 && !s.inDebug && s.stk.ctlr.getLsbD 3 && s.stk.cntr == 0#32 && s.stk.cmpr != 0#32 &&
        s.cfg.stkReloadAfterMatch == after) = true := by decide

/-! Sleep, reset, debug -/

/-- PFIC_SCTLR holds a value. -/
def controlled (v : Word) (event : Bool) : State := { start [] with pfic := { Pfic.reset with sctlr := v }, event := event }

theorem witness_WaitForInterruptSleeps :
    (halted.inflight = [] ∧ halted.inDebug = true) ∧
    ((controlled 4#32 false).inflight = [] ∧ (controlled 4#32 false).inDebug = false ∧
      (controlled 4#32 false).wfiToWfe = false) ∧
    ((controlled 8#32 true).inflight = [] ∧ (controlled 8#32 true).inDebug = false ∧
      (controlled 8#32 true).wfiToWfe = true ∧ (controlled 8#32 true).event = true) ∧
    ((controlled 8#32 false).inflight = [] ∧ (controlled 8#32 false).inDebug = false ∧
      (controlled 8#32 false).wfiToWfe = true ∧ (controlled 8#32 false).event = false) := by decide

/-- Asleep, with an event latched or not, and with an interrupt that MIE holds back or not. -/
def asleep (run : RunState) (event pends : Bool) : State :=
  { start [] with
    run := run
    event := event
    pfic := { Pfic.reset with enable := 0x1000C#256, enableEff := 0x1000C#256, request := if pends then 0x10000#256 else 0#256 } }

/-- No trap at the boundary, as a truth value. -/
def quiet (s : State) : Bool := (({ s with tailPop := false } : State).boundaryTrap s.tailPop).isNone

theorem quiet_of {s : State} (h : quiet s = true) : ({ s with tailPop := false } : State).boundaryTrap s.tailPop = none :=
  Option.isNone_iff_eq_none.mp h

/-- A WFE sleep with an event latched, and a WFI sleep with an interrupt that only MIE holds back. -/
def wokenByEvent : State := asleep .sleepingWfe true false
def heldBack : State := asleep .sleepingWfi false true
def soundAsleep : State := asleep .sleepingWfe false false

theorem witness_SleepEndsOnlyByWakeUps :
    (wokenByEvent.AtBoundary ∧
      ({ wokenByEvent with tailPop := false } : State).boundaryTrap wokenByEvent.tailPop = none ∧
      wokenByEvent.run = .sleepingWfe ∧ wokenByEvent.event = true) ∧
    (heldBack.AtBoundary ∧ ({ heldBack with tailPop := false } : State).boundaryTrap heldBack.tailPop = none ∧
      heldBack.run = .sleepingWfi ∧ heldBack.maskedPending = true) ∧
    (soundAsleep.AtBoundary ∧
      ({ soundAsleep with tailPop := false } : State).boundaryTrap soundAsleep.tailPop = none ∧
      soundAsleep.run = .sleepingWfe ∧ soundAsleep.event = false ∧ soundAsleep.maskedPending = false) :=
  ⟨⟨atBoundary_of (by decide), quiet_of (by decide), rfl, rfl⟩,
    ⟨atBoundary_of (by decide), quiet_of (by decide), rfl, by decide⟩,
    ⟨atBoundary_of (by decide), quiet_of (by decide), rfl, rfl, by decide⟩⟩

/-- A SYSRESET store has been executed. -/
def resetting : State := { start [(1, 5#32)] with resetReq := true, mscratch := 7#32 }

theorem witness_SystemResetLeavesResetValues :
    (resetting.schedule = [] ∧ resetting.resetReq = true ∧ resetting.haltOnReset = false) ∧
    (pointing 0xE000E048#32).reg 6 + (0#12).signExtend 32 = 0xE000E048#32 ∧
    (pointing 0xE000ED10#32).reg 6 + (0#12).signExtend 32 = 0xE000ED10#32 := by decide

/-- A store to PFIC_CFGR with KEY3 and SYSRESET requests the reset, one with another key does not (61_pfic.md R433). -/
theorem test_sysreset_key :
    (answers (exec (.sw 7 6 0#12) (start [(6, 0xE000E048#32), (7, 0xBEEF0080#32)])) fun t => t.resetReq) = true ∧
    (answers (exec (.sw 7 6 0#12) (start [(6, 0xE000E048#32), (7, 0xFA050080#32)])) fun t => !t.resetReq) = true := by
  decide

/-- The debug host asks the hart to halt. -/
def haltAsked : State := { start [] with dm := { DebugModule.reset with haltreq := true, dmactive := true } }

/-- The same for a hart that sleeps. -/
def haltAskedAsleep (run : RunState) (deep : Bool) : State := { haltAsked with run := run, deepSleep := deep }

theorem witness_HaltRequestEntersDebugMode :
    ([haltAsked, haltAskedAsleep .sleepingWfi false, haltAskedAsleep .sleepingWfe false].all fun s =>
      s.schedule.isEmpty && !s.resetReq && !s.dm.ndmreset && !s.inDebug && s.dm.haltreq && !s.deepSleep) = true := by
  decide

theorem witness_HaltRequestEntersDebugMode_deep :
    ([haltAskedAsleep .sleepingWfi true, haltAskedAsleep .sleepingWfe true].all fun s =>
      s.schedule.isEmpty && !s.resetReq && !s.dm.ndmreset && !s.inDebug && s.dm.haltreq && s.deepSleep && !s.eabien &&
        quiet s && !s.maskedPending && !s.event && answers (step s) fun _ => true) = true := by decide

/-- Halted, with the debug module active and `dpc` at 0x124. -/
def haltedActive : State := { halted with dpc := 0x124#32, dm := { DebugModule.reset with dmactive := true } }

theorem witness_ResumeContinuesAtDpc : haltedActive.inDebug = true ∧ haltedActive.dm.busy = false ∧
    haltedActive.dm.ndmreset = false ∧ haltedActive.dcsr.extractLsb' 0 2 = 3#2 ∧ haltedActive.dpc.getLsbD 0 = false ∧
    (0x40000001#32).getLsbD 0 = true ∧ (0x40000001#32).getLsbD 30 = true ∧ (0x40000001#32).getLsbD 1 = false := by
  decide

theorem witness_AbstractRegisterAccess : haltedActive.inDebug = true ∧ haltedActive.dm.busy = false ∧
    haltedActive.dm.dmactive = true := by decide

/-- EXC has no request line: a line raised at its number is not pending (00_scope.md R9, 61_pfic.md R441). -/
theorem test_exc_has_no_line :
    (answers ((start []).applyEvent (.setRequest 3 true)) fun t => t.pending == 0#256) = true ∧
    (answers ((start []).applyEvent (.setRequest 2 true)) fun t => t.pending == 4#256) = true := by decide +kernel

/-- A failing load in the program buffer retires and the buffer runs on (64_debug.md R534, 20_memory.md R95). -/
theorem test_buffer_load_retires :
    (answers (exec (.lw 5 6 0#12) { beyond with run := .haltedDebug, dm := { DebugModule.reset with busy := true } }) fun t =>
      t.dm.busy && t.inflight == [.load] && t.pc == 0x1004#32) = true := by decide

/-! Invariants -/

theorem steps_of {s : State} (h : answers (step s) (fun _ => true) = true) : ∃ t, step s = .next t :=
  let ⟨t, ht, _⟩ := of_answers h
  ⟨t, ht⟩

/-- A store, a CSR write, a trap and an `mret`, each about to be stepped. -/
def storing : State := (start [(6, 0x20000000#32), (7, 5#32)]).withFetchWord 32 0x00732023

theorem witness_StepKeepsMemoryCanonical : storing.MemOk ∧ ∃ t, step storing = .next t :=
  ⟨by unfold State.MemOk; decide, steps_of (by decide)⟩

theorem witness_StepKeepsCsrShapes : (at32 0x30046073).CsrsShaped ∧ ∃ t, step (at32 0x30046073) = .next t :=
  ⟨⟨by decide, by decide, by decide⟩, steps_of (by decide)⟩

theorem witness_StepKeepsTwoNestingLevels : (at32 0x00000073).NestOk ∧ ∃ t, step (at32 0x00000073) = .next t :=
  ⟨by unfold State.NestOk; decide, steps_of (by decide)⟩

theorem witness_StepKeepsPcEven : (at32 0xffdff06f).CfgOk ∧ (at32 0xffdff06f).PcEven ∧ ∃ t, step (at32 0xffdff06f) = .next t :=
  ⟨by unfold State.CfgOk; decide, by unfold State.PcEven; decide, steps_of (by decide)⟩

theorem witness_StepKeepsInterruptMasks :
    (at32 0x30046073).MasksLag ∧ (at32 0x30046073).FixedEnabled ∧ ∃ t, step (at32 0x30046073) = .next t :=
  ⟨⟨by decide, by decide⟩, by unfold State.FixedEnabled; decide, steps_of (by decide)⟩

theorem devicesShaped_of {s : State}
    (h : (decide (s.pfic.ithresdr &&& 0xFFFFFF3F#32 = 0#32) && decide (s.pfic.vtfidr &&& 0xFFFF0000#32 = 0#32) &&
      decide (s.pfic.sctlr &&& 0xFFFFFFE1#32 = 0#32) && s.pfic.prio.toList.all (fun p => p &&& 0x3F#8 == 0#8) &&
      decide (s.stk.ctlr &&& 0x7FFFFFF0#32 = 0#32)) = true) : s.DevicesShaped := by
  simp only [Bool.and_eq_true, decide_eq_true_eq, List.all_eq_true, beq_iff_eq] at h
  obtain ⟨⟨⟨⟨a, b⟩, c⟩, d⟩, e⟩ := h
  exact ⟨a, b, c, fun n => d _ (by simp [Vector.mem_toList_iff]), e⟩

theorem witness_StepKeepsDeviceShapes : interrupted.DevicesShaped ∧ ∃ t, step interrupted = .next t :=
  ⟨devicesShaped_of (by decide +kernel), steps_of (by decide +kernel)⟩

/-- The trap of a failed access falls due at this boundary. -/
def fallingDue : State := { failing .load with schedule := [[.takeError]] }

theorem witness_StepKeepsQueues : fallingDue.QueuesOk ∧ ∃ t, step fallingDue = .next t :=
  ⟨⟨by decide, by decide⟩, steps_of (by decide)⟩

theorem witness_ResetMeetsInvariants : Config.atReset.wf = true := by decide

/-- Memory right after reset has its canonical form. -/
theorem test_reset_memory : State.reset.mem.wf = true := by decide

end Sys2Proof.Tests
end

section
/-!
SUPPORT. The invariants of the step that 10_state.md gives (R27, R35 to R48, R53 to R55), each shown change by change,
and the values after reset (R60).
-/

namespace Sys2Proof.Machine

/-! ### What the changes leave alone -/

namespace State

@[simp] theorem csrWrite_cfg (s : State) (c : Csr) (v : Word) : (s.csrWrite c v).cfg = s.cfg := by cases c <;> rfl
@[simp] theorem csrWrite_pc (s : State) (c : Csr) (v : Word) : (s.csrWrite c v).pc = s.pc := by cases c <;> rfl
@[simp] theorem csrWrite_pfic (s : State) (c : Csr) (v : Word) : (s.csrWrite c v).pfic = s.pfic := by cases c <;> rfl
@[simp] theorem csrWrite_activeStack (s : State) (c : Csr) (v : Word) :
    (s.csrWrite c v).activeStack = s.activeStack := by
  cases c <;> rfl

end State

/-- No change touches the parameters (00_scope.md R9). -/
theorem Change.cfg_eq {s t : State} (h : Change s t) : t.cfg = s.cfg := by
  cases h
  case reg => simp
  case csr => simp
  all_goals rfl

/-! ### The shapes of the CSRs (10_state.md R35, R36, R44, R45, R48) -/

/-- Replacing the bits of a mask keeps every fixed bit outside it. -/
theorem fixedBits_replaced (d v mask fixed k : Word) (hm : mask &&& fixed = 0#32) (h : d &&& fixed = k) :
    ((d &&& ~~~mask) ||| (v &&& mask)) &&& fixed = k := by
  apply BitVec.eq_of_getLsbD_eq
  intro i hi
  have hmi := congrArg (fun b => b.getLsbD i) hm
  have hki := congrArg (fun b => b.getLsbD i) h
  simp only [BitVec.getLsbD_and, BitVec.getLsbD_or, BitVec.getLsbD_not, BitVec.getLsbD_zero, hi] at hmi hki ⊢
  grind

/-- Entering Debug mode writes `dcsr.cause` and `dcsr.prv`, which are no fixed bits (64_debug.md R540). -/
theorem dcsrEntered_fixed (d : Word) (cause : BitVec 3) (h : d &&& 0xFFFF6438#32 = 0x40000000#32) :
    dcsrEntered d cause &&& 0xFFFF6438#32 = 0x40000000#32 := by
  have hc : (cause.setWidth 32 <<< 6) &&& 0xFFFF6438#32 = 0#32 := by
    revert cause; decide
  have hd : (d &&& 0xFFFFFE3C#32) &&& 0xFFFF6438#32 = 0x40000000#32 := by
    rw [BitVec.and_assoc]; exact h
  have hp : 3#32 &&& 0xFFFF6438#32 = 0#32 := by decide
  unfold dcsrEntered
  rw [BitVec.and_or_distrib_right, BitVec.and_or_distrib_right, hd, hc, hp]
  rfl

namespace State

theorem atReset_csrsShaped (c : Config) : (atReset c).CsrsShaped where
  mstatus := by simp [atReset]
  intsyscr := by simp [atReset]
  dcsr := (by decide : 0x40000003#32 &&& 0xFFFF6438#32 = 0x40000000#32)

theorem CsrsShaped.congr {s t : State} (hs : s.CsrsShaped) (hm : t.mstatus = s.mstatus)
    (hi : t.intsyscr = s.intsyscr) (hd : t.dcsr = s.dcsr) : t.CsrsShaped :=
  ⟨hm ▸ hs.mstatus, hi ▸ hs.intsyscr, hd ▸ hs.dcsr⟩

/-- A CSR write takes only the writable bits (10_state.md R48). -/
theorem CsrsShaped.csrWrite {s : State} (hs : s.CsrsShaped) (c : Csr) (v : Word) : (s.csrWrite c v).CsrsShaped := by
  cases c
  case mstatus => exact ⟨mstatusOf_fixed _ _ _ _, hs.intsyscr, hs.dcsr⟩
  case intsyscr => exact ⟨hs.mstatus, masked32 v _ _ (by decide), hs.dcsr⟩
  case dcsr => exact ⟨hs.mstatus, hs.intsyscr, fixedBits_replaced _ v _ _ _ (by decide) hs.dcsr⟩
  all_goals exact hs.congr rfl rfl rfl

theorem CsrsShaped.change {s t : State} (hs : s.CsrsShaped) (h : Change s t) : t.CsrsShaped := by
  cases h
  case reg => exact hs.congr (by simp) (by simp) (by simp)
  case csr c v => exact hs.csrWrite c v
  case status => exact ⟨mstatusOf_fixed _ _ _ _, hs.intsyscr, hs.dcsr⟩
  case debug c _ => exact ⟨hs.mstatus, hs.intsyscr, dcsrEntered_fixed _ c hs.dcsr⟩
  case systemReset => exact ⟨(atReset_csrsShaped s.cfg).mstatus, (atReset_csrsShaped s.cfg).intsyscr, hs.dcsr⟩
  case powerReset => exact (atReset_csrsShaped s.cfg).congr rfl rfl rfl
  all_goals exact hs.congr rfl rfl rfl

/-! ### At most two levels of traps (10_state.md R53, R54) -/

theorem atReset_nestOk (c : Config) : (atReset c).NestOk := Nat.zero_le 2

theorem NestOk.congr {s t : State} (hs : s.NestOk) (h : t.activeStack = s.activeStack) : t.NestOk := by
  unfold NestOk nest
  rw [h]
  exact hs

theorem NestOk.change {s t : State} (hs : s.NestOk) (h : Change s t) : t.NestOk := by
  cases h
  case reg => exact hs.congr (by simp)
  case csr => exact hs.congr (by simp)
  case trap k hn => exact Nat.succ_le_of_lt hn
  case untrap =>
    have hle : s.activeStack.tail.length ≤ s.activeStack.length := List.tail_sublist _ |>.length_le
    exact hle.trans hs
  case systemReset => exact (atReset_nestOk s.cfg).congr rfl
  case powerReset => exact (atReset_nestOk s.cfg).congr rfl
  all_goals exact hs.congr rfl

/-! ### The pc is even (10_state.md R27) -/

theorem PcEven.congr {s t : State} (hs : s.PcEven) (h : t.pc = s.pc) : t.PcEven := by
  unfold PcEven
  rw [h]
  exact hs

theorem CfgOk.resetPc_even {s : State} (h : s.CfgOk) : s.cfg.resetPc.getLsbD 0 = false := by
  simp only [CfgOk, Config.wf, Bool.and_eq_true, Bool.not_eq_true'] at h
  exact h.1

theorem CfgOk.progbufBase_even {s : State} (h : s.CfgOk) : s.cfg.progbufBase.getLsbD 0 = false := by
  simp only [CfgOk, Config.wf, Bool.and_eq_true, Bool.not_eq_true'] at h
  exact h.2

theorem CfgOk.change {s t : State} (hs : s.CfgOk) (h : Change s t) : t.CfgOk := by
  unfold CfgOk
  rw [h.cfg_eq]
  exact hs

theorem PcEven.change {s t : State} (hc : s.CfgOk) (hs : s.PcEven) (h : Change s t) : t.PcEven := by
  cases h
  case reg => exact hs.congr (by simp)
  case csr => exact hs.congr (by simp)
  case move off ho => exact even_add _ _ hs ho
  case jump a ha => exact ha
  case progbuf => exact hc.progbufBase_even
  case systemReset => exact hc.resetPc_even
  case powerReset => exact hc.resetPc_even
  all_goals exact hs.congr rfl

/-! ### The core's interrupt masks (10_state.md R55, 61_pfic.md R443) -/

theorem atReset_masksLag (c : Config) : (atReset c).MasksLag where
  enable := by simp [atReset, Pfic.reset]
  mie := by simp [mie, atReset]

theorem atReset_fixedEnabled (c : Config) : (atReset c).FixedEnabled := by
  simp [FixedEnabled, atReset, Pfic.reset, fixedIrqs]

theorem MasksLag.congr {s t : State} (hs : s.MasksLag) (hp : t.pfic = s.pfic) (hm : t.mstatus = s.mstatus)
    (he : t.mieEff = s.mieEff) : t.MasksLag where
  enable := hp ▸ hs.enable
  mie := by
    unfold State.mie
    rw [hm, he]
    exact hs.mie

/-- Setting MIE by a CSR write reaches the core at once (70_reset_and_hazards.md R575). -/
theorem MasksLag.csrWrite {s : State} (hs : s.MasksLag) (c : Csr) (v : Word) : (s.csrWrite c v).MasksLag := by
  cases c
  case mstatus =>
    refine ⟨hs.enable, fun hm => ?_⟩
    have hv : v.getLsbD 3 = true := (mie_of (s.writeMstatus v) rfl).symm.trans hm
    show (s.mieEff || v.getLsbD 3) = true
    rw [hv, Bool.or_true]
  all_goals exact hs.congr rfl rfl rfl

theorem MasksLag.change {s t : State} (hs : s.MasksLag) (h : Change s t) : t.MasksLag := by
  cases h
  case reg => exact hs.congr (by simp) (by simp) (by simp)
  case csr c v => exact hs.csrWrite c v
  case status a b c d e he => exact ⟨hs.enable, fun hm => he hs.mie ((mie_of _ rfl).symm.trans hm)⟩
  case maskCopy e he => exact ⟨hs.enable, he hs.mie⟩
  case pfic p hl _ _ => exact ⟨hl hs.enable, hs.mie⟩
  case systemReset => exact (atReset_masksLag s.cfg).congr rfl rfl rfl
  case powerReset => exact (atReset_masksLag s.cfg).congr rfl rfl rfl
  all_goals exact hs.congr rfl rfl rfl

theorem FixedEnabled.congr {s t : State} (hs : s.FixedEnabled) (h : t.pfic = s.pfic) : t.FixedEnabled := by
  unfold FixedEnabled
  rw [h]
  exact hs

theorem FixedEnabled.change {s t : State} (hs : s.FixedEnabled) (h : Change s t) : t.FixedEnabled := by
  cases h
  case reg => exact hs.congr (by simp)
  case csr => exact hs.congr (by simp)
  case pfic p _ hf _ => exact hf hs
  case systemReset => exact (atReset_fixedEnabled s.cfg).congr rfl
  case powerReset => exact (atReset_fixedEnabled s.cfg).congr rfl
  all_goals exact hs.congr rfl

/-! ### The PFIC's views after reset (10_state.md R60, 61_pfic.md R438) -/

/-- NMI and EXC have state in every configuration, and nothing else is enabled after reset. -/
theorem atReset_enabled (c : Config) : (atReset c).enabled = 0xC#256 := by
  show fixedIrqs &&& (0x500C#256 ||| ((c.irqImplemented >>> 16) <<< 16)) = fixedIrqs
  rw [BitVec.and_comm]
  exact fixed_or _ _ (by decide)

/-- No latch and no request line stands after reset. -/
theorem atReset_pending (c : Config) : (atReset c).pending = 0#256 := by
  have hl : (atReset c).requestLines = 0#256 := by
    simp [requestLines, swie, atReset, Pfic.reset, SysTick.reset]
  unfold pending
  rw [hl]
  simp [atReset, Pfic.reset]

theorem atReset_prio (c : Config) (n : Irq) : (atReset c).pfic.prio[n.val] = 0#8 := Vector.getElem_replicate n.isLt

theorem atReset_ipriorByte (c : Config) (n : Irq) : (atReset c).ipriorByte n = 0#8 := by
  unfold ipriorByte
  rw [atReset_prio, ite_self]

/-- After reset PFIC_ISR0 shows NMI and EXC, and no other register of the group shows anything. -/
theorem atReset_groupWord_enabled (c : Config) :
    groupWord (atReset c).enabled 0 = 0xC#32 ∧ ∀ x : Fin 8, x ≠ 0 → groupWord (atReset c).enabled x = 0#32 := by
  rw [atReset_enabled]
  decide

theorem atReset_progbuf (c : Config) (k : Fin 8) : (atReset c).dm.progbuf[k.val] = 0#32 :=
  Vector.getElem_replicate k.isLt

/-- The identification CSRs of V2A (10_state.md R37, R40, R41). -/
theorem atReset_identification (c : Config) (h : c.variant = .v2a) :
    (atReset c).csrHeld .misa = 0x40800014#32 ∧ (atReset c).csrHeld .marchid = 0xDC68D841#32 ∧
      (atReset c).csrHeld .mimpid = 0xDC688001#32 := by
  simp [csrHeld, atReset, Config.misa, Config.marchid, Config.mimpid, h]

/-- The reserved bits of the PFIC and SysTick registers are 0 after reset. -/
theorem atReset_devicesShaped (c : Config) : (atReset c).DevicesShaped where
  ithresdr := by simp [atReset, Pfic.reset]
  vtfidr := by simp [atReset, Pfic.reset]
  sctlr := by simp [atReset, Pfic.reset]
  prio n := by simp [atReset_prio]
  stkCtlr := by simp [atReset, SysTick.reset]

/-- No command runs and no error is due after reset. -/
theorem atReset_queuesOk (c : Config) : (atReset c).QueuesOk where
  busy := by simp [atReset, DebugModule.reset]
  due := Nat.le_refl 0

end State

/-! ### The obligations -/

/-- Settles O54: every change keeps the shapes, and a step is a sequence of changes. -/
theorem stepKeepsCsrShapes : Obligations.StepKeepsCsrShapes :=
  fun s t hs h => (changes_step s t h).keep (fun _ _ => State.CsrsShaped.change) hs

/-- Settles O55: only a trap entry raises the level, and it starts below two. -/
theorem stepKeepsTwoNestingLevels : Obligations.StepKeepsTwoNestingLevels :=
  fun s t hs h => (changes_step s t h).keep (fun _ _ => State.NestOk.change) hs

/-- Settles O56: every move and every jump is even, given the even addresses of the parameters, which no change
touches. -/
theorem stepKeepsPcEven : Obligations.StepKeepsPcEven := by
  intro s t hc hs h
  have c := changes_step s t h
  have hcfg : t.cfg = s.cfg := c.keep (P := fun u => u.cfg = s.cfg) (fun _ _ hu k => k.cfg_eq.trans hu) rfl
  have hpc : t.CfgOk ∧ t.PcEven :=
    c.keep (P := fun u => u.CfgOk ∧ u.PcEven) (fun _ _ hu k => ⟨hu.1.change k, hu.2.change hu.1 k⟩) ⟨hc, hs⟩
  exact ⟨hpc.2, hcfg⟩

/-- Settles O57: every change keeps each of the two. -/
theorem stepKeepsInterruptMasks : Obligations.StepKeepsInterruptMasks :=
  fun s t h =>
    ⟨(changes_step s t h).keep (fun _ _ => State.MasksLag.change),
      (changes_step s t h).keep (fun _ _ => State.FixedEnabled.change)⟩

/-- Settles O49: the fields hold their values as written, the PFIC's views by the lemmas above. -/
theorem resetValues : Obligations.ResetValues := by
  intro c s
  obtain ⟨isr0, isrs⟩ := State.atReset_groupWord_enabled c
  refine ⟨rfl, rfl, rfl, State.atReset_identification c, rfl, rfl, rfl, rfl, rfl, rfl, rfl, rfl, rfl, isr0, isrs,
    State.atReset_pending c, rfl, State.atReset_ipriorByte c, rfl, rfl, rfl, rfl, rfl, rfl, rfl, rfl, rfl,
    State.atReset_progbuf c, rfl, rfl, rfl, ?abstractcs, ?dmstatus, rfl, rfl⟩
  case abstractcs => show 0x08000002#32 ||| 0#32 ||| ((0#3).setWidth 32 <<< 8) = 0x08000002#32; decide
  case dmstatus => show (0x82#32 ||| 0#32 ||| 0#32 ||| 0xC00#32) &&& 0xFFFFF0FF#32 = 0x82#32; decide

/-- Settles O60: the fields after reset are constants, but for the pc and the parameters, which are even. -/
theorem resetMeetsInvariants : Obligations.ResetMeetsInvariants := by
  intro c hc
  have hok : (State.atReset c).CfgOk := hc
  exact ⟨rfl, State.atReset_csrsShaped c, State.atReset_nestOk c, hok, hok.resetPc_even, State.atReset_masksLag c,
    State.atReset_fixedEnabled c, State.atReset_devicesShaped c, State.atReset_queuesOk c⟩

end Sys2Proof.Machine
end

section
/-!
SUPPORT. Memory's canonical form kept change by change, accesses that are misaligned or fail, the bytes of a stored word,
and the instruction that a step runs (20_memory.md R81, R84 to R88, R95).
-/

namespace Sys2Proof.Machine

namespace State

/-! ### The canonical form of memory (20_memory.md R81) -/

@[simp] theorem csrWrite_mem (s : State) (c : Csr) (v : Word) : (s.csrWrite c v).mem = s.mem := by cases c <;> rfl

theorem MemOk.congr {s t : State} (hs : s.MemOk) (h : t.mem = s.mem) : t.MemOk := by
  unfold MemOk
  rw [h]
  exact hs

/-- A reset keeps read-only memory and forgets the rest (70_reset_and_hazards.md R561). -/
theorem MemOk.romOnly {s t : State} (hs : s.MemOk) (h : t.mem = s.mem.romOnly s.cfg) : t.MemOk := by
  unfold MemOk
  rw [h]
  exact Memory.wf_romOnly s.cfg s.mem hs

/-- Stores and resets are the only changes of memory. -/
theorem MemOk.change {s t : State} (hs : s.MemOk) (h : Change s t) : t.MemOk := by
  cases h
  case reg => exact hs.congr (by simp)
  case csr => exact hs.congr (by simp)
  case store w a v ha => exact s.memStore_wf w a v hs ha
  case systemReset => exact hs.romOnly rfl
  case powerReset => exact hs.romOnly rfl
  all_goals exact hs.congr rfl

/-! ### Accesses that trap (20_memory.md R86, R94, R95) -/

/-- A load and a store of one width at one misaligned address. -/
theorem access_misaligned (s : State) (w : Width) (k : LoadKind) (r : Reg) (ea il : Word) (h : ¬ Aligned w ea) :
    s.load w k r ea il = s.takeException 4#4 ∧ s.store w (s.reg r) ea il = s.takeException 6#4 :=
  ⟨s.load_misaligned w k r ea il h, s.store_misaligned w (s.reg r) ea il h⟩

/-- A failing load queues its error and leaves a free value in its register. -/
theorem failedLoad_finishReg (s : State) (rd : Reg) (v il : Word) :
    FailedLoad s (({ s.drawn with inflight := s.inflight ++ [AccessError.load] } : State).finishReg rd v il) rd
      (s.pc + il) where
  inflight := by simp
  others q hq := by
    rw [reg_finishReg, if_neg hq, ite_self]
    exact reg_congr _ _ rfl q
  pc := by simp
  rest := by unfold finishReg setReg advance drawn; split <;> rfl
  bytes a := byteAt_congr _ _ (by simp) (by simp) (by simp) a

theorem load_fails (s : State) (w : Width) (k : LoadKind) (rd : Reg) (ea il : Word) (h : s.AccessFails w ea) :
    ∃ t, s.load w k rd ea il = .next t ∧ FailedLoad s t rd (s.pc + il) := by
  have hl : s.load w k rd ea il = s.loadFailed rd il := by
    unfold load
    rw [if_pos ((isAligned_iff w ea).2 h.1), s.busRead_fails w ea h]
  exact ⟨_, hl, s.failedLoad_finishReg rd s.freshWord il⟩

theorem store_fails (s : State) (w : Width) (v ea il : Word) (h : s.AccessFails w ea) :
    ∃ t, s.store w v ea il = .next t ∧ FailedStore s t (s.pc + il) := by
  have hs : s.store w v ea il = s.storeFailed il := by
    unfold store
    rw [if_pos ((isAligned_iff w ea).2 h.1), s.busWrite_fails w ea v h]
  exact ⟨_, hs, rfl, fun _ => rfl⟩

/-- A load and a store of one width at one address that nothing backs. -/
theorem access_fails (s : State) (w : Width) (k : LoadKind) (r : Reg) (ea il : Word) (h : s.AccessFails w ea) :
    (∃ t, s.load w k r ea il = .next t ∧ FailedLoad s t r (s.pc + il)) ∧
      ∃ t, s.store w (s.reg r) ea il = .next t ∧ FailedStore s t (s.pc + il) :=
  ⟨s.load_fails w k r ea il h, s.store_fails w (s.reg r) ea il h⟩

end State

/-! ### The bytes of a stored word (20_memory.md R84, R85) -/

/-- The k-th byte that a store of `v` has put into memory, as a number. -/
theorem Stored.byte_toNat {s t : State} {w : Width} {a : Nat} {v pc : Word} (h : Stored s t w a v pc) (k : Nat)
    (hk : k < w.bytes) : (t.byteAt (a + k)).toNat = v.toNat / 2 ^ (8 * k) % 256 := by
  rw [h.stored k hk, BitVec.extractLsb'_toNat, Nat.shiftRight_eq_div_pow]

/-- A word in memory is its low half-word and its high half-word (20_memory.md R85). -/
theorem State.memNat_word_halves (s : State) (a : Nat) :
    s.memNat .word a = s.memNat .half a + 65536 * s.memNat .half (a + 2) := by
  simp only [State.memNat, Nat.add_assoc, Nat.reduceAdd]
  omega

/-- The half-word that a store of a word has put `k` bytes above its address. -/
theorem Stored.half_eq {s t : State} {a : Nat} {v pc : Word} (h : Stored s t .word a v pc) (k : Nat) (hk : k + 1 < 4) :
    t.memNat .half (a + k) = v.toNat / 2 ^ (8 * k) % 65536 := by
  have h0 := h.byte_toNat k (by simp only [Width.bytes]; omega)
  have h1 := h.byte_toNat (k + 1) hk
  rw [Nat.mul_add, Nat.pow_add, ← Nat.div_div_eq_div_mul] at h1
  simp only [State.memNat, Nat.add_assoc a k 1, h0, h1]
  omega

/-! ### The instruction a step runs (20_memory.md R88, 30_encoding.md R120) -/

/-- What decodes from a parcel alone is a 16-bit instruction. -/
theorem isWide_of_decode_one {isa : Isa} {p : Parcel} {i : Instr} (h : decode isa [p] = .ok (i, [])) :
    isWide p = false := by
  simp only [decode] at h
  split at h
  · cases h
  · split at h
    · cases h
    · next hw => simpa using hw

/-- What decodes from two parcels and uses them up is a 32-bit instruction. -/
theorem isWide_of_decode_two {isa : Isa} {p q : Parcel} {i : Instr} (h : decode isa [p, q] = .ok (i, [])) :
    isWide p = true := by
  simp only [decode] at h
  split at h
  · cases h
  · split at h
    · next hw => exact hw
    · cases hd : decode16 isa p <;> simp [hd, Except.map] at h

namespace State

theorem executeParcels_ok (s : State) (ps rest : List Parcel) (i : Instr) (h : decode s.cfg.isa ps = .ok (i, rest)) :
    s.executeParcels ps = exec i s := by
  unfold executeParcels
  rw [h]

/-- A 16-bit instruction at a fetchable pc is executed. -/
theorem runInstruction_narrow (s : State) (i : Instr) (he : s.PcEven) (hf : s.Fetchable s.pc)
    (hd : decode s.cfg.isa [s.parcelAt s.pc] = .ok (i, [])) : s.runInstruction = exec i s := by
  have hodd : ¬ s.pc.getLsbD 0 = true := by simpa [PcEven] using he
  unfold runInstruction
  rw [if_neg hodd, s.fetch_fetchable s.pc hf]
  simp only [isWide_of_decode_one hd, Bool.false_eq_true, if_false]
  exact s.executeParcels_ok _ _ i hd

/-- A 32-bit instruction whose two parcels can be fetched is executed. -/
theorem runInstruction_wide (s : State) (i : Instr) (he : s.PcEven) (hf : s.Fetchable s.pc) (ht : s.pc ≠ 0xFFFFFFFE#32)
    (hf2 : s.Fetchable (s.pc + 2#32))
    (hd : decode s.cfg.isa [s.parcelAt s.pc, s.parcelAt (s.pc + 2#32)] = .ok (i, [])) :
    s.runInstruction = exec i s := by
  have hodd : ¬ s.pc.getLsbD 0 = true := by simpa [PcEven] using he
  unfold runInstruction
  rw [if_neg hodd, s.fetch_fetchable s.pc hf]
  simp only [isWide_of_decode_two hd, if_true, if_neg ht, s.fetch_fetchable _ hf2]
  exact s.executeParcels_ok _ _ i hd

theorem Executing.atBoundary {s : State} (h : s.Executing) : s.AtBoundary :=
  ⟨h.noInput, h.noReset, h.notHeld, by simp [inDebug, h.run], h.noHalt, h.noEabi⟩

/-- A step of a hart that executes runs the instruction at the pc, and then does what single step asks for. -/
theorem step_executing (s : State) (h : s.Executing) :
    step s = andThen ({ s with tailPop := false } : State).runInstruction fun t => .next (s.stepDone t) := by
  have hr : ({ s with tailPop := false } : State).run = .running := h.run
  rw [step_atBoundary s h.atBoundary, h.noTrap]
  unfold runOrSleep
  rw [hr]
  rfl

theorem stepDone_eq (s t : State) :
    s.stepDone t =
      if s.stepBit = true ∧ t.inDebug = false then t.enterDebug (if t.dm.haltreq then 3#3 else 4#3) t.pc else t := by
  unfold stepDone
  simp

end State

/-! ### The obligations -/

/-- Settles O53: every change keeps the form, and a step is a sequence of changes. -/
theorem stepKeepsMemoryCanonical : Obligations.StepKeepsMemoryCanonical :=
  fun s t hs h => (changes_step s t h).keep (fun _ _ => State.MemOk.change) hs

/-- Settles O19: every form is a load or a store of one width, which checks its address before it does anything else. -/
theorem misalignedAccessesTrap : Obligations.MisalignedAccessesTrap := by
  intro s r rs1 imm short stack off ea
  exact ⟨fun h => ⟨s.load_misaligned .half .signed r ea ilen4 h, s.access_misaligned .half .unsigned r ea ilen4 h⟩,
    s.access_misaligned .word .unsigned r ea ilen4, s.access_misaligned .word .unsigned r _ ilen2,
    s.access_misaligned .word .unsigned r _ ilen2, s.access_misaligned .half .unsigned r _ ilen2,
    s.access_misaligned .half .unsigned r _ ilen2⟩

/-- Settles O20: every form is a load or a store of one width, which retires when nothing backs its address. -/
theorem failedAccessesRetire : Obligations.FailedAccessesRetire := by
  intro s r rs1 imm short stack off ea loads stores
  exact ⟨fun h => ⟨s.load_fails .byte .signed r ea ilen4 h, s.access_fails .byte .unsigned r ea ilen4 h⟩,
    fun h => ⟨s.load_fails .half .signed r ea ilen4 h, s.access_fails .half .unsigned r ea ilen4 h⟩,
    s.access_fails .word .unsigned r ea ilen4, s.access_fails .word .unsigned r _ ilen2,
    s.access_fails .word .unsigned r _ ilen2, s.access_fails .byte .unsigned r _ ilen2,
    s.access_fails .half .unsigned r _ ilen2, s.access_fails .byte .unsigned r _ ilen2,
    s.access_fails .half .unsigned r _ ilen2⟩

/-- Settles O21: the parts are made of the bytes that the store has put into memory. -/
theorem storedWordReadsBackInParts : Obligations.StoredWordReadsBackInParts := by
  intro s rs2 rs1 imm ea h
  obtain ⟨t, ht, hst⟩ := s.store_completes .word (s.reg rs2) ea ilen4 h
  have hv := (s.reg rs2).isLt
  have low : t.memNat .half ea.toNat = (s.reg rs2).toNat % 65536 := by simpa using hst.half_eq 0 (by decide)
  have high : t.memNat .half (ea.toNat + 2) = (s.reg rs2).toNat / 65536 := by
    have := hst.half_eq 2 (by decide)
    omega
  refine ⟨t, ht, ?_, low, high, hst.byte_toNat 1 (by decide)⟩
  rw [t.memNat_word_halves, low, high]
  omega

/-- Settles O6: the step runs the instruction that is decoded, and goes on only after one that completes. -/
theorem stepRunsDecodedInstruction : Obligations.StepRunsDecodedInstruction := by
  intro s i hx he hf hd
  have hrun : ({ s with tailPop := false } : State).runInstruction = exec i { s with tailPop := false } := by
    have hf' : ({ s with tailPop := false } : State).Fetchable s.pc := ⟨hf.lo, hf.hi, hf.fresh⟩
    rcases hd with hd | ⟨htop, hf2, hd⟩
    · exact State.runInstruction_narrow _ i he hf' hd
    · exact State.runInstruction_wide _ i he hf' htop ⟨hf2.lo, hf2.hi, hf2.fresh⟩ hd
  have hstep := s.step_executing hx
  rw [hrun] at hstep
  refine ⟨fun t ht => ?next, fun r hr => ?fault, fun r hr => ?refused⟩
  case next => rw [hstep, ht, andThen_of_next, s.stepDone_eq t]
  case fault => rw [hstep, hr]; rfl
  case refused => rw [hstep, hr]; rfl

end Sys2Proof.Machine
end

section
/-!
SUPPORT. Decoding of encoded words (30_encoding.md R120 to R144): what each row, major opcode and quadrant of the
decoder answers, and the round trip of every instruction.
-/

namespace Sys2Proof

/-! ### Fields of fields and of concatenations -/

/-- A field of a field is a field of the word. -/
theorem field_field {n : Nat} (w : BitVec n) {lo len a b : Nat} (h : a + b ≤ len) :
    field (field w lo len) a b = field w (lo + a) b := by
  ext i hi
  simp only [BitVec.getElem_extractLsb', BitVec.getLsbD_extractLsb', Nat.add_assoc,
    decide_eq_true (show a + i < len by omega), Bool.true_and]

/-- A concatenation is zero exactly when both of its parts are. -/
theorem append_eq_zero {n k : Nat} {a : BitVec n} {b : BitVec k} : a ++ b = 0#(n + k) ↔ a = 0#n ∧ b = 0#k := by
  constructor
  · intro h
    have hl := congrArg (field · k n) h
    have hr := congrArg (field · 0 k) h
    simpa [field, BitVec.extractLsb'_append_eq_left, BitVec.extractLsb'_append_eq_right] using And.intro hl hr
  · rintro ⟨rfl, rfl⟩
    exact BitVec.zero_append_zero

/-- Two adjacent fields are one field. -/
theorem field_append {k : Nat} (w : BitVec k) (lo n m : Nat) :
    field w (lo + m) n ++ field w lo m = field w lo (n + m) :=
  BitVec.extractLsb'_append_extractLsb'_eq_extractLsb' rfl

theorem field_eq_zero_iff {k : Nat} (w : BitVec k) (lo n m : Nat) :
    field w lo (n + m) = 0#(n + m) ↔ field w (lo + m) n = 0#n ∧ field w lo m = 0#m := by
  rw [← field_append, append_eq_zero]

/-- A multiple of `2 ^ n` has its low `n` bits zero. -/
theorem getLsbD_of_lowBitsZero {k n : Nat} {v : BitVec k} (h : lowBitsZero n v = true) {j : Nat} (hj : j < n) :
    v.getLsbD j = false := by
  simp only [lowBitsZero, decide_eq_true_eq] at h
  have := Nat.testBit_mod_two_pow v.toNat n j
  rw [h] at this
  simpa [hj, BitVec.getLsbD] using this.symm

/-! ### Major opcodes (30_encoding.md R133) -/

section MajorOpcodes

variable (isa : Isa) {w : BitVec 32}

theorem decode32_lui (h : field w 0 7 = 0b0110111#7) : decode32 isa w = rowRd w fun d => .lui d (field w 12 20) := by
  unfold decode32; rw [h]; rfl

theorem decode32_auipc (h : field w 0 7 = 0b0010111#7) :
    decode32 isa w = rowRd w fun d => .auipc d (field w 12 20) := by
  unfold decode32; rw [h]; rfl

theorem decode32_jal (h : field w 0 7 = 0b1101111#7) : decode32 isa w = rowRd w fun d => .jal d (immJ w) := by
  unfold decode32; rw [h]; rfl

theorem decode32_jalr (h : field w 0 7 = 0b1100111#7) (hf : field w 12 3 = 0b000#3) :
    decode32 isa w = rowRdRs1 w fun d a => .jalr d a (immI w) := by
  unfold decode32; rw [h, hf]; rfl

theorem decode32_jalr_other (h : field w 0 7 = 0b1100111#7) (hf : field w 12 3 ≠ 0b000#3) :
    decode32 isa w = .error .unknownFunction := by
  unfold decode32; rw [h]; simp

theorem decode32_branch (h : field w 0 7 = 0b1100011#7) : decode32 isa w = decodeBranch w := by
  unfold decode32; rw [h]; rfl

theorem decode32_load (h : field w 0 7 = 0b0000011#7) : decode32 isa w = decodeLoad w := by
  unfold decode32; rw [h]; rfl

theorem decode32_store (h : field w 0 7 = 0b0100011#7) : decode32 isa w = decodeStore w := by
  unfold decode32; rw [h]; rfl

theorem decode32_opImm (h : field w 0 7 = 0b0010011#7) : decode32 isa w = decodeOpImm w := by
  unfold decode32; rw [h]; rfl

theorem decode32_op (h : field w 0 7 = 0b0110011#7) : decode32 isa w = decodeOp isa w := by
  unfold decode32; rw [h]; rfl

theorem decode32_miscMem (h : field w 0 7 = 0b0001111#7) : decode32 isa w = decodeMiscMem w := by
  unfold decode32; rw [h]; rfl

theorem decode32_system (h : field w 0 7 = 0b1110011#7) : decode32 isa w = decodeSystem w := by
  unfold decode32; rw [h]; rfl

end MajorOpcodes

/-! ### The rows and immediates of an encoded word (30_encoding.md R121 to R129) -/

section EncodedWords

variable (op f7 : BitVec 7) (f3 : BitVec 3) (rd rs1 rs2 : Reg)

@[simp] theorem rowRd_encU (imm : BitVec 20) (mk : Reg → Instr) : rowRd (encU op rd imm) mk = .ok (mk rd) := by
  simp [rowRd, encU_field_7]

@[simp] theorem rowRd_encJ (imm : BitVec 21) (mk : Reg → Instr) : rowRd (encJ rd imm) mk = .ok (mk rd) := by
  simp [rowRd, encJ_field_7]

@[simp] theorem rowRd_encI (a : BitVec 5) (imm : BitVec 12) (mk : Reg → Instr) :
    rowRd (encI op f3 (regBits rd) a imm) mk = .ok (mk rd) := by
  simp [rowRd, encI_field_7]

@[simp] theorem rowRdRs1_encI (imm : BitVec 12) (mk : Reg → Reg → Instr) :
    rowRdRs1 (encI op f3 (regBits rd) (regBits rs1) imm) mk = .ok (mk rd rs1) := by
  simp [rowRdRs1, encI_field_7, encI_field_15]

@[simp] theorem rowRs1Rs2_encS (imm : BitVec 12) (mk : Reg → Reg → Instr) :
    rowRs1Rs2 (encS f3 rs2 rs1 imm) mk = .ok (mk rs1 rs2) := by
  simp [rowRs1Rs2, encS_field_15, encS_field_20]

@[simp] theorem rowRs1Rs2_encB (imm : BitVec 13) (mk : Reg → Reg → Instr) :
    rowRs1Rs2 (encB f3 rs1 rs2 imm) mk = .ok (mk rs1 rs2) := by
  simp [rowRs1Rs2, encB_field_15, encB_field_20]

@[simp] theorem rowRdRs1Rs2_encR (mk : Reg → Reg → Reg → Instr) :
    rowRdRs1Rs2 (encR f7 f3 rd rs1 rs2) mk = .ok (mk rd rs1 rs2) := by
  simp [rowRdRs1Rs2, encR_field_7, encR_field_15, encR_field_20]

@[simp] theorem immI_encI (d a : BitVec 5) (imm : BitVec 12) : immI (encI op f3 d a imm) = imm :=
  encI_field_20 op f3 d a imm

/-- The fields inside the I-immediate, such as those of a shift or of FENCE (30_encoding.md R124, R129). -/
theorem field_encI_imm (d a : BitVec 5) (imm : BitVec 12) {i len : Nat} (h : i + len ≤ 12) :
    field (encI op f3 d a imm) (20 + i) len = field imm i len := by
  rw [← field_field _ h, encI_field_20]

/-- The shift amount and the bits above it (30_encoding.md R124). -/
theorem encI_field_20_shamt (d a : BitVec 5) (shamt : BitVec 5) :
    field (encI op f3 d a (f7 ++ shamt)) 20 5 = shamt :=
  (field_encI_imm op f3 d a (f7 ++ shamt) (i := 0) (len := 5) (by decide)).trans BitVec.extractLsb'_append_eq_right

theorem encI_field_25 (d a : BitVec 5) (shamt : BitVec 5) : field (encI op f3 d a (f7 ++ shamt)) 25 7 = f7 :=
  (field_encI_imm op f3 d a (f7 ++ shamt) (i := 5) (len := 7) (by decide)).trans BitVec.extractLsb'_append_eq_left

/-- The three 4-bit fields of FENCE (30_encoding.md R129). -/
theorem encI_fence_fields (d a : BitVec 5) (fm pred succ : BitVec 4) :
    let w := encI op f3 d a (fm ++ pred ++ succ)
    field w 28 4 = fm ∧ field w 24 4 = pred ∧ field w 20 4 = succ := by
  have high : field (fm ++ pred ++ succ) 8 4 = field (fm ++ pred) 4 4 := BitVec.extractLsb'_append_eq_of_le (by decide)
  have mid : field (fm ++ pred ++ succ) 4 4 = field (fm ++ pred) 0 4 := BitVec.extractLsb'_append_eq_of_le (by decide)
  exact ⟨((field_encI_imm op f3 d a _ (by decide)).trans high).trans BitVec.extractLsb'_append_eq_left,
    ((field_encI_imm op f3 d a _ (by decide)).trans mid).trans BitVec.extractLsb'_append_eq_right,
    (field_encI_imm op f3 d a _ (i := 0) (by decide)).trans BitVec.extractLsb'_append_eq_right⟩

end EncodedWords

/-! ### 16-bit formats that have one row each (30_encoding.md R130, R132) -/

/-- The CIW format, C.ADDI4SPN. -/
def encCIW (rd : Reg) (imm : BitVec 10) : Parcel :=
  0b000#3 ++ field imm 4 2 ++ field imm 6 4 ++ field imm 2 1 ++ field imm 3 1 ++ regBits3 rd ++ 0b00#2

/-- C.ADDI16SP. -/
def encC16sp (imm : BitVec 10) : Parcel :=
  0b011#3 ++ field imm 9 1 ++ 2#5 ++ field imm 4 1 ++ field imm 6 1 ++ field imm 7 2 ++ field imm 5 1 ++ 0b01#2

/-- C.LWSP. -/
def encCLwsp (rd : Reg) (imm : BitVec 8) : Parcel :=
  0b010#3 ++ field imm 5 1 ++ regBits rd ++ field imm 2 3 ++ field imm 6 2 ++ 0b10#2

/-- The CSS format, C.SWSP. -/
def encCSS (rs2 : Reg) (imm : BitVec 8) : Parcel :=
  0b110#3 ++ field imm 2 4 ++ field imm 6 2 ++ regBits rs2 ++ 0b10#2

theorem encCIW_getLsbD (rd : Reg) (imm : BitVec 10) (i : Nat) : (encCIW rd imm).getLsbD i =
    BitVec.getLsbD (w := 3+2+4+1+1+3+2) (0b000#3 ++ field imm 4 2 ++ field imm 6 4 ++ field imm 2 1 ++ field imm 3 1 ++
      regBits3 rd ++ 0b00#2) i := rfl

theorem encC16sp_getLsbD (imm : BitVec 10) (i : Nat) : (encC16sp imm).getLsbD i =
    BitVec.getLsbD (w := 3+1+5+1+1+2+1+2) (0b011#3 ++ field imm 9 1 ++ 2#5 ++ field imm 4 1 ++ field imm 6 1 ++
      field imm 7 2 ++ field imm 5 1 ++ 0b01#2) i := rfl

theorem encCLwsp_getLsbD (rd : Reg) (imm : BitVec 8) (i : Nat) : (encCLwsp rd imm).getLsbD i =
    BitVec.getLsbD (w := 3+1+5+3+2+2) (0b010#3 ++ field imm 5 1 ++ regBits rd ++ field imm 2 3 ++ field imm 6 2 ++
      0b10#2) i := rfl

theorem encCSS_getLsbD (rs2 : Reg) (imm : BitVec 8) (i : Nat) : (encCSS rs2 imm).getLsbD i =
    BitVec.getLsbD (w := 3+4+2+5+2) (0b110#3 ++ field imm 2 4 ++ field imm 6 2 ++ regBits rs2 ++ 0b10#2) i := rfl

theorem encCIW_fields (rd : Reg) (imm : BitVec 10) :
    field (encCIW rd imm) 0 2 = 0b00#2 ∧ field (encCIW rd imm) 13 3 = 0b000#3 ∧
      field (encCIW rd imm) 2 3 = regBits3 rd := by
  refine ⟨?_, ?_, ?_⟩
  all_goals
    apply BitVec.eq_of_getLsbD_eq; intro i hi
    simp only [BitVec.getLsbD_append, BitVec.getLsbD_extractLsb', encCIW_getLsbD]
    interval_cases i <;> simp

theorem encC16sp_fields (imm : BitVec 10) :
    field (encC16sp imm) 0 2 = 0b01#2 ∧ field (encC16sp imm) 13 3 = 0b011#3 ∧ field (encC16sp imm) 7 5 = 2#5 := by
  refine ⟨?_, ?_, ?_⟩
  all_goals
    apply BitVec.eq_of_getLsbD_eq; intro i hi
    simp only [BitVec.getLsbD_append, BitVec.getLsbD_extractLsb', encC16sp_getLsbD]
    interval_cases i <;> simp

theorem encCLwsp_fields (rd : Reg) (imm : BitVec 8) :
    field (encCLwsp rd imm) 0 2 = 0b10#2 ∧ field (encCLwsp rd imm) 13 3 = 0b010#3 ∧
      field (encCLwsp rd imm) 7 5 = regBits rd := by
  refine ⟨?_, ?_, ?_⟩
  all_goals
    apply BitVec.eq_of_getLsbD_eq; intro i hi
    simp only [BitVec.getLsbD_append, BitVec.getLsbD_extractLsb', encCLwsp_getLsbD]
    interval_cases i <;> simp

theorem encCSS_fields (rs2 : Reg) (imm : BitVec 8) :
    field (encCSS rs2 imm) 0 2 = 0b10#2 ∧ field (encCSS rs2 imm) 13 3 = 0b110#3 ∧
      field (encCSS rs2 imm) 2 5 = regBits rs2 := by
  refine ⟨?_, ?_, ?_⟩
  all_goals
    apply BitVec.eq_of_getLsbD_eq; intro i hi
    simp only [BitVec.getLsbD_append, BitVec.getLsbD_extractLsb', encCSS_getLsbD]
    interval_cases i <;> simp

theorem encCIW_cImm4spn (rd : Reg) (imm : BitVec 10) (h : lowBitsZero 2 imm = true) :
    cImm4spn (encCIW rd imm) = imm := by
  have low : ∀ j < 2, imm.getLsbD j = false := fun j => getLsbD_of_lowBitsZero h
  apply BitVec.eq_of_getLsbD_eq; intro i hi
  rw [cImm4spn_getLsbD]
  simp only [BitVec.getLsbD_append, BitVec.getLsbD_extractLsb', encCIW_getLsbD]
  interval_cases i <;> simp
  all_goals exact low _ (by decide)

theorem encC16sp_cImm16sp (imm : BitVec 10) (h : lowBitsZero 4 imm = true) : cImm16sp (encC16sp imm) = imm := by
  have low : ∀ j < 4, imm.getLsbD j = false := fun j => getLsbD_of_lowBitsZero h
  apply BitVec.eq_of_getLsbD_eq; intro i hi
  rw [cImm16sp_getLsbD]
  simp only [BitVec.getLsbD_append, BitVec.getLsbD_extractLsb', encC16sp_getLsbD]
  interval_cases i <;> simp
  all_goals exact low _ (by decide)

theorem encCLwsp_cImmLwsp (rd : Reg) (imm : BitVec 8) (h : lowBitsZero 2 imm = true) :
    cImmLwsp (encCLwsp rd imm) = imm := by
  have low : ∀ j < 2, imm.getLsbD j = false := fun j => getLsbD_of_lowBitsZero h
  apply BitVec.eq_of_getLsbD_eq; intro i hi
  rw [cImmLwsp_getLsbD]
  simp only [BitVec.getLsbD_append, BitVec.getLsbD_extractLsb', encCLwsp_getLsbD]
  interval_cases i <;> simp
  all_goals exact low _ (by decide)

theorem encCSS_cImmSwsp (rs2 : Reg) (imm : BitVec 8) (h : lowBitsZero 2 imm = true) :
    cImmSwsp (encCSS rs2 imm) = imm := by
  have low : ∀ j < 2, imm.getLsbD j = false := fun j => getLsbD_of_lowBitsZero h
  apply BitVec.eq_of_getLsbD_eq; intro i hi
  rw [cImmSwsp_getLsbD]
  simp only [BitVec.getLsbD_append, BitVec.getLsbD_extractLsb', encCSS_getLsbD]
  interval_cases i <;> simp
  all_goals exact low _ (by decide)

/-! ### The candidate space of XW, and the quadrants outside it (30_encoding.md R134, R143, R144) -/

section Quadrants

variable (isa : Isa) {h : Parcel}

theorem decode16_q0 (h0 : h ≠ 0) (hc : xwCandidate h = false) (hq : field h 0 2 = 0b00#2) :
    decode16 isa h = decodeQ0 h := by
  unfold decode16; rw [if_neg h0, hc, hq]; rfl

theorem decode16_q1 (hc : xwCandidate h = false) (hq : field h 0 2 = 0b01#2) : decode16 isa h = decodeQ1 h := by
  have h0 : h ≠ 0 := by rintro rfl; exact absurd hq (by decide)
  unfold decode16; rw [if_neg h0, hc, hq]; rfl

theorem decode16_q2 (hc : xwCandidate h = false) (hq : field h 0 2 = 0b10#2) : decode16 isa h = decodeQ2 h := by
  have h0 : h ≠ 0 := by rintro rfl; exact absurd hq (by decide)
  unfold decode16; rw [if_neg h0, hc, hq]; rfl

/-- A candidate word is left to `xw_decode`. -/
theorem decode16_candidate (hc : xwCandidate h = true) : decode16 isa h = decodeXw isa h := by
  have h0 : h ≠ 0 := by rintro rfl; exact absurd hc (by decide)
  unfold decode16; rw [if_neg h0, hc]; rfl

end Quadrants

theorem rowC1_eq {h : Parcel} {r : Reg} (hr : field h 7 5 = regBits r) (mk : Reg → Instr) :
    rowC1 h mk = .ok (mk r) := by
  simp [rowC1, hr]

theorem rowC2_eq {h : Parcel} {a b : Reg} (ha : field h 7 5 = regBits a) (hb : field h 2 5 = regBits b)
    (mk : Reg → Reg → Instr) : rowC2 h mk = .ok (mk a b) := by
  simp [rowC2, ha, hb]

/-- The immediate of C.ADDI4SPN is h[12:5] in another order. -/
theorem cImm4spn_eq_zero {h : Parcel} : cImm4spn h = 0#10 ↔ field h 5 8 = 0#8 := by
  have himm : cImm4spn h = 0#10 ↔
      (((field h 7 4 = 0#4 ∧ field h 11 2 = 0#2) ∧ field h 5 1 = 0#1) ∧ field h 6 1 = 0#1) ∧ 0#2 = 0#2 := by
    show (_ ++ _ : BitVec (4+2+1+1+2)) = 0#(4+2+1+1+2) ↔ _
    simp only [append_eq_zero]
  have hfield : field h 5 8 = 0#8 ↔
      ((field h 11 2 = 0#2 ∧ field h 7 4 = 0#4) ∧ field h 6 1 = 0#1) ∧ field h 5 1 = 0#1 := by
    show field h 5 (2+4+1+1) = 0#(2+4+1+1) ↔ _
    simp only [field_eq_zero_iff]
  tauto

/-- The immediate of C.ADDI16SP is that of C.LUI in another order. -/
theorem cImm16sp_eq_zero {h : Parcel} : cImm16sp h = 0#10 ↔ cImm6 h = 0#6 := by
  have himm : cImm16sp h = 0#10 ↔
      ((((field h 12 1 = 0#1 ∧ field h 3 2 = 0#2) ∧ field h 5 1 = 0#1) ∧ field h 2 1 = 0#1) ∧ field h 6 1 = 0#1) ∧
        0#4 = 0#4 := by
    show (_ ++ _ : BitVec (1+2+1+1+1+4)) = 0#(1+2+1+1+1+4) ↔ _
    simp only [append_eq_zero]
  have hfield : cImm6 h = 0#6 ↔
      field h 12 1 = 0#1 ∧ ((field h 6 1 = 0#1 ∧ field h 5 1 = 0#1) ∧ field h 3 2 = 0#2) ∧ field h 2 1 = 0#1 := by
    show (_ ++ field h 2 (1+1+2+1) : BitVec (1+(1+1+2+1))) = 0#(1+(1+1+2+1)) ↔ _
    simp only [append_eq_zero, field_eq_zero_iff]
  tauto

/-- Words that differ in a field differ. -/
theorem ne_of_field {n lo len : Nat} {v w : BitVec n} (h : field v lo len ≠ field w lo len) : v ≠ w :=
  fun e => h (congrArg (field · lo len) e)

@[simp] theorem rowC1_encCI (f3 : BitVec 3) (r : Reg) (imm : BitVec 6) (op : BitVec 2) (mk : Reg → Instr) :
    rowC1 (encCI f3 (regBits r) imm op) mk = .ok (mk r) :=
  rowC1_eq (encCI_field_7 ..) mk

/-- Bit 5 of a 16-bit shift's immediate is 0, as a shift amount has five bits (30_encoding.md R132). -/
theorem shamt6_bit5 (sh : BitVec 5) : (0#1 ++ sh).extractLsb' 5 1 = 0#1 := BitVec.extractLsb'_append_eq_left
theorem shamt6_low (sh : BitVec 5) : (0#1 ++ sh).extractLsb' 0 5 = sh := BitVec.extractLsb'_append_eq_right

/-- The fields of different registers differ. -/
theorem regBits_ne {r s : Reg} (h : r ≠ s) : regBits r ≠ regBits s := by
  revert r s; decide

/-! ### Every encoding decodes to its instruction -/

/-- The encoding of `i` is one 32-bit word or one 16-bit parcel, which its low bits say (30_encoding.md R120), and that
word decodes to `i`. -/
inductive RoundTrips (isa : Isa) (i : Instr) : Prop
  | wide (w : BitVec 32) {c : BitVec 7} (he : encode isa i = wide w) (hc : field w 0 7 = c)
      (hd : decode32 isa w = .ok i) (h2 : field c 0 2 = 3#2 := by decide) (h3 : field c 2 3 ≠ 7#3 := by decide)
  | narrow (p : Parcel) {q : BitVec 2} (he : encode isa i = [p]) (hc : field p 0 2 = q)
      (hd : decode16 isa p = .ok i) (hq : q ≠ 3#2 := by decide)

theorem RoundTrips.decode_encode {isa : Isa} {i : Instr} (h : RoundTrips isa i) (rest : List Parcel) :
    decode isa (encode isa i ++ rest) = .ok (i, rest) := by
  cases h with
  | wide w he hc hd h2 h3 => rw [he, decode_wide isa w _ rest hc h2 h3, hd]; rfl
  | narrow p he hc hd hq =>
    rw [he, List.singleton_append, decode_narrow isa p rest (hc ▸ hq), hd]; rfl

theorem RoundTrips.length {isa : Isa} {i : Instr} (h : RoundTrips isa i) :
    (encode isa i).length = 2 ∨ (encode isa i).length = 1 := by
  cases h with
  | wide w he => exact .inl (by rw [he]; rfl)
  | narrow p he => exact .inr (by rw [he]; rfl)

theorem RoundTrips.quadrant0 {isa : Isa} {i : Instr} {p : Parcel} (he : encode isa i = [p]) (h0 : p ≠ 0#16)
    (hq : field p 0 2 = 0b00#2) (hc : xwCandidate p = false) (hd : decodeQ0 p = .ok i) : RoundTrips isa i :=
  .narrow p he hq (by rw [decode16_q0 isa h0 hc hq, hd])

theorem RoundTrips.quadrant1 {isa : Isa} {i : Instr} {p : Parcel} (he : encode isa i = [p])
    (hq : field p 0 2 = 0b01#2) (hc : xwCandidate p = false) (hd : decodeQ1 p = .ok i) : RoundTrips isa i :=
  .narrow p he hq (by rw [decode16_q1 isa hc hq, hd])

theorem RoundTrips.quadrant2 {isa : Isa} {i : Instr} {p : Parcel} (he : encode isa i = [p])
    (hq : field p 0 2 = 0b10#2) (hc : xwCandidate p = false) (hd : decodeQ2 p = .ok i) : RoundTrips isa i :=
  .narrow p he hq (by rw [decode16_q2 isa hc hq, hd])

/-- The encoding of an XW instruction is what `xw_decode` has for it (46_xw.md R330). -/
theorem encode_xw (isa : Isa) {i : Instr} (hx : i.isXw = true) : encode isa i = (xwWord isa i).toList := by
  cases i
  case cLbu | cLhu | cSb | cSh | cLbusp | cLhusp | cSbsp | cShsp => rfl
  all_goals cases hx

/-- `xwWord` answers a candidate word that `xw_decode` maps back (46_xw.md R330). -/
theorem xwWord_some {isa : Isa} {i : Instr} {p : Parcel} (h : xwWord isa i = some p) :
    xwCandidate p = true ∧ decodeXw isa p = .ok i := by
  unfold xwWord at h
  split at h
  · next hx =>
    split at h
    · cases h
    · next tbl ht =>
      obtain ⟨e, he, rfl⟩ := Option.map_eq_some_iff.1 h
      have hp := List.find?_some he
      simp only [Bool.and_eq_true, beq_iff_eq] at hp
      exact ⟨hp.1, by simp [decodeXw, hx, ht, hp.2]⟩
  · cases h

theorem xwCandidate_low {p : Parcel} (h : xwCandidate p = true) : field p 0 2 ≠ 3#2 := by
  intro hq
  simp [xwCandidate, hq] at h

/-- An XW instruction with a candidate word. -/
theorem roundTrips_xw {isa : Isa} {i : Instr} (hx : i.isXw = true) (hs : (xwWord isa i).isSome = true) :
    RoundTrips isa i := by
  obtain ⟨p, hp⟩ := Option.isSome_iff_exists.1 hs
  obtain ⟨hc, hd⟩ := xwWord_some hp
  exact .narrow p (by rw [encode_xw isa hx, hp]; rfl) rfl (by rw [decode16_candidate isa hc, hd]) (xwCandidate_low hc)

/-- The instructions of the 32-bit tables, by major opcode (30_encoding.md R133). -/
theorem roundTrips_wide {isa : Isa} {i : Instr} (hw : i.wf isa = true) (hx : ¬ i.isXw = true)
    (hl : (encode isa i).length = 2) : RoundTrips isa i := by
  cases i
  case lui rd imm =>
    exact .wide _ rfl (encU_field_0 ..) (by simp [decode32_lui isa (encU_field_0 ..), encU_field_12])
  case auipc rd imm =>
    exact .wide _ rfl (encU_field_0 ..) (by simp [decode32_auipc isa (encU_field_0 ..), encU_field_12])
  case jal rd imm =>
    have h0 : imm.getLsbD 0 = false := getLsbD_of_lowBitsZero hw Nat.one_pos
    exact .wide _ rfl (encJ_field_0 ..) (by simp [decode32_jal isa (encJ_field_0 ..), encJ_immJ _ _ h0])
  case jalr rd rs1 imm =>
    exact .wide _ rfl (encI_field_0 ..) (by simp [decode32_jalr isa (encI_field_0 ..) (encI_field_12 ..)])
  case beq rs1 rs2 imm | bne rs1 rs2 imm | blt rs1 rs2 imm | bge rs1 rs2 imm | bltu rs1 rs2 imm | bgeu rs1 rs2 imm =>
    have h0 : imm.getLsbD 0 = false := getLsbD_of_lowBitsZero hw Nat.one_pos
    exact .wide _ rfl (encB_field_0 ..)
      (by simp [decode32_branch isa (encB_field_0 ..), decodeBranch, encB_field_12, encB_immB _ _ _ _ h0])
  case lb rd rs1 imm | lh rd rs1 imm | lw rd rs1 imm | lbu rd rs1 imm | lhu rd rs1 imm =>
    exact .wide _ rfl (encI_field_0 ..) (by simp [decode32_load isa (encI_field_0 ..), decodeLoad, encI_field_12])
  case sb rs2 rs1 imm | sh rs2 rs1 imm | sw rs2 rs1 imm =>
    exact .wide _ rfl (encS_field_0 ..)
      (by simp [decode32_store isa (encS_field_0 ..), decodeStore, encS_field_12, encS_immS])
  case addi rd rs1 imm | slti rd rs1 imm | sltiu rd rs1 imm | xori rd rs1 imm | ori rd rs1 imm | andi rd rs1 imm =>
    exact .wide _ rfl (encI_field_0 ..) (by simp [decode32_opImm isa (encI_field_0 ..), decodeOpImm, encI_field_12])
  case slli rd rs1 shamt | srli rd rs1 shamt | srai rd rs1 shamt =>
    exact .wide _ rfl (encI_field_0 ..)
      (by simp [decode32_opImm isa (encI_field_0 ..), decodeOpImm, encI_field_12, encI_field_20_shamt, encI_field_25])
  case add rd rs1 rs2 | sub rd rs1 rs2 | sll rd rs1 rs2 | slt rd rs1 rs2 | sltu rd rs1 rs2 | xor rd rs1 rs2 |
      srl rd rs1 rs2 | sra rd rs1 rs2 | or rd rs1 rs2 | and rd rs1 rs2 =>
    exact .wide _ rfl (encR_field_0 ..)
      (by simp [decode32_op isa (encR_field_0 ..), decodeOp, encR_field_25, encR_field_12])
  case mul rd rs1 rs2 | mulh rd rs1 rs2 | mulhsu rd rs1 rs2 | mulhu rd rs1 rs2 =>
    have hm : isa.hasZmmul = true := hw
    exact .wide _ rfl (encR_field_0 ..)
      (by simp [decode32_op isa (encR_field_0 ..), decodeOp, encR_field_25, encR_field_12, hm])
  case fence fm pred succ rs1 rd =>
    exact .wide _ rfl (encI_field_0 ..) (by
      simp [decode32_miscMem isa (encI_field_0 ..), decodeMiscMem, encI_field_12, encI_field_7, encI_field_15,
        encI_fence_fields])
  case fenceI imm rs1 rd =>
    exact .wide _ rfl (encI_field_0 ..)
      (by simp [decode32_miscMem isa (encI_field_0 ..), decodeMiscMem, encI_field_12, encI_field_7, encI_field_15])
  case csrrw rd csr rs1 | csrrs rd csr rs1 | csrrc rd csr rs1 =>
    exact .wide _ rfl (encI_field_0 ..)
      (by simp [decode32_system isa (encI_field_0 ..), decodeSystem, encI_field_12])
  case csrrwi rd csr uimm | csrrsi rd csr uimm | csrrci rd csr uimm =>
    exact .wide _ rfl (encI_field_0 ..)
      (by simp [decode32_system isa (encI_field_0 ..), decodeSystem, encI_field_12, encI_field_15])
  case ecall | ebreak | mret | wfi => exact .wide _ (c := 0b1110011#7) rfl (by decide) rfl
  case cLbu | cLhu | cSb | cSh | cLbusp | cLhusp | cSbsp | cShsp => exact absurd rfl hx
  -- the C instructions have one parcel
  all_goals cases hl

/-- The instructions of the C extension, by quadrant (30_encoding.md R134). -/
theorem roundTrips_narrow {isa : Isa} {i : Instr} (hw : i.wf isa = true) (hx : ¬ i.isXw = true)
    (hl : (encode isa i).length ≠ 2) : RoundTrips isa i := by
  cases i
  case cAddi4spn rd imm =>
    obtain ⟨⟨hr, hi⟩, hl⟩ : (rd.isCompressed = true ∧ imm ≠ 0#10) ∧ lowBitsZero 2 imm = true := by
      simpa [Instr.wf] using hw
    obtain ⟨hq, hf, hd⟩ := encCIW_fields rd imm
    have himm := encCIW_cImm4spn rd imm hl
    have h8 : field (encCIW rd imm) 5 8 ≠ 0#8 := by rwa [Ne, ← cImm4spn_eq_zero, himm]
    have h0 : encCIW rd imm ≠ 0 := by intro h; rw [h] at h8; exact h8 rfl
    have hc : xwCandidate (encCIW rd imm) = false := by simp [xwCandidate, hq, hf, h8]
    exact .quadrant0 (p := encCIW rd imm) rfl h0 hq hc (by simp [decodeQ0, hf, hd, himm, reg3_regBits3 rd hr])
  case cLw r rs1 imm | cSw r rs1 imm =>
    obtain ⟨⟨hr, ha⟩, hl⟩ : (r.isCompressed = true ∧ rs1.isCompressed = true) ∧ lowBitsZero 2 imm = true := by
      simpa [Instr.wf] using hw
    have himm := fun f3 => encCLS_cImmLw f3 r rs1 imm (getLsbD_of_lowBitsZero hl (by decide))
      (getLsbD_of_lowBitsZero hl (by decide))
    exact .quadrant0 rfl (ne_of_field (lo := 13) (len := 3) (by rw [encCLS_field_13]; decide)) (encCLS_field_0 ..)
      (by simp [xwCandidate, encCLS_field_0, encCLS_field_13])
      (by simp [decodeQ0, encCLS_field_13, encCLS_field_2, encCLS_field_7, himm, reg3_regBits3 r hr,
        reg3_regBits3 rs1 ha])
  case cNop imm =>
    exact .quadrant1 rfl (encCI_field_0 ..) (by simp [xwCandidate, encCI_field_0, encCI_field_13])
      (by simp [decodeQ1, encCI_field_13, encCI_field_7, encCI_cImm6])
  case cAddi rd imm =>
    have hr : regBits rd ≠ 0#5 := regBits_ne (s := 0) (by simpa [Instr.wf] using hw)
    exact .quadrant1 rfl (encCI_field_0 ..) (by simp [xwCandidate, encCI_field_0, encCI_field_13])
      (by simp [decodeQ1, encCI_field_13, encCI_field_7, encCI_cImm6, hr])
  case cLi rd imm =>
    exact .quadrant1 rfl (encCI_field_0 ..) (by simp [xwCandidate, encCI_field_0, encCI_field_13])
      (by simp [decodeQ1, encCI_field_13, encCI_cImm6])
  case cLui rd imm =>
    obtain ⟨hr, hi⟩ : rd ≠ 2 ∧ imm ≠ 0#6 := by simpa [Instr.wf] using hw
    have hr : regBits rd ≠ 2#5 := regBits_ne (s := 2) hr
    exact .quadrant1 rfl (encCI_field_0 ..) (by simp [xwCandidate, encCI_field_0, encCI_field_13, encCI_cImm6, hi])
      (by simp [decodeQ1, encCI_field_13, encCI_field_7, encCI_cImm6, hr])
  case cAddi16sp imm =>
    obtain ⟨hi, hl⟩ : imm ≠ 0#10 ∧ lowBitsZero 4 imm = true := by simpa [Instr.wf] using hw
    obtain ⟨hq, hf, hd⟩ := encC16sp_fields imm
    have himm := encC16sp_cImm16sp imm hl
    have h6 : cImm6 (encC16sp imm) ≠ 0#6 := by rwa [Ne, ← cImm16sp_eq_zero, himm]
    have hc : xwCandidate (encC16sp imm) = false := by simp [xwCandidate, hq, hf, h6]
    exact .quadrant1 (p := encC16sp imm) rfl hq hc (by simp [decodeQ1, hf, hd, himm])
  case cSrli rd shamt | cSrai rd shamt =>
    exact .quadrant1 rfl (encCBAlu_field_0 ..)
      (by simp [xwCandidate, encCBAlu_field_0, encCBAlu_field_13, encCBAlu_field_12, shamt6_bit5])
      (by simp [decodeQ1, decodeQ1Alu, encCBAlu_field_13, encCBAlu_field_10, encCBAlu_field_7, encCBAlu_field_2,
        shamt6_low, reg3_regBits3 rd hw])
  case cAndi rd imm =>
    exact .quadrant1 rfl (encCBAlu_field_0 ..)
      (by simp [xwCandidate, encCBAlu_field_0, encCBAlu_field_13, encCBAlu_field_10])
      (by simp [decodeQ1, decodeQ1Alu, encCBAlu_field_13, encCBAlu_field_10, encCBAlu_field_7, encCBAlu_cImm6,
        reg3_regBits3 rd hw])
  case cSub rd rs2 | cXor rd rs2 | cOr rd rs2 | cAnd rd rs2 =>
    obtain ⟨hd, hs⟩ : rd.isCompressed = true ∧ rs2.isCompressed = true := by simpa [Instr.wf] using hw
    exact .quadrant1 rfl (encCA_field_0 ..) (by simp [xwCandidate, encCA_field_0, encCA_field_13, encCA_field_12])
      (by simp [decodeQ1, decodeQ1Alu, encCA_field_13, encCA_field_10, encCA_field_5, encCA_field_7, encCA_field_2,
        reg3_regBits3 rd hd, reg3_regBits3 rs2 hs])
  case cJal imm | cJ imm =>
    have h0 : imm.getLsbD 0 = false := getLsbD_of_lowBitsZero hw Nat.one_pos
    exact .quadrant1 rfl (encCJ_field_0 ..) (by simp [xwCandidate, encCJ_field_0, encCJ_field_13])
      (by simp [decodeQ1, encCJ_field_13, encCJ_cImmJ _ _ h0])
  case cBeqz rs1 imm | cBnez rs1 imm =>
    obtain ⟨ha, hl⟩ : rs1.isCompressed = true ∧ lowBitsZero 1 imm = true := by simpa [Instr.wf] using hw
    have h0 : imm.getLsbD 0 = false := getLsbD_of_lowBitsZero hl Nat.one_pos
    exact .quadrant1 rfl (encCB_field_0 ..) (by simp [xwCandidate, encCB_field_0, encCB_field_13])
      (by simp [decodeQ1, encCB_field_13, encCB_field_7, encCB_cImmB _ _ _ h0, reg3_regBits3 rs1 ha])
  case cSlli rd shamt =>
    exact .quadrant2 rfl (encCI_field_0 ..)
      (by simp [xwCandidate, encCI_field_0, encCI_field_13, encCI_field_12, shamt6_bit5])
      (by simp [decodeQ2, encCI_field_13, encCI_field_2, shamt6_low])
  case cLwsp rd imm =>
    obtain ⟨hr, hl⟩ : rd ≠ 0 ∧ lowBitsZero 2 imm = true := by simpa [Instr.wf] using hw
    have hr : regBits rd ≠ 0#5 := regBits_ne (s := 0) hr
    obtain ⟨hq, hf, hd⟩ := encCLwsp_fields rd imm
    have hc : xwCandidate (encCLwsp rd imm) = false := by simp [xwCandidate, hq, hf, hd, hr]
    exact .quadrant2 (p := encCLwsp rd imm) rfl hq hc (by simp [decodeQ2, hf, rowC1_eq hd, encCLwsp_cImmLwsp rd imm hl])
  case cSwsp rs2 imm =>
    obtain ⟨hq, hf, hd⟩ := encCSS_fields rs2 imm
    have hc : xwCandidate (encCSS rs2 imm) = false := by simp [xwCandidate, hq, hf]
    exact .quadrant2 (p := encCSS rs2 imm) rfl hq hc (by simp [decodeQ2, hf, hd, encCSS_cImmSwsp rs2 imm hw])
  case cJr rs1 | cJalr rs1 =>
    have hr : regBits rs1 ≠ 0#5 := regBits_ne (s := 0) (by simpa [Instr.wf] using hw)
    have hne : ∀ f4, encCR f4 rs1 0#5 ≠ 0x8002#16 := fun f4 => ne_of_field (lo := 7) (len := 5) (by rwa [encCR_field_7])
    exact .quadrant2 rfl (encCR_field_0 ..) (by simp [xwCandidate, encCR_field_0, encCR_field_13, hne])
      (by simp [decodeQ2, encCR_field_13, encCR_field_12, encCR_field_2, rowC1_eq (encCR_field_7 ..),
        field_eq_zero_iff _ 2 5 5, encCR_field_7, hr])
  case cMv rd rs2 | cAdd rd rs2 =>
    have hr : regBits rs2 ≠ 0#5 := regBits_ne (s := 0) (by simpa [Instr.wf] using hw)
    have hne : ∀ f4, encCR f4 rd (regBits rs2) ≠ 0x8002#16 := fun f4 =>
      ne_of_field (lo := 2) (len := 5) (by rwa [encCR_field_2])
    exact .quadrant2 rfl (encCR_field_0 ..) (by simp [xwCandidate, encCR_field_0, encCR_field_13, hne])
      (by simp [decodeQ2, encCR_field_13, encCR_field_12, encCR_field_2,
        rowC2_eq (encCR_field_7 ..) (encCR_field_2 ..), field_eq_zero_iff _ 2 5 5, hr])
  case cEbreak => exact .quadrant2 rfl (by decide) (by decide) (by decide)
  case cLbu | cLhu | cSb | cSh | cLbusp | cLhusp | cSbsp | cShsp => exact absurd rfl hx
  -- the others have two parcels
  all_goals exact absurd rfl hl

/-! ### The obligations -/

/-- Settles O1: the major opcode, the functions and the register fields of each format lead the decoder to the row the
encoder has written. -/
theorem baseEncodingRoundTrip : Obligations.BaseEncodingRoundTrip := by
  intro isa i rest hw hl
  have hx : ¬ i.isXw = true := by
    intro hx
    rw [encode_xw isa hx] at hl
    cases hword : xwWord isa i <;> simp [hword] at hl
  exact (roundTrips_wide hw hx hl).decode_encode rest

/-- Settles O2: outside the candidate space the quadrants decode what the C formats encode,
inside it `xw_decode` does. -/
theorem compressedEncodingRoundTrip : Obligations.CompressedEncodingRoundTrip := by
  intro isa i rest hw hl hs
  have h : RoundTrips isa i := by
    by_cases hx : i.isXw = true
    · exact roundTrips_xw hx (hs hx)
    · exact roundTrips_narrow hw hx hl
  exact ⟨h.length.resolve_left hl, h.decode_encode rest⟩

end Sys2Proof

end
section
/-!
SUPPORT. What the decoder can answer: every row gives well-formed instructions (30_encoding.md R126 to R146) and refuses
the register fields that name no register (R135).
-/

namespace Sys2Proof

/-! ### Fields and immediates of the decoder (30_encoding.md R131, R132, R135) -/

/-- A field that names a register has bit 4 clear. -/
theorem bit_of_reg5 {n lo : Nat} {w : BitVec n} {r : Reg} (h : reg5 (field w lo 5) = .ok r) :
    ¬ w.getLsbD (lo + 4) = true := by
  have clear : ∀ (f : BitVec 5) (r : Reg), reg5 f = .ok r → f.getLsbD 4 = false := by decide
  simpa [BitVec.getLsbD_extractLsb'] using clear _ r h

theorem reg5_ne {f : BitVec 5} {r s : Reg} (h : reg5 f = .ok r) (hf : f ≠ regBits s) : r ≠ s := by
  rintro rfl
  exact hf (regBits_of_reg5 f r h).symm

@[simp] theorem reg3_isCompressed (f : BitVec 3) : (reg3 f).isCompressed = true := by
  revert f; decide

theorem cImm4spn_scaled (h : Parcel) : lowBitsZero 2 (cImm4spn h) = true := lowBitsZero_append _
theorem cImmLw_scaled (h : Parcel) : lowBitsZero 2 (cImmLw h) = true := lowBitsZero_append _
theorem cImm16sp_scaled (h : Parcel) : lowBitsZero 4 (cImm16sp h) = true := lowBitsZero_append _
theorem cImmLwsp_scaled (h : Parcel) : lowBitsZero 2 (cImmLwsp h) = true := lowBitsZero_append _
theorem cImmSwsp_scaled (h : Parcel) : lowBitsZero 2 (cImmSwsp h) = true := lowBitsZero_append _

/-- A parcel is its fields of the CR format (30_encoding.md R130). -/
theorem parcel_eq_fields (h : Parcel) :
    (field h 13 3 ++ (field h 12 1 ++ (field h 7 5 ++ (field h 2 5 ++ field h 0 2))) :
      BitVec (3 + (1 + (5 + (5 + 2))))) = h := by
  have low7 : field h 2 5 ++ field h 0 2 = field h 0 7 := field_append h 0 5 2
  have low12 : field h 7 5 ++ field h 0 7 = field h 0 12 := field_append h 0 5 7
  have low13 : field h 12 1 ++ field h 0 12 = field h 0 13 := field_append h 0 1 12
  have whole : field h 13 3 ++ field h 0 13 = field h 0 16 := field_append h 0 3 13
  rw [low7, low12, low13, whole]
  exact BitVec.extractLsb'_eq_self

/-! ### Sound answers -/

/-- What `d` answers is a well-formed instruction, and where a register is `absent` it answers none. -/
def Sound (isa : Isa) (absent : Prop) (d : Decoded) : Prop := ∀ i, d = .ok i → i.wf isa = true ∧ ¬ absent

namespace Sound

variable {isa : Isa} {absent : Prop} {d : Decoded}

theorem error (e : DecodeError) : Sound isa absent (.error e) := fun _ h => nomatch h

theorem ok {i : Instr} (hi : i.wf isa = true) (hn : ¬ absent) : Sound isa absent (.ok i) := by
  rintro _ ⟨⟩
  exact ⟨hi, hn⟩

theorem wf {i : Instr} (h : Sound isa absent d) (hi : d = .ok i) : i.wf isa = true := (h i hi).1

theorem refused (h : Sound isa absent d) (ha : absent) : ∃ e, d = .error e := by
  cases d with
  | error e => exact ⟨e, rfl⟩
  | ok i => exact absurd ha (h i rfl).2

/-- Soundness for fewer absent registers. -/
theorem mono {fewer : Prop} (h : Sound isa absent d) (hf : fewer → absent) : Sound isa fewer d :=
  fun i hi => ⟨h.wf hi, fun ha => (h i hi).2 (hf ha)⟩

end Sound

/-! ### Rows -/

section Rows

variable {isa : Isa} {w : BitVec 32} {h : Parcel}

theorem rowRd_sound {mk : Reg → Instr} (hmk : ∀ d, (mk d).wf isa = true) :
    Sound isa (w.getLsbD 11 = true) (rowRd w mk) := by
  unfold rowRd
  split
  · next d hd => exact .ok (hmk d) (bit_of_reg5 hd)
  · exact .error _

theorem rowRdRs1_sound {mk : Reg → Reg → Instr} (hmk : ∀ d a, (mk d a).wf isa = true) :
    Sound isa (w.getLsbD 11 = true ∨ w.getLsbD 19 = true) (rowRdRs1 w mk) := by
  unfold rowRdRs1
  split
  · next d a hd ha => exact .ok (hmk d a) (not_or.2 ⟨bit_of_reg5 hd, bit_of_reg5 ha⟩)
  · exact .error _

theorem rowRs1Rs2_sound {mk : Reg → Reg → Instr} (hmk : ∀ a b, (mk a b).wf isa = true) :
    Sound isa (w.getLsbD 19 = true ∨ w.getLsbD 24 = true) (rowRs1Rs2 w mk) := by
  unfold rowRs1Rs2
  split
  · next a b ha hb => exact .ok (hmk a b) (not_or.2 ⟨bit_of_reg5 ha, bit_of_reg5 hb⟩)
  · exact .error _

theorem rowRdRs1Rs2_sound {mk : Reg → Reg → Reg → Instr} (hmk : ∀ d a b, (mk d a b).wf isa = true) :
    Sound isa (w.getLsbD 11 = true ∨ w.getLsbD 19 = true ∨ w.getLsbD 24 = true) (rowRdRs1Rs2 w mk) := by
  unfold rowRdRs1Rs2
  split
  · next d a b hd ha hb =>
    exact .ok (hmk d a b) (not_or.2 ⟨bit_of_reg5 hd, not_or.2 ⟨bit_of_reg5 ha, bit_of_reg5 hb⟩⟩)
  · exact .error _

theorem rowC1_sound {mk : Reg → Instr} (hmk : ∀ r, reg5 (field h 7 5) = .ok r → (mk r).wf isa = true) :
    Sound isa (h.getLsbD 11 = true) (rowC1 h mk) := by
  unfold rowC1
  split
  · next r hr => exact .ok (hmk r hr) (bit_of_reg5 hr)
  · exact .error _

theorem rowC2_sound {mk : Reg → Reg → Instr}
    (hmk : ∀ a b, reg5 (field h 2 5) = .ok b → (mk a b).wf isa = true) :
    Sound isa (h.getLsbD 11 = true ∨ h.getLsbD 6 = true) (rowC2 h mk) := by
  unfold rowC2
  split
  · next a b ha hb => exact .ok (hmk a b hb) (not_or.2 ⟨bit_of_reg5 ha, bit_of_reg5 hb⟩)
  · exact .error _

end Rows

/-! ### 32-bit words (30_encoding.md R133) -/

section Words

variable (isa : Isa) (w : BitVec 32)

theorem decodeOp_sound :
    Sound isa (w.getLsbD 11 = true ∨ w.getLsbD 19 = true ∨ w.getLsbD 24 = true) (decodeOp isa w) := by
  unfold decodeOp
  split
  case h_11 | h_12 | h_13 | h_14 =>
    split
    · next hm => exact rowRdRs1Rs2_sound fun _ _ _ => hm
    · exact .error _
  case h_15 => exact .error _
  all_goals exact rowRdRs1Rs2_sound fun _ _ _ => rfl

theorem decodeOpImm_sound : Sound isa (w.getLsbD 11 = true ∨ w.getLsbD 19 = true) (decodeOpImm w) := by
  unfold decodeOpImm
  split
  case h_7 =>
    split
    · exact rowRdRs1_sound fun _ _ => rfl
    · exact .error _
  case h_8 =>
    split
    · exact rowRdRs1_sound fun _ _ => rfl
    · exact rowRdRs1_sound fun _ _ => rfl
    · exact .error _
  all_goals exact rowRdRs1_sound fun _ _ => rfl

theorem decodeLoad_sound : Sound isa (w.getLsbD 11 = true ∨ w.getLsbD 19 = true) (decodeLoad w) := by
  unfold decodeLoad
  split
  case h_6 => exact .error _
  all_goals exact rowRdRs1_sound fun _ _ => rfl

theorem decodeStore_sound : Sound isa (w.getLsbD 19 = true ∨ w.getLsbD 24 = true) (decodeStore w) := by
  unfold decodeStore
  split
  case h_4 => exact .error _
  all_goals exact rowRs1Rs2_sound fun _ _ => rfl

theorem decodeBranch_sound : Sound isa (w.getLsbD 19 = true ∨ w.getLsbD 24 = true) (decodeBranch w) := by
  unfold decodeBranch
  split
  case h_7 => exact .error _
  all_goals exact rowRs1Rs2_sound fun _ _ => immB_even w

theorem decodeMiscMem_sound : Sound isa False (decodeMiscMem w) := by
  unfold decodeMiscMem
  split
  case h_3 => exact .error _
  all_goals exact .ok rfl not_false

/-- A CSR instruction has rs1 only in its register forms, whose bit 14 is 0 (30_encoding.md R128). -/
theorem decodeSystem_sound :
    Sound isa (field w 12 3 ≠ 0#3 ∧ (w.getLsbD 11 = true ∨ w.getLsbD 14 = false ∧ w.getLsbD 19 = true))
      (decodeSystem w) := by
  have h14 : w.getLsbD 14 = (field w 12 3).getLsbD 2 := by simp
  unfold decodeSystem
  rw [h14]
  split
  case h_1 =>
    split
    case h_5 => exact .error _
    all_goals exact .ok rfl fun ha => ha.1 rfl
  case h_2 | h_3 | h_4 => exact (rowRdRs1_sound fun _ _ => rfl).mono fun ha => ha.2.imp_right And.right
  case h_5 hf | h_6 hf | h_7 hf =>
    refine (rowRd_sound fun _ => rfl).mono fun ha => ha.2.resolve_right fun hrs1 => ?_
    rw [hf] at hrs1
    cases hrs1.1
  case h_8 => exact .error _

theorem decode32_jalr_sound (h : field w 0 7 = 0b1100111#7) :
    Sound isa (w.getLsbD 11 = true ∨ w.getLsbD 19 = true) (decode32 isa w) := by
  by_cases hf : field w 12 3 = 0b000#3
  · rw [decode32_jalr isa h hf]
    exact rowRdRs1_sound fun _ _ => rfl
  · rw [decode32_jalr_other isa h hf]
    exact .error _

theorem decode32_sound : Sound isa False (decode32 isa w) := by
  unfold decode32
  split
  case h_1 | h_2 => exact (rowRd_sound fun _ => rfl).mono False.elim
  case h_3 =>
    refine (rowRd_sound fun _ => ?_).mono False.elim
    exact immJ_even w
  case h_4 =>
    split
    · exact (rowRdRs1_sound fun _ _ => rfl).mono False.elim
    · exact .error _
  case h_5 => exact (decodeBranch_sound isa w).mono False.elim
  case h_6 => exact (decodeLoad_sound isa w).mono False.elim
  case h_7 => exact (decodeStore_sound isa w).mono False.elim
  case h_8 => exact (decodeOpImm_sound isa w).mono False.elim
  case h_9 => exact (decodeOp_sound isa w).mono False.elim
  case h_10 => exact decodeMiscMem_sound isa w
  case h_11 => exact (decodeSystem_sound isa w).mono False.elim
  case h_12 => exact .error _

end Words

/-! ### 16-bit words (30_encoding.md R134, R143, R144) -/

section Parcels

variable (isa : Isa) {h : Parcel}

theorem toInstr_wf {f : XwForm} (hx : isa.hasXw = true) : f.toInstr.wf isa = true := by
  unfold XwForm.toInstr
  split <;> exact hx

theorem decodeXw_sound (h : Parcel) : Sound isa False (decodeXw isa h) := by
  unfold decodeXw xwLookup
  split
  · next hx =>
    split
    · exact .error _
    · split
      · next i hi =>
        obtain ⟨e, -, rfl⟩ := Option.map_eq_some_iff.1 hi
        exact .ok (toInstr_wf isa hx) not_false
      · exact .error _
  · exact .error _

theorem decodeQ0_sound (h0 : h ≠ 0#16) (hc : xwCandidate h = false) (hq : field h 0 2 = 0b00#2) :
    Sound isa False (decodeQ0 h) := by
  unfold decodeQ0
  split
  case h_1 hf =>
    have h8 : field h 5 8 ≠ 0#8 := fun e => h0 (by simpa [xwCandidate, hq, hf, e] using hc)
    have himm : cImm4spn h ≠ 0#10 := by rwa [Ne, cImm4spn_eq_zero]
    exact .ok (by simp [Instr.wf, cImm4spn_scaled, himm]) not_false
  case h_2 | h_3 => exact .ok (by simp [Instr.wf, cImmLw_scaled]) not_false
  case h_4 => exact .error _

theorem decodeQ1Alu_sound (h : Parcel) : Sound isa False (decodeQ1Alu h) := by
  unfold decodeQ1Alu
  split
  case h_1 | h_2 | h_3 => exact .ok (by simp [Instr.wf]) not_false
  case h_4 => split <;> exact .ok (by simp [Instr.wf]) not_false

/-- The rows of quadrant 01 with the field h[11:7] are C.ADDI, C.LI and C.LUI, with C.NOP and C.ADDI16SP beside them. -/
theorem decodeQ1_sound (hc : xwCandidate h = false) (hq : field h 0 2 = 0b01#2) :
    Sound isa (field h 13 3 ∈ [0b000#3, 0b010#3, 0b011#3] ∧ h.getLsbD 11 = true) (decodeQ1 h) := by
  unfold decodeQ1
  split
  case h_1 =>
    split
    · next h7 => exact .ok rfl fun ha => bit_of_reg5 (r := 0) (lo := 7) (by rw [h7]; rfl) ha.2
    · next h7 => exact (rowC1_sound fun r hr => by simpa [Instr.wf] using reg5_ne (s := 0) hr h7).mono And.right
  case h_3 => exact (rowC1_sound fun _ _ => rfl).mono And.right
  case h_4 hf =>
    have himm : cImm6 h ≠ 0#6 := by simpa [xwCandidate, hq, hf] using hc
    split
    · next h7 =>
      have h16 : cImm16sp h ≠ 0#10 := by rwa [Ne, cImm16sp_eq_zero]
      exact .ok (by simp [Instr.wf, cImm16sp_scaled, h16])
        fun ha => bit_of_reg5 (r := 2) (lo := 7) (by rw [h7]; rfl) ha.2
    · next h7 =>
      exact (rowC1_sound fun r hr => by simpa [Instr.wf, himm] using reg5_ne (s := 2) hr h7).mono And.right
  case h_2 hf | h_6 hf => exact .ok (cImmJ_even h) (by simp [hf])
  case h_5 hf => exact (decodeQ1Alu_sound isa h).mono (by simp [hf])
  case h_7 hf => exact .ok (by simp [Instr.wf, cImmB_even]) (by simp [hf])
  case h_8 h000 _ h010 h011 _ _ _ =>
    refine .ok (by simp [Instr.wf, cImmB_even]) fun ⟨hm, _⟩ => ?_
    simp only [List.mem_cons, List.not_mem_nil, or_false] at hm
    tauto

/-- C.JR and C.JALR, whose field h[6:2] is 0 and whose register is not x0. -/
theorem rowC1_cr_sound {mk : Reg → Instr} (hmk : ∀ r, r ≠ 0 → (mk r).wf isa = true) (h7 : field h 7 5 ≠ 0#5)
    (h2 : field h 2 5 = 0#5) : Sound isa (h.getLsbD 11 = true ∨ h.getLsbD 6 = true) (rowC1 h mk) := by
  have h6 : ¬ h.getLsbD 6 = true := bit_of_reg5 (r := 0) (lo := 2) (by rw [h2]; rfl)
  exact (rowC1_sound fun r hr => hmk r (reg5_ne (s := 0) hr h7)).mono fun ha => ha.resolve_right h6

/-- C.MV and C.ADD, whose field h[6:2] is not 0. -/
theorem rowC2_cr_sound {mk : Reg → Reg → Instr} (hmk : ∀ a b, b ≠ 0 → (mk a b).wf isa = true)
    (h2 : field h 2 5 ≠ 0#5) : Sound isa (h.getLsbD 11 = true ∨ h.getLsbD 6 = true) (rowC2 h mk) :=
  rowC2_sound fun a b hb => hmk a b (reg5_ne (s := 0) hb h2)

/-- The rows of quadrant 10 with the field h[11:7] are C.SLLI, C.LWSP and those of CR, which have h[6:2] as well, as
C.SWSP has. -/
theorem decodeQ2_sound (hc : xwCandidate h = false) (hq : field h 0 2 = 0b10#2) :
    Sound isa (field h 13 3 ∈ [0b000#3, 0b010#3, 0b100#3] ∧ h.getLsbD 11 = true ∨
      field h 13 3 ∈ [0b100#3, 0b110#3] ∧ h.getLsbD 6 = true) (decodeQ2 h) := by
  unfold decodeQ2
  split
  case h_1 hf => exact (rowC1_sound fun _ _ => rfl).mono (by simp [hf])
  case h_2 hf =>
    have h7 : field h 7 5 ≠ 0#5 := by simpa [xwCandidate, hq, hf] using hc
    exact (rowC1_sound fun r hr => by simpa [Instr.wf, cImmLwsp_scaled] using reg5_ne (s := 0) hr h7).mono
      (by simp [hf])
  case h_3 hf =>
    have hne : h ≠ 0x8002#16 := by simpa [xwCandidate, hq, hf] using hc
    refine Sound.mono (absent := h.getLsbD 11 = true ∨ h.getLsbD 6 = true) ?_ (Or.imp And.right And.right)
    split
    · next h12 =>
      split
      · next h2 =>
        have h7 : field h 7 5 ≠ 0#5 := fun h7 => hne (by rw [← parcel_eq_fields h, hf, h12, h7, h2, hq]; rfl)
        exact rowC1_cr_sound isa (fun r hr => by simpa [Instr.wf] using hr) h7 h2
      · next h2 => exact rowC2_cr_sound isa (fun _ b hb => by simpa [Instr.wf] using hb) h2
    · split
      · next h10 =>
        obtain ⟨h7, h2⟩ := (field_eq_zero_iff h 2 5 5).1 h10
        exact .ok rfl (not_or.2 ⟨bit_of_reg5 (r := 0) (lo := 7) (by rw [h7]; rfl),
          bit_of_reg5 (r := 0) (lo := 2) (by rw [h2]; rfl)⟩)
      · next h10 =>
        split
        · next h2 =>
          have h7 : field h 7 5 ≠ 0#5 := fun h7 => h10 ((field_eq_zero_iff h 2 5 5).2 ⟨h7, h2⟩)
          exact rowC1_cr_sound isa (fun r hr => by simpa [Instr.wf] using hr) h7 h2
        · next h2 => exact rowC2_cr_sound isa (fun _ b hb => by simpa [Instr.wf] using hb) h2
  case h_4 hf =>
    split
    · next r hr =>
      refine .ok (cImmSwsp_scaled h) fun ha => bit_of_reg5 hr (ha.resolve_left fun h11 => ?_).2
      simp [hf] at h11
    · exact .error _
  case h_5 => exact .error _

theorem decode16_sound (hq : field h 0 2 ≠ 3#2) : Sound isa False (decode16 isa h) := by
  have quadrant : ∀ q : BitVec 2, q ≠ 3#2 → q = 0b00#2 ∨ q = 0b01#2 ∨ q = 0b10#2 := by decide
  by_cases h0 : h = 0#16
  · rw [h0]
    exact .error .definedIllegal
  · cases hc : xwCandidate h with
    | true =>
      rw [decode16_candidate isa hc]
      exact decodeXw_sound isa h
    | false =>
      rcases quadrant _ hq with hq | hq | hq
      · rw [decode16_q0 isa h0 hc hq]
        exact decodeQ0_sound isa h0 hc hq
      · rw [decode16_q1 isa hc hq]
        exact (decodeQ1_sound isa hc hq).mono False.elim
      · rw [decode16_q2 isa hc hq]
        exact (decodeQ2_sound isa hc hq).mono False.elim

end Parcels

/-! ### Lists of parcels -/

/-- What decodes is a 16-bit parcel or a 32-bit word (30_encoding.md R120). -/
theorem decode_ok {isa : Isa} {ps rest : List Parcel} {i : Instr} (h : decode isa ps = .ok (i, rest)) :
    (∃ p, field p 0 2 ≠ 3#2 ∧ decode16 isa p = .ok i) ∨ ∃ w, decode32 isa w = .ok i := by
  have of_map : ∀ (d : Decoded) (r : List Parcel), d.map (fun j => (j, r)) = .ok (i, rest) → d = .ok i := by
    intro d r hd
    cases d <;> cases hd
    rfl
  unfold decode at h
  split at h
  case h_1 => cases h
  case h_2 p ps' =>
    split at h
    · cases h
    · next hlong =>
      split at h
      · split at h
        · cases h
        · exact .inr ⟨_, of_map _ _ h⟩
      · next hwide => exact .inl ⟨p, by simp_all [isLong, isWide], of_map _ _ h⟩

/-! ### The obligations -/

/-- Settles O3: every row of the decoder is sound, and so is every entry of `xw_decode`. -/
theorem decodedInstructionsWellFormed : Obligations.DecodedInstructionsWellFormed := by
  intro isa ps rest i h
  rcases decode_ok h with ⟨p, hq, hd⟩ | ⟨w, hd⟩
  · exact (decode16_sound isa hq).wf hd
  · exact (decode32_sound isa w).wf hd

/-- Settles O5: each major opcode and each quadrant outside the candidate space refuses its absent registers. -/
theorem absentRegistersRefused : Obligations.AbsentRegistersRefused := by
  intro isa w h opcode rd rs1 rs2 refused refused16
  refine ⟨fun hop hr => ?op, fun hop hr => ?rdRs1, fun hop hr => ?rs1Rs2, fun hop hr => ?rd, fun hop hf hr => ?csr,
    fun hc => ⟨fun hrow hr => ?first, fun hrow hr => ?second⟩⟩
  case op =>
    have hs := decodeOp_sound isa w
    rw [← decode32_op isa hop] at hs
    exact hs.refused hr
  case rdRs1 =>
    have hs : Sound isa (w.getLsbD 11 = true ∨ w.getLsbD 19 = true) (decode32 isa w) := by
      simp only [List.mem_cons, List.not_mem_nil, or_false] at hop
      rcases hop with hop | hop | hop
      · rw [decode32_opImm isa hop]; exact decodeOpImm_sound isa w
      · rw [decode32_load isa hop]; exact decodeLoad_sound isa w
      · exact decode32_jalr_sound isa w hop
    exact hs.refused hr
  case rs1Rs2 =>
    have hs : Sound isa (w.getLsbD 19 = true ∨ w.getLsbD 24 = true) (decode32 isa w) := by
      simp only [List.mem_cons, List.not_mem_nil, or_false] at hop
      rcases hop with hop | hop
      · rw [decode32_store isa hop]; exact decodeStore_sound isa w
      · rw [decode32_branch isa hop]; exact decodeBranch_sound isa w
    exact hs.refused hr
  case rd =>
    have hs : Sound isa (w.getLsbD 11 = true) (decode32 isa w) := by
      simp only [List.mem_cons, List.not_mem_nil, or_false] at hop
      rcases hop with hop | hop | hop
      · rw [decode32_lui isa hop]; exact rowRd_sound fun _ => rfl
      · rw [decode32_auipc isa hop]; exact rowRd_sound fun _ => rfl
      · rw [decode32_jal isa hop]; exact rowRd_sound fun _ => immJ_even w
    exact hs.refused hr
  case csr =>
    have hs := decodeSystem_sound isa w
    rw [← decode32_system isa hop] at hs
    exact hs.refused ⟨hf, hr⟩
  case first =>
    have rows : field h 0 2 = 0b01#2 ∧ field h 13 3 ∈ [0b000#3, 0b010#3, 0b011#3] ∨
        field h 0 2 = 0b10#2 ∧ field h 13 3 ∈ [0b000#3, 0b010#3, 0b100#3] := by
      simp only [List.mem_cons, List.not_mem_nil, or_false, Prod.mk.injEq] at hrow ⊢
      tauto
    rcases rows with ⟨hq, hf⟩ | ⟨hq, hf⟩
    · have hs := decodeQ1_sound isa hc hq
      rw [← decode16_q1 isa hc hq] at hs
      exact hs.refused ⟨hf, hr⟩
    · have hs := decodeQ2_sound isa hc hq
      rw [← decode16_q2 isa hc hq] at hs
      exact hs.refused (.inl ⟨hf, hr⟩)
  case second =>
    have rows : field h 0 2 = 0b10#2 ∧ field h 13 3 ∈ [0b100#3, 0b110#3] := by
      simp only [List.mem_cons, List.not_mem_nil, or_false, Prod.mk.injEq] at hrow ⊢
      tauto
    have hs := decodeQ2_sound isa hc rows.1
    rw [← decode16_q2 isa hc rows.1] at hs
    exact hs.refused (.inr ⟨rows.2, hr⟩)

end Sys2Proof
end
section
/-!
SUPPORT. Steps that end in exception 1 or 2: a parcel that cannot be fetched, a word that does not decode
(20_memory.md R88, 30_encoding.md R140, R141, R143, 60_exceptions.md R359).
-/

namespace Sys2Proof.Machine

theorem andThen_next_right {α : Type} (o : Res α) : andThen o .next = o := by cases o <;> rfl

namespace State

/-- Without single step a step of a hart that executes is its instruction. -/
theorem step_executing_unstepped (s : State) (h : s.Executing) (hs : s.stepBit = false) :
    step s = ({ s with tailPop := false } : State).runInstruction := by
  have hdone : s.stepDone = id := funext fun t => by rw [s.stepDone_eq t, hs]; rfl
  rw [s.step_executing h, hdone]
  exact andThen_next_right _

theorem fetch_outside (s : State) (a : Word) (h : isMemory s.cfg a.toNat = false) : s.fetch a = none := by
  simp [fetch, allBytes, h]

theorem executeParcels_error (s : State) (ps : List Parcel) (e : DecodeError) (h : decode s.cfg.isa ps = .error e)
    (he : e ≠ .xwNotSupplied) : s.executeParcels ps = s.takeException 2#4 := by
  unfold executeParcels
  rw [h]
  cases e
  case xwNotSupplied => exact absurd rfl he
  all_goals rfl

theorem PcEven.not_odd {s : State} (he : s.PcEven) : ¬ s.pc.getLsbD 0 = true := by simpa [PcEven] using he

section Fetched

variable (s : State) (he : s.PcEven)
include he

theorem runInstruction_outside (h : isMemory s.cfg s.pc.toNat = false) : s.runInstruction = s.takeException 1#4 := by
  unfold runInstruction
  rw [if_neg he.not_odd, s.fetch_outside s.pc h]

theorem runInstruction_parcel (hf : s.Fetchable s.pc) (hw : isWide (s.parcelAt s.pc) = false) :
    s.runInstruction = s.executeParcels [s.parcelAt s.pc] := by
  unfold runInstruction
  rw [if_neg he.not_odd, s.fetch_fetchable s.pc hf]
  simp only [hw, Bool.false_eq_true, if_false]

variable (hf : s.Fetchable s.pc) (hw : isWide (s.parcelAt s.pc) = true) (ht : s.pc ≠ 0xFFFFFFFE#32)
include hf hw ht

theorem runInstruction_second_outside (h : isMemory s.cfg (s.pc + 2#32).toNat = false) :
    s.runInstruction = s.takeException 1#4 := by
  unfold runInstruction
  rw [if_neg he.not_odd, s.fetch_fetchable s.pc hf]
  simp only [hw, if_true, if_neg ht, s.fetch_outside _ h]

theorem runInstruction_parcels (hf2 : s.Fetchable (s.pc + 2#32)) :
    s.runInstruction = s.executeParcels [s.parcelAt s.pc, s.parcelAt (s.pc + 2#32)] := by
  unfold runInstruction
  rw [if_neg he.not_odd, s.fetch_fetchable s.pc hf]
  simp only [hw, if_true, if_neg ht, s.fetch_fetchable _ hf2]

end Fetched

end State

/-! ### The obligation -/

/-- Settles O7: the parcels that are fetched decide between the two exceptions, and without single step the exception
is the whole step. -/
theorem undecodableWordsTrap : Obligations.UndecodableWordsTrap := by
  intro s e hx he hs hne u
  have hstep : step s = u.runInstruction := s.step_executing_unstepped hx hs
  have hu : ∀ a, s.Fetchable a → u.Fetchable a := fun a h => ⟨h.lo, h.hi, h.fresh⟩
  rw [hstep]
  refine ⟨fun hout => ?outside,
    fun hf => ⟨fun hw hd => ?narrow, fun hw ht => ⟨fun hout => ?half, fun hf2 hd => ?wide⟩⟩⟩
  case outside => exact u.runInstruction_outside he hout
  case narrow =>
    rw [u.runInstruction_parcel he (hu _ hf) hw]
    exact u.executeParcels_error _ e hd hne
  case half => exact u.runInstruction_second_outside he (hu _ hf) hw ht hout
  case wide =>
    rw [u.runInstruction_parcels he (hu _ hf) hw ht (hu _ hf2)]
    exact u.executeParcels_error _ e hd hne

end Sys2Proof.Machine
end
section
/-!
SUPPORT. The results of the integer computational instructions over the integers (40_integer_computational.md R161 to
R181): every meaning ends in `finishReg`, and what is left of each instruction is the value it writes.
-/

namespace Sys2Proof.Machine

/-! ### The values of the results -/

/-- Sign extension keeps the signed value. -/
theorem toInt_sext (imm : BitVec 12) : (sext imm).toInt = imm.toInt := BitVec.toInt_signExtend_of_le (by decide)

theorem boolWord_ltSigned (a b : Word) : boolWord (ltSigned a b) = if a.toInt < b.toInt then 1#32 else 0#32 :=
  boolWord_eq _

theorem boolWord_ltUnsigned (a b : Word) : boolWord (ltUnsigned a b) = if a.toNat < b.toNat then 1#32 else 0#32 :=
  boolWord_eq _

theorem add_upperImm_eq (a : Word) (imm : BitVec 20) :
    a + upperImm imm = BitVec.ofNat 32 (a.toNat + imm.toNat * 4096) := by
  rw [BitVec.ofNat_add, BitVec.ofNat_toNat, BitVec.setWidth_eq, upperImm_eq]

theorem add_eq_ofInt (a b : Word) : a + b = BitVec.ofInt 32 (a.toInt + b.toInt) := by
  rw [BitVec.ofInt_add, BitVec.ofInt_toInt, BitVec.ofInt_toInt]

theorem sub_eq_ofInt (a b : Word) : a - b = BitVec.ofInt 32 (a.toInt - b.toInt) := by
  rw [← BitVec.toInt_inj, BitVec.toInt_sub, BitVec.toInt_ofInt]

/-! ### An instruction that writes one register -/

/-- An instruction whose meaning ends in `finishReg` writes its value and goes 4 bytes on. -/
theorem exec_wrote {s : State} {i : Instr} {rd : Reg} {v w : Word} (hi : exec i s = .next (s.finishReg rd v ilen4))
    (hv : v = w) : ∃ t, exec i s = .next t ∧ Wrote s t rd w (s.pc + 4#32) :=
  hi ▸ finishReg_completes s rd v w ilen4 hv

/-! ### The obligations -/

/-- Settles O8: each case gives the value that the meaning writes. -/
theorem immediateResults : Obligations.ImmediateResults := by
  intro s rd rs1 upper imm
  refine ⟨?lui, ?auipc, ?addi, ?slti, ?sltiu, ?xori, ?ori, ?andi⟩
  case lui => exact exec_wrote rfl (upperImm_eq upper)
  case auipc => exact exec_wrote rfl (add_upperImm_eq s.pc upper)
  case addi => exact exec_wrote rfl (add_sext_eq (s.reg rs1) imm)
  case slti => exact exec_wrote rfl (toInt_sext imm ▸ boolWord_ltSigned (s.reg rs1) (sext imm))
  case sltiu => exact exec_wrote rfl (sext_eq imm ▸ boolWord_ltUnsigned (s.reg rs1) (sext imm))
  case xori => exact exec_wrote rfl (congrArg (s.reg rs1 ^^^ ·) (sext_eq imm))
  case ori => exact exec_wrote rfl (congrArg (s.reg rs1 ||| ·) (sext_eq imm))
  case andi => exact exec_wrote rfl (congrArg (s.reg rs1 &&& ·) (sext_eq imm))

/-- Settles O9: sums and differences over the integers, comparisons as such, the bitwise operations as they stand. -/
theorem registerRegisterResults : Obligations.RegisterRegisterResults := by
  intro s rd rs1 rs2
  refine ⟨?add, ?sub, ?slt, ?sltu, ?xor, ?or, ?and⟩
  case add => exact exec_wrote rfl (add_eq_ofInt (s.reg rs1) (s.reg rs2))
  case sub => exact exec_wrote rfl (sub_eq_ofInt (s.reg rs1) (s.reg rs2))
  case slt => exact exec_wrote rfl (boolWord_ltSigned (s.reg rs1) (s.reg rs2))
  case sltu => exact exec_wrote rfl (boolWord_ltUnsigned (s.reg rs1) (s.reg rs2))
  case xor => exact exec_wrote rfl rfl
  case or => exact exec_wrote rfl rfl
  case and => exact exec_wrote rfl rfl

/-- Settles O10: the three shifts by any amount, the amount an immediate or a register modulo 32. -/
theorem shiftResults : Obligations.ShiftResults := by
  intro s rd rs1 rs2 sh
  rw [← shiftAmount_eq]
  refine ⟨?slli, ?srli, ?srai, ?sll, ?srl, ?sra⟩
  case slli => exact exec_wrote rfl (shiftLeft_eq (s.reg rs1) sh.toNat)
  case srli => exact exec_wrote rfl (shiftRight_eq (s.reg rs1) sh.toNat)
  case srai => exact exec_wrote rfl (sshiftRight_eq (s.reg rs1) sh.toNat)
  case sll => exact exec_wrote rfl (shiftLeft_eq (s.reg rs1) (shiftAmount (s.reg rs2)))
  case srl => exact exec_wrote rfl (shiftRight_eq (s.reg rs1) (shiftAmount (s.reg rs2)))
  case sra => exact exec_wrote rfl (sshiftRight_eq (s.reg rs1) (shiftAmount (s.reg rs2)))

end Sys2Proof.Machine
end

section
/-!
SUPPORT. The 32-bit control transfers (41_control_transfer.md R201 to R209): a jump ends in `jumpLink` and is told by its
target, a branch ends in `branch` and is told by its condition.
-/

namespace Sys2Proof.Machine

/-! ### Conditions and targets -/

theorem ltSigned_iff (a b : Word) : ltSigned a b = true ↔ a.toInt < b.toInt := decide_eq_true_iff

theorem ltUnsigned_iff (a b : Word) : ltUnsigned a b = true ↔ a.toNat < b.toNat := decide_eq_true_iff

theorem not_ltSigned_iff (a b : Word) : (!ltSigned a b) = true ↔ b.toInt ≤ a.toInt := by
  rw [Bool.not_eq_true', ← Bool.not_eq_true, ltSigned_iff, not_lt]

theorem not_ltUnsigned_iff (a b : Word) : (!ltUnsigned a b) = true ↔ b.toNat ≤ a.toNat := by
  rw [Bool.not_eq_true', ← Bool.not_eq_true, ltUnsigned_iff, not_lt]

/-- The target of JALR: the wrapping sum with bit 0 cleared (41_control_transfer.md R202). -/
theorem baseOffset_clearBit0_eq (s : State) (rs1 : Reg) (imm : BitVec 12) :
    s.baseOffset rs1 imm &&& 0xFFFFFFFE#32 =
      BitVec.ofNat 32 ((BitVec.ofInt 32 ((s.reg rs1).toInt + imm.toInt)).toNat / 2 * 2) := by
  have hsum : s.baseOffset rs1 imm = BitVec.ofInt 32 ((s.reg rs1).toInt + imm.toInt) := add_sext_eq (s.reg rs1) imm
  rw [clearBit0_eq, hsum]

/-! ### An instruction that jumps or branches -/

/-- An instruction whose meaning ends in `jumpLink` writes the link, computed from the old pc, and goes to its target. -/
theorem exec_jumped {s : State} {i : Instr} {rd : Reg} {t u il : Word} (hi : exec i s = .next (s.jumpLink rd t il))
    (ht : t = u) : ∃ x, exec i s = .next x ∧ Wrote s x rd (s.pc + il) u :=
  hi ▸ jumpLink_completes s rd t u il ht

/-- An instruction whose meaning ends in `branch` goes to the pc plus its offset exactly if its condition holds, for an
offset of any width (R203). -/
theorem exec_branched {s : State} {i : Instr} {k : Nat} {off : BitVec k} {c : Bool} {il : Word} {p : Prop} [Decidable p]
    (hi : exec i s = .next (s.branch c (sext off) il)) (hc : c = true ↔ p) :
    ∃ x, exec i s = .next x ∧
      Moved s x (if p then BitVec.ofInt 32 (s.pc.toInt + off.toInt) else s.pc + il) := by
  rw [hi]
  apply branch_completes
  simp only [hc, add_sext_eq]

/-! ### The obligation -/

/-- Settles O12: the two jumps by their targets, the six branches by their conditions; BNE is the branch on the negated
equality. -/
theorem transferResults : Obligations.TransferResults := by
  intro s rd rs1 rs2 off imm boff branchTarget
  refine ⟨?jal, ?jalr, ?beq, ?bne, ?blt, ?bge, ?bltu, ?bgeu⟩
  case jal => exact exec_jumped rfl (add_sext_eq s.pc off)
  case jalr => exact exec_jumped rfl (baseOffset_clearBit0_eq s rs1 imm)
  case beq => exact exec_branched rfl decide_eq_true_iff
  case bne =>
    rw [← ite_not]
    exact exec_branched rfl decide_eq_true_iff
  case blt => exact exec_branched rfl (ltSigned_iff (s.reg rs1) (s.reg rs2))
  case bge => exact exec_branched rfl (not_ltSigned_iff (s.reg rs1) (s.reg rs2))
  case bltu => exact exec_branched rfl (ltUnsigned_iff (s.reg rs1) (s.reg rs2))
  case bgeu => exact exec_branched rfl (not_ltUnsigned_iff (s.reg rs1) (s.reg rs2))

end Sys2Proof.Machine
end

section
/-!
SUPPORT. The 32-bit loads and stores (42_load_store.md R220 to R229): a load ends in `State.load` and is told by its width
and its extension, a store ends in `State.store` and is told by its width.
-/

namespace Sys2Proof.Machine

/-! ### The effective address and the extensions -/

/-- The effective address is the wrapping signed sum of base and offset (42_load_store.md R220). -/
theorem baseOffset_eq (s : State) (rs1 : Reg) (imm : BitVec 12) :
    s.baseOffset rs1 imm = BitVec.ofInt 32 ((s.reg rs1).toInt + imm.toInt) := add_sext_eq (s.reg rs1) imm

/-- A load without sign extension writes what it reads. -/
theorem extendLoad_unsigned (w : Width) (v : Word) : extendLoad .unsigned w v = v := rfl

/-! ### An instruction that loads or stores -/

/-- An instruction whose meaning is a load, from plain memory, writes the extended little-endian number of its bytes. -/
theorem exec_loaded {s : State} {i : Instr} {w : Width} {k : LoadKind} {rd : Reg} {ea v il : Word}
    (hi : exec i s = s.load w k rd ea il) (hv : extendLoad k w (BitVec.ofNat 32 (s.memNat w ea.toNat)) = v)
    (h : s.LoadsMemory w ea) : ∃ t, exec i s = .next t ∧ Wrote s t rd v (s.pc + il) :=
  hi ▸ s.load_completes w k rd ea v il h hv

/-- An instruction whose meaning is a store, to RAM, changes the bytes of its width. -/
theorem exec_stored {s : State} {i : Instr} {w : Width} {ea v il : Word} (hi : exec i s = s.store w v ea il)
    (h : s.StoresRam w ea) : ∃ t, exec i s = .next t ∧ Stored s t w ea.toNat v (s.pc + il) :=
  hi ▸ s.store_completes w v ea il h

/-! ### The obligations -/

/-- Settles O15: LB and LH extend the sign of the number they read, the others write it as it is; LW has nothing to
extend. -/
theorem loadResults : Obligations.LoadResults := by
  intro s rd rs1 imm
  rw [← baseOffset_eq]
  refine ⟨?lb, ?lh, ?lw, ?lbu, ?lhu⟩
  case lb => exact exec_loaded rfl (State.extendLoad_byte _)
  case lh => exact exec_loaded rfl (State.extendLoad_half _)
  case lw => exact exec_loaded rfl (extendLoad_unsigned .word _)
  case lbu => exact exec_loaded rfl (extendLoad_unsigned .byte _)
  case lhu => exact exec_loaded rfl (extendLoad_unsigned .half _)

/-- Settles O17: each case is a store of its own width to the effective address. -/
theorem storeResults : Obligations.StoreResults := by
  intro s rs2 rs1 imm
  rw [← baseOffset_eq]
  refine ⟨?sb, ?sh, ?sw⟩
  case sb => exact exec_stored rfl
  case sh => exact exec_stored rfl
  case sw => exact exec_stored rfl

end Sys2Proof.Machine
end

section
/-!
SUPPORT. The instructions that settle access errors, call or stop: FENCE, FENCE.I, WFI, `mret`, ECALL, EBREAK and
C.EBREAK (43_system.md R240 to R243, R252, R253). What a trap entry finds of a state is named once, so that an entry from
the state that such an instruction has prepared is an entry from the state it began in.
-/

namespace Sys2Proof.Machine

/-! ### `dcsr` on entering Debug mode (64_debug.md R540) -/

theorem dcsrEntered_cause (d : Word) (cause : BitVec 3) : (dcsrEntered d cause).extractLsb' 6 3 = cause := by
  apply BitVec.eq_of_getLsbD_eq
  intro i hi
  unfold dcsrEntered
  interval_cases i <;> simp

theorem dcsrEntered_prv (d : Word) (cause : BitVec 3) : (dcsrEntered d cause).extractLsb' 0 2 = 3#2 := by
  apply BitVec.eq_of_getLsbD_eq
  intro i hi
  unfold dcsrEntered
  interval_cases i <;> simp

/-- Every bit but those of cause and prv stays. -/
theorem dcsrEntered_kept (d : Word) (cause : BitVec 3) :
    dcsrEntered d cause &&& 0xFFFFFE3C#32 = d &&& 0xFFFFFE3C#32 := by
  have hcause : (cause.setWidth 32 <<< 6) &&& 0xFFFFFE3C#32 = 0#32 := by revert cause; decide
  have hprv : 3#32 &&& 0xFFFFFE3C#32 = 0#32 := by decide
  unfold dcsrEntered
  rw [BitVec.and_or_distrib_right, BitVec.and_or_distrib_right, hcause, hprv, BitVec.and_assoc, BitVec.and_self,
    BitVec.or_zero, BitVec.or_zero]

/-! ### What a trap entry finds of a state -/

/-- The state without what an instruction that settles access errors changes before the entry: the pc, the copies of the
masks, the run state, the event, the queue of errors and what stores have replaced. -/
def State.entryView (s : State) : State :=
  { s with
    pc := 0#32
    mieEff := false
    pfic := { s.pfic with enableEff := 0#256 }
    run := .running
    deepSleep := false
    event := false
    inflight := []
    dueErrors := 0
    stale := [] }

theorem Entered.congr {s u t : State} {cause epc : Word} (h : Entered u t cause epc) (hv : u.entryView = s.entryView) :
    Entered s t cause epc := by
  have hview : Entered u.entryView t cause epc := { h with }
  rw [hv] at hview
  exact { hview with }

namespace State

theorem EntersPlainly.congr {s u : State} (h : s.EntersPlainly) (hv : u.entryView = s.entryView)
    (hd : u.inDebug = false) : u.EntersPlainly := by
  have hview : s.entryView.EntersPlainly := { h with notDebug := rfl }
  rw [← hv] at hview
  exact { hview with notDebug := hd }

theorem NoVtf.congr {s u : State} {n : Nat} (h : s.NoVtf n) (hv : u.entryView = s.entryView) : u.NoVtf n := by
  have hview : s.entryView.NoVtf n := h
  rw [← hv] at hview
  exact hview

theorem entryOf_congr {s u : State} (hv : u.entryView = s.entryView) (n : Nat) : u.entryOf n = s.entryOf n := by
  show u.entryView.entryOf n = s.entryView.entryOf n
  rw [hv]

/-! ### Entering an exception -/

/-- A completed trap entry has done what every entry does (60_exceptions.md R361 to R365), given what it has done to the
bytes of memory. -/
theorem enterTrap_entered {s t : State} {k : TrapId} {cause epc : Word} (h : s.enterTrap k cause epc = .next t)
    (hb : s.hwstken = false → ∀ a, t.byteAt a = s.byteAt a) : Entered s t cause epc := by
  obtain ⟨-, hmepc, hmcause, hmpie, hmppop, hmpop, hmpp, hlast, hnested, hstack, hrun, hregs, hcsrs⟩ :=
    s.enterTrap_fields t k cause epc h
  have hreg : ∀ q, t.reg q = (if s.hwstken then s.setReg 2 (s.reg 2 - 48#32) else s).reg q := reg_congr _ _ hregs
  refine ⟨hmepc, hmcause, hmpie, hmppop, hmpop, hmpp, hlast, hnested, ?nest, hrun, ?others, ?sp, hcsrs, hb⟩
  case nest => simp only [nest, hstack, List.length_cons]
  case others =>
    intro q hq
    rw [hreg]
    split
    · exact reg_setReg_other s 2 q _ hq
    · rfl
  case sp =>
    rw [hreg]
    split
    · exact reg_setReg_same s 2 _ (by decide)
    · rfl

theorem enterTarget_exc (s : State) (hv : s.NoVtf 3) (ht : s.mtvec.extractLsb' 2 8 = 0#8)
    (hj : s.mtvec.getLsbD 1 = false) : s.enterTarget .exc = .next (s.jumpTo (s.entryOf 3)) :=
  (s.enterTarget_vector .exc hv).trans (s.enterAtVector_jump 3#8 ht hj)

/-- An exception without a push goes to slot 3 of the table of instructions, and touches no device, no event and no access
error (60_exceptions.md R361 to R367). -/
theorem enterTrap_plainly {s : State} (h : s.EntersPlainly) (hv : s.NoVtf 3) (cause epc : Word) :
    ∃ t, s.enterTrap .exc cause epc = .next t ∧ Entered s t cause epc ∧ t.pc = s.entryOf 3 ∧
      t.inflight = s.inflight ∧ t.dueErrors = s.dueErrors ∧ t.pfic = s.pfic ∧ t.event = s.event ∧
      t.tailPop = s.tailPop := by
  obtain ⟨u, m, e, n, henter, rfl⟩ := s.enterTrap_eq .exc cause epc h.nest h.noHpe
  have hnext := henter.trans (enterTarget_exc _ hv h.table h.jumps)
  exact ⟨_, hnext, enterTrap_entered hnext fun _ _ => rfl, rfl, rfl, rfl, rfl, rfl, rfl⟩

/-- A synchronous exception enters with `mepc` the address of its instruction (60_exceptions.md R360). -/
theorem takeException_plainly {s : State} (h : s.EntersPlainly) (hv : s.NoVtf 3) (code : BitVec 4) :
    ∃ t, s.takeException code = .next t ∧ Entered s t (code.setWidth 32) s.pc ∧ t.pc = s.entryOf 3 := by
  obtain ⟨t, henter, hentered, hpc, -⟩ := enterTrap_plainly h hv (code.setWidth 32) s.pc
  have htake : s.takeException code = s.enterTrap .exc (code.setWidth 32) s.pc := by
    unfold takeException
    rw [if_neg (by simp [h.notDebug])]
  exact ⟨t, htake.trans henter, hentered, hpc⟩

/-! ### Settling access errors -/

/-- The errors in flight are settled from `u`, which an instruction has made of `s`: the oldest is taken, the others are
due, and the entry is one from `s` (60_exceptions.md R358). -/
theorem settleErrors_taken {s u : State} {e : AccessError} {rest : List AccessError} (hp : s.EntersPlainly)
    (hn : s.NoVtf 3) (hv : u.entryView = s.entryView) (hd : u.inDebug = false) (hl : u.inflight = e :: rest) :
    ∃ t, u.settleErrors = .next t ∧ ErrorTaken s t e rest u.pc ∧ t.pfic = u.pfic ∧ t.event = u.event ∧
      t.tailPop = u.tailPop := by
  obtain ⟨t, henter, hentered, hpc, hinflight, hdue, hpfic, hevent, htail⟩ :=
    enterTrap_plainly (s := { u with inflight := rest, dueErrors := rest.length }) (hp.congr hv hd) (hn.congr hv)
      (accessErrorCode e) u.pc
  have htaken : ErrorTaken s t e rest u.pc := by
    cases e <;> exact ⟨hentered.congr hv, hinflight, hdue, hpc.trans (entryOf_congr hv 3)⟩
  exact ⟨t, (u.settleErrors_cons e rest hl hd).trans henter, htaken, hpfic, hevent, htail⟩

/-- In Debug mode the errors in flight end the program buffer that ran from `s` (64_debug.md R527, R535). -/
theorem settleErrors_bufferStopped {s u : State} (hd : u.inDebug = true) (hl : u.inflight ≠ [])
    (hdm : u.dm = s.dm) (hr : u.regs = s.regs) (hb : ∀ a, u.byteAt a = s.byteAt a) :
    ∃ t, u.settleErrors = .next t ∧ BufferStopped s t ∧ t.tailPop = u.tailPop := by
  refine ⟨_, u.settleErrors_debug hl hd, ⟨?inflight, rfl, ?cmder, ?halted, ?regs, ?bytes⟩, ?tail⟩
  case inflight => simp [progbufException]
  case cmder =>
    rw [← hdm]
    unfold progbufException setCmder
    split <;> rfl
  case halted => simpa [progbufException, inDebug] using hd
  case regs => simpa [progbufException] using hr
  case bytes =>
    intro a
    rw [← hb a]
    exact byteAt_congr _ _ (by simp [progbufException]) (by simp [progbufException]) (by simp [progbufException]) a
  case tail => simp [progbufException]

/-- An `mret` without a pop settles the errors as the fences do. -/
theorem settleMret_unpopped {s t : State} (hp : s.tailPop = false) (ht : s.settleErrors = .next t)
    (hf : t.tailPop = false) : s.settleMret = .next t := by
  have hkept : ({ t with tailPop := false } : State) = t := by rw [← hf]
  unfold settleMret
  split
  · next hl => rw [← ht, settleErrors_none s (List.isEmpty_iff.1 hl)]
  · rw [ht, hp]
    exact congrArg Host.Outcome.next hkept

/-! ### Waiting -/

/-- Outside Debug mode a WFI consumes an event exactly where it stands for a WFE (43_system.md R253, 63_low_power.md
R500). -/
theorem waitForInterrupt_event (s : State) (hd : s.inDebug = false) :
    s.waitForInterrupt.event = (s.event && !s.wfiToWfe) := by
  unfold waitForInterrupt
  rw [if_neg (by simp [hd])]
  split
  · next hw => cases s.event <;> simp [hw]
  · next hw => simp [hw]

/-- Apart from the sleep and the event a WFI changes nothing (63_low_power.md R500, R507). -/
theorem waitForInterrupt_frame (s : State) :
    s.waitForInterrupt.entryView = s.entryView ∧ s.waitForInterrupt.pc = s.pc ∧
      s.waitForInterrupt.inflight = s.inflight ∧ s.waitForInterrupt.inDebug = s.inDebug := by
  unfold waitForInterrupt
  split
  · exact ⟨rfl, rfl, rfl, rfl⟩
  · next hd =>
    have hrun : s.inDebug = false := by simpa using hd
    rw [hrun]
    split
    · split
      · exact ⟨rfl, rfl, rfl, hrun⟩
      · exact ⟨rfl, rfl, rfl, rfl⟩
    · exact ⟨rfl, rfl, rfl, rfl⟩

/-- In Debug mode a WFI does not wait (43_system.md R253). -/
theorem waitForInterrupt_debug (s : State) (hd : s.inDebug = true) : s.waitForInterrupt = s := by
  unfold waitForInterrupt
  rw [if_pos hd]

/-! ### Returning without a pop -/

/-- `mret` leaves one level; only a return from level 2 loses `mepc` and `mcause`, only one from the last level can
begin a sleep (60_exceptions.md R381, R382, R385). -/
theorem mretNesting_eq (s : State) :
    ∃ (r : RunState) (d : Bool) (epc cause : Word) (n : Nat),
      s.mretNesting =
        { s with
          activeStack := s.activeStack.tail
          run := r
          deepSleep := d
          mepc := epc
          mcause := cause
          freeCtr := n } ∧
      r = (if s.nest = 1 ∧ s.sleepOnExit = true ∧ s.inDebug = false then .sleepingWfi else s.run) ∧
      (s.nest ≤ 1 → epc = s.mepc ∧ cause = s.mcause) := by
  unfold mretNesting nest
  cases hs : s.activeStack with
  | nil => exact ⟨s.run, s.deepSleep, s.mepc, s.mcause, s.freeCtr, by show s = _; rw [List.tail_nil, ← hs], by simp,
      fun _ => ⟨rfl, rfl⟩⟩
  | cons t rest =>
    cases rest with
    | nil =>
      simp only
      split
      · next h => exact ⟨_, _, _, _, _, rfl, (if_pos ⟨rfl, by simpa using h⟩).symm, fun _ => ⟨rfl, rfl⟩⟩
      · next h => exact ⟨_, _, _, _, _, rfl, (if_neg fun hc => h (by simp [hc.2])).symm, fun _ => ⟨rfl, rfl⟩⟩
    | cons t' rest' => exact ⟨_, _, _, _, _, rfl, by simp, by simp⟩

/-- The state after an `mret` that pops no frame (60_exceptions.md R380). -/
def unpopped (s : State) : State := { s.mretMstatus.mretNesting.jumpTo s.mepc with tailPop := false }

theorem trapReturn_unpopped {s : State} (he : s.mepc.getLsbD 0 = false) (hp : s.mpop = false) :
    s.trapReturn = .next s.unpopped := by
  unfold trapReturn
  rw [if_neg (by rw [he]; decide)]
  simp [hp, unpopped]

/-- An `mret` without a pop is a return that leaves the registers, the devices and the access errors alone
(60_exceptions.md R380 to R385). -/
theorem unpopped_returned (s : State) :
    Returned s s.unpopped ∧ s.unpopped.regs = s.regs ∧ s.unpopped.pfic = s.pfic ∧ s.unpopped.dm = s.dm ∧
      s.unpopped.inflight = s.inflight ∧ s.unpopped.tailPop = false := by
  obtain ⟨r, d, epc, cause, n, hnesting, hr, hsaved⟩ := s.mretMstatus.mretNesting_eq
  unfold unpopped
  rw [hnesting]
  refine ⟨⟨rfl, mie_of _ rfl, mpop_of _ rfl, mpp_of _ rfl, rfl, ?nest, hr, hsaved, ?csrs, fun _ => rfl⟩, ?frame⟩
  case nest => exact List.length_tail
  case csrs => exact ⟨rfl, rfl, rfl, rfl, rfl, rfl, rfl⟩
  case frame => exact ⟨rfl, rfl, rfl, rfl, rfl⟩

/-- An `mret` without a pop ends as its errors are settled. -/
theorem exec_mret_unpopped {s t : State} (he : s.mepc.getLsbD 0 = false) (hp : s.mpop = false)
    (ht : s.unpopped.settleErrors = .next t) (hf : t.tailPop = false) : exec .mret s = .next t := by
  show andThen s.trapReturn settleMret = _
  rw [trapReturn_unpopped he hp]
  exact settleMret_unpopped rfl ht hf

/-- An `mret` neither enters nor leaves Debug mode; it begins no sleep there (60_exceptions.md R385). -/
theorem unpopped_inDebug (s : State) : s.unpopped.inDebug = s.inDebug := by
  obtain ⟨hreturned, -⟩ := s.unpopped_returned
  show decide (s.unpopped.run = .haltedDebug) = s.inDebug
  rw [hreturned.sleeps]
  split
  · next hsleeps =>
    obtain ⟨-, -, hd⟩ := hsleeps
    exact hd.symm
  · rfl

/-! ### Breakpoints -/

theorem breakpoint_endProgbuf {s : State} (hd : s.inDebug = true) : s.breakpoint = .next s.endProgbuf := if_pos hd

theorem breakpoint_enterDebug {s : State} (hd : s.inDebug = false) (hb : s.dcsr.getLsbD 15 = true) :
    s.breakpoint = .next (s.enterDebug 1#3 s.pc) :=
  (if_neg (by simp [hd])).trans (if_pos hb)

theorem breakpoint_exception {s : State} (hd : s.inDebug = false) (hb : s.dcsr.getLsbD 15 = false) :
    s.breakpoint = s.takeException 3#4 :=
  (if_neg (by simp [hd])).trans (if_neg (ne_true_of_eq_false hb))

/-! ### Delivery and the masks -/

/-- What is delivered is enabled as the core sees it (60_exceptions.md R371 items 2 and 3). -/
theorem deliverable_unmasked {s : State} {n : Irq} (h : s.deliverable n = true) :
    s.pfic.enableEff.getLsbD n.val = true ∧ s.mieEff = true := by
  simp only [deliverable, candidates, BitVec.getLsbD_and, Bool.and_eq_true] at h
  obtain ⟨⟨⟨⟨⟨-, henable⟩, -⟩, hmie⟩, -⟩, -⟩ := h
  exact ⟨henable, hmie⟩

/-- The better of two is deliverable, or it is the best so far. -/
theorem betterIrq_some {s : State} {best : Option Irq} {n k : Irq} (h : s.betterIrq best n = some k) :
    s.deliverable k = true ∨ best = some k := by
  unfold betterIrq at h
  split at h
  · next hn =>
    cases best with
    | none => cases h; exact .inl hn
    | some b =>
      simp only at h
      split at h
      · cases h; exact .inl hn
      · exact .inr h
  · exact .inr h

theorem foldl_betterIrq_some {s : State} {l : List Irq} {best : Option Irq} {k : Irq}
    (h : l.foldl s.betterIrq best = some k) : s.deliverable k = true ∨ best = some k := by
  induction l generalizing best with
  | nil => exact .inr h
  | cons n rest ih => exact (ih h).elim .inl betterIrq_some

/-- Only a deliverable interrupt is chosen (60_exceptions.md R373). -/
theorem bestIrq_deliverable {s : State} {n : Irq} (h : s.bestIrq = some n) : s.deliverable n = true := by
  unfold bestIrq at h
  split at h
  · exact (foldl_betterIrq_some h).resolve_right (by simp)
  · cases h

end State

/-! ### The obligations -/

/-- Settles O24: each of the four prepares a state from which its errors are settled, and outside Debug mode all but
`mret` leave what a trap entry finds as it was. -/
theorem fenceTakesAccessErrors : Obligations.FenceTakesAccessErrors := by
  intro s fm pred succ rs1 rd imm e rest hl
  have hne : s.inflight ≠ [] := by simp [hl]
  refine ⟨fun hp hn => ⟨?fence, ?fenceI, ?wfi⟩, fun hd hnest hh hj ht hn he hm => ?mret,
    fun hd => ⟨?fenceDebug, ?fenceIDebug, ?wfiDebug, fun he hm => ?mretDebug⟩⟩
  case fence =>
    obtain ⟨t, hnext, htaken, -⟩ :=
      State.settleErrors_taken (u := s.advance ilen4) hp hn rfl hp.notDebug hl
    exact ⟨t, hnext, htaken⟩
  case fenceI =>
    obtain ⟨t, hnext, htaken, hpfic, -⟩ :=
      State.settleErrors_taken (u := s.syncMasks.advance ilen4) hp hn rfl hp.notDebug hl
    exact ⟨t, hnext, htaken, congrArg Pfic.enableEff hpfic⟩
  case wfi =>
    obtain ⟨hview, hpc, hinflight, hdebug⟩ := (s.advance ilen4).waitForInterrupt_frame
    obtain ⟨t, hnext, htaken, -, hevent, -⟩ :=
      State.settleErrors_taken hp hn hview (hdebug.trans hp.notDebug) (hinflight.trans hl)
    rw [hpc] at htaken
    exact ⟨t, hnext, htaken, hevent.trans ((s.advance ilen4).waitForInterrupt_event hp.notDebug)⟩
  case mret =>
    obtain ⟨hreturned, hregs, hpfic, -, hinflight, htail⟩ := s.unpopped_returned
    obtain ⟨hmtvec, -, hintsyscr, -⟩ := hreturned.csrs
    have hp : s.unpopped.EntersPlainly :=
      { notDebug := s.unpopped_inDebug.trans hd
        nest := by rw [hreturned.nest]; omega
        noHpe := by unfold State.hwstken; rw [hintsyscr]; exact hh
        jumps := hmtvec ▸ hj
        table := hmtvec ▸ ht }
    have hv : s.unpopped.NoVtf 3 := by unfold State.NoVtf; rw [hpfic]; exact hn
    obtain ⟨t, hnext, htaken, -, -, hkept⟩ :=
      State.settleErrors_taken hp hv rfl hp.notDebug (hinflight.trans hl)
    rw [hreturned.pc] at htaken
    exact ⟨s.unpopped, t, hreturned, hregs, State.exec_mret_unpopped he hm hnext (hkept.trans htail), htaken⟩
  case fenceDebug =>
    obtain ⟨t, hnext, hstopped, -⟩ :=
      State.settleErrors_bufferStopped (s := s) (u := s.advance ilen4) hd hne rfl rfl fun _ => rfl
    exact ⟨t, hnext, hstopped⟩
  case fenceIDebug =>
    obtain ⟨t, hnext, hstopped, -⟩ :=
      State.settleErrors_bufferStopped (s := s) (u := s.syncMasks.advance ilen4) hd hne rfl rfl fun _ => rfl
    exact ⟨t, hnext, hstopped⟩
  case wfiDebug =>
    obtain ⟨t, hnext, hstopped, -⟩ :=
      State.settleErrors_bufferStopped (s := s) (u := s.advance ilen4) hd hne rfl rfl fun _ => rfl
    refine ⟨t, ?_, hstopped⟩
    show (s.advance ilen4).waitForInterrupt.settleErrors = _
    rw [(s.advance ilen4).waitForInterrupt_debug hd]
    exact hnext
  case mretDebug =>
    obtain ⟨hreturned, hregs, -, hdm, hinflight, htail⟩ := s.unpopped_returned
    obtain ⟨t, hnext, hstopped, hkept⟩ :=
      State.settleErrors_bufferStopped (s.unpopped_inDebug.trans hd) (hinflight ▸ hne) hdm hregs hreturned.bytes
    exact ⟨t, State.exec_mret_unpopped he hm hnext (hkept.trans htail), hstopped⟩

/-- Settles O25: each of the three takes a synchronous exception. -/
theorem callsAndBreakpointsTrap : Obligations.CallsAndBreakpointsTrap := by
  intro s hp hv
  refine ⟨State.takeException_plainly hp hv 11#4, fun hb => ?breakpoints⟩
  case breakpoints =>
    have hbreak : s.breakpoint = s.takeException 3#4 := State.breakpoint_exception hp.notDebug hb
    have htrap := hbreak ▸ State.takeException_plainly hp hv 3#4
    exact ⟨htrap, htrap⟩

/-- Settles O26: a breakpoint serves the debugger by one of two operations, and the bits of `dcsr` are those of
`dcsrEntered`. -/
theorem breakpointsServeTheDebugger : Obligations.BreakpointsServeTheDebugger := by
  intro s
  refine ⟨fun hd hb => ?enters, fun hd => ?ends⟩
  case enters =>
    have hnext := State.breakpoint_enterDebug hd hb
    exact ⟨_, hnext, hnext, rfl, rfl, dcsrEntered_cause _ _, dcsrEntered_prv _ _, dcsrEntered_kept _ _, fun _ => rfl, rfl⟩
  case ends =>
    have hnext := State.breakpoint_endProgbuf hd
    exact ⟨_, hnext, hnext, rfl, fun _ => rfl⟩

/-- Settles O22: with nothing to settle FENCE is `advance`, and FENCE.I `syncMasks` before it. -/
theorem fencesComplete : Obligations.FencesComplete := by
  intro s fm pred succ rs1 rd imm hl
  refine ⟨⟨_, State.settleErrors_none (s.advance ilen4) hl, moved_advance s ilen4⟩, ?fenceI⟩
  case fenceI =>
    exact ⟨_, State.settleErrors_none (s.syncMasks.advance ilen4) hl, rfl, rfl, fun _ => rfl, fun _ => rfl, rfl⟩

/-- Settles O23: FENCE.I makes the copies that a delivery asks equal to the masks, and only a deliverable number is
chosen. -/
theorem maskedInterruptsStayOutAfterFenceI : Obligations.MaskedInterruptsStayOutAfterFenceI := by
  intro s imm rs1 rd hl
  refine ⟨s.syncMasks.advance ilen4, State.settleErrors_none _ hl, fun n hmasked => ?_⟩
  have hout : (s.syncMasks.advance ilen4).deliverable n = false := by
    rw [Bool.eq_false_iff]
    intro hdel
    obtain ⟨henable, hmie⟩ := State.deliverable_unmasked hdel
    rcases hmasked with hoff | hoff
    · exact absurd (henable.symm.trans hoff) (by decide)
    · exact absurd (hmie.symm.trans hoff) (by decide)
  exact ⟨hout, fun hbest => absurd (State.bestIrq_deliverable hbest) (by simp [hout])⟩

end Sys2Proof.Machine
end

section
/-!
SUPPORT. The six CSR instructions (43_system.md R244 to R250): each is `csrAccess` with its own new value, and is told by
what a read gives, what a write keeps, and which accesses are refused.
-/

namespace Sys2Proof.Machine

namespace State

/-! ### Reading a CSR (10_state.md R35 to R47) -/

/-- At most a free value is drawn. -/
theorem csrRead_state (s : State) (c : Csr) : ∃ n, (s.csrRead c).2 = { s with freeCtr := n } := by
  rcases s.csrRead_done c with h | h
  · exact ⟨s.freeCtr, h⟩
  · exact ⟨s.freeCtr + 1, h⟩

/-- A CSR reads as it holds, but for `mcause` outside the tables (notes/assumptions/14.md). -/
theorem csrRead_held (s : State) (c : Csr) (h : c = .mcause → mcauseListed s.mcause = true) :
    (s.csrRead c).1 = s.csrHeld c := by
  cases c
  case mcause => simp [csrRead, csrHeld, h rfl]
  all_goals rfl

/-! ### Writing a CSR (10_state.md R48) -/

@[simp] theorem csrWrite_regs (s : State) (c : Csr) (v : Word) : (s.csrWrite c v).regs = s.regs := by cases c <;> rfl
@[simp] theorem csrWrite_stk (s : State) (c : Csr) (v : Word) : (s.csrWrite c v).stk = s.stk := by cases c <;> rfl
@[simp] theorem csrWrite_dm (s : State) (c : Csr) (v : Word) : (s.csrWrite c v).dm = s.dm := by cases c <;> rfl
@[simp] theorem csrWrite_boots (s : State) (c : Csr) (v : Word) : (s.csrWrite c v).boots = s.boots := by cases c <;> rfl
@[simp] theorem csrWrite_run (s : State) (c : Csr) (v : Word) : (s.csrWrite c v).run = s.run := by cases c <;> rfl
@[simp] theorem csrWrite_event (s : State) (c : Csr) (v : Word) : (s.csrWrite c v).event = s.event := by cases c <;> rfl
@[simp] theorem csrWrite_inflight (s : State) (c : Csr) (v : Word) : (s.csrWrite c v).inflight = s.inflight := by
  cases c <;> rfl

/-- A write of one CSR is no write of another (R244): each pair of two is two fields of the state. -/
theorem csrHeld_csrWrite_other (s : State) {c d : Csr} (v : Word) (h : d ≠ c) :
    (s.csrWrite c v).csrHeld d = s.csrHeld d := by
  cases c
  case marchid => rfl
  case mimpid => rfl
  case misa => rfl
  all_goals
    cases d
    all_goals first
      | rfl
      | exact absurd rfl h

end State

/-- `mstatus` is built of its four fields, which are the bits of its mask (10_state.md R35, R36). -/
theorem mstatusOf_bits (v : Word) :
    mstatusOf (v.getLsbD 3) (v.getLsbD 7) (v.getLsbD 23) (v.getLsbD 24) = 0x00001800#32 ||| (v &&& 0x01800088#32) := by
  have field : ∀ k m, m = BitVec.twoPow 32 k → (if v.getLsbD k then m else 0#32) = v &&& m :=
    fun k m hm => hm ▸ (BitVec.and_twoPow v k).symm
  unfold mstatusOf
  rw [field 3 0x00000008#32 rfl, field 7 0x00000080#32 rfl, field 23 0x00800000#32 rfl, field 24 0x01000000#32 rfl]
  simp only [BitVec.or_assoc, ← BitVec.and_or_distrib_left]
  rfl

/-- Every bit is replaced. -/
theorem replaced_all (d v : Word) : v = (d &&& ~~~0xFFFFFFFF#32) ||| (v &&& 0xFFFFFFFF#32) := by
  show v = (d &&& 0#32) ||| (v &&& BitVec.allOnes 32)
  rw [BitVec.and_zero, BitVec.and_allOnes, BitVec.zero_or]

/-- No bit is replaced. -/
theorem replaced_none (d v : Word) : d = (d &&& ~~~0#32) ||| (v &&& 0#32) := by
  show d = (d &&& BitVec.allOnes 32) ||| (v &&& 0#32)
  rw [BitVec.and_zero, BitVec.and_allOnes, BitVec.or_zero]

namespace State

/-- A write takes the bits of the CSR's mask and keeps the others (R244 step 4). -/
theorem csrHeld_csrWrite_same {s : State} (hs : s.CsrsShaped) (c : Csr) (v : Word) :
    (s.csrWrite c v).csrHeld c = (s.csrHeld c &&& ~~~csrMask c) ||| (v &&& csrMask c) := by
  cases c
  case mstatus =>
    have hfixed : s.mstatus &&& ~~~0x01800088#32 = 0x00001800#32 := hs.mstatus
    exact (mstatusOf_bits v).trans (congrArg (· ||| (v &&& 0x01800088#32)) hfixed.symm)
  case intsyscr =>
    have hfixed : s.intsyscr &&& ~~~7#32 = 0#32 := hs.intsyscr
    exact (BitVec.zero_or (x := v &&& 7#32)).symm.trans (congrArg (· ||| (v &&& 7#32)) hfixed.symm)
  case dcsr => rfl
  case marchid => exact replaced_none s.cfg.marchid v
  case mimpid => exact replaced_none s.cfg.mimpid v
  case misa => exact replaced_none s.cfg.misa v
  all_goals exact replaced_all _ v

/-- A CSR holds its value whatever is written to registers and pc. -/
theorem csrHeld_finishReg (s : State) (c : Csr) (r : Reg) (v il : Word) :
    (s.finishReg r v il).csrHeld c = s.csrHeld c := by
  cases c <;> simp [csrHeld]

/-! ### The access check (43_system.md R244 step 1) -/

theorem csrCheck_allowed {s : State} {a : BitVec 12} {c : Csr} {w : Bool} (h : CsrAllowed s a c w) :
    s.csrCheck a w = some c := by
  unfold csrCheck
  rw [h.implemented]
  have hdebug : ¬ (c.debugOnly && !s.inDebug) = true := by simpa using h.debug
  have hwritable : ¬ (w && csrReadOnly a) = true := by simpa using h.writable
  simp only [if_neg hdebug, if_neg hwritable]

/-- An address without a register, or with a debug register outside Debug mode, fails the check. -/
theorem csrCheck_absent {s : State} {a : BitVec 12} (w : Bool)
    (h : ∀ c, csrAt a = some c → c.debugOnly = true ∧ s.inDebug = false) : s.csrCheck a w = none := by
  unfold csrCheck
  cases hc : csrAt a with
  | none => rfl
  | some c =>
    obtain ⟨honly, hd⟩ := h c hc
    simp [honly, hd]

/-- A write to a read-only address fails the check. -/
theorem csrCheck_readOnly {s : State} {a : BitVec 12} {w : Bool} (ha : a.extractLsb' 10 2 = 3#2) (hw : w = true) :
    s.csrCheck a w = none := by
  have hro : csrReadOnly a = true := decide_eq_true ha
  unfold csrCheck
  cases csrAt a with
  | none => rfl
  | some c => simp [hw, hro]

theorem csrAccess_refused {s : State} {rd : Reg} {a : BitVec 12} {w : Bool} {f : Word → Word}
    (h : s.csrCheck a w = none) : s.csrAccess rd a w f = s.takeException 2#4 := by
  unfold csrAccess
  rw [h]

/-- What a CSR access makes of the state before it writes `rd`: the free values drawn, and the CSR if the form writes. -/
def csrUpdated (s : State) (c : Csr) (w : Bool) (v : Word) : State :=
  if w then (s.csrRead c).2.csrWrite c v else (s.csrRead c).2

/-- An access that is allowed reads, writes what its form computes from the value read, and goes on. -/
theorem csrAccess_allowed {s : State} {rd : Reg} {a : BitVec 12} {c : Csr} {w : Bool} {f : Word → Word}
    (h : CsrAllowed s a c w) :
    s.csrAccess rd a w f = .next ((s.csrUpdated c w (f (s.csrRead c).1)).finishReg rd (s.csrRead c).1 ilen4) := by
  unfold csrAccess
  rw [csrCheck_allowed h]
  rfl

/-- A CSR access touches no register, device or byte (R244). -/
theorem csrUpdated_frame (s : State) (c : Csr) (w : Bool) (v : Word) :
    let u := s.csrUpdated c w v
    u.regs = s.regs ∧ u.pc = s.pc ∧ (u.pfic = s.pfic ∧ u.stk = s.stk ∧ u.dm = s.dm) ∧
      (u.mem = s.mem ∧ u.cfg = s.cfg ∧ u.boots = s.boots) ∧
      (u.run = s.run ∧ u.activeStack = s.activeStack ∧ u.event = s.event ∧ u.inflight = s.inflight) := by
  obtain ⟨n, hn⟩ := s.csrRead_state c
  unfold csrUpdated
  rw [hn]
  cases w <;> simp

/-- The CSR that is accessed takes the bits of its mask if the form writes (R244 step 4). -/
theorem csrUpdated_same {s : State} (hs : s.CsrsShaped) (c : Csr) (w : Bool) (v : Word) :
    (s.csrUpdated c w v).csrHeld c =
      if w then (s.csrHeld c &&& ~~~csrMask c) ||| (v &&& csrMask c) else s.csrHeld c := by
  obtain ⟨n, hn⟩ := s.csrRead_state c
  have hdrawn : ({ s with freeCtr := n } : State).CsrsShaped := hs.congr rfl rfl rfl
  unfold csrUpdated
  rw [hn]
  cases w
  case false => rfl
  case true => exact csrHeld_csrWrite_same hdrawn c v

theorem csrUpdated_other (s : State) {c d : Csr} (w : Bool) (v : Word) (h : d ≠ c) :
    (s.csrUpdated c w v).csrHeld d = s.csrHeld d := by
  obtain ⟨n, hn⟩ := s.csrRead_state c
  unfold csrUpdated
  rw [hn]
  cases w
  case false => rfl
  case true => exact csrHeld_csrWrite_other _ v h

end State

/-! ### A CSR instruction -/

/-- The access followed by the write of `rd` is what R244 says. -/
theorem csrAccessed_finishReg {s : State} (hs : s.CsrsShaped) (rd : Reg) (c : Csr) (w : Bool) (v : Word) :
    CsrAccessed s ((s.csrUpdated c w v).finishReg rd (s.csrRead c).1 ilen4) rd c w v := by
  obtain ⟨hregs, hpc, hdevices, ⟨hmem, hcfg, hboots⟩, hrun⟩ := s.csrUpdated_frame c w v
  have hvalue : rd ≠ 0 → ((s.csrUpdated c w v).finishReg rd (s.csrRead c).1 ilen4).reg rd = (s.csrRead c).1 :=
    State.reg_setReg_same _ rd _
  refine ⟨hvalue, fun h hl => (hvalue h).trans (s.csrRead_held c hl), fun q hq => ?others, ?pc, ?written,
    fun d hd => ?csrs, ?devices, State.byteAt_congr _ _ ?mem ?cfg ?boots, ?run⟩
  case others => exact (State.reg_setReg_other _ rd q _ hq).trans (State.reg_congr _ _ hregs q)
  case written => rw [State.csrHeld_finishReg, State.csrUpdated_same hs]
  case csrs => rw [State.csrHeld_finishReg, s.csrUpdated_other w v hd]
  case pc => rw [State.finishReg_pc, hpc]; rfl
  case devices => simpa using hdevices
  case mem => simpa using hmem
  case cfg => simpa using hcfg
  case boots => simpa using hboots
  case run => simpa using hrun

section Meanings

variable (s : State) (rd rs1 : Reg) (csr : BitVec 12) (uimm : BitVec 5)

theorem exec_csrrw : exec (.csrrw rd csr rs1) s = s.csrAccess rd csr true (fun _ => s.reg rs1) := rfl
theorem exec_csrrs :
    exec (.csrrs rd csr rs1) s = s.csrAccess rd csr (decide (rs1 ≠ 0)) (fun old => old ||| s.reg rs1) := rfl
theorem exec_csrrc :
    exec (.csrrc rd csr rs1) s = s.csrAccess rd csr (decide (rs1 ≠ 0)) (fun old => old &&& ~~~s.reg rs1) := rfl
theorem exec_csrrwi : exec (.csrrwi rd csr uimm) s = s.csrAccess rd csr true (fun _ => zext uimm) := rfl
theorem exec_csrrsi :
    exec (.csrrsi rd csr uimm) s = s.csrAccess rd csr (decide (uimm ≠ 0)) (fun old => old ||| zext uimm) := rfl
theorem exec_csrrci :
    exec (.csrrci rd csr uimm) s = s.csrAccess rd csr (decide (uimm ≠ 0)) (fun old => old &&& ~~~zext uimm) := rfl

end Meanings

/-- An instruction whose meaning is an allowed CSR access completes. -/
theorem exec_csrAccessed {s : State} {i : Instr} {rd : Reg} {a : BitVec 12} {c : Csr} {w : Bool} {f : Word → Word}
    {v : Word} (hi : exec i s = s.csrAccess rd a w f) (hv : f (s.csrRead c).1 = v) (hs : s.CsrsShaped)
    (h : CsrAllowed s a c w) : ∃ t, exec i s = .next t ∧ CsrAccessed s t rd c w v :=
  ⟨_, hi.trans (State.csrAccess_allowed h), hv ▸ csrAccessed_finishReg hs rd c w _⟩

/-! ### The obligations -/

/-- Settles O27: each form is an access with its own new value; the immediate forms extend theirs with zeros. -/
theorem csrInstructionsComplete : Obligations.CsrInstructionsComplete := by
  intro s rd rs1 csr c uimm hs old u
  have hu : zext uimm = u := zext_eq uimm
  refine ⟨?csrrw, ?csrrs, ?csrrc, ?csrrwi, ?csrrsi, ?csrrci⟩
  case csrrw => exact exec_csrAccessed (exec_csrrw s rd rs1 csr) rfl hs
  case csrrs => exact exec_csrAccessed (exec_csrrs s rd rs1 csr) rfl hs
  case csrrc => exact exec_csrAccessed (exec_csrrc s rd rs1 csr) rfl hs
  case csrrwi => exact exec_csrAccessed (exec_csrrwi s rd csr uimm) hu hs
  case csrrsi => exact exec_csrAccessed (exec_csrrsi s rd csr uimm) (congrArg (old ||| ·) hu) hs
  case csrrci => exact exec_csrAccessed (exec_csrrci s rd csr uimm) (congrArg (old &&& ~~~·) hu) hs

/-- Settles O28: an absent register fails the check of every form, a read-only address that of the forms that write. -/
theorem csrViolationsTrap : Obligations.CsrViolationsTrap := by
  intro s rd rs1 csr uimm
  rw [exec_csrrw, exec_csrrs, exec_csrrc, exec_csrrwi, exec_csrrsi, exec_csrrci]
  refine ⟨fun habsent => ?absent, fun hro => ?readOnly⟩
  case absent =>
    have hrefused : ∀ w f, s.csrAccess rd csr w f = s.takeException 2#4 := fun w _ =>
      State.csrAccess_refused (State.csrCheck_absent w habsent)
    exact ⟨hrefused _ _, hrefused _ _, hrefused _ _, hrefused _ _, hrefused _ _, hrefused _ _⟩
  case readOnly =>
    have hrefused : ∀ w f, w = true → s.csrAccess rd csr w f = s.takeException 2#4 := fun _ _ hw =>
      State.csrAccess_refused (State.csrCheck_readOnly hro hw)
    exact ⟨hrefused _ _ rfl, hrefused _ _ rfl,
      fun hr => ⟨hrefused _ _ (decide_eq_true hr), hrefused _ _ (decide_eq_true hr)⟩,
      fun hu => ⟨hrefused _ _ (decide_eq_true hu), hrefused _ _ (decide_eq_true hu)⟩⟩

end Sys2Proof.Machine
end

section
/-!
SUPPORT. The results of the multiplies over the integers (44_zmmul.md R271 to R275): every meaning ends in `finishReg`,
and what is left is the low or the high word of a product that fits in 64 bits.
-/

namespace Sys2Proof.Machine

/-! ### The words of a product -/

/-- The low word is that of the unsigned product (R272). -/
theorem mul_eq_ofNat (a b : Word) : a * b = BitVec.ofNat 32 (a.toNat * b.toNat) := by
  rw [BitVec.ofNat_mul, BitVec.ofNat_toNat, BitVec.ofNat_toNat, BitVec.setWidth_eq, BitVec.setWidth_eq]

/-- The high word of a product of natural numbers is its quotient by 2^32 (R275). -/
theorem highWord_natCast_mul (m n : Nat) : highWord ((m : Int) * (n : Int)) = BitVec.ofNat 32 (m * n / 4294967296) := by
  have hquotient : (m : Int) * (n : Int) / 4294967296 = ((m * n / 4294967296 : Nat) : Int) := by push_cast; rfl
  rw [highWord_eq, hquotient, BitVec.ofInt_natCast]

/-! ### The obligation -/

/-- Settles O11: MUL by the low word, the three high words by the product each takes over the integers. -/
theorem multiplyResults : Obligations.MultiplyResults := by
  intro s rd rs1 rs2
  refine ⟨?mul, ?mulh, ?mulhsu, ?mulhu⟩
  case mul => exact exec_wrote rfl (mul_eq_ofNat (s.reg rs1) (s.reg rs2))
  case mulh => exact exec_wrote rfl (highWord_eq ((s.reg rs1).toInt * (s.reg rs2).toInt))
  case mulhsu => exact exec_wrote rfl (highWord_eq ((s.reg rs1).toInt * ((s.reg rs2).toNat : Int)))
  case mulhu => exact exec_wrote rfl (highWord_natCast_mul (s.reg rs1).toNat (s.reg rs2).toNat)

end Sys2Proof.Machine
end

section
/-!
SUPPORT. The results of the 16-bit instructions (45_compressed.md R281 to R307, 46_xw.md R331 to R340): their meanings end
as those of the 32-bit instructions do, the pc 2 further; what is new is the zero-extended immediate, the immediate of
C.LUI and the jump without a link.
-/

namespace Sys2Proof.Machine

/-! ### The immediates -/

/-- A wrapping sum with a zero-extended immediate is the sum of the unsigned values in 32 bits. -/
theorem add_zext_eq {k : Nat} (a : Word) (x : BitVec k) : a + zext x = BitVec.ofNat 32 (a.toNat + x.toNat) := by
  rw [BitVec.ofNat_add, ← zext_eq x, BitVec.ofNat_toNat, BitVec.setWidth_eq]

/-- The immediate of C.LUI is the signed value of its six bits times 2^12 (45_compressed.md R289). -/
theorem sext_append_zeros_eq (imm : BitVec 6) : sext (imm ++ 0#12) = BitVec.ofInt 32 (imm.toInt * 4096) := by
  have hvalue : (imm ++ 0#12).toInt = imm.toInt * 4096 := by
    rw [BitVec.toInt_append]
    simp [mul_comm]
  rw [sext_eq, hvalue]

/-! ### An instruction of any length that writes one register or only jumps -/

/-- An instruction whose meaning ends in `finishReg` writes its value and goes on by its length. -/
theorem exec_finished {s : State} {i : Instr} {rd : Reg} {v w il : Word}
    (hi : exec i s = .next (s.finishReg rd v il)) (hv : v = w) :
    ∃ t, exec i s = .next t ∧ Wrote s t rd w (s.pc + il) :=
  hi ▸ finishReg_completes s rd v w il hv

/-- An instruction whose meaning is a jump without a link goes to its target. -/
theorem exec_jumpedTo {s : State} {i : Instr} {t u : Word} (hi : exec i s = .next (s.jumpTo t)) (ht : t = u) :
    ∃ x, exec i s = .next x ∧ Moved s x u :=
  ⟨_, hi, ht ▸ moved_jumpTo s t⟩

/-! ### The obligations -/

/-- Settles O13: the jumps by their targets, the branches by their test for zero; C.BNEZ is the branch on the negated
test. -/
theorem compressedTransferResults : Obligations.CompressedTransferResults := by
  intro s rs1 off boff target branchTarget even
  refine ⟨?j, ?jal, ?jr, ?jalr, ?beqz, ?bnez⟩
  case j => exact exec_jumpedTo rfl (add_sext_eq s.pc off)
  case jal => exact exec_jumped rfl (add_sext_eq s.pc off)
  case jr => exact exec_jumpedTo rfl (clearBit0_eq (s.reg rs1))
  case jalr => exact exec_jumped rfl (clearBit0_eq (s.reg rs1))
  case beqz => exact exec_branched rfl decide_eq_true_iff
  case bnez =>
    rw [← ite_not]
    exact exec_branched rfl decide_eq_true_iff

/-- Settles O14: C.NOP only goes on, each of the others by the value that its meaning writes. -/
theorem compressedArithmeticResults : Obligations.CompressedArithmeticResults := by
  intro s rd rs2 imm big sh
  refine ⟨?addi4spn, ?nop, ?addi, ?li, ?addi16sp, ?lui, ?srli, ?srai, ?slli, ?andi, ?mv, ?add, ?sub, ?xor, ?or, ?and⟩
  case addi4spn => exact exec_finished rfl (add_zext_eq (s.reg 2) big)
  case nop => exact ⟨_, rfl, moved_advance s ilen2⟩
  case addi => exact exec_finished rfl (add_sext_eq (s.reg rd) imm)
  case li => exact exec_finished rfl (sext_eq imm)
  case addi16sp => exact exec_finished rfl (add_sext_eq (s.reg 2) big)
  case lui => exact exec_finished rfl (sext_append_zeros_eq imm)
  case srli => exact exec_finished rfl (shiftRight_eq (s.reg rd) sh.toNat)
  case srai => exact exec_finished rfl (sshiftRight_eq (s.reg rd) sh.toNat)
  case slli => exact exec_finished rfl (shiftLeft_eq (s.reg rd) sh.toNat)
  case andi => exact exec_finished rfl (congrArg (s.reg rd &&& ·) (sext_eq imm))
  case add => exact exec_finished rfl (add_eq_ofInt (s.reg rd) (s.reg rs2))
  case sub => exact exec_finished rfl (sub_eq_ofInt (s.reg rd) (s.reg rs2))
  case mv | xor | or | and => exact exec_finished rfl rfl

/-- Settles O16: each case is a load of its own width without sign extension, C.LW and C.LWSP from the base plus their
zero-extended immediate. -/
theorem compressedLoadResults : Obligations.CompressedLoadResults := by
  intro s rd rs1 imm simm off
  rw [← zext_eq imm, ← zext_eq simm]
  refine ⟨?lw, ?lwsp, ?lbu, ?lhu, ?lbusp, ?lhusp⟩
  case lw | lwsp => exact exec_loaded rfl (extendLoad_unsigned .word _)
  case lbu | lbusp => exact exec_loaded rfl (extendLoad_unsigned .byte _)
  case lhu | lhusp => exact exec_loaded rfl (extendLoad_unsigned .half _)

/-- Settles O18: each case is a store of its own width, C.SW and C.SWSP to the base plus their zero-extended
immediate. -/
theorem compressedStoreResults : Obligations.CompressedStoreResults := by
  intro s rs2 rs1 imm simm off
  rw [← zext_eq imm, ← zext_eq simm]
  refine ⟨?sw, ?swsp, ?sb, ?sh, ?sbsp, ?shsp⟩
  case sw | swsp | sb | sh | sbsp | shsp => exact exec_stored rfl

end Sys2Proof.Machine
end

section
/-!
SUPPORT. Entering a trap without a push: where each trap goes, and what every completed entry has done (60_exceptions.md
R361 to R368).
-/

namespace Sys2Proof.Machine

namespace State

/-! ### Where a trap goes (60_exceptions.md R367, R368) -/

theorem trapNumber_irq (n : Irq) : (trapNumber (.irq n)).toNat = n.val := by
  simp only [trapNumber, BitVec.toNat_ofNat]
  omega

theorem vtf0Holds_irq (s : State) (n : Irq) : s.vtf0Holds (trapNumber (.irq n)) =
    (s.pfic.vtfaddr0.getLsbD 0 && decide ((s.pfic.vtfidr.extractLsb' 0 8).toNat = n.val)) := by
  rw [vtf0Holds_eq, trapNumber_irq]

theorem vtf1Holds_irq (s : State) (n : Irq) : s.vtf1Holds (trapNumber (.irq n)) =
    (s.pfic.vtfaddr1.getLsbD 0 && decide ((s.pfic.vtfidr.extractLsb' 8 8).toNat = n.val)) := by
  rw [vtf1Holds_eq, trapNumber_irq]

/-- An interrupt that VTF channel 0 alone holds goes to the address of that channel. -/
theorem enterTarget_vtf0 (s : State) (n : Irq) (h0 : s.pfic.vtfaddr0.getLsbD 0 = true)
    (hn : (s.pfic.vtfidr.extractLsb' 0 8).toNat = n.val)
    (h1 : s.pfic.vtfaddr1.getLsbD 0 = false ∨ (s.pfic.vtfidr.extractLsb' 8 8).toNat ≠ n.val) :
    s.enterTarget (.irq n) = .next (s.jumpTo (s.pfic.vtfaddr0 &&& 0xFFFFFFFE#32)) := by
  have holds : s.vtf0Holds (trapNumber (.irq n)) = true := by
    rw [vtf0Holds_irq, h0, hn, decide_eq_true rfl, Bool.and_self]
  have other : s.vtf1Holds (trapNumber (.irq n)) = false := by
    rw [vtf1Holds_irq]
    rcases h1 with hoff | hne
    · rw [hoff, Bool.false_and]
    · rw [decide_eq_false hne, Bool.and_false]
  simp [enterTarget, holds, other]

/-- An interrupt that VTF channel 1 alone holds goes to the address of that channel. -/
theorem enterTarget_vtf1 (s : State) (n : Irq) (h1 : s.pfic.vtfaddr1.getLsbD 0 = true)
    (hn : (s.pfic.vtfidr.extractLsb' 8 8).toNat = n.val)
    (h0 : s.pfic.vtfaddr0.getLsbD 0 = false ∨ (s.pfic.vtfidr.extractLsb' 0 8).toNat ≠ n.val) :
    s.enterTarget (.irq n) = .next (s.jumpTo (s.pfic.vtfaddr1 &&& 0xFFFFFFFE#32)) := by
  have holds : s.vtf1Holds (trapNumber (.irq n)) = true := by
    rw [vtf1Holds_irq, h1, hn, decide_eq_true rfl, Bool.and_self]
  have other : s.vtf0Holds (trapNumber (.irq n)) = false := by
    rw [vtf0Holds_irq]
    rcases h0 with hoff | hne
    · rw [hoff, Bool.false_and]
    · rw [decide_eq_false hne, Bool.and_false]
  simp [enterTarget, holds, other]

/-- Without a VTF channel a trap goes to its entry in a table of instructions. -/
theorem enterTarget_jump (s : State) (k : TrapId) (hv : s.NoVtf (trapNumber k).toNat)
    (ht : s.mtvec.extractLsb' 2 8 = 0#8) (hj : s.mtvec.getLsbD 1 = false) :
    s.enterTarget k = .next (s.jumpTo (s.entryOf (trapNumber k).toNat)) :=
  (s.enterTarget_vector k hv).trans (s.enterAtVector_jump (trapNumber k) ht hj)

/-- Without a VTF channel a trap goes to the address stored in its entry of a table of addresses. -/
theorem enterTarget_indirect (s : State) (k : TrapId) (hv : s.NoVtf (trapNumber k).toNat)
    (ht : s.mtvec.extractLsb' 2 8 = 0#8) (hj : s.mtvec.getLsbD 1 = true)
    (hm : s.LoadsMemory .word (s.entryOf (trapNumber k).toNat))
    (he : s.memNat .word (s.entryOf (trapNumber k).toNat).toNat % 2 = 0) :
    s.enterTarget k = .next (s.jumpTo (BitVec.ofNat 32 (s.memNat .word (s.entryOf (trapNumber k).toNat).toNat))) :=
  (s.enterTarget_vector k hv).trans (s.enterAtVector_indirect (trapNumber k) ht hj hm he)

/-! ### Entering without a push (60_exceptions.md R361 to R367) -/

/-- Without a push a completed trap entry changes no byte of memory. -/
theorem enterTrap_bytes {s t : State} {k : TrapId} {cause epc : Word} (h : s.enterTrap k cause epc = .next t)
    (hh : s.hwstken = false) (a : Nat) : t.byteAt a = s.byteAt a := by
  obtain ⟨hn, -⟩ := s.enterTrap_fields t k cause epc h
  obtain ⟨u, m, e, c, henter, rfl⟩ := s.enterTrap_eq k cause epc hn hh
  obtain ⟨target, -, rfl | rfl⟩ := enterTarget_next _ t k (henter.symm.trans h) <;> rfl

theorem enterTrap_stack {s t : State} {k : TrapId} {cause epc : Word} (h : s.enterTrap k cause epc = .next t) :
    t.activeStack = k :: s.activeStack := by
  obtain ⟨-, -, -, -, -, -, -, -, -, hstack, -⟩ := s.enterTrap_fields t k cause epc h
  exact hstack

/-- A trap of any number, without a push, goes to its entry in a table of instructions. -/
theorem enterTrap_jump {s : State} (h : s.EntersPlainly) (k : TrapId) (hv : s.NoVtf (trapNumber k).toNat)
    (cause epc : Word) :
    ∃ t, s.enterTrap k cause epc = .next t ∧ Entered s t cause epc ∧ t.pc = s.entryOf (trapNumber k).toNat ∧
      t.activeStack = k :: s.activeStack := by
  obtain ⟨u, m, e, c, henter, rfl⟩ := s.enterTrap_eq k cause epc h.nest h.noHpe
  have hnext := henter.trans (enterTarget_jump _ k hv h.table h.jumps)
  exact ⟨_, hnext, enterTrap_entered hnext fun _ => enterTrap_bytes hnext h.noHpe, rfl, rfl⟩

end State

/-- Settles O29: the fields are those of every entry, and without a push the target is all that comes after them. -/
theorem trapEntrySavesState : Obligations.TrapEntrySavesState :=
  fun _ _ _ _ _ h =>
    ⟨State.enterTrap_entered h (State.enterTrap_bytes h), State.enterTrap_stack h⟩

/-- Settles O30: the state whose target is chosen has the devices, the vector table and the memory of the one the trap
was taken in, and each case is one rule for the target. -/
theorem trapTargetsFollowVectors : Obligations.TrapTargetsFollowVectors := by
  intro s n cause epc hn hh
  have hnumber := State.trapNumber_irq n
  obtain ⟨u, m, e, c, henter, rfl⟩ := s.enterTrap_eq (.irq n) cause epc hn hh
  refine ⟨fun h0 hid h1 => ?channel0, fun h1 hid h0 => ?channel1, fun ht hj hv => ?entry,
    fun ht hj hv hm he => ?stored, fun ht hj hv hm he => ?exception⟩
  case channel0 => exact ⟨_, henter.trans (State.enterTarget_vtf0 _ n h0 hid h1), rfl⟩
  case channel1 => exact ⟨_, henter.trans (State.enterTarget_vtf1 _ n h1 hid h0), rfl⟩
  case entry =>
    rw [← hnumber] at hv ⊢
    exact ⟨_, henter.trans (State.enterTarget_jump _ _ hv ht hj), rfl⟩
  case stored =>
    rw [← hnumber] at hv hm he ⊢
    exact ⟨_, henter.trans (State.enterTarget_indirect _ _ hv ht hj hm he), rfl⟩
  case exception =>
    obtain ⟨u, m, e, c, henter, rfl⟩ := s.enterTrap_eq .exc cause epc hn hh
    exact ⟨_, henter.trans (State.enterTarget_indirect _ .exc hv ht hj hm he), rfl⟩

end Sys2Proof.Machine
end

section
/-!
SUPPORT. The frame of the hardware prologue: popping it and returning from the trap, and pushing it and entering one
(60_exceptions.md R375, R380 to R385).
-/

namespace Sys2Proof.Machine

/-! ### The frame (60_exceptions.md R375) -/

/-- The words of the frame that hold a register, slot by slot. -/
theorem hpeFrame_eq : State.hpeFrame = hpeRegs.mapIdx fun k r => (BitVec.ofNat 32 (4 * (k + 1)), r) := by decide

theorem forall_hpeFrame {P : Word → Reg → Prop} (n : Word) :
    (∀ e ∈ State.hpeFrame, P (n - e.1) e.2) ↔ ∀ (k : Nat) (h : k < hpeRegs.length), P (hpeSlot n k) (hpeRegs[k]'h) := by
  simp only [hpeFrame_eq, List.mem_mapIdx, forall_exists_index]
  exact ⟨fun h k hk => h _ k hk rfl, fun h e k hk he => he ▸ h k hk⟩

theorem hpeSlot_ne (n : Word) {j k : Nat} (hjk : j < k) (hk : k < 12) : hpeSlot n j ≠ hpeSlot n k := by
  intro heq
  have hoff := congrArg BitVec.toNat (sub_right_injective heq)
  simp only [BitVec.toNat_ofNat] at hoff
  omega

theorem hpeRegs_of_hpeFrame {e : Word × Reg} (h : e ∈ State.hpeFrame) : e.2 ∈ hpeRegs :=
  (forall_hpeFrame (P := fun _ r => r ∈ hpeRegs) 0#32).2 (fun _ hk => List.getElem_mem hk) e h

namespace State

/-! ### Popping a frame (60_exceptions.md R383) -/

/-- A word of plain memory is loaded as the number of its bytes. -/
theorem memLoad_word_toNat (s : State) (a : Nat) : (s.memLoad .word a).toNat = s.memNat .word a := by
  rw [memLoad_eq, BitVec.toNat_ofNat]
  exact Nat.mod_eq_of_lt (s.memNat_lt .word a)

/-- Loading the registers of a frame from plain memory gives each its word and changes no other. -/
theorem popRegs_memory (n : Word) (l : List (Word × Reg)) (hd : l.Pairwise fun e f => f.2 ≠ e.2)
    (hz : ∀ e ∈ l, e.2 ≠ 0) (s : State) (hm : ∀ e ∈ l, s.LoadsMemory .word (n - e.1)) :
    ∃ t, popRegs n l s = .next t ∧ t = { s with regs := t.regs } ∧
      (∀ e ∈ l, t.reg e.2 = s.memLoad .word (n - e.1).toNat) ∧ ∀ q, (∀ e ∈ l, q ≠ e.2) → t.reg q = s.reg q := by
  induction l generalizing s with
  | nil => exact ⟨s, rfl, rfl, by simp, fun _ _ => rfl⟩
  | cons e rest ih =>
    obtain ⟨off, r⟩ := e
    simp only [List.forall_mem_cons, List.pairwise_cons] at hd hz hm
    obtain ⟨hfirst, hd⟩ := hd
    obtain ⟨hr, hz⟩ := hz
    obtain ⟨hload, hm⟩ := hm
    have hregs : s.setReg r (s.memLoad .word (n - off).toNat) =
        { s with regs := (s.setReg r (s.memLoad .word (n - off).toNat)).regs } := by
      unfold setReg
      rw [if_neg hr]
    obtain ⟨t, hnext, hrest, hvalues, hothers⟩ := ih hd hz (s.setReg r (s.memLoad .word (n - off).toNat)) (by
      rw [hregs]; exact hm)
    rw [hregs] at hrest
    refine ⟨t, ?next, hrest, ?values, ?others⟩
    case next =>
      unfold popRegs
      rw [s.busRead_memory .word _ hload]
      exact hnext
    case values =>
      rw [List.forall_mem_cons]
      refine ⟨?_, fun e he => ?_⟩
      · rw [hothers r fun e he => (hfirst e he).symm]
        exact reg_setReg_same s r _ hr
      · rw [hvalues e he, hregs]
        rfl
    case others =>
      intro q hq
      rw [List.forall_mem_cons] at hq
      obtain ⟨hqr, hq⟩ := hq
      rw [hothers q hq]
      exact reg_setReg_other s r q _ hqr

/-- The pop gives the ten registers the words of the frame, raises x2 by 48 and changes nothing else
(60_exceptions.md R383). -/
theorem hpePop_memory (s : State) (ha : (s.reg 2).toNat % 4 = 0)
    (hm : ∀ k, k < hpeRegs.length → s.LoadsMemory .word (hpeSlot (s.reg 2 + 48#32) k)) :
    ∃ t, s.hpePop = .next t ∧ t = { s with regs := t.regs } ∧ t.reg 2 = s.reg 2 + 48#32 ∧
      (∀ (k : Nat) (h : k < hpeRegs.length),
        t.reg (hpeRegs[k]'h) = s.memLoad .word (hpeSlot (s.reg 2 + 48#32) k).toNat) ∧
      ∀ q, q ≠ 2 → q ∉ hpeRegs → t.reg q = s.reg q := by
  have haligned : isAligned .word (s.reg 2 + 48#32) = true := by
    rw [isAligned_iff, Aligned, BitVec.toNat_add]
    simp only [Width.bytes, BitVec.toNat_ofNat]
    omega
  obtain ⟨t, hnext, hrest, hvalues, hothers⟩ :=
    popRegs_memory (s.reg 2 + 48#32) hpeFrame (by decide)
      (fun e he h0 => absurd (h0 ▸ hpeRegs_of_hpeFrame he) (by decide : (0 : Reg) ∉ hpeRegs)) s
      ((forall_hpeFrame (P := fun a _ => s.LoadsMemory .word a) _).2 hm)
  rw [forall_hpeFrame (P := fun a r => t.reg r = s.memLoad .word a.toNat)] at hvalues
  refine ⟨t.setReg 2 (s.reg 2 + 48#32), ?next, ?rest, reg_setReg_same t 2 _ (by decide), ?values, ?others⟩
  case next =>
    show (if isAligned .word (s.reg 2 + 48#32) then _ else _) = _
    rw [if_pos haligned]
    show andThen (popRegs (s.reg 2 + 48#32) hpeFrame s) _ = _
    rw [hnext]
    rfl
  case rest =>
    unfold setReg
    rw [hrest]
    rfl
  case values =>
    intro k hk
    have hsp : hpeRegs[k] ≠ 2 := fun h => absurd (h ▸ List.getElem_mem hk) (by decide : (2 : Reg) ∉ hpeRegs)
    rw [reg_setReg_other t 2 _ _ hsp]
    exact hvalues k hk
  case others =>
    intro q hsp hq
    rw [reg_setReg_other t 2 q _ hsp]
    exact hothers q fun e he heq => hq (heq ▸ hpeRegs_of_hpeFrame he)

/-! ### Returning (60_exceptions.md R380 to R385) -/

/-- An `mret` with no error in flight that pops a frame is a return with the registers that the pop leaves. -/
theorem exec_mret_popped {s u : State} (he : s.mepc.getLsbD 0 = false) (hp : s.mpop = true) (hl : s.inflight = [])
    (hpop : s.hpePop = .next u) (hu : u = { s with regs := u.regs }) :
    ∃ t, exec .mret s = .next t ∧ Returned s t ∧ t.regs = u.regs := by
  obtain ⟨hreturned, hregs, -, -, hinflight, -⟩ := u.unpopped_returned
  have hreturn : s.trapReturn = .next { u.unpopped with tailPop := !s.inDebug } := by
    unfold trapReturn
    rw [if_neg (by rw [he]; decide), hp, if_pos rfl, hpop]
    have hepc : u.mepc = s.mepc := by rw [hu]
    simp only [andThen_of_next, Bool.true_and, unpopped, hepc]
  refine ⟨{ u.unpopped with tailPop := !s.inDebug }, ?next, ?returned, hregs⟩
  case next =>
    show andThen s.trapReturn settleMret = _
    rw [hreturn, andThen_of_next]
    unfold settleMret
    rw [if_pos]
    rw [List.isEmpty_iff]
    exact hinflight.trans (by rw [hu]; exact hl)
  case returned =>
    have hfrom : Returned u { u.unpopped with tailPop := !s.inDebug } := { hreturned with }
    revert hfrom
    generalize ({ u.unpopped with tailPop := !s.inDebug } : State) = t
    rw [hu]
    exact fun h => { h with }

end State

/-! ### What storing a frame leaves (20_memory.md R84, 60_exceptions.md R375) -/

/-- The frame of `s` stands in the memory of `t`, and no byte outside it has changed; its two words without a register
are free (60_exceptions.md R375). -/
structure FramePushed (s t : State) : Prop where
  words : ∀ (k : Nat) (h : k < hpeRegs.length),
    t.memNat .word (hpeSlot (s.reg 2) k).toNat = (s.reg (hpeRegs[k]'h)).toNat
  bytes : ∀ a, (∀ k, k < 12 → a < (hpeSlot (s.reg 2) k).toNat ∨ (hpeSlot (s.reg 2) k).toNat + 4 ≤ a) →
    t.byteAt a = s.byteAt a

/-- `t` is `s` but for the bytes of the words at the addresses of `l`, and what goes with storing them. -/
structure WordsStored (s t : State) (l : List Word) : Prop where
  rest : t = { s with mem := t.mem, stale := t.stale, freeCtr := t.freeCtr }
  bytes : ∀ a, (∀ w ∈ l, a < w.toNat ∨ w.toNat + 4 ≤ a) → t.byteAt a = s.byteAt a

namespace WordsStored

theorem none (s : State) : WordsStored s s [] := ⟨rfl, fun _ _ => rfl⟩

theorem append {s t u : State} {l m : List Word} (h : WordsStored s t l) (k : WordsStored t u m) :
    WordsStored s u (l ++ m) where
  rest := by
    have hu := k.rest
    rw [h.rest] at hu
    exact hu
  bytes a ha := by
    rw [List.forall_mem_append] at ha
    obtain ⟨hl, hm⟩ := ha
    exact (k.bytes a hm).trans (h.bytes a hl)

theorem memStore (s : State) (a v : Word) : WordsStored s (s.memStore .word a.toNat v) [a] where
  rest := rfl
  bytes c hc := s.byteAt_memStore_other .word a.toNat c v (hc a (List.mem_singleton_self a))

theorem freeRamWord (s : State) (a : Word) : WordsStored s (s.freeRamWord a) [a] := by
  unfold State.freeRamWord
  split
  · exact ⟨rfl, (memStore s a s.freshWord).bytes⟩
  · exact ⟨rfl, fun _ _ => rfl⟩

theorem reg_eq {s t : State} {l : List Word} (h : WordsStored s t l) (q : Reg) : t.reg q = s.reg q := by
  rw [h.rest]
  rfl

theorem storesRam {s t : State} {l : List Word} (h : WordsStored s t l) {a : Word} (ha : s.StoresRam .word a) :
    t.StoresRam .word a := by
  rw [h.rest]
  exact ha

/-- An aligned word keeps its value while other aligned words are stored. -/
theorem memNat_eq {s t : State} {l : List Word} (h : WordsStored s t l) {a : Word} (ha : State.Aligned .word a)
    (hl : ∀ w ∈ l, State.Aligned .word w ∧ a ≠ w) : t.memNat .word a.toNat = s.memNat .word a.toNat := by
  have hbyte : ∀ k, k < 4 → t.byteAt (a.toNat + k) = s.byteAt (a.toNat + k) := by
    intro k hk
    refine h.bytes _ fun w hw => ?_
    obtain ⟨hw, hne⟩ := hl w hw
    have hne : a.toNat ≠ w.toNat := fun heq => hne (BitVec.eq_of_toNat_eq heq)
    simp only [State.Aligned, Width.bytes] at ha hw
    omega
  have h0 : t.byteAt a.toNat = s.byteAt a.toNat := hbyte 0 (by decide)
  simp only [State.memNat, h0, hbyte 1 (by decide), hbyte 2 (by decide), hbyte 3 (by decide)]

end WordsStored

namespace State

/-! ### Pushing a frame (60_exceptions.md R375) -/

/-- A word just stored is read back as its number. -/
theorem memNat_memStore (s : State) (a : Nat) (v : Word) : (s.memStore .word a v).memNat .word a = v.toNat := by
  rw [← memLoad_word_toNat, memLoad_memStore]

/-- Storing the registers of a frame in RAM puts each into its own word. -/
theorem pushRegs_ram (n : Word) (l : List (Word × Reg)) (hd : l.Pairwise fun e f => e.1 ≠ f.1) (s : State)
    (hm : ∀ e ∈ l, s.StoresRam .word (n - e.1)) :
    ∃ t, pushRegs n l s = .next t ∧ WordsStored s t (l.map fun e => n - e.1) ∧
      ∀ e ∈ l, t.memNat .word (n - e.1).toNat = (s.reg e.2).toNat := by
  induction l generalizing s with
  | nil => exact ⟨s, rfl, .none s, by simp⟩
  | cons e rest ih =>
    obtain ⟨off, r⟩ := e
    simp only [List.forall_mem_cons, List.pairwise_cons] at hd hm
    obtain ⟨hfirst, hd⟩ := hd
    obtain ⟨hstore, hm⟩ := hm
    have hhead := WordsStored.memStore s (n - off) (s.reg r)
    obtain ⟨t, hnext, htail, hvalues⟩ := ih hd _ fun e he => hhead.storesRam (hm e he)
    refine ⟨t, ?next, hhead.append htail, ?values⟩
    case next =>
      unfold pushRegs
      rw [s.busWrite_ram .word _ _ hstore]
      exact hnext
    case values =>
      rw [List.forall_mem_cons]
      refine ⟨?_, fun e he => (hvalues e he).trans (congrArg _ (hhead.reg_eq e.2))⟩
      have hothers : ∀ w ∈ rest.map fun e => n - e.1, Aligned .word w ∧ n - off ≠ w := by
        simp only [List.forall_mem_map]
        exact fun e he => ⟨(hm e he).1, fun heq => hfirst e he (sub_right_injective heq)⟩
      rw [htail.memNat_eq hstore.1 hothers]
      exact memNat_memStore s _ _

theorem memNat_setReg (s : State) (r : Reg) (v : Word) (a : Nat) :
    (s.setReg r v).memNat .word a = s.memNat .word a := by
  unfold setReg
  split <;> rfl

theorem hpePush_misaligned (s : State) (ha : (s.reg 2).toNat % 4 ≠ 0) : s.hpePush = .fault .hpeAccess :=
  if_neg fun h => ha ((isAligned_iff .word (s.reg 2)).1 h)

/-- After the registers the push frees the two lowest words of the frame and lowers x2. -/
theorem hpePush_pushed {s t : State} (ha : (s.reg 2).toNat % 4 = 0) (h : pushRegs (s.reg 2) hpeFrame s = .next t) :
    s.hpePush = .next
      (((t.freeRamWord (hpeSlot (s.reg 2) 10)).freeRamWord (hpeSlot (s.reg 2) 11)).setReg 2 (s.reg 2 - 48#32)) := by
  show (if isAligned .word (s.reg 2) then andThen (pushRegs (s.reg 2) hpeFrame s) _ else _) = _
  rw [if_pos ((isAligned_iff .word (s.reg 2)).2 ha), h]
  rfl

/-- With its frame in RAM the push completes and changes no device and no vector table (60_exceptions.md R375). -/
theorem hpePush_ram (s : State) (ha : (s.reg 2).toNat % 4 = 0)
    (hm : ∀ k, k < 12 → s.StoresRam .word (hpeSlot (s.reg 2) k)) :
    ∃ t, s.hpePush = .next t ∧ t.pfic = s.pfic ∧ t.mtvec = s.mtvec ∧ FramePushed s t := by
  have hin : ∀ k, k < hpeRegs.length → k < 12 := fun k hk => Nat.lt_trans hk (by decide)
  obtain ⟨t, hnext, hpushed, hvalues⟩ := pushRegs_ram (s.reg 2) hpeFrame (by decide) s
    ((forall_hpeFrame (P := fun a _ => s.StoresRam .word a) _).2 fun k hk => hm k (hin k hk))
  rw [forall_hpeFrame (P := fun a r => t.memNat .word a.toNat = (s.reg r).toNat)] at hvalues
  have hfreed := (WordsStored.freeRamWord t (hpeSlot (s.reg 2) 10)).append (.freeRamWord _ (hpeSlot (s.reg 2) 11))
  have hpush := hpePush_pushed ha hnext
  generalize (t.freeRamWord (hpeSlot (s.reg 2) 10)).freeRamWord (hpeSlot (s.reg 2) 11) = u at hfreed hpush
  have hstored := hpushed.append hfreed
  refine ⟨_, hpush, ?pfic, ?mtvec, fun k hk => ?words, fun a hout => ?bytes⟩
  case pfic => rw [setReg_pfic, hstored.rest]
  case mtvec => rw [setReg_mtvec, hstored.rest]
  case words =>
    have hfree : ∀ j, 10 ≤ j → j < 12 →
        Aligned .word (hpeSlot (s.reg 2) j) ∧ hpeSlot (s.reg 2) k ≠ hpeSlot (s.reg 2) j :=
      fun j hlo hj => ⟨(hm j hj).1, hpeSlot_ne _ (Nat.lt_of_lt_of_le hk hlo) hj⟩
    rw [memNat_setReg, hfreed.memNat_eq (hm k (hin k hk)).1, hvalues k hk]
    simp only [List.singleton_append, List.forall_mem_cons]
    exact ⟨hfree 10 (by decide) (by decide), hfree 11 (by decide) (by decide), by simp⟩
  case bytes =>
    refine (byteAt_congr _ u (setReg_mem u _ _) (setReg_cfg u _ _) (setReg_boots u _ _) a).trans (hstored.bytes a ?_)
    simp only [List.forall_mem_append, List.forall_mem_map, List.forall_mem_cons]
    exact ⟨(forall_hpeFrame (P := fun w _ => a < w.toNat ∨ w.toNat + 4 ≤ a) _).2 fun k hk => hout k (hin k hk),
      ⟨hout 10 (by decide), by simp⟩, hout 11 (by decide), by simp⟩

/-- A trap entry after a push, up to the choice of its target. -/
theorem enterTrap_pushed {s u : State} (k : TrapId) (cause epc : Word) (hn : s.nest < 2) (hh : s.hwstken = true)
    (hpush : s.hpePush = .next u) :
    ∃ (m e : Bool) (n : Nat), s.enterTrap k cause epc =
      ({ u with
        mstatus := mstatusOf m u.mie true u.mpop
        mieEff := e
        freeCtr := n
        mepc := epc
        mcause := cause
        activeStack := k :: u.activeStack
        run := .running
        deepSleep := false } : State).enterTarget k := by
  obtain ⟨m, e, n, hm, -⟩ := u.trapMstatus_eq true
  refine ⟨m, e, n, ?_⟩
  unfold enterTrap
  rw [if_neg (by omega), hh, if_pos rfl, hpush, andThen_of_next, hm]

theorem enterTrap_misaligned {s : State} (k : TrapId) (cause epc : Word) (hn : s.nest < 2) (hh : s.hwstken = true)
    (ha : (s.reg 2).toNat % 4 ≠ 0) : s.enterTrap k cause epc = .fault .hpeAccess := by
  unfold enterTrap
  rw [if_neg (by omega), hh, if_pos rfl, s.hpePush_misaligned ha]
  rfl

/-- A trap entered with a frame pushed into RAM and a table of instructions (60_exceptions.md R361 to R367, R375). -/
theorem enterTrap_hpe {s : State} (k : TrapId) (cause epc : Word) (hn : s.nest < 2) (hh : s.hwstken = true)
    (ha : (s.reg 2).toNat % 4 = 0) (hm : ∀ k, k < 12 → s.StoresRam .word (hpeSlot (s.reg 2) k))
    (ht : s.mtvec.extractLsb' 2 8 = 0#8) (hj : s.mtvec.getLsbD 1 = false) (hv : s.NoVtf (trapNumber k).toNat) :
    ∃ t, s.enterTrap k cause epc = .next t ∧ Entered s t cause epc ∧ t.pc = s.entryOf (trapNumber k).toNat ∧
      t.activeStack = k :: s.activeStack ∧ FramePushed s t := by
  obtain ⟨u, hpush, hpfic, hmtvec, hpushed⟩ := s.hpePush_ram ha hm
  obtain ⟨m, e, c, henter⟩ := enterTrap_pushed k cause epc hn hh hpush
  have hentry : u.entryOf (trapNumber k).toNat = s.entryOf (trapNumber k).toNat := by
    unfold entryOf
    rw [hmtvec]
  have hvtf : u.NoVtf (trapNumber k).toNat := by
    unfold NoVtf
    rw [hpfic]
    exact hv
  have hnext := henter.trans (enterTarget_jump _ k hvtf (hmtvec ▸ ht) (hmtvec ▸ hj))
  exact ⟨_, hnext, enterTrap_entered hnext fun h => absurd (hh.symm.trans h) (by decide), hentry,
    enterTrap_stack hnext, hpushed.words, hpushed.bytes⟩

end State

/-! ### The obligations -/

/-- Settles O31: the push into RAM completes, and the entry after it is that of every trap. -/
theorem hpePushesFrame : Obligations.HpePushesFrame := by
  intro s trap cause epc hn hh slot
  have hslot : slot = (State.trapNumber trap).toNat := by
    cases trap with
    | exc => rfl
    | irq n => exact (State.trapNumber_irq n).symm
  rw [hslot]
  refine ⟨fun ha hm ht hj hv => ?pushes, fun ha => State.enterTrap_misaligned trap cause epc hn hh ha⟩
  case pushes =>
    obtain ⟨t, hnext, hentered, hpc, hstack, hpushed⟩ := State.enterTrap_hpe trap cause epc hn hh ha hm ht hj hv
    exact ⟨t, hnext, hentered, hpc, hstack, hpushed.words, hpushed.bytes⟩

/-- Settles O32: without a pop and with nothing to settle `mret` ends in `unpopped`. -/
theorem trapReturnRestores : Obligations.TrapReturnRestores := by
  intro s he hp hl
  obtain ⟨hreturned, hregs, hpfic, -, hinflight, htail⟩ := s.unpopped_returned
  have hsettled := State.settleErrors_none s.unpopped (hinflight.trans hl)
  exact ⟨s.unpopped, State.exec_mret_unpopped he hp hsettled htail, hreturned, hregs, hpfic⟩

/-- Settles O33: the pop changes registers alone, and the return after it leaves them. -/
theorem trapReturnPopsFrame : Obligations.TrapReturnPopsFrame := by
  intro s he hp hl ha n hm
  obtain ⟨u, hpop, hrest, hsp, hvalues, hothers⟩ := s.hpePop_memory ha hm
  obtain ⟨t, hnext, hreturned, hregs⟩ := State.exec_mret_popped he hp hl hpop hrest
  have hreg : ∀ q, t.reg q = u.reg q := State.reg_congr t u hregs
  refine ⟨t, hnext, hreturned, (hreg 2).trans hsp, fun k hk => ?values,
    fun q hq hqr => (hreg q).trans (hothers q hq hqr)⟩
  case values => rw [hreg, hvalues k hk, State.memLoad_word_toNat]

end Sys2Proof.Machine
end

section
/-!
SUPPORT. Which interrupt a boundary delivers, and taking it (60_exceptions.md R370 to R374).
-/

namespace Sys2Proof.Machine

namespace State

/-! ### Deliverability (60_exceptions.md R371) -/

/-- NMI and EXC are the numbers that no mask names. -/
theorem fixedIrqs_getLsbD (n : Irq) : fixedIrqs.getLsbD n.val = false ↔ n.val ≠ 2 ∧ n.val ≠ 3 := by
  have hbits : fixedIrqs = BitVec.twoPow 256 2 ||| BitVec.twoPow 256 3 := by decide
  rw [hbits, BitVec.getLsbD_or, BitVec.getLsbD_twoPow, BitVec.getLsbD_twoPow]
  simp only [Bool.or_eq_false_iff, Bool.and_eq_false_iff, decide_eq_false_iff_not]
  omega

theorem candidates_iff (s : State) (n : Irq) : s.candidates.getLsbD n.val = true ↔
    n.val ≠ 2 ∧ n.val ≠ 3 ∧ s.pending.getLsbD n.val = true ∧ s.pfic.enableEff.getLsbD n.val = true := by
  have hfixed := fixedIrqs_getLsbD n
  simp only [candidates, BitVec.getLsbD_and, BitVec.getLsbD_not, n.isLt, decide_true, Bool.true_and, Bool.and_eq_true,
    Bool.not_eq_true', hfixed]
  tauto

theorem overThreshold_iff (s : State) (n : Irq) : s.overThreshold n = true ↔
    s.pfic.ithresdr.extractLsb' 0 8 = 0#8 ∨ (s.prioOf n).toNat < (s.pfic.ithresdr.extractLsb' 0 8).toNat := by
  simp only [overThreshold, Bool.or_eq_true, decide_eq_true_eq]

theorem nestingAllows_iff (s : State) (n : Irq) : s.nestingAllows n = true ↔
    s.activeStack = [] ∨ ∃ m : Irq, s.activeStack = [TrapId.irq m] ∧ m.val ≠ 2 ∧ s.inesten = true ∧
      (s.prioOf n).getLsbD 7 = false ∧ (s.prioOf m).getLsbD 7 = true := by
  unfold nestingAllows
  split
  · next hs => simp [hs]
  · next m hs =>
    have hm : m ≠ 2 ↔ m.val ≠ 2 := not_congr Fin.ext_iff
    simp only [hs, Bool.and_eq_true, Bool.not_eq_true', decide_eq_true_eq, hm]
    constructor
    · rintro ⟨⟨⟨hnest, hnmi⟩, hn⟩, hpre⟩
      exact .inr ⟨m, rfl, hnmi, hnest, hn, hpre⟩
    · rintro (hnil | ⟨m', heq, hnmi, hnest, hn, hpre⟩)
      · cases hnil
      · cases heq
        exact ⟨⟨⟨hnest, hnmi⟩, hn⟩, hpre⟩
  · next hnil hone =>
    simp only [Bool.false_eq_true, false_iff]
    rintro (hs | ⟨m, hs, -⟩)
    · exact hnil hs
    · exact hone m hs

/-- The nesting rule lets an interrupt through only below level 2. -/
theorem nest_lt_of_nestingAllows {s : State} {n : Irq} (h : s.nestingAllows n = true) : s.nest < 2 := by
  unfold nest
  rcases (s.nestingAllows_iff n).1 h with hs | ⟨m, hs, -⟩ <;> simp [hs]

theorem deliverable_iff (s : State) (n : Irq) : s.deliverable n = true ↔
    s.candidates.getLsbD n.val = true ∧ s.mieEff = true ∧ s.overThreshold n = true ∧ s.nestingAllows n = true := by
  simp only [deliverable, Bool.and_eq_true, and_assoc]

/-! ### The best interrupt (60_exceptions.md R373) -/

/-- Interrupt `n` goes before `m`: a smaller priority value, or the same and no larger number. -/
def Precedes (s : State) (n m : Irq) : Prop :=
  (s.prioOf n).toNat < (s.prioOf m).toNat ∨ (s.prioOf n).toNat = (s.prioOf m).toNat ∧ n.val ≤ m.val

theorem Precedes.refl (s : State) (n : Irq) : s.Precedes n n := .inr ⟨rfl, le_refl _⟩

theorem Precedes.trans {s : State} {a b c : Irq} (h : s.Precedes a b) (k : s.Precedes b c) : s.Precedes a c := by
  unfold Precedes at *
  omega

/-- `best` is the interrupt to take if the numbers of `l` are all there are. -/
def BestOf (s : State) (l : List Irq) : Option Irq → Prop
  | none => ∀ m ∈ l, s.deliverable m = false
  | some n => s.deliverable n = true ∧ n ∈ l ∧ ∀ m ∈ l, s.deliverable m = true → s.Precedes n m

/-- One more number, above all those before it. -/
theorem BestOf.betterIrq {s : State} {l : List Irq} {best : Option Irq} (h : s.BestOf l best) (n : Irq)
    (hn : ∀ m ∈ l, m < n) : s.BestOf (l ++ [n]) (s.betterIrq best n) := by
  unfold State.betterIrq
  split
  · next hdel =>
    have hself : n ∈ l ++ [n] := by simp
    cases best with
    | none =>
      simp only [BestOf, List.forall_mem_append, List.forall_mem_singleton] at h ⊢
      exact ⟨hdel, hself, fun m hm hm' => absurd ((h m hm).symm.trans hm') (by decide), fun _ => .refl s n⟩
    | some b =>
      obtain ⟨hbdel, hbl, hb⟩ := h
      have hbn : b.val < n.val := hn b hbl
      simp only
      split
      · next hlt =>
        simp only [BestOf, List.forall_mem_append, List.forall_mem_singleton]
        exact ⟨hdel, hself, fun m hm hm' => .trans (.inl hlt) (hb m hm hm'), fun _ => .refl s n⟩
      · next hge =>
        simp only [BestOf, List.forall_mem_append, List.forall_mem_singleton]
        exact ⟨hbdel, List.mem_append_left _ hbl, hb, fun _ => by unfold Precedes; omega⟩
  · next hdel =>
    cases best with
    | none =>
      simp only [BestOf, List.forall_mem_append, List.forall_mem_singleton] at h ⊢
      exact ⟨h, Bool.eq_false_of_not_eq_true hdel⟩
    | some b =>
      obtain ⟨hbdel, hbl, hb⟩ := h
      simp only [BestOf, List.forall_mem_append, List.forall_mem_singleton]
      exact ⟨hbdel, List.mem_append_left _ hbl, hb, fun h => absurd h hdel⟩

/-- Going through rising numbers keeps the best of those gone through. -/
theorem BestOf.foldl {s : State} (l : List Irq) {done : List Irq} {best : Option Irq} (h : s.BestOf done best)
    (hl : (done ++ l).Pairwise (· < ·)) : s.BestOf (done ++ l) (l.foldl s.betterIrq best) := by
  induction l generalizing done best with
  | nil => simpa using h
  | cons n rest ih =>
    obtain ⟨-, -, hrising⟩ := List.pairwise_append.1 hl
    have hn : ∀ m ∈ done, m < n := fun m hm => hrising m hm n List.mem_cons_self
    rw [List.append_cons] at hl ⊢
    exact ih (h.betterIrq n hn) hl

theorem BestOf.foldl_none {s : State} {l : List Irq} (hl : l.Pairwise (· < ·)) :
    s.BestOf l (l.foldl s.betterIrq none) :=
  BestOf.foldl l (done := []) (best := none) (fun _ hm => absurd hm List.not_mem_nil) hl

/-- The number that a boundary takes is the best of all numbers. -/
theorem bestOf_bestIrq (s : State) : s.BestOf (List.finRange 256) s.bestIrq := by
  unfold bestIrq
  split
  · exact BestOf.foldl_none (List.pairwise_lt_finRange 256)
  · next hmasked =>
    intro m _
    rw [Bool.eq_false_iff]
    intro hdel
    obtain ⟨hcandidate, hmie, -⟩ := (s.deliverable_iff m).1 hdel
    refine hmasked ?_
    rw [Bool.and_eq_true, decide_eq_true_eq]
    exact ⟨hmie, fun hzero => by simp [hzero] at hcandidate⟩

/-! ### Taking an interrupt (60_exceptions.md R361, R370) -/

/-- An interrupt's cause is its number with the top bit set (60_exceptions.md R362). -/
theorem irqCause_eq (n : Irq) : irqCause n = BitVec.ofNat 32 (2147483648 + n.val) := by
  have hor := Nat.two_pow_add_eq_or_of_lt (by omega : n.val < 2 ^ 31) 1
  apply BitVec.eq_of_toNat_eq
  unfold irqCause
  rw [BitVec.toNat_or, BitVec.toNat_ofNat, BitVec.toNat_ofNat, BitVec.toNat_ofNat,
    Nat.mod_eq_of_lt (by omega : n.val < 2 ^ 32)]
  exact hor.symm.trans (by omega)

/-- Without a push an interrupt is entered as any trap is, whatever stands of its latch. -/
theorem takeInterrupt_plainly {s : State} (h : s.EntersPlainly) (tail : Bool) (n : Irq) (hv : s.NoVtf n.val) :
    ∃ t, s.takeInterrupt tail n = .next t ∧ Entered s t (BitVec.ofNat 32 (2147483648 + n.val)) s.pc ∧
      t.pc = s.entryOf n.val ∧ t.activeStack = TrapId.irq n :: s.activeStack := by
  obtain ⟨p, hp, hvtf⟩ : ∃ p, s.clearLatchOnEntry n = { s with pfic := p } ∧
      ({ s with pfic := p } : State).NoVtf n.val := by
    unfold clearLatchOnEntry
    split
    · exact ⟨_, rfl, hv⟩
    · exact ⟨s.pfic, rfl, hv⟩
  rw [← trapNumber_irq n] at hvtf
  obtain ⟨t, hnext, hentered, hpc, hstack⟩ :=
    enterTrap_jump (s := { s with pfic := p }) { h with } (.irq n) hvtf (irqCause n) s.pc
  rw [trapNumber_irq] at hpc
  refine ⟨t, ?next, irqCause_eq n ▸ { hentered with }, hpc, hstack⟩
  case next =>
    unfold takeInterrupt
    rw [hp, hnext, andThen_of_next, h.noHpe, Bool.and_false]
    rfl

/-- At a boundary with no input a trap that the boundary chooses is the whole step. -/
theorem AtBoundary.step_trap {s : State} (h : s.AtBoundary) {r : Res State}
    (hr : ({ s with tailPop := false } : State).boundaryTrap s.tailPop = some r) : step s = r := by
  have hinputs : s.applyInputs = .next s := by
    unfold applyInputs
    rw [h.noInput]
  have hhart : ({ s with tailPop := false } : State).hartBoundary s.tailPop = r := by
    unfold hartBoundary
    rw [if_neg (by simp [h.noHalt]), if_neg (by simpa [eabien] using h.noEabi), hr]
  show andThen s.applyInputs boundary = r
  rw [hinputs, andThen_of_next]
  unfold boundary
  rw [if_neg (by simp [h.noReset]), if_neg (by simp [h.notHeld]), if_neg (by simp [h.notDebug]), hhart]

/-- Without single step no interrupt is held back (64_debug.md R542). -/
theorem interruptsHeld_unstepped {s : State} (h : s.stepBit = false) : s.interruptsHeld = false := by
  unfold interruptsHeld
  rw [h, Bool.false_and]

theorem boundaryTrap_nmi {s : State} (hs : s.stepBit = false) (hn : s.nmiDeliverable = true) (tail : Bool) :
    s.boundaryTrap tail = some (s.takeInterrupt tail 2) := by
  unfold boundaryTrap
  rw [hn, interruptsHeld_unstepped hs]
  rfl

theorem boundaryTrap_best {s : State} {n : Irq} (hs : s.stepBit = false) (hn : s.nmiDeliverable = false)
    (hl : s.inflight = []) (hbest : s.bestIrq = some n) (tail : Bool) :
    s.boundaryTrap tail = some (s.takeInterrupt tail n) := by
  unfold boundaryTrap
  rw [hn, interruptsHeld_unstepped hs, hl, hbest]
  simp

end State

/-! ### The obligations -/

/-- Settles O34: the invariant of the fold is that the number so far is the best of those gone through. -/
theorem bestInterruptIsTaken : Obligations.BestInterruptIsTaken := by
  intro s
  have hbest := s.bestOf_bestIrq
  refine ⟨fun n hn => ?some, fun hnone m => ?none⟩
  case some =>
    rw [hn] at hbest
    obtain ⟨hdel, -, hfirst⟩ := hbest
    exact ⟨hdel, fun m => hfirst m (List.mem_finRange m)⟩
  case none =>
    rw [hnone] at hbest
    exact hbest m (List.mem_finRange m)

/-- Settles O35: the conditions of R371, one rule each. -/
theorem deliverabilityConditions : Obligations.DeliverabilityConditions := by
  intro s n
  rw [s.deliverable_iff, s.candidates_iff, s.overThreshold_iff, s.nestingAllows_iff]
  simp only [and_assoc]

/-- Settles O36: with no NMI and no access error before it the chosen interrupt is the boundary's trap, and what is
deliverable can be entered. -/
theorem interruptsAreTakenAtBoundaries : Obligations.InterruptsAreTakenAtBoundaries := by
  intro s n hb hs hnmi hl hbest hh ht hj hv
  obtain ⟨-, -, -, hnesting⟩ := (s.deliverable_iff n).1 (State.bestIrq_deliverable hbest)
  have hp : ({ s with tailPop := false } : State).EntersPlainly :=
    ⟨hb.notDebug, State.nest_lt_of_nestingAllows hnesting, hh, hj, ht⟩
  obtain ⟨t, hnext, hentered, hpc, hstack⟩ := State.takeInterrupt_plainly hp s.tailPop n hv
  have htrap := State.boundaryTrap_best (s := { s with tailPop := false }) hs hnmi hl hbest s.tailPop
  exact ⟨t, (hb.step_trap htrap).trans hnext, { hentered with }, hpc, hstack⟩

/-- Settles O37: pending and the traps in service alone make NMI deliverable, and it is the first trap a boundary
looks for. -/
theorem nmiIsNotMaskable : Obligations.NmiIsNotMaskable := by
  intro s hb hs hpending hstack hh ht hj hv
  have hnmi : s.nmiDeliverable = true := by
    unfold State.nmiDeliverable
    rw [hpending]
    rcases hstack with hstack | ⟨k, hstack, hk⟩
    · rw [hstack]; rfl
    · rw [hstack]; exact decide_eq_true hk
  have hnest : s.nest < 2 := by
    unfold State.nest
    rcases hstack with hstack | ⟨k, hstack, -⟩ <;> simp [hstack]
  have hp : ({ s with tailPop := false } : State).EntersPlainly := ⟨hb.notDebug, hnest, hh, hj, ht⟩
  obtain ⟨t, hnext, hentered, hpc, -⟩ := State.takeInterrupt_plainly hp s.tailPop 2 hv
  have htrap := State.boundaryTrap_nmi (s := { s with tailPop := false }) hs hnmi s.tailPop
  exact ⟨t, (hb.step_trap htrap).trans hnext, { hentered with }, hpc⟩

end Sys2Proof.Machine
end

section
/-!
SUPPORT. The registers of the PFIC, of SysTick and of the debug data window (61_pfic.md R422 to R440, 62_systick.md R482
to R485, 64_debug.md R537): their reserved bits change by change, and what an access to each of them does.
-/

namespace Sys2Proof.Machine

/-! ### The reserved bits (61_pfic.md R431 to R436, 62_systick.md R482) -/

namespace State

theorem DevicesShaped.of_shaped {s : State} (hp : s.pfic.Shaped) (hk : s.stk.ctlr &&& 0x7FFFFFF0#32 = 0#32) :
    s.DevicesShaped := by
  obtain ⟨hithresdr, hvtfidr, hsctlr, hprio⟩ := hp
  exact ⟨hithresdr, hvtfidr, hsctlr, hprio, hk⟩

theorem DevicesShaped.pfic_shaped {s : State} (hs : s.DevicesShaped) : s.pfic.Shaped :=
  ⟨hs.ithresdr, hs.vtfidr, hs.sctlr, hs.prio⟩

theorem DevicesShaped.congr {s t : State} (hs : s.DevicesShaped) (hp : t.pfic = s.pfic) (hk : t.stk = s.stk) :
    t.DevicesShaped :=
  of_shaped (hp ▸ hs.pfic_shaped) (hk ▸ hs.stkCtlr)

/-- Only a change of the PFIC or of SysTick, which keeps the shape, and a reset touch these registers. -/
theorem DevicesShaped.change {s t : State} (hs : s.DevicesShaped) (h : Change s t) : t.DevicesShaped := by
  cases h
  case reg => exact hs.congr (by simp) (by simp)
  case csr => exact hs.congr (by simp) (by simp)
  case stk k hk => exact of_shaped hs.pfic_shaped (hk hs.stkCtlr)
  case pfic p _ _ hp => exact of_shaped (hp hs.pfic_shaped) hs.stkCtlr
  case systemReset => exact (atReset_devicesShaped s.cfg).congr rfl rfl
  case powerReset => exact (atReset_devicesShaped s.cfg).congr rfl rfl
  all_goals exact hs.congr rfl rfl

end State

/-! ### Word accesses to a device register (20_memory.md R93) -/

/-- A word access to `a` reaches the 32-bit device register `r`. -/
structure DeviceAt (a : Word) (r : DevReg) : Prop where
  window : inCoreWindow a.toNat = true
  aligned : isAligned .word a = true
  notPrio : isIprior a.toNat = false
  reg : devReg a.toNat = r

theorem deviceAt_of {a : Word} {r : DevReg}
    (h : (inCoreWindow a.toNat && isAligned .word a && !isIprior a.toNat && decide (devReg a.toNat = r)) = true) :
    DeviceAt a r := by
  simp only [Bool.and_eq_true, Bool.not_eq_true', decide_eq_true_eq] at h
  obtain ⟨⟨⟨hw, ha⟩, hp⟩, hr⟩ := h
  exact ⟨hw, ha, hp, hr⟩

theorem deviceAt_ienr (x : Fin 8) : DeviceAt (BitVec.ofNat 32 (0xE000E100 + 4 * x.val)) (.ienr x) :=
  deviceAt_of (by revert x; decide)

theorem deviceAt_irer (x : Fin 8) : DeviceAt (BitVec.ofNat 32 (0xE000E180 + 4 * x.val)) (.irer x) :=
  deviceAt_of (by revert x; decide)

theorem deviceAt_ipsr (x : Fin 8) : DeviceAt (BitVec.ofNat 32 (0xE000E200 + 4 * x.val)) (.ipsr x) :=
  deviceAt_of (by revert x; decide)

theorem deviceAt_iprr (x : Fin 8) : DeviceAt (BitVec.ofNat 32 (0xE000E280 + 4 * x.val)) (.iprr x) :=
  deviceAt_of (by revert x; decide)

theorem DeviceAt.exec_sw_done {s t : State} {rs2 rs1 : Reg} {imm : BitVec 12} {a : Word} {r : DevReg}
    (ha : DeviceAt a r) (hea : s.reg rs1 + imm.signExtend 32 = a) (hd : s.devStore r (s.reg rs2) = .done t) :
    exec (.sw rs2 rs1 imm) s = .next (t.advance ilen4) := by
  subst hea
  refine (s.store_device (s.reg rs2) _ ilen4 r ha.window ha.aligned ha.notPrio ha.reg).trans ?_
  rw [hd]

theorem DeviceAt.exec_sw_refused {s : State} {rs2 rs1 : Reg} {imm : BitVec 12} {a : Word} {r : DevReg} {e : Refusal}
    (ha : DeviceAt a r) (hea : s.reg rs1 + imm.signExtend 32 = a) (hd : s.devStore r (s.reg rs2) = .refused e) :
    exec (.sw rs2 rs1 imm) s = .refused e := by
  subst hea
  refine (s.store_device (s.reg rs2) _ ilen4 r ha.window ha.aligned ha.notPrio ha.reg).trans ?_
  rw [hd]

theorem DeviceAt.exec_lw {s : State} {rd rs1 : Reg} {imm : BitVec 12} {a : Word} {r : DevReg} (ha : DeviceAt a r)
    (hea : s.reg rs1 + imm.signExtend 32 = a) :
    exec (.lw rd rs1 imm) s = .next ((s.devLoad r).2.finishReg rd (s.devLoad r).1 ilen4) := by
  subst hea
  exact s.load_device .unsigned rd _ ilen4 r ha.window ha.aligned ha.notPrio ha.reg

/-! ### Enable and pending bits (61_pfic.md R422 to R430, R438, R443) -/

/-- Setting the numbers of `m` that a word written to register `x` of a group names. -/
theorem getLsbD_or_named (e m : BitVec 256) (x : Fin 8) (v : Word) (n : Irq) :
    (e ||| (groupBits x v &&& m)).getLsbD n.val =
      (e.getLsbD n.val || (decide (n.val / 32 = x.val) && v.getLsbD (n.val % 32) && m.getLsbD n.val)) := by
  rw [BitVec.getLsbD_or, BitVec.getLsbD_and, groupBits_getLsbD x v n.val n.isLt]

/-- Clearing the numbers that a word written to register `x` of a group names. -/
theorem getLsbD_and_not_named (e : BitVec 256) (x : Fin 8) (v : Word) (n : Irq) :
    (e &&& ~~~(groupBits x v)).getLsbD n.val =
      (e.getLsbD n.val && !(decide (n.val / 32 = x.val) && v.getLsbD (n.val % 32))) := by
  rw [BitVec.getLsbD_and, BitVec.getLsbD_not, groupBits_getLsbD x v n.val n.isLt, decide_eq_true n.isLt, Bool.true_and]

/-- Clearing the named numbers but NMI and EXC (R426). -/
theorem getLsbD_and_not_named_fixed (e : BitVec 256) (x : Fin 8) (v : Word) (n : Irq) :
    (e &&& ~~~(groupBits x v &&& ~~~fixedIrqs)).getLsbD n.val =
      (e.getLsbD n.val &&
        !(decide (n.val / 32 = x.val) && v.getLsbD (n.val % 32) && decide (n.val ≠ 2) && decide (n.val ≠ 3))) := by
  have hfixed : (!fixedIrqs.getLsbD n.val) = (decide (n.val ≠ 2) && decide (n.val ≠ 3)) := by
    rw [Bool.eq_iff_iff, Bool.not_eq_true', State.fixedIrqs_getLsbD, Bool.and_eq_true, decide_eq_true_iff,
      decide_eq_true_iff]
  simp only [BitVec.getLsbD_and, BitVec.getLsbD_not, groupBits_getLsbD x v n.val n.isLt, n.isLt, decide_true,
    Bool.true_and, hfixed, Bool.and_assoc]

namespace State

/-- A store to PFIC_IENRx sets the named bits of the numbers with state (R425). -/
theorem enabled_storeIenr (s : State) (x : Fin 8) (v : Word) :
    (s.storeIenr x v).enabled = s.enabled ||| (groupBits x v &&& irqValid s.cfg) := by
  show (s.pfic.enable ||| (groupBits x v &&& irqValid s.cfg)) &&& irqValid s.cfg = _
  rw [BitVec.and_or_distrib_right, BitVec.and_assoc, BitVec.and_self]
  rfl

/-- A store to PFIC_IRERx clears the named bits but those of NMI and EXC (R426). -/
theorem enabled_storeIrer (s : State) (x : Fin 8) (v : Word) :
    (s.storeIrer x v).enabled = s.enabled &&& ~~~(groupBits x v &&& ~~~fixedIrqs) := by
  show (s.pfic.enable &&& ~~~(groupBits x v &&& ~~~fixedIrqs)) &&& irqValid s.cfg = _
  rw [BitVec.and_assoc, BitVec.and_comm (~~~_), ← BitVec.and_assoc]
  rfl

/-- What pends does not depend on the event latch. -/
theorem pending_noteNewPending (old s : State) : (noteNewPending old s).pending = s.pending := by
  obtain ⟨b, hb⟩ := noteNewPending_eq old s
  rw [hb]
  rfl

/-- A store to PFIC_IPSRx makes the named numbers with state pend (R427). -/
theorem pending_storeIpsr (s : State) (x : Fin 8) (v : Word) :
    (s.storeIpsr x v).pending = s.pending ||| (groupBits x v &&& irqValid s.cfg) := by
  unfold storeIpsr
  rw [pending_noteNewPending]
  show ((s.pfic.pendLatch ||| (groupBits x v &&& irqValid s.cfg)) ||| s.requestLines) &&& irqValid s.cfg = _
  rw [BitVec.or_assoc, BitVec.or_comm (_ &&& _), ← BitVec.or_assoc, BitVec.and_or_distrib_right, BitVec.and_assoc,
    BitVec.and_self]
  rfl

/-- A store to PFIC_IPRRx clears the named latches and no request line (R428, R441). -/
theorem pending_storeIprr (s : State) (x : Fin 8) (v : Word) :
    (s.storeIprr x v).pending = ((s.pfic.pendLatch &&& ~~~(groupBits x v)) ||| s.requestLines) &&& irqValid s.cfg := rfl

/-- A store to PFIC_IPSRx changes the latches and the event latch alone. -/
theorem storeIpsr_frame (s : State) (x : Fin 8) (v : Word) :
    s.storeIpsr x v =
      { s with
        pfic := { s.pfic with pendLatch := (s.storeIpsr x v).pfic.pendLatch }
        event := (s.storeIpsr x v).event } := by
  obtain ⟨b, hb⟩ : ∃ b, s.storeIpsr x v = { s with pfic := _, event := b } := noteNewPending_eq s _
  rw [hb]

/-! ### Priority bytes (61_pfic.md R431) -/

/-- The address of a PFIC_IPRIOR byte lies in the PFIC's window and names its number. -/
theorem ipriorAddr (n : Irq) :
    inCoreWindow (BitVec.ofNat 32 (0xE000E400 + n.val)).toNat = true ∧
      isIprior (BitVec.ofNat 32 (0xE000E400 + n.val)).toNat = true ∧
      ipriorIrq (BitVec.ofNat 32 (0xE000E400 + n.val)).toNat = n := by
  have hn := n.isLt
  have ha : (BitVec.ofNat 32 (0xE000E400 + n.val)).toNat = 0xE000E400 + n.val := by
    rw [BitVec.toNat_ofNat]; omega
  rw [ha]
  refine ⟨?_, ?_, Fin.ext ?_⟩
  · simp only [inCoreWindow, Bool.or_eq_true, Bool.and_eq_true, decide_eq_true_eq]; omega
  · simp only [isIprior, Bool.and_eq_true, decide_eq_true_eq]; omega
  · simp only [ipriorIrq]; omega

theorem isAligned_byte (a : Word) : isAligned .byte a = true := (isAligned_iff .byte a).2 (Nat.mod_one a.toNat)

theorem exec_sb_iprior {s : State} {rs2 rs1 : Reg} {imm : BitVec 12} {n : Irq}
    (hea : s.reg rs1 + imm.signExtend 32 = BitVec.ofNat 32 (0xE000E400 + n.val)) :
    exec (.sb rs2 rs1 imm) s = .next ((s.ipriorStoreByte n ((s.reg rs2).extractLsb' 0 8)).advance ilen4) := by
  obtain ⟨hw, hp, hn⟩ := ipriorAddr n
  show s.store .byte (s.reg rs2) (s.reg rs1 + imm.signExtend 32) ilen4 = _
  rw [hea]
  unfold store busWrite windowStore
  rw [if_pos (isAligned_byte _), if_pos hw, if_pos hp]
  simp only [ipriorStore, storedBytes, List.foldl_cons, List.foldl_nil, hn]

theorem exec_lbu_iprior {s : State} {rd rs1 : Reg} {imm : BitVec 12} {n : Irq}
    (hea : s.reg rs1 + imm.signExtend 32 = BitVec.ofNat 32 (0xE000E400 + n.val)) :
    exec (.lbu rd rs1 imm) s = .next (s.finishReg rd ((s.ipriorByte n).setWidth 32) ilen4) := by
  obtain ⟨hw, hp, hn⟩ := ipriorAddr n
  show s.load .byte .unsigned rd (s.reg rs1 + imm.signExtend 32) ilen4 = _
  rw [hea]
  unfold load busRead windowLoad
  rw [if_pos (isAligned_byte _), if_pos hw, if_pos hp]
  simp only [ipriorLoad, hn, extendLoad_unsigned]

theorem ipriorByte_congr {s t : State} (hp : t.pfic = s.pfic) (hc : t.cfg = s.cfg) (n : Irq) :
    t.ipriorByte n = s.ipriorByte n := by
  unfold ipriorByte
  rw [hp, hc]

/-- The priority byte of a programmable number with state takes bits [7:6] of what is stored. -/
theorem ipriorByte_ipriorStoreByte_same {s : State} {n : Irq} (h2 : n.val ≠ 2) (h3 : n.val ≠ 3)
    (hv : (irqValid s.cfg).getLsbD n.val = true) (v : Byte) : (s.ipriorStoreByte n v).ipriorByte n = v &&& 0xC0#8 := by
  have hn : ¬ (n = 2 ∨ n = 3) := by
    rintro (rfl | rfl)
    · exact h2 rfl
    · exact h3 rfl
  unfold ipriorStoreByte
  rw [if_neg hn, if_pos hv]
  unfold ipriorByte
  rw [if_pos hv, Vector.getElem_set_self]

/-- A byte stored for one number leaves the priority bytes of the others, whether or not it has state. -/
theorem ipriorByte_ipriorStoreByte_other (s : State) {n m : Irq} (h : m ≠ n) (v : Byte) :
    (s.ipriorStoreByte n v).ipriorByte m = s.ipriorByte m := by
  have hne : n.val ≠ m.val := fun hv => h (Fin.ext hv.symm)
  unfold ipriorStoreByte
  split
  · unfold ipriorByte
    rw [Vector.getElem_set_ne _ _ hne]
  · split
    · unfold ipriorByte
      rw [Vector.getElem_set_ne _ _ hne]
    · rfl

/-- SB to the priority byte of a programmable number with state changes that byte, and no register but the pc. -/
theorem sb_iprior {s : State} {rs2 rs1 : Reg} {imm : BitVec 12} {n : Irq} (h2 : n.val ≠ 2) (h3 : n.val ≠ 3)
    (hv : (irqValid s.cfg).getLsbD n.val = true)
    (hea : s.reg rs1 + imm.signExtend 32 = BitVec.ofNat 32 (0xE000E400 + n.val)) :
    ∃ t, exec (.sb rs2 rs1 imm) s = .next t ∧ t.regs = s.regs ∧ t.pc = s.pc + ilen4 ∧
      t.ipriorByte n = (s.reg rs2).extractLsb' 0 8 &&& 0xC0#8 ∧ ∀ m, m ≠ n → t.ipriorByte m = s.ipriorByte m := by
  have hcore := s.core_ipriorStoreByte n ((s.reg rs2).extractLsb' 0 8)
  exact ⟨_, exec_sb_iprior hea, (congrArg State.regs hcore :), (congrArg (fun u : State => u.pc + ilen4) hcore :),
    ipriorByte_ipriorStoreByte_same h2 h3 hv _, fun m hm => s.ipriorByte_ipriorStoreByte_other hm _⟩

/-- Masking a byte and then extending it is masking the word. -/
theorem setWidth_extract_and (v : Word) : ((v.extractLsb' 0 8 &&& 0xC0#8).setWidth 32 : Word) = v &&& 0xC0#32 := by
  apply BitVec.eq_of_getLsbD_eq
  intro i hi
  interval_cases i <;> simp

/-! ### Registers that read back -/

/-- A load of a device register does not look at the pc. -/
theorem devLoad_advance (s : State) (r : DevReg) (il : Word) :
    (s.advance il).devLoad r = ((s.devLoad r).1, (s.devLoad r).2.advance il) := by
  cases r
  case iactr x =>
    have he : (s.advance il).excActive = s.excActive := rfl
    simp only [devLoad, he]
    split <;> rfl
  all_goals rfl

end State

/-- A word store to the register leaves the bits of `mask` in it, and the registers, the pc and memory as they are. -/
def ReadsBack (r : DevReg) (mask : Word) : Prop :=
  ∀ (s : State) (v : Word), ∃ t, s.devStore r v = .done t ∧ t.devLoad r = (v &&& mask, t) ∧
    t.regs = s.regs ∧ t.pc = s.pc ∧ t.mem = s.mem

/-- A register all of whose bits are implemented. -/
theorem readsBack_all {r : DevReg} (h : ∀ (s : State) (v : Word), ∃ t, s.devStore r v = .done t ∧
    t.devLoad r = (v, t) ∧ t.regs = s.regs ∧ t.pc = s.pc ∧ t.mem = s.mem) : ReadsBack r 0xFFFFFFFF#32 := by
  intro s v
  rw [show v &&& 0xFFFFFFFF#32 = v from BitVec.and_allOnes]
  exact h s v

theorem readsBack_ithresdr : ReadsBack .ithresdr 0xC0#32 := fun _ _ => ⟨_, rfl, rfl, rfl, rfl, rfl⟩
theorem readsBack_vtfidr : ReadsBack .vtfidr 0xFFFF#32 := fun _ _ => ⟨_, rfl, rfl, rfl, rfl, rfl⟩
theorem readsBack_sctlr : ReadsBack .sctlr 0x1E#32 := fun _ _ => ⟨_, rfl, rfl, rfl, rfl, rfl⟩

/-- Starting the software interrupt can set the event latch besides (62_systick.md R489, 63_low_power.md R506). -/
theorem readsBack_stkCtlr : ReadsBack .stkCtlr 0x8000000F#32 := by
  intro s v
  obtain ⟨b, hb⟩ := State.noteNewPending_eq s { s with stk := { s.stk with ctlr := v &&& 0x8000000F#32 } }
  exact ⟨_, congrArg BusAnswer.done hb, rfl, rfl, rfl, rfl⟩

theorem readsBack_vtfaddr0 : ReadsBack .vtfaddr0 0xFFFFFFFF#32 :=
  readsBack_all fun _ _ => ⟨_, rfl, rfl, rfl, rfl, rfl⟩
theorem readsBack_vtfaddr1 : ReadsBack .vtfaddr1 0xFFFFFFFF#32 :=
  readsBack_all fun _ _ => ⟨_, rfl, rfl, rfl, rfl, rfl⟩
theorem readsBack_stkCntr : ReadsBack .stkCntr 0xFFFFFFFF#32 :=
  readsBack_all fun _ _ => ⟨_, rfl, rfl, rfl, rfl, rfl⟩
theorem readsBack_stkCmpr : ReadsBack .stkCmpr 0xFFFFFFFF#32 :=
  readsBack_all fun _ _ => ⟨_, rfl, rfl, rfl, rfl, rfl⟩
theorem readsBack_data0 : ReadsBack .data0 0xFFFFFFFF#32 :=
  readsBack_all fun _ _ => ⟨_, rfl, rfl, rfl, rfl, rfl⟩
theorem readsBack_data1 : ReadsBack .data1 0xFFFFFFFF#32 :=
  readsBack_all fun _ _ => ⟨_, rfl, rfl, rfl, rfl, rfl⟩

/-- SW and then LW at the address of a register that reads back. -/
theorem ReadsBack.sw_then_lw {r : DevReg} {mask a : Word} (hr : ReadsBack r mask) (ha : DeviceAt a r) {s : State}
    {rs2 rs1 rd : Reg} {imm : BitVec 12} (hea : s.reg rs1 + imm.signExtend 32 = a) :
    ∃ t, exec (.sw rs2 rs1 imm) s = .next t ∧ t.regs = s.regs ∧ t.mem = s.mem ∧
      ∃ u, exec (.lw rd rs1 imm) t = .next u ∧ Wrote t u rd (s.reg rs2 &&& mask) (s.pc + 8#32) := by
  obtain ⟨t, hd, hl, hregs, hpc, hmem⟩ := hr s (s.reg rs2)
  have hload := ha.exec_lw (s := t.advance ilen4) (rd := rd) (State.reg_congr t s hregs rs1 ▸ hea)
  rw [State.devLoad_advance, hl] at hload
  have hpc' : t.pc + ilen4 + ilen4 = s.pc + 8#32 := by
    rw [hpc, BitVec.add_assoc]; rfl
  exact ⟨_, ha.exec_sw_done hea hd, hregs, hmem, _, hload, hpc' ▸ wrote_finishReg _ rd _ ilen4⟩

/-! ### The obligations -/

/-- Settles O58: every change keeps the shapes, and a step is a sequence of changes. -/
theorem stepKeepsDeviceShapes : Obligations.StepKeepsDeviceShapes :=
  fun s t hs h => (changes_step s t h).keep (fun _ _ => State.DevicesShaped.change) hs

/-- Settles O38: the two stores bit by bit; numbers without state and NMI and EXC are masked out of what is named. -/
theorem enableRegistersSetAndClear : Obligations.EnableRegistersSetAndClear := by
  intro s rs2 rs1 imm x ea names
  refine ⟨fun hea => ?set, fun hea => ?clear⟩
  case set =>
    refine ⟨_, (deviceAt_ienr x).exec_sw_done hea rfl, rfl, fun _ => rfl, fun n => ⟨?_, getLsbD_or_named _ _ _ _ n⟩⟩
    exact (congrArg (·.getLsbD n.val) (s.enabled_storeIenr x (s.reg rs2))).trans (getLsbD_or_named _ _ _ _ n)
  case clear =>
    refine ⟨_, (deviceAt_irer x).exec_sw_done hea rfl, rfl, fun _ => rfl, fun n => ?_⟩
    exact (congrArg (·.getLsbD n.val) (s.enabled_storeIrer x (s.reg rs2))).trans (getLsbD_and_not_named_fixed _ _ _ n)

/-- Settles O39: the two stores bit by bit, and the one bit of IPSR0 that is asked before a store is performed. -/
theorem pendingRegistersSetAndClear : Obligations.PendingRegistersSetAndClear := by
  intro s rs2 rs1 imm x ea names
  refine ⟨fun hea h3 => ?set, fun hea h3 => ?refused, fun hea => ?clear⟩
  case set =>
    have hx : ¬ (x = 0 ∧ (s.reg rs2).getLsbD 3 = true) := by
      rintro ⟨rfl, hbit⟩
      exact Bool.false_ne_true ((h3 rfl).symm.trans hbit)
    have hframe := s.storeIpsr_frame x (s.reg rs2)
    refine ⟨_, (deviceAt_ipsr x).exec_sw_done hea (if_neg hx), congrArg (·.advance ilen4) hframe, fun a => ?_,
      fun n => ?_⟩
    · exact (congrArg (·.byteAt a) hframe).trans rfl
    · exact (congrArg (·.getLsbD n.val) (s.pending_storeIpsr x (s.reg rs2))).trans (getLsbD_or_named _ _ _ _ n)
  case refused => exact (deviceAt_ipsr 0).exec_sw_refused hea (if_pos ⟨rfl, h3⟩)
  case clear =>
    refine ⟨_, (deviceAt_iprr x).exec_sw_done hea rfl, rfl, fun _ => rfl, fun n => ?_⟩
    refine (congrArg (·.getLsbD n.val) (s.pending_storeIprr x (s.reg rs2))).trans ?_
    rw [BitVec.getLsbD_and, BitVec.getLsbD_or, getLsbD_and_not_named]

/-- Settles O40: the store sets one byte of the priorities and no register, and the load reads it. -/
theorem priorityBytesReadBack : Obligations.PriorityBytesReadBack := by
  intro s rs2 rs1 rd imm n h2 h3 hv hea
  obtain ⟨t, hstore, hregs, hpc, hsame, hothers⟩ := State.sb_iprior (rs2 := rs2) h2 h3 hv hea
  have hload := State.exec_lbu_iprior (rd := rd) (State.reg_congr t s hregs rs1 ▸ hea)
  rw [hsame, State.setWidth_extract_and] at hload
  have hpc' : t.pc + ilen4 = s.pc + 8#32 := by
    rw [hpc, BitVec.add_assoc]; rfl
  exact ⟨t, hstore, hregs, _, hload, hpc' ▸ wrote_finishReg t rd _ ilen4,
    fun m hm => (State.ipriorByte_congr (State.finishReg_pfic ..) (State.finishReg_cfg ..) m).trans (hothers m hm)⟩

/-- Settles O41: each address is that of one register, which reads back under its mask. -/
theorem deviceRegistersReadBack : Obligations.DeviceRegistersReadBack := by
  intro s rs2 rs1 rd imm a mask hmem hea
  simp only [List.mem_cons, Prod.mk.injEq, List.not_mem_nil, or_false] at hmem
  rcases hmem with ⟨rfl, rfl⟩ | ⟨rfl, rfl⟩ | ⟨rfl, rfl⟩ | ⟨rfl, rfl⟩ | ⟨rfl, rfl⟩ | ⟨rfl, rfl⟩ | ⟨rfl, rfl⟩ |
    ⟨rfl, rfl⟩ | ⟨rfl, rfl⟩ | ⟨rfl, rfl⟩
  · exact readsBack_ithresdr.sw_then_lw (deviceAt_of (by decide)) hea
  · exact readsBack_vtfidr.sw_then_lw (deviceAt_of (by decide)) hea
  · exact readsBack_vtfaddr0.sw_then_lw (deviceAt_of (by decide)) hea
  · exact readsBack_vtfaddr1.sw_then_lw (deviceAt_of (by decide)) hea
  · exact readsBack_sctlr.sw_then_lw (deviceAt_of (by decide)) hea
  · exact readsBack_stkCtlr.sw_then_lw (deviceAt_of (by decide)) hea
  · exact readsBack_stkCntr.sw_then_lw (deviceAt_of (by decide)) hea
  · exact readsBack_stkCmpr.sw_then_lw (deviceAt_of (by decide)) hea
  · exact readsBack_data0.sw_then_lw (deviceAt_of (by decide)) hea
  · exact readsBack_data1.sw_then_lw (deviceAt_of (by decide)) hea

/-- Settles O42: the load shows PFIC_GISR, whose fields are told level by level. -/
theorem globalStatusShowsNesting : Obligations.GlobalStatusShowsNesting := by
  intro s rd rs1 imm hs hea
  have hload : exec (.lw rd rs1 imm) s = .next (s.finishReg rd s.gisr ilen4) :=
    DeviceAt.exec_lw (r := .gisr) (deviceAt_of (by decide)) hea
  refine ⟨_, s.gisr, hload, wrote_finishReg s rd s.gisr ilen4, ?_⟩
  have hlevel : s.nest = 0 ∨ s.nest = 1 ∨ s.nest = 2 := by
    unfold State.NestOk at hs
    omega
  unfold State.gisr
  by_cases hp : s.pending = 0#256
  · rcases hlevel with hn | hn | hn <;> simp [hn, hp]
  · rcases hlevel with hn | hn | hn <;> simp [hn, hp]

end Sys2Proof.Machine
end

section
/-!
SUPPORT. The two queues of the step: the program buffer's execution and the access errors that are due (64_debug.md R535,
60_exceptions.md R358), shown change by change.
-/

namespace Sys2Proof.Machine

namespace State

@[simp] theorem csrWrite_dueErrors (s : State) (c : Csr) (v : Word) : (s.csrWrite c v).dueErrors = s.dueErrors := by
  cases c <;> rfl

theorem inDebug_iff (s : State) : s.inDebug = true ↔ s.run = .haltedDebug := decide_eq_true_iff

theorem QueuesOk.congr {s t : State} (hs : s.QueuesOk) (hdm : t.dm = s.dm) (hrun : t.run = s.run)
    (hl : t.inflight = s.inflight) (hd : t.dueErrors = s.dueErrors) : t.QueuesOk where
  busy := by
    rw [hdm, hrun]
    exact hs.busy
  due := by
    rw [hd, hl]
    exact hs.due

/-- The program buffer starts only in Debug mode, and Debug mode is left only while it is idle; errors fall due only where
they are in flight. -/
theorem QueuesOk.change {s t : State} (hs : s.QueuesOk) (h : Change s t) : t.QueuesOk := by
  cases h
  case reg => exact hs.congr (by simp) (by simp) (by simp) (by simp)
  case csr => exact hs.congr (by simp) (by simp) (by simp) (by simp)
  case run r d hr =>
    refine ⟨fun hb => ?_, hs.due⟩
    have hb : s.dm.busy = true := hb
    rcases hr with hrun | hidle | hdebug
    · exact absurd (hs.busy hb) hrun
    · exact absurd (hb.symm.trans hidle) (by decide)
    · exact hdebug
  case errors l n hl => exact ⟨hs.busy, hl hs.due⟩
  case dm d hd => exact ⟨fun hb => hs.busy (hd hb), hs.due⟩
  case progbuf hd => exact ⟨fun _ => s.inDebug_iff.1 hd, hs.due⟩
  case systemReset => exact ⟨fun hb => absurd hb Bool.false_ne_true, Nat.le_refl 0⟩
  case powerReset => exact (atReset_queuesOk s.cfg).congr rfl rfl rfl rfl
  all_goals exact hs.congr rfl rfl rfl rfl

end State

/-- Settles O59: every change keeps both conditions, and a step is a sequence of changes. -/
theorem stepKeepsQueues : Obligations.StepKeepsQueues :=
  fun s t hs h => (changes_step s t h).keep (fun _ _ => State.QueuesOk.change) hs

end Sys2Proof.Machine
end

section
/-!
SUPPORT. SysTick (62_systick.md R482 to R489): one tick and runs of ticks, the flag and its register, and the two interrupts
that it makes pend.
-/

namespace Sys2Proof.Machine

/-! ### The count (R486) -/

namespace SysTick

/-- The ticks from one 0 of the count to the next under auto-reload: the match takes a tick of its own or reloads at once
(notes/assumptions/39.md). -/
def period (t : SysTick) (r : Bool) : Nat := t.cmpr.toNat + r.toNat

@[simp] theorem iterate_ticked_ctlr (t : SysTick) (r : Bool) (k : Nat) : ((ticked · r)^[k] t).ctlr = t.ctlr := by
  induction k with
  | zero => rfl
  | succ k ih => rw [Function.iterate_succ_apply', ← ih]; rfl

@[simp] theorem iterate_ticked_cmpr (t : SysTick) (r : Bool) (k : Nat) : ((ticked · r)^[k] t).cmpr = t.cmpr := by
  induction k with
  | zero => rfl
  | succ k ih => rw [Function.iterate_succ_apply', ← ih]; rfl

/-- Without auto-reload a tick adds 1 and sees the match that it reaches. -/
theorem ticked_free {t : SysTick} (r : Bool) (h : t.ctlr.getLsbD 3 = false) :
    (t.ticked r).cntr = t.cntr + 1#32 ∧ (t.ticked r).cntif = (t.cntif || decide (t.cntr + 1#32 = t.cmpr)) := by
  simp only [ticked, h, Bool.false_and, Bool.and_false, Bool.false_eq_true, if_false, and_self]

/-- Away from the comparison value a tick adds 1, unless that is the match and the match itself reloads. -/
theorem ticked_of_ne {t : SysTick} (r : Bool) (h : t.cntr ≠ t.cmpr) :
    (t.ticked r).cntif = (t.cntif || decide (t.cntr + 1#32 = t.cmpr)) ∧
      (t.ticked r).cntr =
        if t.cntr + 1#32 = t.cmpr ∧ t.ctlr.getLsbD 3 = true ∧ r = false then 0#32 else t.cntr + 1#32 := by
  simp [ticked, h, and_assoc]

/-- After a match that took a tick of its own the count is 0. -/
theorem ticked_of_match {t : SysTick} (hs : t.ctlr.getLsbD 3 = true) (h : t.cntr = t.cmpr) :
    (t.ticked true).cntr = 0#32 := by
  simp [ticked, hs, h]

theorem ofNat_eq_iff_of_le {c : Word} {n : Nat} (h : n ≤ c.toNat) : BitVec.ofNat 32 n = c ↔ n = c.toNat := by
  have hc := c.isLt
  rw [← BitVec.toNat_inj, BitVec.toNat_ofNat, Nat.mod_eq_of_lt (by omega)]

/-- From 0 the count is the number of ticks until the period ends. -/
theorem iterate_ticked_cntr {t : SysTick} {r : Bool} (h0 : t.cntr = 0#32) {k : Nat} (hk : k < t.period r) :
    ((ticked · r)^[k] t).cntr = BitVec.ofNat 32 k := by
  induction k with
  | zero => exact h0
  | succ k ih =>
    have hr : r.toNat ≤ 1 := r.toNat_le
    unfold period at hk ih
    have hcount := ih (by omega)
    have hne : ((ticked · r)^[k] t).cntr ≠ ((ticked · r)^[k] t).cmpr := by
      rw [hcount, iterate_ticked_cmpr, Ne, ofNat_eq_iff_of_le (by omega)]
      omega
    have hnext : BitVec.ofNat 32 k + 1#32 = BitVec.ofNat 32 (k + 1) := (BitVec.ofNat_add k 1).symm
    rw [Function.iterate_succ_apply', (ticked_of_ne r hne).2, hcount, hnext, if_neg]
    rintro ⟨hmatch, -, rfl⟩
    rw [Bool.toNat_false] at hk
    rw [iterate_ticked_cmpr, ofNat_eq_iff_of_le (by omega)] at hmatch
    omega

/-- One tick before the comparison value the count is that value less 1, and the tick reaches it. -/
theorem iterate_ticked_before_match {t : SysTick} {r : Bool} (h0 : t.cntr = 0#32) (hc : t.cmpr ≠ 0#32) :
    ∃ u : SysTick, (ticked · r)^[t.cmpr.toNat] t = u.ticked r ∧ u.ctlr = t.ctlr ∧ u.cntr ≠ u.cmpr ∧
      u.cntr + 1#32 = u.cmpr := by
  obtain ⟨m, hm⟩ : ∃ m, t.cmpr.toNat = m + 1 :=
    Nat.exists_eq_succ_of_ne_zero fun h => hc (BitVec.eq_of_toNat_eq h)
  have hcount : ((ticked · r)^[m] t).cntr = BitVec.ofNat 32 m :=
    iterate_ticked_cntr h0 (by unfold period; omega)
  refine ⟨(ticked · r)^[m] t, ?_, iterate_ticked_ctlr t r m, ?_, ?_⟩
  · rw [hm, Function.iterate_succ_apply']
  · rw [hcount, iterate_ticked_cmpr, Ne, ofNat_eq_iff_of_le (by omega)]
    omega
  · rw [hcount, iterate_ticked_cmpr, ← BitVec.ofNat_add, ofNat_eq_iff_of_le (by omega)]
    omega

/-- The tick that reaches the comparison value sets CNTIF. -/
theorem iterate_ticked_cntif {t : SysTick} {r : Bool} (h0 : t.cntr = 0#32) (hc : t.cmpr ≠ 0#32) :
    ((ticked · r)^[t.cmpr.toNat] t).cntif = true := by
  obtain ⟨u, hu, -, hne, hmatch⟩ := iterate_ticked_before_match (r := r) h0 hc
  rw [hu, (ticked_of_ne r hne).1, decide_eq_true hmatch, Bool.or_true]

/-- With auto-reload the count is 0 again at the end of the period. -/
theorem iterate_ticked_period {t : SysTick} {r : Bool} (hs : t.ctlr.getLsbD 3 = true) (h0 : t.cntr = 0#32)
    (hc : t.cmpr ≠ 0#32) : ((ticked · r)^[t.period r] t).cntr = 0#32 := by
  cases r with
  | false =>
    obtain ⟨u, hu, hctlr, hne, hmatch⟩ := iterate_ticked_before_match (r := false) h0 hc
    show ((ticked · false)^[t.cmpr.toNat] t).cntr = 0#32
    rw [hu, (ticked_of_ne false hne).2, if_pos ⟨hmatch, hctlr ▸ hs, rfl⟩]
  | true =>
    have hcount : ((ticked · true)^[t.cmpr.toNat] t).cntr = t.cmpr := by
      rw [iterate_ticked_cntr h0 (Nat.lt_succ_self _), BitVec.ofNat_toNat, BitVec.setWidth_eq]
    show ((ticked · true)^[t.cmpr.toNat + 1] t).cntr = 0#32
    rw [Function.iterate_succ_apply']
    exact ticked_of_match (by rw [iterate_ticked_ctlr, hs]) (by rw [hcount, iterate_ticked_cmpr])

end SysTick

/-! ### A tick of the machine (R486, 64_debug.md R543) -/

namespace State

/-- STE is 1 and the hart is not halted with `dcsr.stoptime` set. -/
def Counting (s : State) : Prop := s.stk.ctlr.getLsbD 0 = true ∧ ¬ (s.inDebug = true ∧ s.dcsr.getLsbD 9 = true)

theorem counting_iff (s : State) : (s.ste && !(s.inDebug && s.stoptime)) = true ↔ s.Counting := by
  unfold Counting ste stoptime
  rw [Bool.and_eq_true, Bool.not_eq_true', ← Bool.not_eq_true, Bool.and_eq_true]

theorem tick_of_not_counting {s : State} (h : ¬ s.Counting) : s.tick = s := if_neg (mt s.counting_iff.1 h)

theorem tick_of_counting {s : State} (h : s.Counting) :
    s.tick = noteNewPending s { s with stk := s.stk.ticked s.cfg.stkReloadAfterMatch } :=
  if_pos (s.counting_iff.2 h)

/-- A tick changes the registers of SysTick and the event latch alone. -/
theorem tick_eq {s : State} (h : s.Counting) :
    ∃ b, s.tick = { s with stk := s.stk.ticked s.cfg.stkReloadAfterMatch, event := b } := by
  rw [tick_of_counting h]
  exact noteNewPending_eq s _

/-- Without SEVONPEND what begins to pend is no event (63_low_power.md R506). -/
theorem noteNewPending_of_not_sevOnPend (old : State) {s : State} (h : s.sevOnPend = false) :
    noteNewPending old s = s := by
  unfold noteNewPending
  rw [h, Bool.false_and]
  rfl

theorem tick_of_not_sevOnPend {s : State} (h : s.Counting) (hsev : s.sevOnPend = false) :
    s.tick = { s with stk := s.stk.ticked s.cfg.stkReloadAfterMatch } :=
  (tick_of_counting h).trans
    (noteNewPending_of_not_sevOnPend s (s := { s with stk := s.stk.ticked s.cfg.stkReloadAfterMatch }) hsev)

/-- Ticks leave everything but SysTick and the event latch, so each of them counts if the first does. -/
theorem iterate_tick_eq {s : State} (h : s.Counting) (k : Nat) :
    ∃ b, tick^[k] s = { s with stk := (SysTick.ticked · s.cfg.stkReloadAfterMatch)^[k] s.stk, event := b } := by
  induction k with
  | zero => exact ⟨s.event, rfl⟩
  | succ k ih =>
    obtain ⟨b, hb⟩ := ih
    have hk : (tick^[k] s).Counting := by
      rw [hb]
      unfold Counting
      rw [SysTick.iterate_ticked_ctlr]
      exact h
    obtain ⟨c, hc⟩ := tick_eq hk
    refine ⟨c, ?_⟩
    rw [Function.iterate_succ_apply', Function.iterate_succ_apply', hc, hb]

theorem iterate_tick_stk {s : State} (h : s.Counting) (k : Nat) :
    (tick^[k] s).stk = (SysTick.ticked · s.cfg.stkReloadAfterMatch)^[k] s.stk := by
  obtain ⟨b, hb⟩ := iterate_tick_eq h k
  rw [hb]

/-- Under auto-reload ticks from 0 count up to the end of the period, where the count is 0 again, and set CNTIF at the
comparison value. -/
theorem iterate_tick_period {s : State} (h : s.Counting) (hs : s.stk.ctlr.getLsbD 3 = true) (h0 : s.stk.cntr = 0#32)
    (hc : s.stk.cmpr ≠ 0#32) :
    (∀ k, k < s.stk.period s.cfg.stkReloadAfterMatch → (tick^[k] s).stk.cntr = BitVec.ofNat 32 k) ∧
      (tick^[s.stk.period s.cfg.stkReloadAfterMatch] s).stk.cntr = 0#32 ∧
      (tick^[s.stk.cmpr.toNat] s).stk.cntif = true := by
  simp only [iterate_tick_stk h]
  exact ⟨fun _ => SysTick.iterate_ticked_cntr h0, SysTick.iterate_ticked_period hs h0 hc,
    SysTick.iterate_ticked_cntif h0 hc⟩

/-! ### What pends (R487, R489, 61_pfic.md R438) -/

/-- SysTick and the software interrupt have state in every configuration and no line of the platform. -/
theorem coreIrqs_getLsbD (c : Config) :
    ((irqValid c).getLsbD 12 = true ∧ (platformLines c).getLsbD 12 = false) ∧
      (irqValid c).getLsbD 14 = true ∧ (platformLines c).getLsbD 14 = false := by
  simp [platformLines, irqValid]

theorem getLsbD_line (b : Bool) (v : BitVec 256) (n : Nat) :
    (if b then v else 0#256).getLsbD n = (b && v.getLsbD n) := by
  cases b
  · exact BitVec.getLsbD_zero
  · rfl

/-- What pends, number by number. -/
theorem pending_getLsbD (s : State) (n : Nat) :
    s.pending.getLsbD n =
      ((s.pfic.pendLatch.getLsbD n || (s.pfic.request.getLsbD n && (platformLines s.cfg).getLsbD n ||
        (s.stk.cntif && s.stie && (0x1000#256).getLsbD n) || (s.swie && (0x4000#256).getLsbD n))) &&
        (irqValid s.cfg).getLsbD n) := by
  simp only [pending, requestLines, BitVec.getLsbD_and, BitVec.getLsbD_or, getLsbD_line]

theorem pending_systick (s : State) :
    s.pending.getLsbD 12 = (s.pfic.pendLatch.getLsbD 12 || (s.stk.cntif && s.stk.ctlr.getLsbD 1)) := by
  obtain ⟨⟨hvalid, hline⟩, -⟩ := coreIrqs_getLsbD s.cfg
  rw [pending_getLsbD, hvalid, hline]
  simp [stie]

theorem pending_software (s : State) :
    s.pending.getLsbD 14 = (s.pfic.pendLatch.getLsbD 14 || s.stk.ctlr.getLsbD 31) := by
  obtain ⟨-, hvalid, hline⟩ := coreIrqs_getLsbD s.cfg
  rw [pending_getLsbD, hvalid, hline]
  simp [swie]

/-- A store to STK_CTLR takes bit 31, and leaves the latches (R482). -/
theorem pending_software_storeStkCtlr (s : State) (v : Word) :
    (s.storeStkCtlr v).pending.getLsbD 14 = (s.pfic.pendLatch.getLsbD 14 || v.getLsbD 31) := by
  unfold storeStkCtlr
  rw [pending_noteNewPending, pending_software]
  simp

end State

/-! ### The obligations -/

/-- Settles O45: a tick of the machine is one of the SysTick registers, and from 0 these run through their period. -/
theorem sysTickPeriod : Obligations.SysTickPeriod := by
  intro s counts reloads after
  refine ⟨State.tick_of_not_counting, fun hcounts => ?frame, fun hcounts hfree => ?free, fun hcounts hreloads hr => ?held,
    fun hcounts hreloads hr => ?direct⟩
  case frame =>
    obtain ⟨b, hb⟩ := State.tick_eq hcounts
    refine ⟨?_, fun hsev => ?_, fun a => ?_⟩
    · rw [hb]
      rfl
    · rw [State.tick_of_not_sevOnPend hcounts hsev]
    · rw [hb]
      rfl
  case free =>
    obtain ⟨b, hb⟩ := State.tick_eq hcounts
    rw [hb]
    exact SysTick.ticked_free _ hfree
  case held =>
    obtain ⟨hstre, h0, hc⟩ := hreloads
    have hperiod := State.iterate_tick_period hcounts hstre h0 hc
    rw [hr] at hperiod
    obtain ⟨hcount, hend, hflag⟩ := hperiod
    exact ⟨fun k hk => hcount k (Nat.lt_succ_of_le hk), hend, hflag⟩
  case direct =>
    obtain ⟨hstre, h0, hc⟩ := hreloads
    have hperiod := State.iterate_tick_period hcounts hstre h0 hc
    rw [hr] at hperiod
    exact hperiod

/-- Settles O43: the store and the load reach STK_SR, whose store masks CNTIF with bit 0. -/
theorem timerFlagClearsOnZero : Obligations.TimerFlagClearsOnZero := by
  intro s rs2 rs1 rd imm hea
  have hat : DeviceAt 0xE000F004#32 .stkSr := deviceAt_of (by decide)
  exact ⟨⟨_, hat.exec_sw_done hea rfl, rfl, rfl, fun _ => rfl⟩, ⟨_, hat.exec_lw hea, wrote_finishReg s rd _ ilen4⟩⟩

/-- Settles O44: the lines by the bits of what pends, and a store to STK_CTLR by the bit it takes. -/
theorem timerLinesPend : Obligations.TimerLinesPend := by
  intro s
  refine ⟨s.pending_systick, s.pending_software, fun rs2 rs1 imm hea => ?_⟩
  have hat : DeviceAt 0xE000F000#32 .stkCtlr := deviceAt_of (by decide)
  exact ⟨_, hat.exec_sw_done hea rfl, s.pending_software_storeStkCtlr (s.reg rs2)⟩

end Sys2Proof.Machine
end

section
/-!
SUPPORT. Sleeping and waking (63_low_power.md R500 to R510), and the boundaries at which no input arrives: one with a reset
requested (70_reset_and_hazards.md R561) and one with a halt request (64_debug.md R540, R546).
-/

namespace Sys2Proof.Machine

namespace State

/-! ### Going to sleep (R500, R507, R508) -/

theorem waitForInterrupt_wfi {s : State} (hd : s.inDebug = false) (hw : s.wfiToWfe = false) :
    s.waitForInterrupt = { s with run := .sleepingWfi, deepSleep := s.sleepDeep } := by
  simp [waitForInterrupt, hd, hw]

theorem waitForInterrupt_consumes {s : State} (hd : s.inDebug = false) (hw : s.wfiToWfe = true)
    (he : s.event = true) : s.waitForInterrupt = { s with event := false } := by
  simp [waitForInterrupt, hd, hw, he]

theorem waitForInterrupt_wfe {s : State} (hd : s.inDebug = false) (hw : s.wfiToWfe = true) (he : s.event = false) :
    s.waitForInterrupt = { s with run := .sleepingWfe, deepSleep := s.sleepDeep } := by
  simp [waitForInterrupt, hd, hw, he]

/-- A WFI changes whether and how the hart sleeps and the event latch alone. -/
theorem waitForInterrupt_eq (s : State) :
    s.waitForInterrupt =
      { s with
        run := s.waitForInterrupt.run
        deepSleep := s.waitForInterrupt.deepSleep
        event := s.waitForInterrupt.event } := by
  unfold waitForInterrupt
  split
  · rfl
  · split
    · split <;> rfl
    · rfl

/-- With no failed access in flight a WFI goes on and waits. -/
theorem exec_wfi {s : State} (hl : s.inflight = []) :
    exec .wfi s = .next (s.advance ilen4).waitForInterrupt := by
  obtain ⟨-, -, hinflight, -⟩ := (s.advance ilen4).waitForInterrupt_frame
  exact settleErrors_none _ (hinflight.trans hl)

/-! ### Waking (R503, R509, R510) -/

/-- An interrupt held back wakes the hart or does not. -/
theorem stayAsleep_eq (s : State) :
    ∃ n, s.stayAsleep = { s with freeCtr := n } ∨ s.stayAsleep = ({ s with freeCtr := n } : State).wake := by
  unfold stayAsleep
  split
  · split
    · exact ⟨s.freeCtr + 1, .inr rfl⟩
    · exact ⟨s.freeCtr + 1, .inl rfl⟩
  · exact ⟨s.freeCtr, .inl rfl⟩

theorem stayAsleep_quiet {s : State} (h : s.maskedPending = false) : s.stayAsleep = s := by
  unfold stayAsleep
  rw [h]
  rfl

/-- A sleep that no event ends goes on, but for an interrupt held back. -/
theorem runOrSleep_asleep {s : State} (h : s.run = .sleepingWfi ∨ s.run = .sleepingWfe ∧ s.event = false) :
    s.runOrSleep = .next s.stayAsleep := by
  unfold runOrSleep
  rcases h with hrun | ⟨hrun, he⟩
  · rw [hrun]
  · rw [hrun, he]
    rfl

theorem runOrSleep_quiet {s : State} (h : s.run = .sleepingWfi ∨ s.run = .sleepingWfe ∧ s.event = false)
    (hq : s.maskedPending = false) : s.runOrSleep = .next s := by
  rw [runOrSleep_asleep h, stayAsleep_quiet hq]

/-- An event ends a WFE sleep and is consumed. -/
theorem runOrSleep_event {s : State} (hrun : s.run = .sleepingWfe) (he : s.event = true) :
    s.runOrSleep = .next ({ s with event := false } : State).wake := by
  unfold runOrSleep
  rw [hrun, he]
  rfl

theorem notDebug_of_asleep {s : State} (h : s.run = .sleepingWfi ∨ s.run = .sleepingWfe) : s.inDebug = false := by
  rcases h with hrun | hrun <;> simp [inDebug, hrun]

theorem stayAsleep_notDebug {s : State} (hd : s.inDebug = false) : s.stayAsleep.inDebug = false := by
  obtain ⟨n, h | h⟩ := s.stayAsleep_eq
  · rw [h]
    exact hd
  · rw [h]
    rfl

/-- A sleeping hart that takes no trap sleeps on or runs. -/
theorem runOrSleep_notDebug {s t : State} (hs : s.run = .sleepingWfi ∨ s.run = .sleepingWfe)
    (h : s.runOrSleep = .next t) : t.inDebug = false := by
  by_cases hw : s.run = .sleepingWfe ∧ s.event = true
  · obtain ⟨hrun, he⟩ := hw
    rw [runOrSleep_event hrun he] at h
    cases h
    rfl
  · have hasleep : s.run = .sleepingWfi ∨ s.run = .sleepingWfe ∧ s.event = false :=
      hs.imp_right fun hrun => ⟨hrun, by simpa [hrun] using hw⟩
    rw [runOrSleep_asleep hasleep] at h
    cases h
    exact stayAsleep_notDebug (notDebug_of_asleep hs)

/-! ### A trap at the boundary leaves the hart running (60_exceptions.md R361) -/

@[simp] theorem freeHpeRegs_run (s : State) : s.freeHpeRegs.run = s.run := by
  unfold freeHpeRegs
  generalize hpeFrame = l
  induction l generalizing s with
  | nil => rfl
  | cons e rest ih =>
    rw [List.foldl_cons, ih]
    simp

theorem enterTrap_run {s t : State} {k : TrapId} {cause epc : Word} (h : s.enterTrap k cause epc = .next t) :
    t.run = .running := by
  obtain ⟨-, -, -, -, -, -, -, -, -, -, hrun, -⟩ := s.enterTrap_fields t k cause epc h
  exact hrun

theorem takeInterrupt_run {s t : State} {tail : Bool} {n : Irq} (h : s.takeInterrupt tail n = .next t) :
    t.run = .running := by
  obtain ⟨u, hu, ht⟩ := andThen_next h
  cases ht
  split
  · rw [freeHpeRegs_run, enterTrap_run hu]
  · exact enterTrap_run hu

theorem takeAccessError_run {s t : State} (hl : s.inflight.isEmpty = false) (hd : s.inDebug = false)
    (h : s.takeAccessError = .next t) : t.run = .running := by
  unfold takeAccessError at h
  split at h
  · next hnil => simp [hnil] at hl
  · rw [if_neg (by simp [hd])] at h
    exact enterTrap_run h

theorem boundaryTrap_run {s t : State} {tail : Bool} (hd : s.inDebug = false)
    (h : s.boundaryTrap tail = some (.next t)) : t.run = .running := by
  unfold boundaryTrap at h
  split at h
  · exact takeInterrupt_run (Option.some.inj h)
  · split at h
    · next hdue =>
      obtain ⟨-, hl⟩ := (Bool.and_eq_true _ _).mp hdue
      exact takeAccessError_run (by simpa using hl) hd (Option.some.inj h)
    · split at h
      · cases h
      · obtain ⟨n, -, hn⟩ := Option.map_eq_some_iff.1 h
        exact takeInterrupt_run hn

/-! ### Boundaries at which no input arrives (notes/assumptions/32.md) -/

theorem step_noInput {s : State} (h : s.schedule = []) : step s = s.boundary := by
  have hinputs : s.applyInputs = .next s := by
    unfold applyInputs
    rw [h]
  show andThen s.applyInputs boundary = s.boundary
  rw [hinputs, andThen_of_next]

/-- A requested reset is the whole boundary (R561). -/
theorem boundary_reset {s : State} (hr : s.resetReq = true) (hh : s.haltOnReset = false) :
    s.boundary = .next s.systemReset := by
  have hentry : s.systemReset.resetEntry = s.systemReset := if_neg (by simp [systemReset, hh])
  unfold boundary
  rw [if_pos hr, hentry]

/-- With no reset and outside Debug mode the boundary is the hart's. -/
theorem boundary_hart {s : State} (hr : s.resetReq = false) (hn : s.dm.ndmreset = false) (hd : s.inDebug = false) :
    s.boundary = ({ s with tailPop := false } : State).hartBoundary s.tailPop := by
  unfold boundary
  rw [if_neg (by simp [hr]), if_neg (by simp [hn]), if_neg (by simp [hd])]

theorem hartBoundary_halts {s : State} (tail : Bool) (hh : s.dm.haltreq = true) (hs : s.deepSleep = false) :
    s.hartBoundary tail = .next (s.enterDebug 3#3 s.pc) := by
  unfold hartBoundary
  rw [if_pos (by simp [hh, hs])]

/-- In deep sleep a halt request is not looked at (63_low_power.md R504; notes/assumptions/38.md). -/
theorem hartBoundary_deepSleep {s : State} (tail : Bool) (hs : s.deepSleep = true) :
    s.hartBoundary tail =
      if s.eabien then .fault .eabiEnabled else (s.boundaryTrap tail).getD s.runOrSleep := by
  unfold hartBoundary
  rw [if_neg (by simp [hs])]
  cases s.boundaryTrap tail <;> rfl

theorem hartBoundary_deepSleep_quiet {s : State} {tail : Bool} (hs : s.deepSleep = true) (he : s.eabien = false)
    (hnone : s.boundaryTrap tail = none) (hr : s.run = .sleepingWfi ∨ s.run = .sleepingWfe ∧ s.event = false)
    (hq : s.maskedPending = false) : s.hartBoundary tail = .next s := by
  rw [hartBoundary_deepSleep tail hs, if_neg (by simp [he]), hnone, Option.getD_none, runOrSleep_quiet hr hq]

/-- No trap and no wake-up halts the hart. -/
theorem hartBoundary_deepSleep_notDebug {s t : State} {tail : Bool} (hs : s.deepSleep = true)
    (hr : s.run = .sleepingWfi ∨ s.run = .sleepingWfe) (h : s.hartBoundary tail = .next t) : t.inDebug = false := by
  rw [hartBoundary_deepSleep tail hs] at h
  split at h
  · cases h
  · cases htrap : s.boundaryTrap tail with
    | none =>
      rw [htrap] at h
      exact runOrSleep_notDebug hr h
    | some r =>
      rw [htrap] at h
      have hrun : t.run = .running := boundaryTrap_run (notDebug_of_asleep hr) (htrap.trans (congrArg some h))
      simp [inDebug, hrun]

end State

/-! ### Requesting a reset (61_pfic.md R433, R437) -/

/-- A store to PFIC_CFGR only ever requests a reset, with KEY3 and bit 7. -/
theorem State.storeCfgr_eq (s : State) (v : Word) :
    s.storeCfgr v =
      { s with resetReq := s.resetReq || (decide (v.extractLsb' 16 16 = 0xBEEF#16) && v.getLsbD 7) } := by
  unfold storeCfgr
  split
  · next h =>
    obtain ⟨hkey, hbit⟩ := h
    rw [decide_eq_true hkey, hbit, Bool.and_self, Bool.or_true]
    rfl
  · next h =>
    have hnone : (decide (v.extractLsb' 16 16 = 0xBEEF#16) && v.getLsbD 7) = false := by
      rwa [← Bool.not_eq_true, Bool.and_eq_true, decide_eq_true_iff]
    rw [hnone, Bool.or_false]

/-! ### The obligations -/

/-- Settles O46: with nothing to settle the four cases are those of `waitForInterrupt` behind the WFI. -/
theorem waitForInterruptSleeps : Obligations.WaitForInterruptSleeps := by
  intro s hl
  have hframe := (s.advance ilen4).waitForInterrupt_eq
  refine ⟨_, State.exec_wfi hl, by rw [hframe]; rfl, fun a => by rw [hframe]; rfl, by rw [hframe]; rfl,
    fun hd => ?debug, fun hd hw => ?wfi, fun hd hw he => ?consumed, fun hd hw he => ?wfe⟩
  case debug => exact State.waitForInterrupt_debug (s.advance ilen4) hd
  case wfi =>
    rw [State.waitForInterrupt_wfi (s := s.advance ilen4) hd hw]
    exact ⟨rfl, rfl, rfl⟩
  case consumed =>
    rw [State.waitForInterrupt_consumes (s := s.advance ilen4) hd hw he]
    exact ⟨rfl, rfl⟩
  case wfe =>
    rw [State.waitForInterrupt_wfe (s := s.advance ilen4) hd hw he]
    exact ⟨rfl, rfl, he⟩

/-- Settles O47: without a trap the boundary is the sleep's, which an event ends and an interrupt held back may end. -/
theorem sleepEndsOnlyByWakeUps : Obligations.SleepEndsOnlyByWakeUps := by
  intro s hb hnone
  have hstep := s.step_atBoundary hb
  rw [hnone] at hstep
  refine ⟨fun hrun he => hstep.trans (State.runOrSleep_event hrun he), fun hasleep =>
    ⟨fun hquiet => hstep.trans (State.runOrSleep_quiet hasleep hquiet),
      _, hstep.trans (State.runOrSleep_asleep hasleep), ?frame⟩⟩
  case frame =>
    obtain ⟨n, h | h⟩ := ({ s with tailPop := false } : State).stayAsleep_eq
    · rw [h]
      exact ⟨.inl rfl, rfl⟩
    · rw [h]
      exact ⟨.inr rfl, rfl⟩

/-- Settles O48: the two stores by the bits they look at, and the reset by the values it leaves. -/
theorem systemResetLeavesResetValues : Obligations.SystemResetLeavesResetValues := by
  intro s
  refine ⟨fun rs2 rs1 imm hea => ?cfgr, fun rs2 rs1 imm hea => ?sctlr, fun hs hr hh => ?reset⟩
  case cfgr =>
    have hat : DeviceAt 0xE000E048#32 .cfgr := deviceAt_of (by decide)
    exact ⟨_, hat.exec_sw_done hea (congrArg BusAnswer.done (s.storeCfgr_eq (s.reg rs2))), rfl, rfl, fun _ => rfl⟩
  case sctlr =>
    have hat : DeviceAt 0xE000ED10#32 .sctlr := deviceAt_of (by decide)
    exact ⟨_, hat.exec_sw_done hea rfl, rfl, fun _ => rfl⟩
  case reset =>
    refine ⟨_, (State.step_noInput hs).trans (State.boundary_reset hr hh), ?_⟩
    exact ⟨rfl, rfl, rfl, rfl, rfl, rfl, rfl, rfl, rfl, rfl, State.atReset_prio s.cfg, rfl, rfl, rfl, rfl, rfl, rfl, rfl,
      rfl, rfl, rfl, rfl, rfl, rfl, rfl⟩

/-- Settles O50: before a deep sleep the request is the boundary's first concern, in it the boundary goes on to the traps
and the sleep, none of which halts the hart. -/
theorem haltRequestEntersDebugMode : Obligations.HaltRequestEntersDebugMode := by
  intro s hs hr hn hd hh
  have hstep : step s = ({ s with tailPop := false } : State).hartBoundary s.tailPop :=
    (State.step_noInput hs).trans (State.boundary_hart hr hn hd)
  refine ⟨fun hawake => ?halts, fun hdeep hasleep => ⟨fun he hnone hquiet hevent => ?sleeps, fun t ht => ?notDebug⟩⟩
  case halts =>
    exact ⟨_, hstep.trans (State.hartBoundary_halts _ hh hawake), rfl, rfl, dcsrEntered_cause _ _, dcsrEntered_prv _ _,
      dcsrEntered_kept _ _, rfl⟩
  case sleeps =>
    have hgoes : s.run = .sleepingWfi ∨ s.run = .sleepingWfe ∧ s.event = false :=
      hasleep.imp_right fun hrun => ⟨hrun, hevent hrun⟩
    exact hstep.trans (State.hartBoundary_deepSleep_quiet hdeep he hnone hgoes hquiet)
  case notDebug =>
    exact State.hartBoundary_deepSleep_notDebug (s := { s with tailPop := false }) hdeep hasleep (hstep.symm.trans ht)

end Sys2Proof.Machine
end

section
/-!
SUPPORT. The debug host's resume and its abstract access to a general register of a halted hart (64_debug.md R523, R528,
R531, R532, R541).
-/

namespace Sys2Proof.Machine

namespace State

/-! ### Resuming (R523, R541) -/

theorem hostWrite_dmcontrol (s : State) (v : Word) : s.hostWrite 0x10#7 v = s.writeDmcontrol v := rfl

/-- Without `ndmreset`, before or now, a write to dmcontrol can only acknowledge a reset. -/
theorem writeNdmreset_eq {s : State} {v : Word} (hn : s.dm.ndmreset = false) (hv : v.getLsbD 1 = false) :
    s.writeNdmreset v = { s with dm := { s.dm with havereset := s.dm.havereset && !v.getLsbD 28 } } := by
  unfold writeNdmreset
  simp only [hv, Bool.false_eq_true, if_false]
  cases v.getLsbD 28 with
  | false =>
    rw [Bool.not_false, Bool.and_true]
    exact if_neg (by simp [hn])
  | true =>
    rw [Bool.not_true, Bool.and_false]
    exact if_neg (by simp [hn])

theorem resume_eq {s : State} (hd : s.inDebug = true) (hb : s.dm.busy = false) (hp : s.prv = 3#2)
    (he : s.dpc.getLsbD 0 = false) :
    s.resume = .next (({ s with run := .running, dm := { s.dm with resumeack := true } } : State).jumpTo s.dpc) := by
  unfold resume
  rw [if_pos (by simp [hd, hb]), if_neg (by simp [hp]), if_neg (by rw [he]; decide)]

/-- A write to dmcontrol that asks for a resume and for nothing of resets but their acknowledgement. -/
theorem writeDmcontrol_resume {s : State} {v : Word} (hn : s.dm.ndmreset = false) (h0 : v.getLsbD 0 = true)
    (h30 : v.getLsbD 30 = true) (h1 : v.getLsbD 1 = false) :
    s.writeDmcontrol v =
      ({ s with
        dm :=
          { s.dm with
            dmactive := true
            haltreq := v.getLsbD 31
            havereset := s.dm.havereset && !v.getLsbD 28 } } : State).resume := by
  unfold writeDmcontrol
  rw [if_pos h0]
  simp only [h30, h1, Bool.not_false, Bool.and_self, if_true]
  refine congrArg State.resume (writeNdmreset_eq ?_ h1)
  exact hn

/-! ### Abstract access to a general register (R528, R531, R532) -/

/-- The command that moves all 32 bits of a general register, to it or from it. -/
structure MovesGpr (cmd : Word) (r : Reg) (write : Bool) : Prop where
  regno : (cmd.extractLsb' 0 16).toNat = 0x1000 + r.val
  write : cmd.getLsbD 16 = write
  transfer : cmd.getLsbD 17 = true
  postexec : cmd.getLsbD 18 = false
  postincrement : cmd.getLsbD 19 = false
  size : cmd.extractLsb' 20 3 = 2#3
  cmdtype : cmd.extractLsb' 24 8 = 0#8

theorem movesGpr_read (r : Reg) : MovesGpr (BitVec.ofNat 32 (0x00221000 + r.val)) r false := by
  constructor <;> revert r <;> decide

theorem movesGpr_write (r : Reg) : MovesGpr (BitVec.ofNat 32 (0x00231000 + r.val)) r true := by
  constructor <;> revert r <;> decide

/-- A halted hart whose debug module is active and idle runs the command that the host writes (R527, R531). -/
theorem hostWrite_command {s : State} (v : Word) (hd : s.inDebug = true) (hb : s.dm.busy = false)
    (ha : s.dm.dmactive = true) : s.hostWrite 0x17#7 v = s.runCommand v := by
  show (if s.dm.dmactive then s.writeCommand v else .next s) = _
  unfold writeCommand
  rw [if_pos ha, if_neg (by simp [hb]), if_pos hd]

theorem postincrement_off {s : State} {cmd : Word} (h : cmd.getLsbD 19 = false) : s.postincrement cmd = s := by
  unfold postincrement
  rw [if_neg (by rw [h]; decide)]

/-- Such a command is its transfer, with the command register written before. -/
theorem runCommand_movesGpr {s : State} {cmd : Word} {r : Reg} {write : Bool} (h : MovesGpr cmd r write) :
    s.runCommand cmd =
      .next
        (if write then ({ s with dm := { s.dm with command := cmd } } : State).setReg r s.dm.data0
         else { s with dm := { s.dm with command := cmd, data0 := s.reg r } }) := by
  have hall : ∀ (t : State) (v : Word), t.narrowed 2#3 v = (v, t) := fun t v => if_pos rfl
  unfold runCommand
  rw [if_neg (by rw [h.cmdtype, h.size]; decide), if_pos h.transfer, abstractTransfer_gpr _ cmd r h.regno, h.write, h.size]
  simp only [hall, h.postexec, postincrement_off h.postincrement, Bool.false_eq_true, if_false]
  cases write <;> rfl

end State

/-! ### The obligations -/

/-- Settles O51: the write is a resume of a hart that can be resumed. -/
theorem resumeContinuesAtDpc : Obligations.ResumeContinuesAtDpc := by
  intro s v hd hb hn hp he h0 h30 h1
  refine ⟨_, (s.hostWrite_dmcontrol v).trans ((State.writeDmcontrol_resume hn h0 h30 h1).trans
    (State.resume_eq hd hb hp he)), rfl, rfl, rfl, rfl, fun _ => rfl⟩

/-- Settles O52: both words are commands that move one general register, and nothing else. -/
theorem abstractRegisterAccess : Obligations.AbstractRegisterAccess := by
  intro s r hd hb ha
  refine ⟨⟨_, (State.hostWrite_command _ hd hb ha).trans (State.runCommand_movesGpr (State.movesGpr_read r)), rfl, rfl⟩,
    ⟨_, (State.hostWrite_command _ hd hb ha).trans (State.runCommand_movesGpr (State.movesGpr_write r)),
      fun hr => State.reg_setReg_same _ r _ hr, fun q hq => State.reg_setReg_other _ r q _ hq, ?frame⟩⟩
  case frame =>
    show State.setReg _ r s.dm.data0 = _
    unfold State.setReg
    split <;> rfl

end Sys2Proof.Machine
end

section
/-!
SUPPORT. The words that the rules print as examples (30_encoding.md R120 to R132), by the round trip of their instructions.
-/

namespace Sys2Proof

/-- The encoding of a well-formed instruction outside XW decodes to it and leaves nothing. -/
theorem decode_of_encode {isa : Isa} {i : Instr} {ps : List Parcel} (he : encode isa i = ps) (hw : i.wf isa = true)
    (hx : i.isXw = false) : decode isa ps = .ok (i, []) := by
  have hround : decode isa (encode isa i ++ []) = .ok (i, []) := by
    by_cases hl : (encode isa i).length = 2
    · exact baseEncodingRoundTrip isa i [] hw hl
    · exact (compressedEncodingRoundTrip isa i [] hw hl fun h => absurd (h.symm.trans hx) (by decide)).2
  rwa [List.append_nil, he] at hround

/-- Settles O4: each word is what the instruction printed beside it encodes to. -/
theorem exampleWordsDecode : Obligations.ExampleWordsDecode := by
  intro isa
  and_intros
  all_goals exact decode_of_encode rfl rfl rfl

end Sys2Proof
end
